-- ==== Sys2Proof/Word.lean ====
section
/-! DEFINITION. The word types: what the manual treats as bits. Everything that is a count, a level in dB or a
loudness is a Nat, Int or Rat (00_scope.md, Conventions). -/

namespace Sys2Proof

/-- One character of a Control Port line (R179). -/
abbrev Byte := BitVec 8

/-- One audio sample, 24-bit two's complement (R1). -/
abbrev Sample := BitVec 24

/-- A value of the Air Clock (R10). -/
abbrev Position := BitVec 48

/-- A programme P0 to P7, or a cue line CL0 to CL7, by its number (00_scope.md, Names). -/
abbrev Index := Fin 8

end Sys2Proof
end

