-- ==== Sys2Proof/Syntax.lean ====
section
/-! DEFINITION. The commands of the block: one constructor per row of spec/opcode_table.json. -/

namespace Sys2Proof

/-- The Control Ports (00_scope.md, Names). -/
inductive PortId where
  | a | b | c
  deriving DecidableEq, Repr

/-- The levels of the four strap pins (R152, R179); true is high. -/
structure Straps where
  ovr1 : Bool
  ovr0 : Bool
  baud1 : Bool
  baud0 : Bool
  deriving DecidableEq, Repr

/-- One command. A request row stands for the frame end of a well-formed frame that carries this request (R181, R184):
`x` is the port it came on, `tag` its tag byte, and `ps` its parameter bytes, as 11_frame_and_record_layouts.md lays them
out after the request code and the tag. An event row stands for the event itself. -/
inductive Instr where
  /-- POWER_ON_RESET: power is applied with these strap levels; bit k of `levels` is the first sample of CLk. -/
  | powerOnReset (straps : Straps) (levels : BitVec 8)
  /-- FRAME_SYNC: a rising edge of FSYNC. Whether it is early is read from the frame in progress. -/
  | frameSync
  /-- GOOD_FRAME_COUNT_48: the good-frame count has reached 48. -/
  | goodFrameCount48
  /-- MISSING_FRAME_SYNC: the sync position of the frame in progress passes with no frame sync. -/
  | missingFrameSync
  /-- SYNC_WATCH_EXPIRY: the sync watch expires. -/
  | syncWatchExpiry
  /-- PROCESSED_FRAME: the 512th bit period of the frame in progress has been received; `slots` are its 16 slot words of
  32 bit periods, first bit period in the top bit. -/
  | processedFrame (slots : List (BitVec 32))
  /-- BLOCK_CLOSE: the block clock of programme `p` has reached 4800. -/
  | blockClose (p : Index)
  /-- RAMP_COMPLETION: frames elapsed of the ramp of programme `p` have reached frames total. -/
  | rampCompletion (p : Index)
  /-- DURATION_REACHED: frames on air of programme `p` have reached the duration. -/
  | durationReached (p : Index)
  /-- CUE_LINE_CHANGE: line `k` is sampled at the level `high`. -/
  | cueLineChange (k : Index) (high : Bool)
  /-- REJECT_LENGTH_EXPIRY: the pending change of line `k` reaches the reject length. -/
  | rejectLengthExpiry (k : Index)
  /-- RESTARTN_ARMED: ten consecutive high samples of RESTARTn. -/
  | restartnArmed
  /-- RESTARTN_LOW: ten consecutive low samples of RESTARTn. -/
  | restartnLow
  /-- FRAME_CRC_WRONG: the frame in progress on `x` completes with a wrong CRC. -/
  | frameCrcWrong (x : PortId)
  /-- LENGTH_INVALID: the length byte on `x` is 0 or 251 to 255. -/
  | lengthInvalid (x : PortId)
  /-- FRAMING_ERROR: a character whose stop bit is sampled low on `x`. -/
  | framingError (x : PortId)
  /-- GAP_TIMEOUT: more than 10 ms without a byte of the frame in progress on `x`. -/
  | gapTimeout (x : PortId)
  /-- FRAME_DURING_REPLY: a frame completes on `x` while it is REPLYING. -/
  | frameDuringReply (x : PortId)
  /-- REPLY_END: the last byte of the reply on `x` ends. -/
  | replyEnd (x : PortId)
  /-- UNKNOWN_REQUEST: a well-formed frame on `x` whose body has no tag or whose request code is not recognised. -/
  | unknownRequest (x : PortId) (body : List Byte)
  | devIdent (x : PortId) (tag : Byte) (ps : List Byte)
  | devRestart (x : PortId) (tag : Byte) (ps : List Byte)
  | portStatus (x : PortId) (tag : Byte) (ps : List Byte)
  | portMask (x : PortId) (tag : Byte) (ps : List Byte)
  | portTimer (x : PortId) (tag : Byte) (ps : List Byte)
  | portLeave (x : PortId) (tag : Byte) (ps : List Byte)
  | portKeepalive (x : PortId) (tag : Byte) (ps : List Byte)
  /-- SILENCE_TIMER_EXPIRY: the silence timer count of `x` expires. -/
  | silenceTimerExpiry (x : PortId)
  | progQuery (x : PortId) (tag : Byte) (ps : List Byte)
  | progSet (x : PortId) (tag : Byte) (ps : List Byte)
  | progActivate (x : PortId) (tag : Byte) (ps : List Byte)
  /-- PROG_DEACTIVATE: request code 0x13 whose force byte is not SET. -/
  | progDeactivate (x : PortId) (tag : Byte) (ps : List Byte)
  /-- PROG_DEACTIVATE_FORCE: request code 0x13 whose force byte is SET. -/
  | progDeactivateForce (x : PortId) (tag : Byte) (ps : List Byte)
  | progRun (x : PortId) (tag : Byte) (ps : List Byte)
  | progStop (x : PortId) (tag : Byte) (ps : List Byte)
  | progTune (x : PortId) (tag : Byte) (ps : List Byte)
  /-- PROG_CLAIM: request code 0x17 whose force byte is not SET. -/
  | progClaim (x : PortId) (tag : Byte) (ps : List Byte)
  /-- PROG_CLAIM_FORCE: request code 0x17 whose force byte is SET. -/
  | progClaimForce (x : PortId) (tag : Byte) (ps : List Byte)
  | progRelease (x : PortId) (tag : Byte) (ps : List Byte)
  | progRights (x : PortId) (tag : Byte) (ps : List Byte)
  | accountClear (x : PortId) (tag : Byte) (ps : List Byte)
  | segCue (x : PortId) (tag : Byte) (ps : List Byte)
  | segAmend (x : PortId) (tag : Byte) (ps : List Byte)
  | segWithdraw (x : PortId) (tag : Byte) (ps : List Byte)
  | segTake (x : PortId) (tag : Byte) (ps : List Byte)
  | segEnd (x : PortId) (tag : Byte) (ps : List Byte)
  | segList (x : PortId) (tag : Byte) (ps : List Byte)
  | logCount (x : PortId) (tag : Byte) (ps : List Byte)
  | logPeek (x : PortId) (tag : Byte) (ps : List Byte)
  | logFetch (x : PortId) (tag : Byte) (ps : List Byte)
  | snapTake (x : PortId) (tag : Byte) (ps : List Byte)
  | snapRead (x : PortId) (tag : Byte) (ps : List Byte)
  | meterRead (x : PortId) (tag : Byte) (ps : List Byte)
  | cueConfig (x : PortId) (tag : Byte) (ps : List Byte)
  | cueRead (x : PortId) (tag : Byte) (ps : List Byte)
  /-- BYTE_RECEIVED: a character with a good stop bit completes on RXD of `x`. -/
  | byteReceived (x : PortId) (byte : Byte)
  deriving DecidableEq, Repr

end Sys2Proof
end

