-- ==== Sys2Proof/Decode.lean ====
section
/-! DEFINITION. decodeTableWord. spec/opcode_table.json gives no bits for any row ("fields": [], no "fixed"), so no word
spells a command. What the part itself decodes, the bytes of a request frame, is in Machine/Operands.lean. -/

namespace Sys2Proof

/-- The command a word of the opcode table's bits spells: none, since no row of the table has bits. -/
def decodeTableWord (_nbits _w : Nat) : Option Instr := none

end Sys2Proof
end

