-- ==== Sys2Proof/Config.lean ====
section
/-! DEFINITION. What is fixed for the part: the constants of the rules, the rate of the reference-clock tick (log 2), and
the one free value of the model, the order the rules leave open (log 6). -/

namespace Sys2Proof.Config

/-- FREE VALUE (log 6). The key by which programmes whose work the rules do not order (R94, R95, R104, R149) come in
order, and the choice among expiries due at one tick. It has no body: nothing can be proved about its values. The first
argument is the counter `State.freeCount`, which every use advances. -/
opaque orderKey : Nat → Nat → Nat

/-- Stages of the delay line (R12). -/
def delayFrames : Nat := 80

/-- Look-ahead of the limiter, and the wait of the measurement point (R42, R125). -/
def lookAhead : Nat := 72

/-- Frames of a full block (R44). -/
def blockFrames : Nat := 4800

/-- Block records a history holds (R48). -/
def historyLength : Nat := 30

/-- Blocks of a window (R51). -/
def windowLength : Nat := 4

/-- Bins of an account (R54). -/
def binCount : Nat := 140

/-- Limit of a bin count and of the held block count (R54, R62). -/
def countLimit : Nat := 16777215

/-- Records a segment queue holds (R69). -/
def queueLimit : Nat := 6

/-- Records the Result Log holds (R140). -/
def logLimit : Nat := 48

/-- The count of records at which LOG_HALF is raised (R143). -/
def logHalf : Nat := 24

/-- Limit of the discard tally (R142). -/
def discardLimit : Nat := 255

/-- Limit of frames on air (R74). -/
def framesOnAirLimit : Nat := 4294967295

/-- Good frames that bring RECOVERING to LOCKED (R6). -/
def goodFramesToLock : Nat := 48

/-- Ticks of the model's reference clock in one microsecond: one tick is 1/3 µs, the largest unit in which every
reference-clock time of the rules is whole. DESIGN CHOICE (log 2). -/
def ticksPerMicrosecond : Nat := 3

/-- The sync watch: 4/48 000 s is 250 ticks (R2). -/
def syncWatchTicks : Nat := 250

/-- The gap timer expires when MORE than 10 ms have passed (R182). -/
def gapTicks : Nat := 10000 * ticksPerMicrosecond + 1

/-- Ticks of one second (R163). -/
def ticksPerSecond : Nat := 1000000 * ticksPerMicrosecond

/-- Ticks of one millisecond (R171). -/
def ticksPerMillisecond : Nat := 1000 * ticksPerMicrosecond

/-- Steps of the limiter reduction in 0.01 dB. DESIGN CHOICE (log 12). -/
def reductionSteps : Nat := 2 ^ 32

/-- The greatest reduction, 160.00 dB, at which a position is muted: below half a unit of 24 bits for every sample at
every applied gain of R111. DESIGN CHOICE (log 13). -/
def muteReduction : Nat := 16000 * reductionSteps

/-- Vendor code, part code and revision (R197). -/
def vendorHigh : Byte := 0x0C
def vendorLow : Byte := 0x71
def partHigh : Byte := 0x28
def partLow : Byte := 0x16
def revision : Byte := 0x01

end Sys2Proof.Config
end

