-- ==== Sys2Proof/Machine/Arith.lean ====
section
/-! DEFINITION. The numbers of the part: rounding, 10^x and e^x, loudness of an energy (R50), the true-peak estimate
(R126) and the decay of the limiter release (R128). Gains are Rat in 0.01 dB, so a gain g is the factor 10^(g/2000). -/

namespace Sys2Proof.Machine

/-- To the nearest whole number, ties away from zero (00_scope.md, Quantities). -/
def roundAway (q : Rat) : Int :=
  if 0 ≤ q then (q + 1 / 2).floor else -((-q + 1 / 2).floor)

/-- `q` limited to the interval from `lo` to `hi`. -/
def clampRat (lo hi q : Rat) : Rat :=
  if q < lo then lo else if hi < q then hi else q

def clampInt (lo hi v : Int) : Int :=
  if v < lo then lo else if hi < v then hi else v

/-- `n` parts of 2^96. -/
def fixedOne : Nat := 2 ^ 96

/-- ln 10 in parts of 2^96. -/
def ln10Fixed : Nat := 182429585950654714090129938606

/-- The exponential series in parts of 2^96: `term` is the term before term `i` of e^x, and `fuel` terms are summed.
UNVERIFIED to the last parts of 2^96 (log 11). -/
def expSeries (x : Nat) : (fuel i term : Nat) → Nat
  | 0, _, _ => 0
  | fuel + 1, i, term => term + expSeries x fuel (i + 1) (term * x / (i * fixedOne))

/-- e^x for x from 0 to ln 10, in parts of 2^96 (log 11). -/
def expFixed (x : Nat) : Nat := expSeries x 64 1 fixedOne

/-- A whole power of ten, exact. -/
def pow10Whole (n : Int) : Rat :=
  if 0 ≤ n then ((10 ^ n.toNat : Nat) : Rat) else 1 / ((10 ^ (-n).toNat : Nat) : Rat)

/-- 10^q: exact when q is whole, otherwise within 2^-80 of its value. DESIGN CHOICE (log 11). -/
def pow10 (q : Rat) : Rat :=
  let n := q.floor
  let f := q - n
  if f = 0 then pow10Whole n
  else pow10Whole n * mkRat (expFixed (f * (ln10Fixed : Rat)).floor.toNat) fixedOne

/-- The factor of a gain in 0.01 dB (R112). -/
def gainFactor (gain : Rat) : Rat := pow10 (gain / 2000)

/-- The least number from `lo` to `hi` that is `ok`, by bisection, where every number above one that is ok is ok; `hi`
when none below it is. `fuel` bounds the halvings. -/
def leastBetween (ok : Nat → Bool) : (fuel lo hi : Nat) → Nat
  | 0, _, hi => hi
  | fuel + 1, lo, hi =>
    if hi ≤ lo then hi
    else if ok ((lo + hi) / 2) then leastBetween ok fuel lo ((lo + hi) / 2)
    else leastBetween ok fuel ((lo + hi) / 2 + 1) hi

/-- The lowest energy whose loudness rounds to `k` hundredths of a LUFS: -0.691 + 10 log10 E = (k - 1/2)/100 gives
E = 10^((10k + 686)/10000) (R50). No rational energy lies on it, so the tie rule never applies. -/
def loudnessEdge (k : Int) : Rat := pow10 (((10 * k + 686 : Int) : Rat) / 10000)

/-- R50: the loudness, in 0.01 LUFS, of an energy; -99.99 LUFS at 0 and below -99.99. -/
def loudnessOf (energy : Rat) : Int :=
  if energy ≤ 0 then -9999
  else
    let top := 9999 + 1000 * (Nat.log2 (energy.floor.toNat + 1) + 1)
    ((leastBetween (fun n => decide (energy < loudnessEdge ((n : Int) - 9998))) (top.log2 + 1) 0 top : Nat) : Int) - 9999

/-- The four values of one channel whose greatest magnitude is the true-peak estimate, each times 256 (R126): the sample
of p and the points a quarter, half and three quarters of the way from p - 1. -/
def peakPoints {α : Type} [Mul α] [Add α] [IntCast α] (s3 s2 s1 s0 : α) : List α :=
  [((256 : Int) : α) * s0,
   ((10 : Int) : α) * s3 + ((-54 : Int) : α) * s2 + ((270 : Int) : α) * s1 + ((30 : Int) : α) * s0,
   ((16 : Int) : α) * s3 + ((-80 : Int) : α) * s2 + ((240 : Int) : α) * s1 + ((80 : Int) : α) * s0,
   ((14 : Int) : α) * s3 + ((-66 : Int) : α) * s2 + ((154 : Int) : α) * s1 + ((154 : Int) : α) * s0]

/-- The magnitude of the estimate over all channels, in parts of 2^31 of full scale: 256 times the sample scale of
8 388 608. The lists hold one corrected sample a channel. -/
def peakMagnitude : (s3 s2 s1 s0 : List Int) → Nat
  | a :: as, b :: bs, c :: cs, d :: ds =>
    max (((peakPoints a b c d).map Int.natAbs).foldl max 0) (peakMagnitude as bs cs ds)
  | _, _, _, _ => 0

/-- The estimate of magnitude `m` is at or below `ceiling` tenths of a dBTP, exactly: (m / 2^31)^200 ≤ 10^ceiling. -/
def withinCeiling (m : Nat) (ceiling : Int) : Bool :=
  if ceiling ≤ 0 then decide (m ^ 200 * 10 ^ (-ceiling).toNat ≤ 2 ^ 6200)
  else decide (m ^ 200 ≤ 2 ^ 6200 * 10 ^ ceiling.toNat)

/-- The estimate of magnitude `m` is below the lower edge of `t` tenths of a dBTP, exactly:
(m / 2^31)^400 < 10^(2t - 1). -/
def belowTenth (m : Nat) (t : Int) : Bool :=
  let e := 2 * t - 1
  if e ≤ 0 then decide (m ^ 400 * 10 ^ (-e).toNat < 2 ^ 12400)
  else decide (m ^ 400 < 2 ^ 12400 * 10 ^ e.toNat)

/-- R61, R126: the estimate in 0.1 dBTP, rounded, with the floor -99.9. -/
def truePeakTenths (m : Nat) : Int :=
  ((leastBetween (fun n => belowTenth m ((n : Int) - 998)) 12 0 1199 : Nat) : Int) - 999

/-- R128, release: the reduction after one frame of release, where 48 frames pass in a millisecond: divided by
e^(1/(48 T)). The fraction of a step is dropped. DESIGN CHOICE (log 12). -/
def decayed (releaseMs : Int) (reduction : Nat) : Nat :=
  reduction * fixedOne / expFixed (fixedOne / (48 * releaseMs.toNat))

/-- The reduction as it is reported, in 0.01 dB: rounded, and 99.99 dB above that (R132). -/
def reportedReduction (reduction : Nat) : Nat :=
  min 9999 ((2 * reduction + Config.reductionSteps) / (2 * Config.reductionSteps))

end Sys2Proof.Machine
end

