-- ==== Sys2Proof/Machine/State.lean ====
section
/-! DEFINITION. The state of the 2816 as plain data, block by block, and the state after reset. Loudness values are Int in
0.01 LUFS, exact gains Rat in 0.01 dB, true peaks Int in 0.1 dBTP (00_scope.md, Quantities; R195). -/

namespace Sys2Proof.Machine

/-! ### Fixed families of like things -/

/-- Eight like things, by programme or by cue line. -/
structure Octet (α : Type) where
  e0 : α
  e1 : α
  e2 : α
  e3 : α
  e4 : α
  e5 : α
  e6 : α
  e7 : α
  deriving DecidableEq, Repr

/-- Three like things, by port. -/
structure Trio (α : Type) where
  ea : α
  eb : α
  ec : α
  deriving DecidableEq, Repr

/-! ### The Audio Port (01_the_audio_path.md) -/

/-- The frame-sync loss detector (R3 to R6). -/
inductive Detector where
  | locked | lost | recovering
  deriving DecidableEq, Repr

/-- The frame in progress (R2): none is being taken; its bit periods are being received; its 512th has been received and
its sync position comes next. -/
inductive FramePhase where
  | absent | receiving | complete
  deriving DecidableEq, Repr

/-- One stage of the delay line (R12): the 16 raw samples of one frame position and, beside them, the corrected samples
the Gain Stage has formed for the slots of active programmes (R13, R125). -/
structure Stage where
  raw : List Sample
  cor : List Sample
  deriving DecidableEq, Repr

structure AudioPort where
  detector : Detector
  goodFrames : Nat
  /-- Sync watch: stopped, or ticks since the frame sync that started it. -/
  watch : Option Nat
  phase : FramePhase
  airClock : Position
  /-- Oldest stage first. -/
  line : List Stage
  /-- The output frame being sent on SDOUT, slot 0 first. -/
  sdout : List Sample
  deriving DecidableEq, Repr

/-! ### The Programme Table entry (02_programmes.md) -/

inductive ProgState where
  | inactive | stopped | running | stopping | draining
  deriving DecidableEq, Repr

/-- Take trigger (R19). -/
inductive Trigger where
  | off | cue (k : Index) | follow (i : Index)
  deriving DecidableEq, Repr

/-- The ten tunables, each in the unit of R195 (R22). -/
structure Tunables where
  target : Int
  tolerance : Int
  maxBoost : Int
  maxCut : Int
  riseRate : Int
  fallRate : Int
  holdThreshold : Int
  defaultRamp : Int
  ceiling : Int
  release : Int
  deriving DecidableEq, Repr

/-- Any subset of the ten tunables, each with a value (R16, R24). -/
structure TunableSet where
  target : Option Int
  tolerance : Option Int
  maxBoost : Option Int
  maxCut : Option Int
  riseRate : Option Int
  fallRate : Option Int
  holdThreshold : Option Int
  defaultRamp : Option Int
  ceiling : Option Int
  release : Option Int
  deriving DecidableEq, Repr

structure Entry where
  state : ProgState
  base : Nat
  width : Nat
  trigger : Trigger
  tally : Option Index
  active : Tunables
  pending : TunableSet
  custodian : Option PortId
  /-- Cue-rights set: bit 0 for A, bit 1 for B, bit 2 for C (R195). -/
  rights : BitVec 3
  escalation : Nat
  deriving DecidableEq, Repr

/-! ### Segment queues (04_segment_queues.md) -/

inductive SegClass where
  | programme | spot | promo | live
  deriving DecidableEq, Repr

inductive Policy where
  | adaptive | fixed | bypass
  deriving DecidableEq, Repr

/-- Take cause (R72). -/
inductive TakeCause where
  | command (x : PortId) | cue (k : Index) | follow (i : Index) | auto
  deriving DecidableEq, Repr

/-- The cued fields of a segment record (R70). -/
structure SegRecord where
  id : Nat
  owner : PortId
  cls : SegClass
  policy : Policy
  declared : Option Int
  entryGain : Option Int
  rampLength : Option Int
  duration : Option Nat
  autoAdvance : Bool
  targetOverride : Option Int
  toleranceOverride : Option Int
  label : List Byte
  deriving DecidableEq, Repr

/-- The ON AIR record: the cued fields and the fields added on air (R72). -/
structure OnAir where
  record : SegRecord
  takeStamp : Position
  cause : TakeCause
  policy : Policy
  overridden : Bool
  target : Int
  tolerance : Int
  gainAtTake : Int
  framesOnAir : Nat
  overrun : Bool
  deriving DecidableEq, Repr

/-- A segment queue (R69). An ON AIR record stands at the head, and there is at most one: it has a field of its own, and
the CUED records follow it in order. -/
structure Queue where
  onAir : Option OnAir
  cued : List SegRecord
  deriving DecidableEq, Repr

/-! ### The Measurement Engine (03_loudness_measurement_and_accounts.md) -/

/-- K-weighting state of one channel on one side (R41): the last two inputs of stage 1 (`x`), the last two outputs of
stage 1, which are the last two inputs of stage 2 (`y`), and the last two outputs of stage 2 (`z`). -/
structure Filter where
  x1 : Rat
  x2 : Rat
  y1 : Rat
  y2 : Rat
  z1 : Rat
  z2 : Rat
  deriving DecidableEq, Repr

/-- A position in flight (R42): the programme's input samples, and whether its tally mark is INACTIVE (R47). -/
structure InFlight where
  input : List Sample
  inactiveTally : Bool
  deriving DecidableEq, Repr

/-- The segment a block belongs to: its id and take stamp (R45). -/
structure BlockSegment where
  id : Nat
  takeStamp : Position
  deriving DecidableEq, Repr

/-- A block record of one side (R45). -/
structure BlockRecord where
  energy : Rat
  frames : Nat
  held : Bool
  segment : Option BlockSegment
  deriving DecidableEq, Repr

/-- A bin of an account (R54). -/
structure Bin where
  count : Nat
  energy : Rat
  deriving DecidableEq, Repr

/-- An account (R54). -/
structure Account where
  bins : List Bin
  saturated : Bool
  deriving DecidableEq, Repr

/-- A Segment Account (R58). -/
structure SegAccount where
  account : Account
  maxMomentary : Option Int
  maxShortTerm : Option Int
  maxTruePeak : Int
  heldBlocks : Nat
  deriving DecidableEq, Repr

structure Measure where
  /-- K-weighting, one filter for each of the six channel places. -/
  inFilters : List Filter
  outFilters : List Filter
  /-- Oldest position first. -/
  inFlight : List InFlight
  clock : Nat
  /-- Running weighted sums of squares of the block in progress. -/
  inSum : Rat
  outSum : Rat
  held : Bool
  inHist : List BlockRecord
  outHist : List BlockRecord
  /-- SET when the tally was inactive at some moment since the last frame handed over (R47). -/
  tallyLatch : Bool
  account : Account
  segAccount : Option SegAccount
  deriving DecidableEq, Repr

/-! ### The Gain Stage (06_gain_and_peak_control.md) -/

/-- The ramp record (R111). -/
structure Ramp where
  start : Rat
  finish : Rat
  total : Nat
  elapsed : Nat
  deriving DecidableEq, Repr

/-- A position's gain-applied samples (R112), held exactly as its input samples and the gain applied to them. -/
structure GainApplied where
  input : List Sample
  gain : Rat
  deriving DecidableEq, Repr

/-- The ceiling that stood before a lowering, and how many more positions it governs (R127). -/
structure OldCeiling where
  ceiling : Int
  left : Nat
  deriving DecidableEq, Repr

structure Gain where
  applied : Rat
  desired : Rat
  policy : Policy
  holding : Bool
  ramp : Option Ramp
  /-- Limiter window, oldest position first. -/
  window : List GainApplied
  /-- Limiter reduction in steps of 2^-32 of 0.01 dB (log 12). -/
  reduction : Nat
  /-- The positions last fixed, newest first, at most three: R128 reads their gain-applied samples. -/
  passed : List GainApplied
  oldCeiling : Option OldCeiling
  deriving DecidableEq, Repr

/-- One programme: its entry, queue, measurement and gain. -/
structure Prog where
  entry : Entry
  queue : Queue
  meas : Measure
  gain : Gain
  deriving DecidableEq, Repr

/-! ### The Result Log (07_verdicts_and_the_result_log.md) -/

inductive EndCause where
  | takeNext | finish | abort | durationEnd | forced | restart
  deriving DecidableEq, Repr

inductive Verdict where
  | pass | high | low | silent | aborted | interrupted
  deriving DecidableEq, Repr

/-- A result record (R137). -/
structure ResultRecord where
  programme : Index
  id : Nat
  owner : PortId
  cls : SegClass
  label : List Byte
  cause : TakeCause
  takeStamp : Position
  framesOnAir : Nat
  endCause : EndCause
  policy : Policy
  overridden : Bool
  target : Int
  tolerance : Int
  declared : Option Int
  integrated : Option Int
  maxMomentary : Option Int
  maxShortTerm : Option Int
  maxTruePeak : Int
  gainAtTake : Int
  gainAtEnd : Int
  heldBlocks : Nat
  overrun : Bool
  verdict : Verdict
  discardsBefore : Nat
  deriving DecidableEq, Repr

/-! ### The Cue Line Unit (09_cue_lines.md) -/

/-- Reject length (R171, R195). -/
inductive RejectLength where
  | ms0 | ms2 | ms8 | ms32
  deriving DecidableEq, Repr

structure CueLine where
  inverted : Bool
  reject : RejectLength
  /-- true is HIGH. -/
  raw : Bool
  accepted : Bool
  /-- Pending change: absent, or its elapsed ticks. -/
  change : Option Nat
  deriving DecidableEq, Repr

/-! ### The Control Ports (10_control_ports.md) -/

/-- The twelve notice kinds, in the order of R195. -/
inductive Kind where
  | segStarted | segClosed | takeMissed | overrun | escalated | custody | state | withdrawn
  | logHalf | logDiscard | audio | cueEdge
  deriving DecidableEq, Repr

/-- A notice kind at a port: its pending mark and its bitmap (R186). The three kinds with no bitmap keep 0. -/
structure Notice where
  pending : Bool
  bitmap : BitVec 8
  deriving DecidableEq, Repr

structure NoticeSet where
  segStarted : Notice
  segClosed : Notice
  takeMissed : Notice
  overrun : Notice
  escalated : Notice
  custody : Notice
  state : Notice
  withdrawn : Notice
  logHalf : Notice
  logDiscard : Notice
  audio : Notice
  cueEdge : Notice
  deriving DecidableEq, Repr

/-- The frame in progress of a receiver (R181). -/
inductive Receiver where
  | idle
  | awaitLength
  | body (length : Nat) (got : List Byte)
  | crc (length : Nat) (body : List Byte) (got : List Byte)
  deriving DecidableEq, Repr

/-- A READY snapshot buffer (R190). -/
structure Snapshot where
  content : List Byte
  cursor : Nat
  remaining : Nat
  deriving DecidableEq, Repr

structure Port where
  rx : Receiver
  /-- Gap timer: stopped, or ticks since the last byte received. -/
  gap : Option Nat
  /-- The reply frame being sent on TXD; present while the port is REPLYING. -/
  reply : Option (List Byte)
  /-- true is PRESENT. -/
  present : Bool
  timerSetting : Nat
  /-- Silence timer count: stopped, or ticks left. -/
  timerCount : Option Nat
  notices : NoticeSet
  /-- ATTN mask, bit by kind in the order of R195. -/
  mask : BitVec 12
  snapshot : Option Snapshot
  rising : BitVec 8
  falling : BitVec 8
  deriving DecidableEq, Repr

/-- The bit rates of R179, in its order. -/
inductive Baud where
  | b38400 | b57600 | b115200 | b230400
  deriving DecidableEq, Repr

/-! ### The machine -/

structure State where
  audio : AudioPort
  progs : Octet Prog
  log : List ResultRecord
  discards : Nat
  lines : Octet CueLine
  ports : Trio Port
  override : Option PortId
  baud : Baud
  restartArmed : Bool
  /-- The model's own: counts the uses of the free order (log 6). -/
  freeCount : Nat
  /-- Commands waiting, first in, first out. -/
  pending : List Instr
  deriving DecidableEq, Repr

/-- Reasons to stop with a fault. There is none: every rule gives every event and request an outcome that goes on. -/
inductive Fault where
  deriving DecidableEq, Repr

/-- Reasons to refuse a command. -/
inductive Refusal where
  /-- A command with no meaning yet, by its mnemonic; raised only by an arm of `exec` that has no meaning. Safe: the
  model stops. No arm uses it. -/
  | notModelled (mnemonic : String)
  deriving DecidableEq, Repr

/-! ### Values after power-on reset -/

def Filter.zero : Filter := ⟨0, 0, 0, 0, 0, 0⟩
def Bin.empty : Bin := ⟨0, 0⟩
def Account.empty : Account := ⟨List.replicate Config.binCount Bin.empty, false⟩
def Stage.zero : Stage := ⟨List.replicate 16 0, List.replicate 16 0⟩
def Notice.clear : Notice := ⟨false, 0⟩

def NoticeSet.clear : NoticeSet :=
  ⟨.clear, .clear, .clear, .clear, .clear, .clear, .clear, .clear, .clear, .clear, .clear, .clear⟩

def TunableSet.empty : TunableSet :=
  ⟨none, none, none, none, none, none, none, none, none, none⟩

/-- The power-on values of R22. -/
def Tunables.reset : Tunables where
  target := -2300
  tolerance := 100
  maxBoost := 900
  maxCut := -2000
  riseRate := 10
  fallRate := 30
  holdThreshold := -4500
  defaultRamp := 500
  ceiling := -10
  release := 200

/-- R15. -/
def AudioPort.reset : AudioPort where
  detector := .lost
  goodFrames := 0
  watch := none
  phase := .absent
  airClock := 0
  line := List.replicate Config.delayFrames Stage.zero
  sdout := List.replicate 16 0

/-- R39: programme p has base 2p. -/
def Entry.reset (p : Nat) : Entry where
  state := .inactive
  base := 2 * p
  width := 2
  trigger := .off
  tally := none
  active := .reset
  pending := .empty
  custodian := none
  rights := 0b111
  escalation := 0

/-- R87. -/
def Queue.reset : Queue := ⟨none, []⟩

/-- R68. -/
def Measure.reset : Measure where
  inFilters := List.replicate 6 Filter.zero
  outFilters := List.replicate 6 Filter.zero
  inFlight := []
  clock := 0
  inSum := 0
  outSum := 0
  held := false
  inHist := []
  outHist := []
  tallyLatch := false
  account := .empty
  segAccount := none

/-- R133. -/
def Gain.reset : Gain where
  applied := 0
  desired := 0
  policy := .adaptive
  holding := true
  ramp := none
  window := []
  reduction := 0
  passed := []
  oldCeiling := none

def Prog.reset (p : Nat) : Prog := ⟨.reset p, .reset, .reset, .reset⟩

/-- R178: the accepted level is the raw level first sampled, which is `level`. -/
def CueLine.reset (level : Bool) : CueLine where
  inverted := false
  reject := .ms8
  raw := level
  accepted := level
  change := none

/-- R168, R194, R178. -/
def Port.reset : Port where
  rx := .idle
  gap := none
  reply := none
  present := true
  timerSetting := 0
  timerCount := none
  notices := .clear
  mask := BitVec.allOnes 12
  snapshot := none
  rising := 0
  falling := 0

/-- The machine after power-on reset (R15, R39, R68, R87, R133, R150, R168, R178, R194). What the pins decide is taken
with every strap and every cue line pin low: DESIGN CHOICE (log 1); POWER_ON_RESET carries other levels. -/
def State.reset : State where
  audio := .reset
  progs := ⟨.reset 0, .reset 1, .reset 2, .reset 3, .reset 4, .reset 5, .reset 6, .reset 7⟩
  log := []
  discards := 0
  lines := ⟨.reset false, .reset false, .reset false, .reset false, .reset false, .reset false, .reset false,
    .reset false⟩
  ports := ⟨.reset, .reset, .reset⟩
  override := none
  baud := .b38400
  restartArmed := false
  freeCount := 0
  pending := []

end Sys2Proof.Machine
end

