-- ==== Sys2Proof/Machine/Ops.lean ====
section
/-! DEFINITION. Reading and writing the parts of State: the one home of every access by programme, line, port and slot,
and the free order (log 6). -/

namespace Sys2Proof.Machine

/-! ### Families of like things -/

def Octet.get {α : Type} (o : Octet α) (i : Index) : α :=
  match i.val with
  | 0 => o.e0
  | 1 => o.e1
  | 2 => o.e2
  | 3 => o.e3
  | 4 => o.e4
  | 5 => o.e5
  | 6 => o.e6
  | _ => o.e7

def Octet.set {α : Type} (o : Octet α) (i : Index) (v : α) : Octet α :=
  match i.val with
  | 0 => { o with e0 := v }
  | 1 => { o with e1 := v }
  | 2 => { o with e2 := v }
  | 3 => { o with e3 := v }
  | 4 => { o with e4 := v }
  | 5 => { o with e5 := v }
  | 6 => { o with e6 := v }
  | _ => { o with e7 := v }

def Octet.map {α β : Type} (f : α → β) (o : Octet α) : Octet β :=
  ⟨f o.e0, f o.e1, f o.e2, f o.e3, f o.e4, f o.e5, f o.e6, f o.e7⟩

def Trio.get {α : Type} (t : Trio α) : PortId → α
  | .a => t.ea
  | .b => t.eb
  | .c => t.ec

def Trio.set {α : Type} (t : Trio α) (x : PortId) (v : α) : Trio α :=
  match x with
  | .a => { t with ea := v }
  | .b => { t with eb := v }
  | .c => { t with ec := v }

def Trio.map {α β : Type} (f : α → β) (t : Trio α) : Trio β := ⟨f t.ea, f t.eb, f t.ec⟩

/-- P0 to P7, or CL0 to CL7, in order. -/
def allIndices : List Index := [0, 1, 2, 3, 4, 5, 6, 7]

def allPorts : List PortId := [.a, .b, .c]

/-! ### State -/

def State.prog (s : State) (p : Index) : Prog := s.progs.get p
def State.setProg (s : State) (p : Index) (v : Prog) : State := { s with progs := s.progs.set p v }
def State.updProg (s : State) (p : Index) (f : Prog → Prog) : State := s.setProg p (f (s.prog p))
def State.mapProgs (s : State) (f : Prog → Prog) : State := { s with progs := s.progs.map f }

def State.port (s : State) (x : PortId) : Port := s.ports.get x
def State.setPort (s : State) (x : PortId) (v : Port) : State := { s with ports := s.ports.set x v }
def State.updPort (s : State) (x : PortId) (f : Port → Port) : State := s.setPort x (f (s.port x))
def State.mapPorts (s : State) (f : Port → Port) : State := { s with ports := s.ports.map f }

def State.line (s : State) (k : Index) : CueLine := s.lines.get k
def State.setLine (s : State) (k : Index) (v : CueLine) : State := { s with lines := s.lines.set k v }

def State.setAudio (s : State) (v : AudioPort) : State := { s with audio := v }
def State.setDelayLine (s : State) (v : List Stage) : State := { s with audio := { s.audio with line := v } }

/-- The frame position at which a request or event is taken: the current value of the Air Clock (R10). -/
def State.position (s : State) : Position := s.audio.airClock

/-! ### Programmes -/

def Entry.setState (e : Entry) (v : ProgState) : Entry := { e with state := v }
def Prog.setEntry (P : Prog) (v : Entry) : Prog := { P with entry := v }
def Prog.setQueue (P : Prog) (v : Queue) : Prog := { P with queue := v }
def Prog.setMeas (P : Prog) (v : Measure) : Prog := { P with meas := v }
def Prog.setGain (P : Prog) (v : Gain) : Prog := { P with gain := v }
def Prog.setState (P : Prog) (v : ProgState) : Prog := P.setEntry (P.entry.setState v)

/-- 02, 2.4: a programme in any state other than INACTIVE is active. -/
def Prog.isActive (P : Prog) : Bool := P.entry.state != .inactive

/-- R42: measuring is RUNNING, STOPPING or DRAINING. -/
def Prog.isMeasuring (P : Prog) : Bool :=
  P.entry.state == .running || P.entry.state == .stopping || P.entry.state == .draining

/-- R69: a segment is on air exactly when the head of the queue is ON AIR. -/
def Prog.hasOnAir (P : Prog) : Bool := P.queue.onAir.isSome

/-- The number of records in the queue, the ON AIR record included (R69). -/
def Queue.count (q : Queue) : Nat := q.cued.length + if q.onAir.isSome then 1 else 0

/-- The records of the queue in order, head first, by their cued fields (R69). -/
def Queue.records (q : Queue) : List SegRecord :=
  (q.onAir.map (·.record)).toList ++ q.cued

/-- R17, R28: slot `i` lies within the slots of the programme. -/
def Entry.covers (e : Entry) (i : Nat) : Bool := decide (e.base ≤ i) && decide (i < e.base + e.width)

/-! ### Slots and channels -/

/-- The channels of a programme, from its base upward, out of 16 slot samples (R17). -/
def channels (e : Entry) (slots : List Sample) : List Sample :=
  (List.range e.width).map fun c => slots.getD (e.base + c) 0

/-- `slots` with the programme's channels written in their slots. -/
def writeChannels (e : Entry) (slots chans : List Sample) : List Sample :=
  (List.range 16).map fun i => if e.covers i then chans.getD (i - e.base) 0 else slots.getD i 0

/-- R1: the sample of a slot word is its first 24 bit periods; the remaining 8 are ignored. -/
def sampleOfSlot (slot : BitVec 32) : Sample := slot.extractLsb' 8 24

/-- The 16 samples of a frame received (R1). -/
def frameSamples (slots : List (BitVec 32)) : List Sample :=
  (List.range 16).map fun i => sampleOfSlot (slots.getD i 0)

/-- R1: the 32 bit periods driven on SDOUT for a slot, the last 8 low. -/
def slotOfSample (v : Sample) : BitVec 32 := v ++ (0 : BitVec 8)

/-! ### The free order -/

/-- `a` put into a list by key. -/
def insertByKey {α : Type} (key : α → Nat) (a : α) : List α → List α
  | [] => [a]
  | b :: bs => if key a ≤ key b then a :: b :: bs else b :: insertByKey key a bs

/-- Things with a number each, in the free order of use `n` (log 6). -/
def arrangeBy {α : Type} (number : α → Nat) (n : Nat) : List α → List α
  | [] => []
  | a :: as => insertByKey (fun b => Config.orderKey n (number b)) a (arrangeBy number n as)

/-- The programmes of `ps` in the free order of use `n` (log 6). -/
def arrange (n : Nat) (ps : List Index) : List Index := arrangeBy (fun p => p.val) n ps

/-- Advances the counter of the free order. -/
def State.useFree (s : State) : State := { s with freeCount := s.freeCount + 1 }

end Sys2Proof.Machine
end

