-- ==== Sys2Proof/Machine/Limiter.lean ====
section
/-! DEFINITION. The look-ahead true-peak limiter (06_gain_and_peak_control.md, 6.6): the choice of a position's reduction
(R127, R128), its corrected samples (R125), and the fixing of one position, of a whole window (R129) and of the delay line
at activation (R130). -/

namespace Sys2Proof.Machine

def sampleInts (l : List Sample) : List Int := l.map (·.toInt)

/-- R125: the corrected sample of an input sample under a gain and a reduction: rounded to 24 bits, ties away from zero,
and held within the sample range; zero when the position is muted (R127, log 13). -/
def correctedValue (gain : Rat) (reduction : Nat) (v : Sample) : Sample :=
  if Config.muteReduction ≤ reduction then 0
  else
    let factor := gainFactor (gain - mkRat reduction Config.reductionSteps)
    BitVec.ofInt 24 (clampInt (-8388608) 8388607 (roundAway ((v.toInt : Rat) * factor)))

/-- The corrected samples of a position at a reduction, one a channel (R125). -/
def GainApplied.corrected (w : GainApplied) (reduction : Nat) : List Sample :=
  w.input.map (correctedValue w.gain reduction)

/-- The gain-applied samples of a position, on the sample scale (R112); zero for a position before the first. -/
def gainAppliedValues (width : Nat) : Option GainApplied → List Rat
  | none => List.replicate width 0
  | some w => w.input.map fun v => (v.toInt : Rat) * gainFactor w.gain

/-- The corrected samples of a programme `back` stages before stage `idx` of the delay line; zero before the oldest
stage, as R126 and R130 count them. -/
def correctedAt (e : Entry) (line : List Stage) (idx back : Nat) : List Int :=
  if back ≤ idx then sampleInts (channels e (line.getD (idx - back) Stage.zero).cor)
  else List.replicate e.width 0

/-- The magnitude of the true-peak estimate of stage `idx` (R126). -/
def estimateAt (e : Entry) (line : List Stage) (idx : Nat) : Nat :=
  peakMagnitude (correctedAt e line idx 3) (correctedAt e line idx 2) (correctedAt e line idx 1)
    (correctedAt e line idx 0)

/-- R127, the continuation condition: with these corrected samples of p - 3 to p, the estimate of p is within the ceiling,
and so are those of p + 1, p + 2 and p + 3 if their samples were all zero. -/
def continuation (ceiling : Int) (s3 s2 s1 s0 : List Int) : Bool :=
  let zero := s0.map fun _ => (0 : Int)
  withinCeiling (peakMagnitude s3 s2 s1 s0) ceiling
    && withinCeiling (peakMagnitude s2 s1 s0 zero) ceiling
    && withinCeiling (peakMagnitude s1 s0 zero zero) ceiling
    && withinCeiling (peakMagnitude s0 zero zero zero) ceiling

/-- The points that the continuation condition looks at, in one channel: those of the estimates of p, p + 1, p + 2 and p + 3
with zero samples behind p (R126, R127). -/
def continuationPoints (s3 s2 s1 s0 : Int) : List Int :=
  peakPoints s3 s2 s1 s0 ++ peakPoints s2 s1 s0 0 ++ peakPoints s1 s0 0 0 ++ peakPoints s0 0 0 0

/-- A point `v` lies above the ceiling, on the side away from `still`, where it would lie with the sample of p at zero. -/
def tooFar (ceiling v still : Int) : Bool :=
  (decide (0 < v ∧ still < v) || decide (v < 0 ∧ v < still)) && !withinCeiling v.natAbs ceiling

/-- Some point of some channel lies too far out with these samples of p: a greater reduction brings it nearer. -/
def tooLoud (ceiling : Int) : (s3 s2 s1 s0 : List Int) → Bool
  | a :: as, b :: bs, c :: cs, d :: ds =>
    ((continuationPoints a b c d).zip (continuationPoints a b c 0)).any (fun t => tooFar ceiling t.1 t.2)
      || tooLoud ceiling as bs cs ds
  | _, _, _, _ => false

/-- R127: the ceiling that governs the next position fixed. -/
def Gain.governing (g : Gain) (ceiling : Int) : Int :=
  match g.oldCeiling with
  | some old => if 0 < old.left then old.ceiling else ceiling
  | none => ceiling

/-- One position has been fixed: an old ceiling governs one position fewer. -/
def OldCeiling.next : Option OldCeiling → Option OldCeiling
  | some old => if 1 < old.left then some { old with left := old.left - 1 } else none
  | none => none

def ratAbs (q : Rat) : Rat := if q < 0 then -q else q

/-- The magnitude of the estimate of gain-applied samples, in parts of 2^31 of full scale (R128). -/
def foreseenMagnitude : (s3 s2 s1 s0 : List Rat) → Rat
  | a :: as, b :: bs, c :: cs, d :: ds =>
    max (((peakPoints a b c d).map ratAbs).foldl max 0) (foreseenMagnitude as bs cs ds)
  | _, _, _, _ => 0

/-- R128: the reduction a magnitude is foreseen to need under a ceiling, in steps (log 12). -/
def foreseenNeed (ceiling : Int) (m : Rat) : Nat :=
  let enough := fun (r : Nat) => decide (m ≤ 2147483648 * pow10 (mkRat ceiling 200 + mkRat r (2000 * Config.reductionSteps)))
  if m ≤ 0 ∨ enough 0 = true then 0 else leastBetween enough 64 0 Config.muteReduction

/-- R128, attack: the greatest over the positions p + j behind p, j from 1 to 71, of the need of p + j times (72 - j)/72.
`p1 p2 p3` are the gain-applied samples of the three positions before the next one of the list. -/
def attackFrom (ceiling : Int) : (j : Nat) → (p1 p2 p3 : List Rat) → List (List Rat) → Nat
  | _, _, _, _, [] => 0
  | j, p1, p2, p3, q :: qs =>
    max (if j < Config.lookAhead then
          foreseenNeed ceiling (foreseenMagnitude p3 p2 p1 q) * (Config.lookAhead - j) / Config.lookAhead
        else 0)
      (attackFrom ceiling (j + 1) q p1 p2 qs)

/-- R128, release: the reduction of the position fixed before, decayed by one frame. -/
def Gain.release (g : Gain) (e : Entry) : Nat := decayed e.active.release g.reduction

/-- R128, attack: what the positions `rest` behind `w` in the window call for, foreseen under the ceiling that governs `w`: while
an old ceiling governs, the attack has no warning of a lowered one (R131; log 14). -/
def Gain.attack (g : Gain) (e : Entry) (w : GainApplied) (rest : List GainApplied) : Nat :=
  attackFrom (g.governing e.active.ceiling) 1 (gainAppliedValues e.width (some w))
    (gainAppliedValues e.width g.passed[0]?) (gainAppliedValues e.width g.passed[1]?)
    (rest.map fun q => gainAppliedValues e.width (some q))

/-- R127: the position `w` meets the continuation condition at a reduction, after the corrected samples `s3 s2 s1`. -/
def GainApplied.meets (w : GainApplied) (ceiling : Int) (s3 s2 s1 : List Int) (reduction : Nat) : Bool :=
  continuation ceiling s3 s2 s1 (sampleInts (w.corrected reduction))

/-- R128, requirement: the least reduction with which `w` meets the continuation condition. Every point moves straight toward
its place without the samples of p as the reduction grows, so the least reduction at which none is too far out meets the
condition if any reduction does (log 27). If none does, the position is muted (log 28). -/
def GainApplied.requirement (w : GainApplied) (ceiling : Int) (s3 s2 s1 : List Int) : Nat :=
  let r := leastBetween (fun r => !tooLoud ceiling s3 s2 s1 (sampleInts (w.corrected r))) 64 0 Config.muteReduction
  if w.meets ceiling s3 s2 s1 r then r else Config.muteReduction

/-- R128: the reduction of the position `w`, with `rest` behind it in the window and the corrected samples `s3 s2 s1` of
the three positions before it: the greatest of release, attack and requirement. DESIGN CHOICE (log 28) where the position
before did not meet the condition under the ceiling that now governs, which the rules leave open: if release or attack is
greater than the requirement and does not meet the condition, the requirement is chosen, so that R127 holds; and if no
reduction meets it, the position is muted and the release goes on from 160.00 dB. -/
def Gain.chooseReduction (g : Gain) (e : Entry) (w : GainApplied) (rest : List GainApplied) (s3 s2 s1 : List Int) : Nat :=
  let least := max (g.release e) (g.attack e w rest)
  if w.meets (g.governing e.active.ceiling) s3 s2 s1 least then least
  else w.requirement (g.governing e.active.ceiling) s3 s2 s1

/-- Fixes the oldest position of the limiter window (R125): chooses its reduction, and writes its corrected samples beside
its raw samples in the delay line. The window holds the newest positions of the line, so the oldest of k positions stands
at stage 80 - k. -/
def fixOldest (e : Entry) (line : List Stage) (g : Gain) : List Stage × Gain :=
  match g.window with
  | [] => (line, g)
  | w :: rest =>
    let idx := line.length - g.window.length
    let red := g.chooseReduction e w rest (correctedAt e line idx 3) (correctedAt e line idx 2)
      (correctedAt e line idx 1)
    let stage := line.getD idx Stage.zero
    (line.set idx { stage with cor := writeChannels e stage.cor (w.corrected red) },
     { g with
        window := rest
        reduction := red
        passed := (w :: g.passed).take 3
        oldCeiling := OldCeiling.next g.oldCeiling })

/-- Fixes `n` positions, oldest first. -/
def fixMany (e : Entry) : (n : Nat) → (line : List Stage) → (g : Gain) → List Stage × Gain
  | 0, line, g => (line, g)
  | n + 1, line, g =>
    let r := fixOldest e line g
    fixMany e n r.1 r.2

/-- R129: fixes every position of the window at once, oldest first. -/
def fixAll (e : Entry) (line : List Stage) (g : Gain) : List Stage × Gain := fixMany e g.window.length line g

/-- R130, PROG.ACTIVATE: reduction 0.00 dB; every position of the delay line is given the applied gain 0.00 dB and fixed at
once, oldest first. -/
def activationFix (e : Entry) (line : List Stage) (g : Gain) : List Stage × Gain :=
  fixAll e line
    { g with
      window := line.map fun st => ⟨channels e st.raw, 0⟩
      reduction := 0
      passed := [] }

/-- R127, R131: what a change of the ceiling from `before` to `after` leaves for the positions fixed next. -/
def ceilingChange (before after : Int) (old : Option OldCeiling) : Option OldCeiling :=
  if after < before then some ⟨before, 3⟩ else if before < after then none else old

end Sys2Proof.Machine
end

