-- ==== Sys2Proof/Machine/Engine.lean ====
section
/-! DEFINITION. The Measurement Engine and the adaptive law (03_loudness_measurement_and_accounts.md, 06 6.3): K-weighting,
blocks, histories, windows, accounts, the block close, the boundary, and the work of a programme becoming INACTIVE. -/

namespace Sys2Proof.Machine

/-! ### K-weighting (R41) and channel weights (R18) -/

/-- One sample through both stages; the new output is `z1` (R41). -/
def Filter.step (f : Filter) (x : Rat) : Filter :=
  let y := mkRat 153512485958697 100000000000000 * x + mkRat (-269169618940638) 100000000000000 * f.x1
    + mkRat 119839281085285 100000000000000 * f.x2 - mkRat (-169065929318241) 100000000000000 * f.y1
    - mkRat 73248077421585 100000000000000 * f.y2
  let z := y + (-2) * f.y1 + f.y2 - mkRat (-199004745483398) 100000000000000 * f.z1
    - mkRat 99007225036621 100000000000000 * f.z2
  ⟨x, f.x1, y, f.y1, z, f.z1⟩

/-- R18: the weight of channel `c` of a programme of this width; LFE is channel 3 of six. -/
def channelWeight (width c : Nat) : Rat :=
  if width = 6 then
    if c = 3 then 0 else if c = 4 ∨ c = 5 then mkRat 141 100 else 1
  else 1

/-- A sample on the scale on which full scale, 8 388 608, is 1.0 (R41). -/
def sampleValue (v : Sample) : Rat := mkRat v.toInt 8388608

/-- The filters of the weighted channels after one position; LFE is not filtered (R41). -/
def filterChannels (width : Nat) (fs : List Filter) (xs : List Sample) : List Filter :=
  (List.range 6).map fun c =>
    if c < width ∧ channelWeight width c ≠ 0 then (fs.getD c .zero).step (sampleValue (xs.getD c 0))
    else fs.getD c .zero

/-- The sum over the channels of weight times the squared filter output (R42, R45). -/
def weightedSquares (width : Nat) (fs : List Filter) : Rat :=
  ((List.range width).map fun c => channelWeight width c * ((fs.getD c .zero).z1 * (fs.getD c .zero).z1)).foldl (· + ·) 0

/-! ### Sets of blocks, windows and meters (R50 to R53) -/

/-- The energy of a set of blocks: the frame-weighted mean of their weighted energies (R50). -/
def setEnergy (bs : List BlockRecord) : Rat :=
  (bs.map fun b => b.energy * (b.frames : Rat)).foldl (· + ·) 0
    / ((((bs.map (·.frames)).foldl (· + ·) 0 : Nat) : Int) : Rat)

def setLoudness (bs : List BlockRecord) : Int := loudnessOf (setEnergy bs)

/-- The last four records of a history (R51). -/
def windowOf (h : List BlockRecord) : List BlockRecord := h.drop (h.length - Config.windowLength)

/-- R52. -/
def momentary (h : List BlockRecord) : Option Int :=
  if Config.windowLength ≤ h.length then some (setLoudness (windowOf h)) else none

/-- R53. -/
def shortTerm (h : List BlockRecord) : Option Int :=
  if Config.windowLength ≤ h.length then some (setLoudness h) else none

/-- All the blocks belong to the segment with this take stamp (R45, R51). -/
def allBelong (stamp : Position) (bs : List BlockRecord) : Bool :=
  bs.all fun b => match b.segment with
    | some g => g.takeStamp == stamp
    | none => false

def anyHeld (bs : List BlockRecord) : Bool := bs.any (·.held)

/-! ### Accounts (R54 to R57) -/

/-- The bin of a window of this loudness (R54). -/
def binIndex (loudness : Int) : Nat := min ((loudness + 7000) / 50).toNat (Config.binCount - 1)

/-- A window is accepted into its bin, or sets the saturated flag when the bin is full (R54, R56). -/
def Account.add (a : Account) (loudness : Int) (energy : Rat) : Account :=
  let b := binIndex loudness
  let bin := a.bins.getD b Bin.empty
  if Config.countLimit ≤ bin.count then { a with saturated := true }
  else { a with bins := a.bins.set b ⟨bin.count + 1, bin.energy + energy⟩ }

/-- The lower edge of bin `b` in 0.01 LUFS (R54). -/
def binEdge (b : Nat) : Int := -7000 + 50 * (b : Int)

def Account.windowCount (a : Account) : Nat := (a.bins.map (·.count)).foldl (· + ·) 0

/-- Count and energy of the bins whose lower edge is `gate` or above (R57). -/
def gatedSums (gate : Int) (bins : List Bin) : Nat × Rat :=
  bins.zipIdx.foldl (fun t bi => if gate ≤ binEdge bi.2 then (t.1 + bi.1.count, t.2 + bi.1.energy) else t) (0, 0)

/-- R57: the integrated loudness, present or absent. -/
def Account.integrated (a : Account) : Option Int :=
  let n := a.windowCount
  let e := (a.bins.map (·.energy)).foldl (· + ·) 0
  if n = 0 then none
  else
    let gate := loudnessOf (e / ((n : Int) : Rat)) - 1000
    let g := gatedSums gate a.bins
    if g.1 = 0 then none else some (loudnessOf (g.2 / ((g.1 : Int) : Rat)))

/-- R54: the Programme Account's conditions on an output window. -/
def acceptable (loudness : Int) (held : Bool) : Bool := !held && decide (-7000 ≤ loudness)

/-- The greater of a maximum so far, which may be absent, and a new value (R60). -/
def raiseMax (old : Option Int) (v : Int) : Option Int :=
  match old with
  | none => some v
  | some m => some (max m v)

/-- A Segment Account at its creation (R58). -/
def SegAccount.fresh : SegAccount := ⟨.empty, none, none, -999, 0⟩

/-- R55, R60, R62: the Segment Account at a block close. `h` is the output history after the close, `held` the mark of
the block closed. -/
def SegAccount.close (a : SegAccount) (stamp : Position) (h : List BlockRecord) (held : Bool) : SegAccount :=
  let w := windowOf h
  let l := setLoudness w
  let accepts := decide (Config.windowLength ≤ h.length) && acceptable l (anyHeld w) && allBelong stamp w
  let full := decide (h.length = Config.historyLength) && allBelong stamp h && !anyHeld h
  { account := if accepts then a.account.add l (setEnergy w) else a.account
    maxMomentary := if accepts then raiseMax a.maxMomentary l else a.maxMomentary
    maxShortTerm := if full then raiseMax a.maxShortTerm (setLoudness h) else a.maxShortTerm
    maxTruePeak := a.maxTruePeak
    heldBlocks := if held then min Config.countLimit (a.heldBlocks + 1) else a.heldBlocks }

/-! ### The adaptive law (R115) -/

/-- The target the adaptive law uses: the ON AIR record's effective target, or the programme's active target (R113). -/
def Prog.lawTarget (P : Prog) : Int :=
  match P.queue.onAir with
  | some r => r.target
  | none => P.entry.active.target

/-- R115: the hand-over of the input short-term loudness and the block's held mark. -/
def Gain.law (g : Gain) (t : Tunables) (target : Int) (short : Option Int) (held : Bool) : Gain :=
  if g.policy = .adaptive then
    match short with
    | none => { g with holding := true }
    | some v =>
      if v < t.holdThreshold ∨ held = true then { g with holding := true }
      else { g with desired := clampRat (t.maxCut : Rat) (t.maxBoost : Rat) ((target - v : Int) : Rat), holding := false }
  else g

/-! ### The block close (R44 to R49) -/

/-- R48: appends, and removes the oldest beyond 30. -/
def appendHistory (h : List BlockRecord) (b : BlockRecord) : List BlockRecord :=
  (h ++ [b]).drop ((h ++ [b]).length - Config.historyLength)

/-- The segment on air, as a block names it (R45). -/
def Prog.blockSegment (P : Prog) : Option BlockSegment :=
  P.queue.onAir.map fun r => ⟨r.record.id, r.takeStamp⟩

/-- The block record of one side (R45). -/
def Prog.blockRecord (P : Prog) (sum : Rat) : BlockRecord :=
  ⟨sum / ((P.meas.clock : Int) : Rat), P.meas.clock, P.meas.held, P.blockSegment⟩

/-- R49, steps 1 to 4, and the block in progress emptied: the engine after a close. -/
def Prog.closedMeasure (P : Prog) : Measure :=
  let hin := appendHistory P.meas.inHist (P.blockRecord P.meas.inSum)
  let hout := appendHistory P.meas.outHist (P.blockRecord P.meas.outSum)
  let w := windowOf hout
  let l := setLoudness w
  let accepts := decide (Config.windowLength ≤ hout.length) && acceptable l (anyHeld w)
  { P.meas with
    inHist := hin
    outHist := hout
    account := if accepts then P.meas.account.add l (setEnergy w) else P.meas.account
    segAccount := match P.queue.onAir, P.meas.segAccount with
      | some r, some a => some (a.close r.takeStamp hout P.meas.held)
      | _, a => a
    clock := 0
    inSum := 0
    outSum := 0
    held := false }

/-- R35, R63: the stop of a STOPPING programme completes at the close; the positions in flight are discarded. -/
def Prog.completeStop (P : Prog) : Prog :=
  if P.entry.state = .stopping then (P.setState .stopped).setMeas { P.meas with inFlight := [] } else P

/-- R49: a block close, taken whole. -/
def Prog.closeBlock (P : Prog) : Prog :=
  let m := P.closedMeasure
  let g := P.gain.law P.entry.active P.lawTarget (shortTerm m.inHist) P.meas.held
  Prog.completeStop { P with meas := m, gain := g }

/-- A full block closes when the block clock stands at 4800 (R44). -/
def Prog.closeIfFull (P : Prog) : Prog := if Config.blockFrames ≤ P.meas.clock then P.closeBlock else P

/-! ### Measuring a position (R42, R61) -/

/-- R61: the maximum true peak takes the estimate of a measured position when it is higher. -/
def SegAccount.peak (a : SegAccount) (tenths : Int) : SegAccount := { a with maxTruePeak := max a.maxTruePeak tenths }

/-- Measures the oldest position in flight: filters its input and corrected samples, adds their weighted squares and its
tally mark to the block in progress, and advances the block clock (R42). The oldest of k positions in flight stands at
stage 80 - k of the delay line. -/
def Prog.measureOldest (line : List Stage) (P : Prog) : Prog :=
  match P.meas.inFlight with
  | [] => P
  | f :: rest =>
    let idx := line.length - P.meas.inFlight.length
    let width := P.entry.width
    let fin := filterChannels width P.meas.inFilters f.input
    let fout := filterChannels width P.meas.outFilters (channels P.entry (line.getD idx Stage.zero).cor)
    P.setMeas
      { P.meas with
        inFilters := fin
        outFilters := fout
        inFlight := rest
        clock := P.meas.clock + 1
        inSum := P.meas.inSum + weightedSquares width fin
        outSum := P.meas.outSum + weightedSquares width fout
        held := P.meas.held || f.inactiveTally
        segAccount := P.meas.segAccount.map (·.peak (truePeakTenths (estimateAt P.entry line idx))) }

/-- R43: measures `n` positions in flight, oldest first, closing each full block they complete. -/
def Prog.flush (line : List Stage) : (n : Nat) → Prog → Prog
  | 0, P => P
  | n + 1, P => Prog.flush line n ((P.measureOldest line).closeIfFull)

/-- R46: the short block, when the block in progress holds a position. -/
def Prog.closeShort (P : Prog) : Prog := if P.meas.clock = 0 then P else P.closeBlock

/-- The Measurement Engine's work at a boundary (R43, R46). -/
def Prog.boundaryMeasure (line : List Stage) (P : Prog) : Prog :=
  (Prog.flush line P.meas.inFlight.length P.closeIfFull).closeShort

/-- The boundary work of a programme: the limiter fixes its window (R129), then the engine flushes and closes (R43, R46). -/
def boundaryWork (line : List Stage) (P : Prog) : List Stage × Prog :=
  let r := fixAll P.entry line P.gain
  (r.1, (P.setGain r.2).boundaryMeasure r.1)

/-! ### Starts and stops of measurement (R63) -/

/-- The block clock starts from rest: filters zero, no position in flight, clock and block empty, histories emptied; the
tally counts from this moment (R41, R44, R47, R63). -/
def Measure.start (m : Measure) (tallyInactive : Bool) : Measure :=
  { m with
    inFilters := List.replicate 6 Filter.zero
    outFilters := List.replicate 6 Filter.zero
    inFlight := []
    clock := 0
    inSum := 0
    outSum := 0
    held := false
    inHist := []
    outHist := []
    tallyLatch := tallyInactive }

/-- R63, becoming INACTIVE: positions in flight and block discarded without a close, clock stopped, histories emptied. -/
def Measure.discard (m : Measure) : Measure :=
  { m with
    inFlight := []
    clock := 0
    inSum := 0
    outSum := 0
    held := false
    inHist := []
    outHist := [] }

/-- R117, R130, becoming INACTIVE: the ramp record and the limiter window are discarded, the reduction becomes 0.00 dB; the
applied and desired gain stay. No segment is on air, so the policy in force is ADAPTIVE (R113, log 17). -/
def Gain.rest (g : Gain) : Gain := { g with policy := .adaptive, ramp := none, window := [], reduction := 0 }

/-- R32: a programme becomes INACTIVE. -/
def Prog.becomeInactive (P : Prog) : Prog :=
  { entry := P.entry.setState .inactive
    queue := P.queue
    meas := P.meas.discard
    gain := P.gain.rest }

/-! ### Meters of the gain stage (R114) -/

inductive GainMode where
  | following | frozen | ramping
  deriving DecidableEq, Repr

/-- R114. -/
def Prog.mode (P : Prog) : GainMode :=
  if P.gain.ramp.isSome then .ramping
  else if P.entry.state = .inactive ∨ P.entry.state = .stopped then .frozen
  else if P.gain.policy ≠ .adaptive then .frozen
  else if P.gain.holding then .frozen
  else .following

/-- R116: one adaptive step. -/
def Gain.adaptiveStep (g : Gain) (t : Tunables) : Gain :=
  if g.applied < g.desired then
    { g with applied := min g.desired (g.applied + mkRat t.riseRate 4800) }
  else if g.desired < g.applied then
    { g with applied := max g.desired (g.applied - mkRat t.fallRate 4800) }
  else g

/-- R119: one ramp step. The ramp record stays, at frames total, until RAMP_COMPLETION discards it (log 5). -/
def Gain.rampStep (g : Gain) : Gain :=
  match g.ramp with
  | none => g
  | some r =>
    { g with
      applied := r.start + (r.finish - r.start) * ((((r.elapsed + 1 : Nat) : Int) : Rat) / (((r.total : Nat) : Int) : Rat))
      ramp := some { r with elapsed := r.elapsed + 1 } }

/-- R112, step 1: the gain moves by one frame. -/
def Prog.moveGain (P : Prog) : Gain :=
  match P.mode with
  | .ramping => P.gain.rampStep
  | .following => P.gain.adaptiveStep P.entry.active
  | .frozen => P.gain

/-- R112, R42, R74: one processed frame handed to an active programme. `line` is the delay line before the frame enters
it, `raw` the frame's 16 samples. Answers the line with the position 72 frames back corrected, and the programme. -/
def Prog.handFrame (line : List Stage) (raw : List Sample) (inactiveNow : Bool) (P : Prog) : List Stage × Prog :=
  let input := channels P.entry raw
  let g := P.moveGain
  -- R112, step 3: position p - 72 is fixed when it is in the window, then p enters
  let fixed := if Config.lookAhead ≤ g.window.length then fixOldest P.entry line g else (line, g)
  let g' := { fixed.2 with window := fixed.2.window ++ [⟨input, fixed.2.applied⟩] }
  let P1 := P.setGain g'
  -- R42: position p - 72 is measured when it is in flight
  let P2 := if P1.isMeasuring && decide (Config.lookAhead ≤ P1.meas.inFlight.length) then P1.measureOldest fixed.1 else P1
  let mark := P2.meas.tallyLatch || inactiveNow
  let flight := if P2.isMeasuring then P2.meas.inFlight ++ [⟨input, mark⟩] else P2.meas.inFlight
  let P3 := P2.setMeas { P2.meas with inFlight := flight, tallyLatch := inactiveNow }
  -- R74: frames on air rise by 1
  let P4 := P3.setQueue
    { P3.queue with onAir := P3.queue.onAir.map fun r =>
        { r with framesOnAir := min Config.framesOnAirLimit (r.framesOnAir + 1) } }
  (fixed.1, P4)

end Sys2Proof.Machine
end

