-- ==== Sys2Proof/Machine/Flags.lean ====
section
/-! DEFINITION. The flags of the ports: notices and ATTN (R186, R187), edge flags (R173), and the one operation that
raises a notice. -/

namespace Sys2Proof.Machine

/-- The bit of a kind in a notice-kind set (R195). -/
def Kind.index : Kind → Nat
  | .segStarted => 0
  | .segClosed => 1
  | .takeMissed => 2
  | .overrun => 3
  | .escalated => 4
  | .custody => 5
  | .state => 6
  | .withdrawn => 7
  | .logHalf => 8
  | .logDiscard => 9
  | .audio => 10
  | .cueEdge => 11

/-- The twelve kinds in the order of R195. -/
def allKinds : List Kind :=
  [.segStarted, .segClosed, .takeMissed, .overrun, .escalated, .custody, .state, .withdrawn, .logHalf, .logDiscard,
   .audio, .cueEdge]

def NoticeSet.get (n : NoticeSet) : Kind → Notice
  | .segStarted => n.segStarted
  | .segClosed => n.segClosed
  | .takeMissed => n.takeMissed
  | .overrun => n.overrun
  | .escalated => n.escalated
  | .custody => n.custody
  | .state => n.state
  | .withdrawn => n.withdrawn
  | .logHalf => n.logHalf
  | .logDiscard => n.logDiscard
  | .audio => n.audio
  | .cueEdge => n.cueEdge

def NoticeSet.set (n : NoticeSet) (k : Kind) (v : Notice) : NoticeSet :=
  match k with
  | .segStarted => { n with segStarted := v }
  | .segClosed => { n with segClosed := v }
  | .takeMissed => { n with takeMissed := v }
  | .overrun => { n with overrun := v }
  | .escalated => { n with escalated := v }
  | .custody => { n with custody := v }
  | .state => { n with state := v }
  | .withdrawn => { n with withdrawn := v }
  | .logHalf => { n with logHalf := v }
  | .logDiscard => { n with logDiscard := v }
  | .audio => { n with audio := v }
  | .cueEdge => { n with cueEdge := v }

/-- The bitmap of one programme or line (R195). -/
def bitOf (i : Index) : BitVec 8 := 1#8 <<< i.val

/-- The pending kinds as a notice-kind set (R188, R195). -/
def NoticeSet.pendingKinds (n : NoticeSet) : BitVec 12 :=
  BitVec.ofNat 12 ((allKinds.map fun k => if (n.get k).pending then 2 ^ k.index else 0).foldl (· + ·) 0)

/-- R187: the port asserts ATTN while a pending kind is enabled in its mask. -/
def Port.attn (P : Port) : Bool :=
  allKinds.any fun k => (P.notices.get k).pending && P.mask.getLsbD k.index

/-- R186: the kind becomes PENDING and its bitmap gains the bits. -/
def Port.raise (k : Kind) (bits : BitVec 8) (P : Port) : Port :=
  { P with notices := P.notices.set k ⟨true, (P.notices.get k).bitmap ||| bits⟩ }

/-- R188: each kind of the clear set becomes CLEAR with an empty bitmap. -/
def NoticeSet.clearKinds (n : NoticeSet) (kinds : BitVec 12) : NoticeSet :=
  allKinds.foldl (fun m k => if kinds.getLsbD k.index then m.set k Notice.clear else m) n

/-- A notice raised at one port. -/
def State.raiseAt (s : State) (x : PortId) (k : Kind) (bits : BitVec 8) : State := s.updPort x (Port.raise k bits)

/-- A notice raised at every port, for a programme or line. -/
def State.raiseAll (s : State) (k : Kind) (i : Index) : State := s.mapPorts (Port.raise k (bitOf i))

/-- A notice of a kind that carries no bitmap, raised at every port. -/
def State.raisePlain (s : State) (k : Kind) : State := s.mapPorts (Port.raise k 0)

/-- R173: an accepted edge of line `k` sets its rising flag, or its falling flag. -/
def Port.setEdge (k : Index) (rising : Bool) (P : Port) : Port :=
  if rising then { P with rising := P.rising ||| bitOf k } else { P with falling := P.falling ||| bitOf k }

/-- R174: all sixteen edge flags CLEAR. -/
def Port.clearEdges (P : Port) : Port := { P with rising := 0, falling := 0 }

/-- R170: the active level, true for ACTIVE. -/
def CueLine.active (l : CueLine) : Bool := l.accepted != l.inverted

end Sys2Proof.Machine
end

