-- ==== Sys2Proof/Machine/Posting.lean ====
section
/-! DEFINITION. Verdicts, escalation and the Result Log (07_verdicts_and_the_result_log.md): the posting of a result
record. -/

namespace Sys2Proof.Machine

/-- R134, R135: the verdict of an end cause, an integrated loudness, an effective target and tolerance. -/
def verdictOf (cause : EndCause) (integrated : Option Int) (target tolerance : Int) : Verdict :=
  match cause with
  | .abort => .aborted
  | .forced => .aborted
  | .restart => .interrupted
  | .takeNext | .finish | .durationEnd =>
    match integrated with
    | none => .silent
    | some v =>
      let deviation := v - target
      if -tolerance ≤ deviation ∧ deviation ≤ tolerance then .pass
      else if tolerance < deviation then .high
      else .low

/-- R138: the escalation counter after a verdict. -/
def escalationAfter (cls : SegClass) (verdict : Verdict) (counter : Nat) : Nat :=
  match cls with
  | .programme => counter
  | .live => counter
  | .spot | .promo =>
    match verdict with
    | .high | .low => min 3 (counter + 1)
    | .pass => 0
    | .silent | .aborted | .interrupted => counter

def isPass (r : ResultRecord) : Bool := r.verdict == .pass

/-- R141: the log less the record a discard removes: the oldest PASS, otherwise the oldest. -/
def discardOne (log : List ResultRecord) : List ResultRecord :=
  if log.any isPass then log.eraseP isPass else log.drop 1

/-- R105, R137: the result record of the ON AIR record `r` of a programme at its close, with the gain at end rounded and
the values the Measurement Engine hands over (R58). The verdict and discards-before are added by the posting. -/
def Prog.resultRecord (P : Prog) (p : Index) (r : OnAir) (cause : EndCause) : ResultRecord :=
  let a := P.meas.segAccount.getD SegAccount.fresh
  { programme := p
    id := r.record.id
    owner := r.record.owner
    cls := r.record.cls
    label := r.record.label
    cause := r.cause
    takeStamp := r.takeStamp
    framesOnAir := r.framesOnAir
    endCause := cause
    policy := r.policy
    overridden := r.overridden
    target := r.target
    tolerance := r.tolerance
    declared := r.record.declared
    integrated := a.account.integrated
    maxMomentary := a.maxMomentary
    maxShortTerm := a.maxShortTerm
    maxTruePeak := a.maxTruePeak
    gainAtTake := r.gainAtTake
    gainAtEnd := roundAway P.gain.applied
    heldBlocks := a.heldBlocks
    overrun := r.overrun
    verdict := .silent
    discardsBefore := 0 }

/-- R140, steps 1 and 2: the record with its verdict. -/
def ResultRecord.judged (r : ResultRecord) : ResultRecord :=
  { r with verdict := verdictOf r.endCause r.integrated r.target r.tolerance }

/-- R140, step 2: the programme's escalation counter, and ESCALATED when it goes from 2 to 3 (R139). -/
def State.escalate (s : State) (r : ResultRecord) : State :=
  let e := (s.prog r.programme).entry
  let n := escalationAfter r.cls r.verdict e.escalation
  let s1 := s.updProg r.programme fun P => P.setEntry { P.entry with escalation := n }
  if e.escalation = 2 ∧ n = 3 then s1.raiseAll .escalated r.programme else s1

/-- R140, steps 3 to 6: room is made, the record is appended, and LOG_HALF is raised at 24. -/
def State.appendLog (s : State) (r : ResultRecord) : State :=
  if Config.logLimit ≤ s.log.length then
    let s1 := { s with
      log := discardOne s.log ++ [{ r with discardsBefore := 1 }]
      discards := min Config.discardLimit (s.discards + 1) }
    s1.raisePlain .logDiscard
  else
    let s1 := { s with log := s.log ++ [{ r with discardsBefore := 0 }] }
    if s1.log.length = Config.logHalf then s1.raisePlain .logHalf else s1

/-- R140: a posting, taken whole. -/
def State.post (s : State) (r : ResultRecord) : State :=
  (s.escalate r.judged).appendLog r.judged

end Sys2Proof.Machine
end

