-- ==== Sys2Proof/Machine/Takes.lean ====
section
/-! DEFINITION. Takes, ends and boundaries (05_takes_ends_and_boundaries.md), the transition ramp (R118), the withdrawals
(R81, R82), the frame-driven events that fall due (R44, R96, R119) and what settles them. -/

namespace Sys2Proof.Machine

/-! ### Tunables in force (R23, R25) -/

/-- The tunables of a set replace the values of the active set. -/
def Tunables.apply (t : Tunables) (v : TunableSet) : Tunables where
  target := v.target.getD t.target
  tolerance := v.tolerance.getD t.tolerance
  maxBoost := v.maxBoost.getD t.maxBoost
  maxCut := v.maxCut.getD t.maxCut
  riseRate := v.riseRate.getD t.riseRate
  fallRate := v.fallRate.getD t.fallRate
  holdThreshold := v.holdThreshold.getD t.holdThreshold
  defaultRamp := v.defaultRamp.getD t.defaultRamp
  ceiling := v.ceiling.getD t.ceiling
  release := v.release.getD t.release

/-- A change of the active set, with what a lowered ceiling leaves for the limiter (R127, R131). -/
def Prog.tuneActive (P : Prog) (v : TunableSet) : Prog :=
  let after := P.entry.active.apply v
  { P with
    entry := { P.entry with active := after }
    gain := { P.gain with oldCeiling := ceilingChange P.entry.active.ceiling after.ceiling P.gain.oldCeiling } }

/-- R25: the pending set is applied and becomes empty. -/
def Prog.applyPending (P : Prog) : Prog :=
  let Q := P.tuneActive P.entry.pending
  Q.setEntry { Q.entry with pending := .empty }

/-! ### Ramps and entry values (R113, R118, R123) -/

/-- R118, steps 1 to 4: policy, desired gain, holding mark and ramp, for an entry value and a length in ms. -/
def Gain.startRamp (g : Gain) (policy : Policy) (entry : Rat) (ms : Int) : Gain :=
  let total := (ms * 48).toNat
  let g1 := { g with policy := policy, desired := entry, holding := false, ramp := none }
  if total = 0 ∨ entry = g.applied then { g1 with applied := entry }
  else { g1 with ramp := some ⟨g.applied, entry, total, 0⟩ }

/-- R118 at an end: the free-run policy, whose entry value is the applied gain, so the ramp is of zero course. -/
def Gain.freeRun (g : Gain) (ms : Int) : Gain := g.startRamp .adaptive g.applied ms

/-- R123: FIXED becomes ADAPTIVE exactly when the counter stands at 3. -/
def effectivePolicy (cued : Policy) (escalation : Nat) : Policy × Bool :=
  match cued with
  | .fixed => if escalation = 3 then (.adaptive, true) else (.fixed, false)
  | .adaptive => (.adaptive, false)
  | .bypass => (.bypass, false)

/-- R113, R123: the fixed gain and the escalation entry gain: the effective target minus the declared loudness, limited to
-30.00 to +15.00 dB. -/
def declaredGain (target : Int) (declared : Option Int) : Int := clampInt (-3000) 1500 (target - declared.getD 0)

/-- R113: the entry value of the record going on air, in 0.01 dB. -/
def entryValue (r : SegRecord) (policy : Policy) (overridden : Bool) (target : Int) (applied : Rat) : Rat :=
  match policy with
  | .fixed => (declaredGain target r.declared : Rat)
  | .bypass => 0
  | .adaptive =>
    if overridden then (declaredGain target r.declared : Rat)
    else match r.entryGain with
      | some v => (v : Rat)
      | none => applied

/-- R91, R72: the ON AIR record of a take at position `n`. -/
def Prog.onAirRecord (P : Prog) (n : Position) (cause : TakeCause) (r : SegRecord) : OnAir :=
  let pol := effectivePolicy r.policy P.entry.escalation
  { record := r
    takeStamp := n
    cause := cause
    policy := pol.1
    overridden := pol.2
    target := r.targetOverride.getD P.entry.active.target
    tolerance := r.toleranceOverride.getD P.entry.active.tolerance
    gainAtTake := roundAway P.gain.applied
    framesOnAir := 0
    overrun := false }

/-- Stages 4 and 5 of a take (R91, R92): the next record goes on air with an empty Segment Account, and its ramp starts. -/
def Prog.goOnAir (P : Prog) (n : Position) (cause : TakeCause) : Prog :=
  match P.queue.cued with
  | [] => P
  | r :: rest =>
    let o := P.onAirRecord n cause r
    { entry := P.entry
      queue := ⟨some o, rest⟩
      meas := { P.meas with segAccount := some .fresh }
      gain := P.gain.startRamp o.policy (entryValue r o.policy o.overridden o.target P.gain.applied)
        (r.rampLength.getD P.entry.active.defaultRamp) }

/-! ### The boundary and the close of a segment -/

/-- R43, R46, R129: the boundary work of programme `p`. -/
def State.boundary (s : State) (p : Index) : State :=
  let r := boundaryWork s.audio.line (s.prog p)
  (s.setDelayLine r.1).setProg p r.2

/-- R90, step 2 of R99: the segment on air, if any, is posted with its end cause and leaves the queue, and its Segment
Account is discarded (R58, R84). -/
def State.closeSegment (s : State) (p : Index) (cause : EndCause) : State :=
  match (s.prog p).queue.onAir with
  | none => s
  | some r =>
    (s.post ((s.prog p).resultRecord p r cause)).updProg p fun P =>
      { P with
        queue := { P.queue with onAir := none }
        meas := { P.meas with segAccount := none } }

/-- R88, R97: a take acts when the programme is RUNNING and its queue holds a CUED record. -/
def Prog.takeActs (P : Prog) : Bool := P.entry.state == .running && !P.queue.cued.isEmpty

/-- R88, stages 1 to 5. -/
def State.takeStages (s : State) (p : Index) (cause : TakeCause) : State :=
  let s2 := (s.boundary p).closeSegment p .takeNext
  (s2.updProg p Prog.applyPending).updProg p fun P => P.goOnAir s.position cause

/-- R88, stage 7 (R106). -/
def State.takeNotices (s : State) (p : Index) (closed : Bool) : State :=
  let s1 := if closed then s.raiseAll .segClosed p else s
  s1.raiseAll .segStarted p

/-- R95: the followers of `p`, in no order of the rules. -/
def State.followers (s : State) (p : Index) : List Index :=
  allIndices.filter fun q => (s.prog q).entry.trigger == .follow p

/-- R32: programme `p` becomes INACTIVE, with STATE at every port. -/
def State.deactivate (s : State) (p : Index) : State := (s.updProg p Prog.becomeInactive).raiseAll .state p

/-- R99, step 4: a RUNNING programme goes on in free-run under ADAPTIVE, its ramp of zero course (R113, R118). -/
def Prog.toFreeRun (P : Prog) : Prog := P.setGain (P.gain.freeRun P.entry.active.defaultRamp)

/-- R99, steps 1 to 3 and 5: the segment on air of `p` ends with this cause. -/
def State.endCore (s : State) (p : Index) (cause : EndCause) : State :=
  (((s.boundary p).closeSegment p cause).updProg p Prog.applyPending).raiseAll .segClosed p

/-- R99, R102: SEG.END and DURATION_END: free-run, or INACTIVE for a DRAINING programme. -/
def State.endSegment (s : State) (p : Index) (cause : EndCause) : State :=
  let s1 := s.endCore p cause
  if (s1.prog p).entry.state = .draining then s1.deactivate p else s1.updProg p Prog.toFreeRun

/-! ### Withdrawals -/

/-- R81: every CUED record of `p` is withdrawn, with WITHDRAWN at the owner port of each. -/
def State.withdrawAll (s : State) (p : Index) : State :=
  let cued := (s.prog p).queue.cued
  (cued.foldl (fun t r => t.raiseAt r.owner .withdrawn (bitOf p)) s).updProg p fun P =>
    P.setQueue { P.queue with cued := [] }

/-- R82: the programmes with a CUED record of `x`, as a bitmap. -/
def State.ownedBitmap (s : State) (x : PortId) : BitVec 8 :=
  allIndices.foldl
    (fun b p => if (s.prog p).queue.cued.any (fun r => r.owner == x) then b ||| bitOf p else b) 0

/-- The programmes whose custodian is `x`, as a bitmap (R166). -/
def State.custodyBitmap (s : State) (x : PortId) : BitVec 8 :=
  allIndices.foldl (fun b p => if (s.prog p).entry.custodian = some x then b ||| bitOf p else b) 0

/-- What a lapse of `x` takes from one programme: its custody and its CUED records of `x` (R166, steps 2 and 3). -/
def Prog.lapse (x : PortId) (P : Prog) : Prog :=
  (P.setEntry { P.entry with custodian := if P.entry.custodian = some x then none else P.entry.custodian }).setQueue
    { P.queue with cued := P.queue.cued.filter fun r => r.owner != x }

/-- R166: the lapse of port `x`, taken whole. -/
def State.lapse (s : State) (x : PortId) : State :=
  let custody := s.custodyBitmap x
  let owned := s.ownedBitmap x
  let s1 := s.updPort x fun P => { P with present := false, timerCount := none, snapshot := none }
  let s2 := s1.mapProgs (Prog.lapse x)
  let s3 := if custody = 0 then s2 else s2.mapPorts (Port.raise .custody custody)
  if owned = 0 then s3 else s3.raiseAt x .withdrawn owned

/-! ### Events that fall due with a frame (log 5) -/

/-- R44: the block clock stands at 4800. -/
def Prog.closeDue (P : Prog) : Bool := decide (Config.blockFrames ≤ P.meas.clock)

/-- R119: frames elapsed have reached frames total. -/
def Prog.rampDue (P : Prog) : Bool :=
  match P.gain.ramp with
  | some r => decide (r.total ≤ r.elapsed)
  | none => false

/-- R74, R96: frames on air are equal to the duration times 4800, and the record's event has not been taken: an overrun
mark already SET is the event of auto-advance CLEAR. -/
def Prog.durationDue (P : Prog) : Bool :=
  match P.queue.onAir with
  | none => false
  | some r =>
    match r.record.duration with
    | none => false
    | some d => decide (1 ≤ d) && decide (r.framesOnAir = d * Config.blockFrames)
        && (r.record.autoAdvance || !r.overrun)

/-- R96: a duration is reached with auto-advance CLEAR: the overrun mark is to be set, at the frame itself. -/
def Prog.overrunDue (P : Prog) : Bool :=
  match P.queue.onAir with
  | none => false
  | some r => P.durationDue && !r.record.autoAdvance

/-- R96: a duration is reached with auto-advance SET: an AUTO event has arisen, to be taken once the Air Clock has advanced past
the frame. -/
def Prog.autoDue (P : Prog) : Bool :=
  match P.queue.onAir with
  | none => false
  | some r => P.durationDue && r.record.autoAdvance

/-- R49: the block close of `p`, with STATE when it completes a stop (R35). -/
def State.closeBlock (s : State) (p : Index) : State :=
  let s1 := s.updProg p Prog.closeBlock
  if (s.prog p).entry.state = .stopping then s1.raiseAll .state p else s1

/-- R119: the ramp completes: the gain lands on the end gain and the ramp record is discarded. -/
def Gain.completeRamp (g : Gain) : Gain :=
  match g.ramp with
  | some r => { g with applied := r.finish, ramp := none }
  | none => g

def State.completeRamp (s : State) (p : Index) : State := s.updProg p fun P => P.setGain P.gain.completeRamp

/-- R96: the overrun mark of the record on air is set, with OVERRUN at every port. -/
def State.markOverrun (s : State) (p : Index) : State :=
  (s.updProg p fun P => P.setQueue
    { P.queue with onAir := P.queue.onAir.map fun o => { o with overrun := true } }).raiseAll .overrun p

/-! ### Cascades (R94, R95, R96, R149) -/

/-- One piece of the work of a cascade: a take by cue edge, follow or request, or an AUTO event. -/
inductive Work where
  | take (p : Index) (cause : TakeCause)
  | auto (p : Index)
  deriving DecidableEq, Repr

/-- The number of a piece of work in the free order (log 6). -/
def Work.number : Work → Nat
  | .take p _ => p.val
  | .auto p => 8 + p.val

/-- A take on `p`, by itself (R88, R97): it acts through its stages and triggers its followers, or it is missed with
TAKE_MISSED. The notices of stage 7 are raised before the followers take: a notice only adds to what is pending, and no take
reads one. -/
def State.performTake (s : State) (p : Index) (cause : TakeCause) : State × List Work :=
  if (s.prog p).takeActs then
    let t := s.takeStages p cause
    (t.takeNotices p (s.prog p).hasOnAir, (t.followers p).map fun q => .take q (.follow p))
  else (s.raiseAll .takeMissed p, [])

/-- R96: the AUTO event of the record on air of `p`, if it is still due (log 16): a take that acts, or the end of the segment. -/
def State.performAuto (s : State) (p : Index) : State × List Work :=
  if (s.prog p).autoDue then
    if (s.prog p).takeActs then s.performTake p .auto else (s.endSegment p .durationEnd, [])
  else (s, [])

/-- One piece of work, taken whole, and the work it brings. -/
def State.perform (s : State) : Work → State × List Work
  | .take p cause => s.performTake p cause
  | .auto p => s.performAuto p

/-- A cascade: of the work that waits, one piece after another, in the free order, each bringing the takes of its followers.
The rules order a follower behind its leader and nothing else (R94, R95, R149), and so does this: where two or more pieces
wait, the free value picks the next (log 6). `fuel` bounds the pieces. -/
def State.cascade : (fuel : Nat) → (s : State) → List Work → State
  | 0, s, _ => s
  | fuel + 1, s, work =>
    match arrangeBy Work.number s.freeCount work with
    | [] => s
    | w :: rest =>
      let r := (if rest.isEmpty then s else s.useFree).perform w
      State.cascade fuel r.1 (rest ++ r.2)

/-- The most pieces a cascade can have: at most eight programmes start it, and each start reaches each of the eight at most
once, since the follow relation is acyclic (R20, R95; log 23). -/
def cascadeLimit : Nat := 64

/-- A take on `p` with its cascade (R88). For SEG.TAKE the caller has found that it acts. -/
def State.take (s : State) (p : Index) (cause : TakeCause) : State := s.cascade cascadeLimit [.take p cause]

/-- R13: the sample of slot `i` of the output frame formed from a stage: the corrected sample in a slot of an active
programme, the raw sample in any other. -/
def State.outputSample (s : State) (st : Stage) (i : Nat) : Sample :=
  if allIndices.any fun p => (s.prog p).isActive && (s.prog p).entry.covers i then st.cor.getD i 0 else st.raw.getD i 0

/-- R12, R13: one output frame is formed from the oldest stage of the delay line. -/
def State.formOutput (s : State) : State :=
  let st := s.audio.line.headD Stage.zero
  s.setAudio { s.audio with sdout := (List.range 16).map fun i => s.outputSample st i }

/-- R6: the detector is RECOVERING and its good-frame count has reached 48. -/
def State.lockDue (s : State) : Bool :=
  s.audio.detector == .recovering && decide (Config.goodFramesToLock ≤ s.audio.goodFrames)

/-- R6, R8: entry to LOCKED, with AUDIO at every port; the first output frame of the delay line is formed. -/
def State.enterLocked (s : State) : State :=
  ((s.setAudio { s.audio with detector := .locked }).formOutput).raisePlain .audio

/-- Takes the due block close of `p`, if any. -/
def State.settleClose (s : State) (p : Index) : State := if (s.prog p).closeDue then s.closeBlock p else s

/-- Takes the due ramp completion of `p`, if any. -/
def State.settleRamp (s : State) (p : Index) : State := if (s.prog p).rampDue then s.completeRamp p else s

/-- Sets the due overrun mark of `p`, if any. -/
def State.settleOverrun (s : State) (p : Index) : State := if (s.prog p).overrunDue then s.markOverrun p else s

/-- R96: sets every overrun mark the last frame made due. It does so at the frame itself, and an AUTO event takes effect after it:
so no AUTO take, nor the take of a follower, comes before one. -/
def State.settleOverruns (s : State) : State := allIndices.foldl State.settleOverrun s

/-- R96: what the duration of `p` being reached brings, if it is due: its overrun mark; or its AUTO event, after the overrun marks
of the frame. -/
def State.settleDuration (s : State) (p : Index) : State :=
  if (s.prog p).autoDue then s.settleOverruns.cascade cascadeLimit [.auto p] else s.settleOverrun p

/-- Takes every event the last frame made due, before anything else is taken: lock, block closes, ramp completions, overrun marks,
and AUTO events, the last with their takes and the takes of their followers in the free order (R49, R96, R119, R149; logs 5 and
6). -/
def State.settle (s : State) : State :=
  let s1 := if s.lockDue then s.enterLocked else s
  let s2 := allIndices.foldl State.settleClose s1
  let s3 := allIndices.foldl State.settleRamp s2
  let s4 := s3.settleOverruns
  s4.cascade cascadeLimit ((allIndices.filter fun p => (s4.prog p).autoDue).map .auto)

end Sys2Proof.Machine
end

