-- ==== Sys2Proof/Machine/Restart.lean ====
section
/-! DEFINITION. Accepted cue edges (R172, R176, R177) and the restart of the part (R15, R40, R68, R87, R104, R133, R168,
R178, R193, R194). -/

namespace Sys2Proof.Machine

/-! ### Cue lines -/

/-- R171: the reject length in ticks of the reference clock. -/
def RejectLength.ticks : RejectLength → Nat
  | .ms0 => 0
  | .ms2 => 2 * Config.ticksPerMillisecond
  | .ms8 => 8 * Config.ticksPerMillisecond
  | .ms32 => 32 * Config.ticksPerMillisecond

/-- R47, R177: the programme's tally is INACTIVE under these lines. -/
def Prog.tallyInactive (lines : Octet CueLine) (P : Prog) : Bool :=
  match P.entry.tally with
  | none => false
  | some k => !(lines.get k).active

/-- R177: the active level of line `k` has changed; an INACTIVE level is remembered for the next position (R47). -/
def Prog.tallyChange (k : Index) (active : Bool) (P : Prog) : Prog :=
  if P.entry.tally = some k ∧ active = false then P.setMeas { P.meas with tallyLatch := true } else P

/-- The programmes whose take trigger is CUE(k) (R94). -/
def State.triggered (s : State) (k : Index) : List Index :=
  allIndices.filter fun q => (s.prog q).entry.trigger == .cue k

/-- R172: the accepted edge of line `k` reaches the edge flags and notices of every port, and the tallies. -/
def State.edgeReport (s : State) (k : Index) (active : Bool) : State :=
  (s.mapPorts fun P => (P.setEdge k active).raise .cueEdge (bitOf k)).mapProgs (Prog.tallyChange k active)

/-- R94, R176: an active-going edge of line `k` is a take on each programme it triggers. The rules order neither these takes
nor those of their followers but for a follower behind its leader: all stand in one cascade (log 6). -/
def State.edgeTakes (s : State) (k : Index) : State :=
  s.cascade cascadeLimit ((s.triggered k).map fun q => .take q (.cue k))

/-- R171, R172: the change of line `k` is accepted: the accepted level takes the raw level. -/
def State.acceptEdge (s : State) (k : Index) : State :=
  let l := { s.line k with accepted := (s.line k).raw, change := none }
  let s1 := (s.setLine k l).edgeReport k l.active
  if l.active then s1.edgeTakes k else s1

/-! ### Restart -/

/-- R40: the state map of a restart. -/
def ProgState.restarted : ProgState → ProgState
  | .inactive => .inactive
  | .stopped => .stopped
  | .running => .running
  | .stopping => .stopped
  | .draining => .inactive

/-- R104: the segment on air of `p` ends with end cause RESTART; no notice of it stays pending. -/
def State.restartClose (s : State) (p : Index) : State := (s.boundary p).closeSegment p .restart

/-- R40, R68, R87, R133: one programme after its restart close. -/
def Prog.restarted (lines : Octet CueLine) (P : Prog) : Prog :=
  let Q := P.applyPending
  { entry := { Q.entry with state := P.entry.state.restarted, custodian := none }
    queue := .reset
    meas := { P.meas.start (P.tallyInactive lines) with segAccount := none }
    gain := { Gain.reset with oldCeiling := Q.gain.oldCeiling } }

/-- R15. -/
def AudioPort.restarted (a : AudioPort) : AudioPort := { AudioPort.reset with airClock := a.airClock }

/-- R178: a pending change is dropped, and begins again at once where the raw level differs from the accepted level. -/
def CueLine.restarted (l : CueLine) : CueLine :=
  { l with change := if l.raw = l.accepted then none else some 0 }

/-- R168, R194: a reply being sent is sent to its end (R193). -/
def Port.restarted (P : Port) : Port := { Port.reset with reply := P.reply }

/-- R193: a restart, at the current Air Clock value. The closes share one position and come in no order of the rules
(R104, R149). -/
def State.restart (s : State) : State :=
  let onAir := allIndices.filter fun p => (s.prog p).hasOnAir
  let s1 := (arrange s.freeCount onAir).foldl State.restartClose s.useFree
  { s1 with
    audio := s1.audio.restarted
    progs := s1.progs.map (Prog.restarted s1.lines)
    lines := s1.lines.map CueLine.restarted
    ports := s1.ports.map Port.restarted }

end Sys2Proof.Machine
end

