-- ==== Sys2Proof/Machine/Timers.lean ====
section
/-! DEFINITION. The timers of the internal reference clock that can expire (R2, R163, R171, R182), and when each has run its
time. The clock itself is Clock.lean (log 2). -/

namespace Sys2Proof.Machine

/-- A timer of the reference clock that can expire (R2, R163, R171, R182). -/
inductive Timer where
  | watch
  | gap (x : PortId)
  | silence (x : PortId)
  | reject (k : Index)
  deriving DecidableEq, Repr

/-- All the timers of the part. -/
def allTimers : List Timer :=
  .watch :: (allPorts.map Timer.gap ++ allPorts.map Timer.silence ++ allIndices.map Timer.reject)

def reached (limit : Nat) (elapsed : Option Nat) : Bool := elapsed.any fun t => decide (limit ≤ t)

/-- The timer runs and has run its time. A timer restarted or reloaded has not, so a frame sync, a byte or a well-formed frame
that is taken first leaves no expiry behind it (R4, R163, R182; log 3). -/
def State.expired (s : State) : Timer → Bool
  | .watch => reached Config.syncWatchTicks s.audio.watch
  | .gap x => reached Config.gapTicks (s.port x).gap
  | .silence x => (s.port x).present && (s.port x).timerCount == some 0
  | .reject k => reached (s.line k).reject.ticks (s.line k).change

end Sys2Proof.Machine
end

