-- ==== Sys2Proof/Machine/AudioPort.lean ====
section
/-! DEFINITION. The Audio Port's commands (01_the_audio_path.md) and power-on: POWER_ON_RESET, FRAME_SYNC,
GOOD_FRAME_COUNT_48, MISSING_FRAME_SYNC, SYNC_WATCH_EXPIRY, PROCESSED_FRAME. -/

namespace Sys2Proof.Machine

/-! ### Power-on -/

/-- R152. -/
def overrideOf (t : Straps) : Option PortId :=
  match t.ovr1, t.ovr0 with
  | false, false => none
  | false, true => some .a
  | true, false => some .b
  | true, true => some .c

/-- R179. -/
def baudOf (t : Straps) : Baud :=
  match t.baud1, t.baud0 with
  | false, false => .b38400
  | false, true => .b57600
  | true, false => .b115200
  | true, true => .b230400

/-- R178: the lines after their first samples. -/
def linesOf (levels : BitVec 8) : Octet CueLine :=
  ⟨.reset (levels.getLsbD 0), .reset (levels.getLsbD 1), .reset (levels.getLsbD 2), .reset (levels.getLsbD 3),
   .reset (levels.getLsbD 4), .reset (levels.getLsbD 5), .reset (levels.getLsbD 6), .reset (levels.getLsbD 7)⟩

/-- Every block at its power-on values, straps and cue pins sampled. The commands waiting and the counter of the free order are
the model's own and are kept (log 22). -/
def State.powerOn (s : State) (straps : Straps) (levels : BitVec 8) : State :=
  { State.reset with
    override := overrideOf straps
    baud := baudOf straps
    lines := linesOf levels
    freeCount := s.freeCount
    pending := s.pending }

def execPowerOnReset (straps : Straps) (levels : BitVec 8) (s : State) : Host.Outcome State Fault Refusal :=
  .next (s.powerOn straps levels)

/-! ### Frames -/

/-- SDOUT carries zero samples in every slot (R5, R6). -/
def silentOutput : List Sample := List.replicate 16 0

/-- R5: the first frame sync in LOST. -/
def AudioPort.startRecovery (a : AudioPort) : AudioPort :=
  { a with detector := .recovering, goodFrames := 0, phase := .receiving, sdout := silentOutput }

/-- R6: a frame sync in RECOVERING: a good frame at the sync position, otherwise an early sync. -/
def AudioPort.recover (a : AudioPort) : AudioPort :=
  { a with goodFrames := if a.phase = .complete then a.goodFrames + 1 else 0, phase := .receiving }

/-- The move to LOST (R4, R6): the frame in progress is dropped and SDOUT carries zero samples. -/
def AudioPort.lose (a : AudioPort) : AudioPort :=
  { a with detector := .lost, phase := .absent, sdout := silentOutput }

/-- A frame begins (R2). -/
def AudioPort.beginFrame (a : AudioPort) : AudioPort := { a with phase := .receiving }

/-- R2: a frame sync restarts the sync watch. -/
def AudioPort.startWatch (a : AudioPort) : AudioPort := { a with watch := some 0 }

def AudioPort.stopWatch (a : AudioPort) : AudioPort := { a with watch := none }

/-- R2, R3, R5, R6: a frame sync. In LOCKED, one at the sync position begins a frame and the next output frame is formed;
an early one drops the frame in progress and the same output frame is sent again. -/
def State.takeFrameSync (s : State) : State :=
  let s1 := s.setAudio s.audio.startWatch
  match s.audio.detector with
  | .lost => s1.setAudio s1.audio.startRecovery
  | .recovering => s1.setAudio s1.audio.recover
  | .locked =>
    let s2 := if s.audio.phase = .complete then s1.formOutput else s1
    s2.setAudio s2.audio.beginFrame

def execFrameSync (s : State) : Host.Outcome State Fault Refusal := .next s.settle.takeFrameSync

/-- R6: the lock, when it is due. -/
def execGoodFrameCount48 (s : State) : Host.Outcome State Fault Refusal :=
  .next (if s.lockDue then s.enterLocked else s)

/-- R3, R6: the sync position of the frame in progress passes with no frame sync. In LOCKED the port flywheels and forms
the next output frame; a flywheel frame does not restart the sync watch. In RECOVERING the detector enters LOST. -/
def State.missSync (s : State) : State :=
  if s.audio.phase = .complete then
    match s.audio.detector with
    | .locked =>
      let s1 := s.formOutput
      s1.setAudio s1.audio.beginFrame
    | .recovering => s.setAudio s.audio.lose
    | .lost => s
  else s

def execMissingFrameSync (s : State) : Host.Outcome State Fault Refusal := .next s.settle.missSync

/-- R4, R5, R6, R8: the sync watch expires, when it has run its time: a frame sync taken first has restarted it (R4; log 3). -/
def State.expireWatch (s : State) : State :=
  if s.expired .watch then
    let s1 := s.setAudio s.audio.stopWatch
    match s.audio.detector with
    | .locked => (s1.setAudio s1.audio.lose).raisePlain .audio
    | .recovering => s1.setAudio s1.audio.lose
    | .lost => s1
  else s

def execSyncWatchExpiry (s : State) : Host.Outcome State Fault Refusal := .next s.settle.expireWatch

/-- R11: the frame is handed to programme `p` when it is active. -/
def State.handOver (raw : List Sample) (s : State) (p : Index) : State :=
  if (s.prog p).isActive then
    let r := (s.prog p).handFrame s.audio.line raw ((s.prog p).tallyInactive s.lines)
    (s.setDelayLine r.1).setProg p r.2
  else s

/-- R12, R10: the samples enter the delay line, the oldest stage leaves it, and the Air Clock advances. -/
def AudioPort.enterFrame (a : AudioPort) (raw : List Sample) : AudioPort :=
  { a with
    line := a.line.drop 1 ++ [⟨raw, silentOutput⟩]
    airClock := a.airClock + 1
    phase := .complete }

/-- R3, R11: a frame completes in LOCKED. -/
def State.processFrame (s : State) (raw : List Sample) : State :=
  let s1 := allIndices.foldl (State.handOver raw) s
  s1.setAudio (s1.audio.enterFrame raw)

/-- A frame completes (log 7): processed in LOCKED, its samples discarded in RECOVERING (R6); in LOST the port takes no
frame (R5). -/
def State.completeFrame (s : State) (slots : List (BitVec 32)) : State :=
  if s.audio.phase = .receiving then
    match s.audio.detector with
    | .locked => s.processFrame (frameSamples slots)
    | .recovering => s.setAudio { s.audio with phase := .complete }
    | .lost => s
  else s

def execProcessedFrame (slots : List (BitVec 32)) (s : State) : Host.Outcome State Fault Refusal :=
  .next (s.settle.completeFrame slots)

end Sys2Proof.Machine
end

