-- ==== Sys2Proof/Machine/Operands.lean ====
section
/-! DEFINITION. The bytes of requests and replies (11_frame_and_record_layouts.md): reading every parameter layout, with
MALFORMED where the body does not match it (R185, R196), the value checks of R22, R70, R71 and R195, and writing every
reply. -/

namespace Sys2Proof.Machine

/-! ### Reading -/

/-- A field of two bytes, high byte first (R195), and the bytes after it. -/
def readWord : List Byte → Option (BitVec 16 × List Byte)
  | hi :: lo :: rest => some (hi ++ lo, rest)
  | _ => none

/-- A field of one byte, widened with its sign when `signed`. -/
def readByte (signed : Bool) : List Byte → Option (BitVec 16 × List Byte)
  | b :: rest => some (if signed then b.signExtend 16 else b.setWidth 16, rest)
  | _ => none

/-- An optional field of two bytes, carried when `present`. -/
def readOptWord (present : Bool) (bs : List Byte) : Option (Option (BitVec 16) × List Byte) :=
  if present then (readWord bs).map fun r => (some r.1, r.2) else some (none, bs)

/-- A label: a length byte and that many bytes, with nothing after them (R196). -/
def readLabel : List Byte → Option (List Byte)
  | n :: rest => if rest.length = n.toNat then some rest else none
  | [] => none

/-- A programme or line index up to 7 (R195). -/
def indexOf (b : Byte) : Option Index := if h : b.toNat < 8 then some ⟨b.toNat, h⟩ else none

def classOf (b : Byte) : Option SegClass :=
  match b.toNat with
  | 0 => some .programme
  | 1 => some .spot
  | 2 => some .promo
  | 3 => some .live
  | _ => none

def policyOf (b : Byte) : Option Policy :=
  match b.toNat with
  | 0 => some .adaptive
  | 1 => some .fixed
  | 2 => some .bypass
  | _ => none

/-- A flag byte of which only bit 0 is used (R195). -/
def flagOf (b : Byte) : Option Bool :=
  match b.toNat with
  | 0 => some false
  | 1 => some true
  | _ => none

/-- A take trigger: high four bits the kind, low four bits the index, 0 when NONE (R195). -/
def triggerOf (b : Byte) : Option Trigger :=
  match (b.toNat / 16), indexOf (b &&& 0x0F) with
  | 0, some i => if i = 0 then some .off else none
  | 1, some k => some (.cue k)
  | 2, some i => some (.follow i)
  | _, _ => none

/-- A tally: NONE or CUE (R195). -/
def tallyOf (b : Byte) : Option (Option Index) :=
  match triggerOf b with
  | some .off => some none
  | some (.cue k) => some (some k)
  | some (.follow _) => none
  | none => none

/-- A port set of bits 0 to 2 (R195). -/
def portSetOf (b : Byte) : Option (BitVec 3) := if b.toNat < 8 then some (b.setWidth 3) else none

/-- A notice-kind set of bits 0 to 11 (R195). -/
def kindSetOf (w : BitVec 16) : Option (BitVec 12) := if w.toNat < 4096 then some (w.setWidth 12) else none

/-- A reject length in ms (R195). -/
def rejectOf (b : Byte) : Option RejectLength :=
  match b.toNat with
  | 0 => some .ms0
  | 2 => some .ms2
  | 8 => some .ms8
  | 32 => some .ms32
  | _ => none

/-! ### The tunable set (R22, R197) -/

/-- A tunable, carried when `present`, by its reader and its sign (R195, R196). -/
def readTunable (present : Bool) (read : List Byte → Option (BitVec 16 × List Byte)) (signed : Bool) (bs : List Byte) :
    Option (Option Int × List Byte) :=
  if present then (read bs).map fun t => (some (if signed then t.1.toInt else (t.1.toNat : Int)), t.2) else some (none, bs)

/-- The tunables of PROG.TUNE after the programme byte: presence word and the present values in order; none is
MALFORMED. -/
def readTunables (bs : List Byte) : Option TunableSet := do
  let (w, r0) ← readWord bs
  if 1024 ≤ w.toNat then none else
  let field := fun (i : Nat) => readTunable (w.getLsbD i)
  let (target, r1) ← field 0 readWord true r0
  let (tolerance, r2) ← field 1 readWord false r1
  let (maxBoost, r3) ← field 2 readWord true r2
  let (maxCut, r4) ← field 3 readWord true r3
  let (riseRate, r5) ← field 4 (readByte false) false r4
  let (fallRate, r6) ← field 5 (readByte false) false r5
  let (holdThreshold, r7) ← field 6 readWord true r6
  let (defaultRamp, r8) ← field 7 readWord false r7
  let (ceiling, r9) ← field 8 (readByte true) true r8
  let (release, r10) ← field 9 readWord false r9
  if r10.isEmpty then
    some ⟨target, tolerance, maxBoost, maxCut, riseRate, fallRate, holdThreshold, defaultRamp, ceiling, release⟩
  else none

/-- A value within its range, on its step. -/
def inRange (lo hi step v : Int) : Bool := decide (lo ≤ v) && decide (v ≤ hi) && decide (v % step = 0)

/-- An optional value, when present, within its range. -/
def optInRange (lo hi step : Int) (v : Option Int) : Bool := v.all (inRange lo hi step)

/-- R22: every tunable carried lies in its range and on its step. -/
def TunableSet.legal (t : TunableSet) : Bool :=
  optInRange (-3100) (-1400) 1 t.target
    && optInRange 10 500 1 t.tolerance
    && optInRange 0 1500 1 t.maxBoost
    && optInRange (-3000) 0 1 t.maxCut
    && optInRange 1 60 1 t.riseRate
    && optInRange 1 120 1 t.fallRate
    && optInRange (-6000) (-3000) 1 t.holdThreshold
    && optInRange 0 2000 10 t.defaultRamp
    && optInRange (-90) 0 1 t.ceiling
    && optInRange 10 1000 1 t.release

/-! ### The cue body (R70, R71, R198) -/

/-- The fields of a cue body as carried. -/
structure CueBody where
  prog : Byte
  id : BitVec 16
  cls : Byte
  policy : Byte
  flags : Byte
  declared : Option (BitVec 16)
  entryGain : Option (BitVec 16)
  rampLength : Option (BitVec 16)
  duration : Option (BitVec 16)
  targetOverride : Option (BitVec 16)
  toleranceOverride : Option (BitVec 16)
  label : List Byte
  deriving DecidableEq, Repr

/-- The cue body of SEG.CUE; none is MALFORMED. -/
def readCueBody : List Byte → Option CueBody
  | prog :: idHi :: idLo :: cls :: policy :: flags :: presence :: rest => do
    if 64 ≤ presence.toNat then none else
    let (declared, r1) ← readOptWord (presence.getLsbD 0) rest
    let (entryGain, r2) ← readOptWord (presence.getLsbD 1) r1
    let (rampLength, r3) ← readOptWord (presence.getLsbD 2) r2
    let (duration, r4) ← readOptWord (presence.getLsbD 3) r3
    let (targetOverride, r5) ← readOptWord (presence.getLsbD 4) r4
    let (toleranceOverride, r6) ← readOptWord (presence.getLsbD 5) r5
    let label ← readLabel r6
    some ⟨prog, idHi ++ idLo, cls, policy, flags, declared, entryGain, rampLength, duration, targetOverride,
      toleranceOverride, label⟩
  | _ => none

/-- R70: the values of the fields of a record, and R71: the combination. -/
def SegRecord.legal (r : SegRecord) : Bool :=
  decide (1 ≤ r.id) && decide (r.id ≤ 65535)
    && optInRange (-7000) 0 1 r.declared
    && optInRange (-3000) 1500 1 r.entryGain
    && optInRange 0 2000 10 r.rampLength
    && r.duration.all (fun d => decide (1 ≤ d) && decide (d ≤ 65535))
    && optInRange (-3100) (-1400) 1 r.targetOverride
    && optInRange 10 500 1 r.toleranceOverride
    && decide (r.label.length ≤ 12)
    && (r.policy != .fixed || (r.declared.isSome && (r.cls == .spot || r.cls == .promo)))
    && (r.entryGain.isNone || r.policy == .adaptive)
    && (!r.autoAdvance || r.duration.isSome)

/-- The record a cue body gives, owned by `x` (R73); none when an enumeration or flag code is undefined. -/
def CueBody.record (c : CueBody) (x : PortId) : Option SegRecord := do
  let cls ← classOf c.cls
  let policy ← policyOf c.policy
  let auto ← flagOf c.flags
  some
    { id := c.id.toNat
      owner := x
      cls := cls
      policy := policy
      declared := c.declared.map (·.toInt)
      entryGain := c.entryGain.map (·.toInt)
      rampLength := c.rampLength.map fun v => (v.toNat : Int)
      duration := c.duration.map (·.toNat)
      autoAdvance := auto
      targetOverride := c.targetOverride.map (·.toInt)
      toleranceOverride := c.toleranceOverride.map fun v => (v.toNat : Int)
      label := c.label }

/-! ### The amend body (R77, R78, R198) -/

/-- R77: the instruction for a field. -/
inductive Amend (α : Type) where
  | keep
  | put (v : α)
  | clear
  deriving DecidableEq, Repr

structure AmendBody where
  prog : Byte
  id : BitVec 16
  cls : Amend Byte
  policy : Amend Byte
  autoAdvance : Amend Byte
  declared : Amend (BitVec 16)
  entryGain : Amend (BitVec 16)
  rampLength : Amend (BitVec 16)
  duration : Amend (BitVec 16)
  targetOverride : Amend (BitVec 16)
  toleranceOverride : Amend (BitVec 16)
  label : Amend (List Byte)
  deriving DecidableEq, Repr

/-- The instruction code of field `j` of the instruction word (R198). -/
def instructionCode (w : BitVec 24) (j : Nat) : Nat := w.toNat / 4 ^ j % 4

/-- A field that is always present, of one byte: Keep or Set; Clear and the code 3 are MALFORMED. -/
def readAmendByte (code : Nat) : List Byte → Option (Amend Byte × List Byte)
  | bs => match code with
    | 0 => some (.keep, bs)
    | 1 => match bs with
      | b :: rest => some (.put b, rest)
      | [] => none
    | _ => none

/-- An optional field of two bytes: Keep, Set or Clear. -/
def readAmendWord (code : Nat) (bs : List Byte) : Option (Amend (BitVec 16) × List Byte) :=
  match code with
  | 0 => some (.keep, bs)
  | 1 => (readWord bs).map fun r => (.put r.1, r.2)
  | 2 => some (.clear, bs)
  | _ => none

/-- The label, last in the body: Keep or Set. -/
def readAmendLabel (code : Nat) (bs : List Byte) : Option (Amend (List Byte)) :=
  match code with
  | 0 => if bs.isEmpty then some .keep else none
  | 1 => (readLabel bs).map .put
  | _ => none

/-- The amend body of SEG.AMEND; none is MALFORMED. -/
def readAmendBody : List Byte → Option AmendBody
  | prog :: idHi :: idLo :: w2 :: w1 :: w0 :: rest => do
    let w : BitVec 24 := w2 ++ w1 ++ w0
    if 16 ≤ w2.toNat then none else
    let (cls, r1) ← readAmendByte (instructionCode w 0) rest
    let (policy, r2) ← readAmendByte (instructionCode w 1) r1
    let (autoAdvance, r3) ← readAmendByte (instructionCode w 2) r2
    let (declared, r4) ← readAmendWord (instructionCode w 3) r3
    let (entryGain, r5) ← readAmendWord (instructionCode w 4) r4
    let (rampLength, r6) ← readAmendWord (instructionCode w 5) r5
    let (duration, r7) ← readAmendWord (instructionCode w 6) r6
    let (targetOverride, r8) ← readAmendWord (instructionCode w 7) r7
    let (toleranceOverride, r9) ← readAmendWord (instructionCode w 8) r8
    let label ← readAmendLabel (instructionCode w 9) r9
    some ⟨prog, idHi ++ idLo, cls, policy, autoAdvance, declared, entryGain, rampLength, duration, targetOverride,
      toleranceOverride, label⟩
  | _ => none

/-- The value a Set carries satisfies the test; Keep and Clear carry none. -/
def Amend.carries {α : Type} (test : α → Bool) : Amend α → Bool
  | .put v => test v
  | .keep => true
  | .clear => true

/-- R78: every value carried with Set lies within its values in R70. -/
def AmendBody.valuesLegal (a : AmendBody) : Bool :=
  a.cls.carries (fun b => (classOf b).isSome)
    && a.policy.carries (fun b => (policyOf b).isSome)
    && a.autoAdvance.carries (fun b => (flagOf b).isSome)
    && a.declared.carries (fun v => inRange (-7000) 0 1 v.toInt)
    && a.entryGain.carries (fun v => inRange (-3000) 1500 1 v.toInt)
    && a.rampLength.carries (fun v => inRange 0 2000 10 (v.toNat : Int))
    && a.duration.carries (fun v => decide (1 ≤ v.toNat))
    && a.targetOverride.carries (fun v => inRange (-3100) (-1400) 1 v.toInt)
    && a.toleranceOverride.carries (fun v => inRange 10 500 1 (v.toNat : Int))
    && a.label.carries (fun l => decide (l.length ≤ 12))

/-- An optional field after its instruction. -/
def Amend.optional {β α : Type} (i : Amend β) (read : β → α) (old : Option α) : Option α :=
  match i with
  | .keep => old
  | .put v => some (read v)
  | .clear => none

/-- An always-present field after its instruction; an undefined code leaves it (such a body is refused). -/
def Amend.always {β α : Type} (i : Amend β) (read : β → Option α) (old : α) : α :=
  match i with
  | .put v => (read v).getD old
  | .keep => old
  | .clear => old

/-- R77: the amended record; id and owner are kept (R73). -/
def AmendBody.amended (a : AmendBody) (r : SegRecord) : SegRecord :=
  { id := r.id
    owner := r.owner
    cls := a.cls.always classOf r.cls
    policy := a.policy.always policyOf r.policy
    declared := a.declared.optional (·.toInt) r.declared
    entryGain := a.entryGain.optional (·.toInt) r.entryGain
    rampLength := a.rampLength.optional (fun v => (v.toNat : Int)) r.rampLength
    duration := a.duration.optional (·.toNat) r.duration
    autoAdvance := a.autoAdvance.always flagOf r.autoAdvance
    targetOverride := a.targetOverride.optional (·.toInt) r.targetOverride
    toleranceOverride := a.toleranceOverride.optional (fun v => (v.toNat : Int)) r.toleranceOverride
    label := a.label.always some r.label }

/-- SEG.TAKE: programme, presence byte, expected id (R93, R197); none is MALFORMED. -/
def readTakeBody : List Byte → Option (Byte × Option (BitVec 16))
  | [p, pres] => if pres = 0 then some (p, none) else none
  | [p, pres, hi, lo] => if pres = 1 then some (p, some (hi ++ lo)) else none
  | _ => none

/-- SEG.END: programme, mode, presence byte, expected id (R100, R197); none is MALFORMED. -/
def readEndBody : List Byte → Option (Byte × Byte × Option (BitVec 16))
  | [p, mode, pres] => if pres = 0 then some (p, mode, none) else none
  | [p, mode, pres, hi, lo] => if pres = 1 then some (p, mode, some (hi ++ lo)) else none
  | _ => none

/-- SEG.END mode (R195): NORMAL ends with END, ABORT with ABORT (R100). -/
def endCauseOf (b : Byte) : Option EndCause :=
  match b.toNat with
  | 0 => some .finish
  | 1 => some .abort
  | _ => none

/-! ### Writing -/

def byteOfNat (n : Nat) : Byte := BitVec.ofNat 8 n
def byteOfInt (v : Int) : Byte := BitVec.ofInt 8 v
def byteOfBool (b : Bool) : Byte := if b then 1 else 0

/-- A number in `n` bytes, high byte first (R195). -/
def bytesOfNat : (n : Nat) → (v : Nat) → List Byte
  | 0, _ => []
  | n + 1, v => byteOfNat (v / 256 ^ n) :: bytesOfNat n v

/-- A signed field of two bytes (R195). -/
def wordOfInt (v : Int) : List Byte := bytesOfNat 2 (BitVec.ofInt 16 v).toNat

/-- The present ones of a group of two-byte fields, in order (R196). -/
def presentWords (fs : List (Option Int)) : List Byte := (fs.filterMap fun f => f.map wordOfInt).flatten

/-- The presence bits of a group (R196). -/
def presenceOf (fs : List Bool) : Nat :=
  (fs.zipIdx.map fun f => if f.1 then 2 ^ f.2 else 0).foldl (· + ·) 0

def portCode : Option PortId → Byte
  | none => 0
  | some .a => 1
  | some .b => 2
  | some .c => 3

def stateCode : ProgState → Byte
  | .inactive => 0
  | .stopped => 1
  | .running => 2
  | .stopping => 3
  | .draining => 4

def classCode : SegClass → Byte
  | .programme => 0
  | .spot => 1
  | .promo => 2
  | .live => 3

def policyCode : Policy → Byte
  | .adaptive => 0
  | .fixed => 1
  | .bypass => 2

def endCauseCode : EndCause → Byte
  | .takeNext => 0
  | .finish => 1
  | .abort => 2
  | .durationEnd => 3
  | .forced => 4
  | .restart => 5

def verdictCode : Verdict → Byte
  | .pass => 0
  | .high => 1
  | .low => 2
  | .silent => 3
  | .aborted => 4
  | .interrupted => 5

def modeCode : GainMode → Byte
  | .following => 0
  | .frozen => 1
  | .ramping => 2

def detectorCode : Detector → Byte
  | .locked => 0
  | .lost => 1
  | .recovering => 2

def triggerCode : Trigger → Byte
  | .off => 0
  | .cue k => byteOfNat (16 + k.val)
  | .follow i => byteOfNat (32 + i.val)

def tallyCode : Option Index → Byte
  | none => 0
  | some k => byteOfNat (16 + k.val)

def takeCauseCode : TakeCause → Byte
  | .command x => portCode (some x)
  | .cue k => byteOfNat (16 + k.val)
  | .follow i => byteOfNat (32 + i.val)
  | .auto => 48

def baudCode : Baud → Byte
  | .b38400 => 0
  | .b57600 => 1
  | .b115200 => 2
  | .b230400 => 3

/-- The reject length in bits 1 and 2 of a CUE.READ line byte (R197). -/
def rejectCode : RejectLength → Nat
  | .ms0 => 0
  | .ms2 => 1
  | .ms8 => 2
  | .ms32 => 3

/-- The active set, 17 bytes (R197). -/
def activeBytes (t : Tunables) : List Byte :=
  wordOfInt t.target ++ wordOfInt t.tolerance ++ wordOfInt t.maxBoost ++ wordOfInt t.maxCut
    ++ [byteOfInt t.riseRate, byteOfInt t.fallRate] ++ wordOfInt t.holdThreshold ++ wordOfInt t.defaultRamp
    ++ [byteOfInt t.ceiling] ++ wordOfInt t.release

/-- The pending tunable set: presence word and present values (R197). -/
def pendingBytes (t : TunableSet) : List Byte :=
  bytesOfNat 2 (presenceOf [t.target.isSome, t.tolerance.isSome, t.maxBoost.isSome, t.maxCut.isSome, t.riseRate.isSome,
      t.fallRate.isSome, t.holdThreshold.isSome, t.defaultRamp.isSome, t.ceiling.isSome, t.release.isSome])
    ++ presentWords [t.target, t.tolerance, t.maxBoost, t.maxCut]
    ++ (t.riseRate.map byteOfInt).toList ++ (t.fallRate.map byteOfInt).toList
    ++ presentWords [t.holdThreshold, t.defaultRamp] ++ (t.ceiling.map byteOfInt).toList ++ presentWords [t.release]

/-- The entry block of PROG.QUERY (R38, R197). -/
def entryBlock (P : Prog) : List Byte :=
  let e := P.entry
  [stateCode e.state, byteOfNat e.base, byteOfNat e.width, triggerCode e.trigger, tallyCode e.tally]
    ++ activeBytes e.active ++ pendingBytes e.pending
    ++ [portCode e.custodian, e.rights.setWidth 8, byteOfNat e.escalation, byteOfNat P.queue.count]
    ++ match P.queue.onAir with
      | some r => 1 :: bytesOfNat 2 r.record.id
      | none => [0]

/-- The status block of PORT.STATUS, 23 bytes (R188, R197). `presence` is the port set of the ports that are PRESENT. -/
def statusBlock (P : Port) (a : AudioPort) (presence : Byte) : List Byte :=
  bytesOfNat 2 P.notices.pendingKinds.toNat
    ++ [P.notices.segStarted.bitmap, P.notices.segClosed.bitmap, P.notices.takeMissed.bitmap, P.notices.overrun.bitmap,
        P.notices.escalated.bitmap, P.notices.custody.bitmap, P.notices.state.bitmap, P.notices.withdrawn.bitmap,
        P.notices.cueEdge.bitmap]
    ++ bytesOfNat 2 P.mask.toNat ++ [detectorCode a.detector] ++ bytesOfNat 6 a.airClock.toNat ++ [presence]
    ++ [byteOfNat P.timerSetting,
        byteOfNat (((P.timerCount.getD 0) + Config.ticksPerSecond - 1) / Config.ticksPerSecond)]

/-- The ports that are PRESENT, as a port set (R195). -/
def State.presenceByte (s : State) : Byte :=
  byteOfNat (presenceOf [(s.port .a).present, (s.port .b).present, (s.port .c).present])

/-- Class, policy, flags, presence byte, optional fields, label length and label, as in the cue body (R198). -/
def recordTail (r : SegRecord) : List Byte :=
  [classCode r.cls, policyCode r.policy, byteOfBool r.autoAdvance,
    byteOfNat (presenceOf [r.declared.isSome, r.entryGain.isSome, r.rampLength.isSome, r.duration.isSome,
      r.targetOverride.isSome, r.toleranceOverride.isSome])]
    ++ presentWords [r.declared, r.entryGain, r.rampLength, r.duration.map (fun d => (d : Int)), r.targetOverride,
      r.toleranceOverride]
    ++ byteOfNat r.label.length :: r.label

/-- A CUED record of SEG.LIST (R198). -/
def cuedBytes (r : SegRecord) : List Byte :=
  bytesOfNat 2 r.id ++ [portCode (some r.owner)] ++ recordTail r

/-- The ON AIR record of SEG.LIST: 19 bytes more (R198). -/
def onAirBytes (o : OnAir) : List Byte :=
  bytesOfNat 2 o.record.id ++ [16 ||| portCode (some o.record.owner)] ++ recordTail o.record
    ++ bytesOfNat 6 o.takeStamp.toNat ++ [takeCauseCode o.cause, policyCode o.policy,
      byteOfNat (presenceOf [o.overridden, o.overrun])]
    ++ wordOfInt o.target ++ wordOfInt o.tolerance ++ wordOfInt o.gainAtTake ++ bytesOfNat 4 o.framesOnAir

/-- The data of SEG.LIST: the count and the records, head first (R86, R198). -/
def listBytes (q : Queue) : List Byte :=
  byteOfNat q.count :: ((q.onAir.map onAirBytes).getD [] ++ (q.cued.map cuedBytes).flatten)

/-- A result record (R199). -/
def resultBytes (r : ResultRecord) : List Byte :=
  [byteOfNat r.programme.val] ++ bytesOfNat 2 r.id ++ [portCode (some r.owner), classCode r.cls, takeCauseCode r.cause]
    ++ bytesOfNat 6 r.takeStamp.toNat ++ bytesOfNat 4 r.framesOnAir
    ++ [endCauseCode r.endCause, policyCode r.policy, byteOfNat (presenceOf [r.overridden, r.overrun])]
    ++ wordOfInt r.target ++ wordOfInt r.tolerance
    ++ [byteOfNat (presenceOf [r.declared.isSome, r.integrated.isSome, r.maxMomentary.isSome, r.maxShortTerm.isSome])]
    ++ presentWords [r.declared, r.integrated, r.maxMomentary, r.maxShortTerm]
    ++ wordOfInt r.maxTruePeak ++ wordOfInt r.gainAtTake ++ wordOfInt r.gainAtEnd ++ bytesOfNat 3 r.heldBlocks
    ++ [verdictCode r.verdict, byteOfNat r.discardsBefore, byteOfNat r.label.length] ++ r.label

/-- The 436 bytes of a snapshot (R65, R190, R199). -/
def snapshotContent (p : Index) (segment : Bool) (stamp : Position) (a : Account) : List Byte :=
  [byteOfNat p.val, byteOfBool segment] ++ bytesOfNat 6 stamp.toNat
    ++ [byteOfBool a.integrated.isSome] ++ wordOfInt (a.integrated.getD 0)
    ++ bytesOfNat 4 a.windowCount ++ [byteOfBool a.saturated]
    ++ (a.bins.map fun b => bytesOfNat 3 b.count).flatten

/-- The meter block of METER.READ (R66, R197). -/
def meterBlock (P : Prog) : List Byte :=
  let fs := [momentary P.meas.inHist, momentary P.meas.outHist, shortTerm P.meas.inHist, shortTerm P.meas.outHist,
    P.meas.account.integrated, P.meas.segAccount.bind (·.account.integrated)]
  [stateCode P.entry.state, byteOfNat (presenceOf (fs.map (·.isSome)))] ++ presentWords fs
    ++ wordOfInt (roundAway P.gain.applied) ++ wordOfInt (roundAway P.gain.desired)
    ++ bytesOfNat 2 (reportedReduction P.gain.reduction) ++ [modeCode P.mode]

/-- The byte of one line in CUE.READ (R174, R197). -/
def lineByte (P : Port) (k : Index) (l : CueLine) : Byte :=
  byteOfNat ((if l.inverted then 1 else 0) + 2 * rejectCode l.reject + (if l.accepted then 8 else 0)
    + (if l.active then 16 else 0) + (if l.change.isSome then 32 else 0) + (if P.rising.getLsbD k.val then 64 else 0)
    + (if P.falling.getLsbD k.val then 128 else 0))

end Sys2Proof.Machine
end

