-- ==== Sys2Proof/Machine/Request.lean ====
section
/-! DEFINITION. What every request shares (10_control_ports.md): the frame and its CRC (R180), result codes (R184), the
refusal of a request, rights (R154), and the taking of a request at its frame end (R162, R183, R184). -/

namespace Sys2Proof.Machine

/-! ### The frame (R180) -/

/-- One bit of the CRC: generator x^16 + x^12 + x^5 + 1, most significant bit first. -/
def crcBit (r : BitVec 16) (b : Bool) : BitVec 16 :=
  if r.msb != b then (r <<< 1) ^^^ 0x1021 else r <<< 1

def crcByte (r : BitVec 16) (b : Byte) : BitVec 16 :=
  [7, 6, 5, 4, 3, 2, 1, 0].foldl (fun t i => crcBit t (b.getLsbD i)) r

/-- The CRC of a run of bytes; the register starts at 0xFFFF. -/
def crc16 (bs : List Byte) : BitVec 16 := bs.foldl crcByte 0xFFFF

/-- The length byte and the body, which the CRC covers. -/
def covered (body : List Byte) : List Byte := byteOfNat body.length :: body

/-- The two CRC bytes of a body, high byte first. -/
def crcBytes (body : List Byte) : List Byte :=
  [(crc16 (covered body)).extractLsb' 8 8, (crc16 (covered body)).setWidth 8]

/-- The frame of a body: lead byte, length, body, CRC. -/
def frameOf (body : List Byte) : List Byte := 0xA5 :: (covered body ++ crcBytes body)

/-! ### Results (R184, R197) -/

inductive Result where
  | ok | busy | noRights | wrongState | badValue | full | empty | noSuchId | malformed | unknown
  deriving DecidableEq, Repr

def Result.code : Result → Byte
  | .ok => 0x00
  | .busy => 0x01
  | .noRights => 0x02
  | .wrongState => 0x03
  | .badValue => 0x04
  | .full => 0x05
  | .empty => 0x06
  | .noSuchId => 0x07
  | .malformed => 0x08
  | .unknown => 0x09

/-- The outcome of the checks and the effect of a request: refused with a result and its data, or taken with the state
after it and the reply data. A refusal has no state of its own: it changes nothing (R184). -/
abbrev Taking := Except (Result × List Byte) (State × List Byte)

/-- A check: `r` when it fails (R185). -/
def demand (b : Bool) (r : Result) : Except (Result × List Byte) Unit :=
  if b then .ok () else .error (r, [])

/-- A field that is read: `r` when it cannot be. -/
def need {α : Type} (o : Option α) (r : Result) : Except (Result × List Byte) α :=
  match o with
  | some v => .ok v
  | none => .error (r, [])

/-! ### Rights (R154, R155) -/

/-- The bit of a port in a port set (R195). -/
def portBit : PortId → Nat
  | .a => 0
  | .b => 1
  | .c => 2

/-- The custodian of the programme, or the override port. -/
def State.governs (s : State) (x : PortId) (p : Index) : Bool :=
  (s.prog p).entry.custodian == some x || s.override == some x

/-- A port of the programme's cue-rights set. -/
def State.mayCue (s : State) (x : PortId) (p : Index) : Bool := (s.prog p).entry.rights.getLsbD (portBit x)

/-- The record's owner port, or the override port. -/
def State.mayEdit (s : State) (x : PortId) (r : SegRecord) : Bool := r.owner == x || s.override == some x

/-- CUE.CONFIG: the override port, or any port when the strap selects NONE. -/
def State.mayConfigureLines (s : State) (x : PortId) : Bool := s.override == none || s.override == some x

/-! ### Taking a request -/

/-- R162: what a well-formed frame does before its request is checked; the receiver has no frame in progress. -/
def Port.frameArrived (P : Port) : Port :=
  { P with
    rx := .idle
    gap := none
    present := true
    timerCount :=
      if P.timerSetting = 0 then P.timerCount else some (P.timerSetting * Config.ticksPerSecond) }

/-- The frame in progress, if any, is discarded and the gap timer stops (R181 to R183). -/
def Port.discardFrame (P : Port) : Port := { P with rx := .idle, gap := none }

/-- The reply frame: reply code, tag, result code, data (R180, R195). -/
def replyFrame (code tag : Byte) (r : Result) (data : List Byte) : List Byte :=
  frameOf ((code ||| 0x80) :: tag :: r.code :: data)

/-- The port begins its reply and is REPLYING (R183). -/
def State.sendReply (s : State) (x : PortId) (frame : List Byte) : State :=
  s.updPort x fun P => { P with reply := some frame }

/-- The state and the reply that the outcome of a request's checks and effect give; `s` is the state before it. -/
def Taking.conclude (t : Taking) (s : State) (x : PortId) (code tag : Byte) : State :=
  match t with
  | .ok (after, data) => after.sendReply x (replyFrame code tag .ok data)
  | .error (r, data) => s.sendReply x (replyFrame code tag r data)

/-- What a request does: the requesting port, its parameter bytes, and the state when it is taken. -/
abbrev Handler := PortId → List Byte → State → Taking

/-- R183, R184: the frame end of a well-formed frame that carries a request. -/
def State.takeRequest (s : State) (code : Byte) (h : Handler) (x : PortId) (tag : Byte) (ps : List Byte) : State :=
  if (s.port x).reply.isSome then s.updPort x Port.discardFrame
  else
    let s1 := s.updPort x Port.frameArrived
    (h x ps s1).conclude s1 x code tag

/-- A request row: the events already due are taken first (log 5). -/
def State.request (s : State) (code : Byte) (h : Handler) (x : PortId) (tag : Byte) (ps : List Byte) : State :=
  s.settle.takeRequest code h x tag ps

/-- A request with no parameter: one that carries some is MALFORMED (R185). -/
def noParams (ps : List Byte) : Except (Result × List Byte) Unit := demand ps.isEmpty .malformed

/-- The single parameter of a request that names a programme alone (R185). -/
def readProg (ps : List Byte) : Except (Result × List Byte) Index :=
  match ps with
  | [b] => need (indexOf b) .badValue
  | _ => .error (.malformed, [])

/-- Two parameter bytes. -/
def readTwo (ps : List Byte) : Except (Result × List Byte) (Byte × Byte) :=
  match ps with
  | [a, b] => .ok (a, b)
  | _ => .error (.malformed, [])

end Sys2Proof.Machine
end

