-- ==== Sys2Proof/Machine/CueLines.lean ====
section
/-! DEFINITION. The Cue Line Unit's commands and the restart pin (09_cue_lines.md, R193): CUE_LINE_CHANGE,
REJECT_LENGTH_EXPIRY, CUE_CONFIG, CUE_READ, RESTARTN_ARMED, RESTARTN_LOW. -/

namespace Sys2Proof.Machine

/-- R171: the raw level of line `k` changes to `high`. -/
def State.changeLine (s : State) (k : Index) (high : Bool) : State :=
  let l := s.line k
  if high = l.raw then s
  else
    let s1 := s.setLine k { l with raw := high }
    if high = l.accepted then s1.setLine k { l with raw := high, change := none }
    else if l.reject = .ms0 then s1.acceptEdge k
    else s1.setLine k { l with raw := high, change := some 0 }

def execCueLineChange (k : Index) (high : Bool) (s : State) : Host.Outcome State Fault Refusal :=
  .next (s.settle.changeLine k high)

/-- R171: the pending change of line `k` is accepted, when its elapsed time has reached the reject length: a change cancelled or
begun again first has not (log 3). -/
def State.expireReject (s : State) (k : Index) : State := if s.expired (.reject k) then s.acceptEdge k else s

def execRejectLengthExpiry (k : Index) (s : State) : Host.Outcome State Fault Refusal :=
  .next (s.settle.expireReject k)

/-- R175, step 1: the polarity, which reaches the tallies and makes no edge. -/
def State.setPolarity (s : State) (k : Index) (inverted : Bool) : State :=
  let l := { s.line k with inverted := inverted }
  if inverted = (s.line k).inverted then s
  else (s.setLine k l).mapProgs (Prog.tallyChange k l.active)

/-- R175, step 2: the reject length. -/
def State.setReject (s : State) (k : Index) (reject : RejectLength) : State :=
  let l := s.line k
  if reject = l.reject then s
  else
    let s1 := s.setLine k { l with reject := reject, change := l.change.map fun _ => 0 }
    if reject = .ms0 ∧ l.change.isSome = true then s1.acceptEdge k else s1

/-- CUE.CONFIG (R175). -/
def cueConfigRequest : Handler := fun x ps s =>
  match ps with
  | [line, polarity, length] => do
    let k ← need (indexOf line) .badValue
    let inverted ← need (flagOf polarity) .badValue
    let reject ← need (rejectOf length) .badValue
    demand (s.mayConfigureLines x) .noRights
    .ok ((s.setPolarity k inverted).setReject k reject, [])
  | _ => .error (.malformed, [])

def execCueConfig (x : PortId) (tag : Byte) (ps : List Byte) (s : State) : Host.Outcome State Fault Refusal :=
  .next (s.request 0x40 cueConfigRequest x tag ps)

/-- CUE.READ (R174). -/
def cueReadRequest : Handler := fun x ps s => do
  noParams ps
  .ok (s.updPort x Port.clearEdges, allIndices.map fun k => lineByte (s.port x) k (s.line k))

def execCueRead (x : PortId) (tag : Byte) (ps : List Byte) (s : State) : Host.Outcome State Fault Refusal :=
  .next (s.request 0x41 cueReadRequest x tag ps)

/-- R193: ten consecutive high samples arm the restart pin. -/
def execRestartnArmed (s : State) : Host.Outcome State Fault Refusal := .next { s with restartArmed := true }

/-- R193: ten consecutive low samples of the armed pin make a restart, which disarms it. -/
def State.pinLow (s : State) : State := if s.restartArmed then { s.restart with restartArmed := false } else s

def execRestartnLow (s : State) : Host.Outcome State Fault Refusal := .next s.settle.pinLow

end Sys2Proof.Machine
end

