-- ==== Sys2Proof/Machine/Ports.lean ====
section
/-! DEFINITION. The requests on the part and on the port itself (08, 10): DEV_IDENT, DEV_RESTART, PORT_STATUS, PORT_MASK,
PORT_TIMER, PORT_LEAVE, PORT_KEEPALIVE, and SILENCE_TIMER_EXPIRY. -/

namespace Sys2Proof.Machine

/-- DEV.IDENT (R192, R197). -/
def devIdentRequest : Handler := fun _ ps s => do
  noParams ps
  .ok (s, [Config.vendorHigh, Config.vendorLow, Config.partHigh, Config.partLow, Config.revision, portCode s.override,
    baudCode s.baud])

def execDevIdent (x : PortId) (tag : Byte) (ps : List Byte) (s : State) : Host.Outcome State Fault Refusal :=
  .next (s.request 0x01 devIdentRequest x tag ps)

/-- DEV.RESTART (R193). -/
def devRestartRequest : Handler := fun x ps s => do
  noParams ps
  demand (s.override == some x) .noRights
  .ok (s.restart, [])

def execDevRestart (x : PortId) (tag : Byte) (ps : List Byte) (s : State) : Host.Outcome State Fault Refusal :=
  .next (s.request 0x02 devRestartRequest x tag ps)

/-- A notice-kind set of two bytes (R195): a set bit 12 to 15 is BAD_VALUE. -/
def readKinds (ps : List Byte) : Except (Result × List Byte) (BitVec 12) :=
  match ps with
  | [hi, lo] => need (kindSetOf (hi ++ lo)) .badValue
  | _ => .error (.malformed, [])

/-- R188: the kinds of the clear set are cleared at the port. -/
def Port.clearNotices (kinds : BitVec 12) (P : Port) : Port := { P with notices := P.notices.clearKinds kinds }

/-- PORT.STATUS (R188): the reply is formed before the clearing. -/
def portStatusRequest : Handler := fun x ps s => do
  let kinds ← readKinds ps
  .ok (s.updPort x (Port.clearNotices kinds), statusBlock (s.port x) s.audio s.presenceByte)

def execPortStatus (x : PortId) (tag : Byte) (ps : List Byte) (s : State) : Host.Outcome State Fault Refusal :=
  .next (s.request 0x03 portStatusRequest x tag ps)

def Port.setMask (mask : BitVec 12) (P : Port) : Port := { P with mask := mask }

/-- PORT.MASK (R187). -/
def portMaskRequest : Handler := fun x ps s => do
  let mask ← readKinds ps
  .ok (s.updPort x (Port.setMask mask), bytesOfNat 2 (s.port x).mask.toNat)

def execPortMask (x : PortId) (tag : Byte) (ps : List Byte) (s : State) : Host.Outcome State Fault Refusal :=
  .next (s.request 0x04 portMaskRequest x tag ps)

/-- R164: a setting other than 0 loads the count; 0 stops it. -/
def Port.setTimer (setting : Nat) (P : Port) : Port :=
  { P with
    timerSetting := setting
    timerCount := if setting = 0 then none else some (setting * Config.ticksPerSecond) }

/-- PORT.TIMER (R164). -/
def portTimerRequest : Handler := fun x ps s =>
  match ps with
  | [setting] => .ok (s.updPort x (Port.setTimer setting.toNat), [byteOfNat (s.port x).timerSetting])
  | _ => .error (.malformed, [])

def execPortTimer (x : PortId) (tag : Byte) (ps : List Byte) (s : State) : Host.Outcome State Fault Refusal :=
  .next (s.request 0x05 portTimerRequest x tag ps)

/-- PORT.LEAVE (R165). -/
def portLeaveRequest : Handler := fun x ps s => do
  noParams ps
  .ok (s.lapse x, [])

def execPortLeave (x : PortId) (tag : Byte) (ps : List Byte) (s : State) : Host.Outcome State Fault Refusal :=
  .next (s.request 0x06 portLeaveRequest x tag ps)

/-- PORT.KEEPALIVE (R189). -/
def portKeepaliveRequest : Handler := fun _ ps s => do
  noParams ps
  .ok (s, [])

def execPortKeepalive (x : PortId) (tag : Byte) (ps : List Byte) (s : State) : Host.Outcome State Fault Refusal :=
  .next (s.request 0x07 portKeepaliveRequest x tag ps)

/-- R163: the port lapses, when its silence timer count has run out: a well-formed frame completed first has reloaded it, and no
lapse takes place (log 3). -/
def State.expireSilence (s : State) (x : PortId) : State := if s.expired (.silence x) then s.lapse x else s

def execSilenceTimerExpiry (x : PortId) (s : State) : Host.Outcome State Fault Refusal :=
  .next (s.settle.expireSilence x)

end Sys2Proof.Machine
end

