-- ==== Sys2Proof/Machine/Programmes.lean ====
section
/-! DEFINITION. The commands on programmes (02_programmes.md, 08_shared_control_custody_cue_rights_and_lapse.md):
BLOCK_CLOSE, RAMP_COMPLETION, DURATION_REACHED, the PROG requests and ACCOUNT_CLEAR. -/

namespace Sys2Proof.Machine

/-! ### Events -/

/-- BLOCK_CLOSE (R44, R49), when it is due. -/
def execBlockClose (p : Index) (s : State) : Host.Outcome State Fault Refusal := .next (s.settleClose p)

/-- RAMP_COMPLETION (R119), when it is due. -/
def execRampCompletion (p : Index) (s : State) : Host.Outcome State Fault Refusal := .next (s.settleRamp p)

/-- DURATION_REACHED (R96), when it is due. -/
def execDurationReached (p : Index) (s : State) : Host.Outcome State Fault Refusal := .next (s.settleDuration p)

/-! ### Reading and configuring -/

/-- PROG.QUERY (R38). -/
def progQueryRequest : Handler := fun _ ps s => do
  let p ← readProg ps
  .ok (s, entryBlock (s.prog p))

def execProgQuery (x : PortId) (tag : Byte) (ps : List Byte) (s : State) : Host.Outcome State Fault Refusal :=
  .next (s.request 0x10 progQueryRequest x tag ps)

/-- R27: the follow chain that starts at `q`, through the triggers as they stand, reaches `target` within `n` programmes. -/
def State.chainReaches (s : State) (target : Index) : (n : Nat) → (q : Index) → Bool
  | 0, _ => false
  | n + 1, q =>
    if q = target then true
    else match (s.prog q).entry.trigger with
      | .follow i => s.chainReaches target n i
      | .cue _ => false
      | .off => false

/-- R27: the trigger would close a follow cycle. -/
def State.closesCycle (s : State) (p : Index) (t : Trigger) : Bool :=
  match t with
  | .follow i => s.chainReaches p 8 i
  | .cue _ => false
  | .off => false

/-- R27: the width is 1, 2 or 6, and the slots lie within 0 to 15. -/
def slotsLegal (base width : Nat) : Bool :=
  (width == 1 || width == 2 || width == 6) && decide (base ≤ 15) && decide (base + width ≤ 16)

/-- R27: the four fields are replaced. -/
def Prog.configure (P : Prog) (base width : Nat) (trigger : Trigger) (tally : Option Index) : Prog :=
  P.setEntry { P.entry with base := base, width := width, trigger := trigger, tally := tally }

/-- PROG.SET (R27). -/
def progSetRequest : Handler := fun x ps s =>
  match ps with
  | [prog, base, width, trigger, tally] => do
    let p ← need (indexOf prog) .badValue
    demand (slotsLegal base.toNat width.toNat) .badValue
    let t ← need (triggerOf trigger) .badValue
    let l ← need (tallyOf tally) .badValue
    demand (!s.closesCycle p t) .badValue
    demand (s.governs x p) .noRights
    demand ((s.prog p).entry.state == .inactive) .wrongState
    .ok (s.updProg p fun P => P.configure base.toNat width.toNat t l, [])
  | _ => .error (.malformed, [])

def execProgSet (x : PortId) (tag : Byte) (ps : List Byte) (s : State) : Host.Outcome State Fault Refusal :=
  .next (s.request 0x11 progSetRequest x tag ps)

/-! ### Activation and deactivation -/

/-- Two entries name a slot in common (R17, R28). -/
def Entry.overlaps (a b : Entry) : Bool := decide (a.base < b.base + b.width) && decide (b.base < a.base + a.width)

/-- R28: a slot of `p` lies within the slots of another programme that is not INACTIVE. -/
def State.slotsTaken (s : State) (p : Index) : Bool :=
  allIndices.any fun q => q != p && (s.prog q).isActive && (s.prog p).entry.overlaps (s.prog q).entry

/-- R117, PROG.ACTIVATE. -/
def Gain.activated (g : Gain) : Gain :=
  { g with applied := 0, desired := 0, policy := .adaptive, holding := true, ramp := none }

/-- R63, PROG.ACTIVATE. -/
def Measure.activated (m : Measure) (tallyInactive : Bool) : Measure :=
  { m.start tallyInactive with account := .empty, segAccount := none }

/-- R28, steps 1 to 5, with R63, R117 and R130. -/
def State.activate (s : State) (p : Index) : State :=
  let P := s.prog p
  let e := { P.entry with state := ProgState.running, escalation := 0 }
  let r := activationFix e s.audio.line P.gain.activated
  ((s.setDelayLine r.1).setProg p
    { entry := e
      queue := P.queue
      meas := P.meas.activated (P.tallyInactive s.lines)
      gain := r.2 }).raiseAll .state p

/-- PROG.ACTIVATE (R28). -/
def progActivateRequest : Handler := fun x ps s => do
  let p ← readProg ps
  demand (!s.slotsTaken p) .badValue
  demand (s.governs x p) .noRights
  demand ((s.prog p).entry.state == .inactive) .wrongState
  .ok (s.activate p, [])

def execProgActivate (x : PortId) (tag : Byte) (ps : List Byte) (s : State) : Host.Outcome State Fault Refusal :=
  .next (s.request 0x12 progActivateRequest x tag ps)

/-- R30: the drain. -/
def State.startDrain (s : State) (p : Index) : State :=
  ((s.withdrawAll p).updProg p fun P => P.setState .draining).raiseAll .state p

/-- R29, R30, R31: a deactivation that is taken. -/
def State.deactivation (s : State) (p : Index) (force : Bool) : State :=
  if (s.prog p).hasOnAir then
    if force then ((s.endCore p .forced).withdrawAll p).deactivate p
    else if (s.prog p).entry.state = .draining then s
    else s.startDrain p
  else (s.withdrawAll p).deactivate p

/-- The checks and effect of request code 0x13 (R29, R30, R31). -/
def deactivateRequest : Handler := fun x ps s => do
  let b ← readTwo ps
  let p ← need (indexOf b.1) .badValue
  let force ← need (flagOf b.2) .badValue
  demand (s.governs x p) .noRights
  demand (s.prog p).isActive .wrongState
  .ok (s.deactivation p force, [])

/-- PROG.DEACTIVATE with a force byte other than SET. -/
def execProgDeactivate (x : PortId) (tag : Byte) (ps : List Byte) (s : State) : Host.Outcome State Fault Refusal :=
  .next (s.request 0x13 deactivateRequest x tag ps)

/-- PROG.DEACTIVATE with its force byte SET. -/
def execProgDeactivateForce (x : PortId) (tag : Byte) (ps : List Byte) (s : State) : Host.Outcome State Fault Refusal :=
  .next (s.request 0x13 deactivateRequest x tag ps)

/-! ### Running and stopping -/

/-- R117, PROG.RUN from STOPPED. -/
def Gain.resumed (g : Gain) : Gain := { g with desired := g.applied, policy := .adaptive, holding := true }

/-- R36, R63, R117: PROG.RUN from STOPPED. -/
def Prog.resume (P : Prog) (tallyInactive : Bool) : Prog :=
  { entry := P.entry.setState .running
    queue := P.queue
    meas := P.meas.start tallyInactive
    gain := P.gain.resumed }

/-- R36: PROG.RUN in each state it is not refused in. -/
def State.run (s : State) (p : Index) : State :=
  match (s.prog p).entry.state with
  | .stopping => (s.updProg p fun P => P.setState .running).raiseAll .state p
  | .stopped => (s.updProg p fun P => P.resume (P.tallyInactive s.lines)).raiseAll .state p
  | .running => s
  | .inactive => s
  | .draining => s

/-- R36: PROG.RUN is refused in INACTIVE and DRAINING. -/
def ProgState.runs : ProgState → Bool
  | .stopped => true
  | .running => true
  | .stopping => true
  | .inactive => false
  | .draining => false

/-- PROG.RUN (R36). -/
def progRunRequest : Handler := fun x ps s => do
  let p ← readProg ps
  demand (s.governs x p) .noRights
  demand (s.prog p).entry.state.runs .wrongState
  .ok (s.run p, [])

def execProgRun (x : PortId) (tag : Byte) (ps : List Byte) (s : State) : Host.Outcome State Fault Refusal :=
  .next (s.request 0x14 progRunRequest x tag ps)

/-- PROG.STOP (R34). -/
def progStopRequest : Handler := fun x ps s => do
  let p ← readProg ps
  demand (s.governs x p) .noRights
  demand ((s.prog p).entry.state == .running && !(s.prog p).hasOnAir) .wrongState
  .ok ((s.updProg p fun P => P.setState .stopping).raiseAll .state p, [])

def execProgStop (x : PortId) (tag : Byte) (ps : List Byte) (s : State) : Host.Outcome State Fault Refusal :=
  .next (s.request 0x15 progStopRequest x tag ps)

/-! ### Tunables -/

/-- R24: values carried replace values of the same tunable already pending. -/
def TunableSet.over (new old : TunableSet) : TunableSet where
  target := new.target.or old.target
  tolerance := new.tolerance.or old.tolerance
  maxBoost := new.maxBoost.or old.maxBoost
  maxCut := new.maxCut.or old.maxCut
  riseRate := new.riseRate.or old.riseRate
  fallRate := new.fallRate.or old.fallRate
  holdThreshold := new.holdThreshold.or old.holdThreshold
  defaultRamp := new.defaultRamp.or old.defaultRamp
  ceiling := new.ceiling.or old.ceiling
  release := new.release.or old.release

/-- R24: the active set with nothing on air, otherwise the pending set. -/
def Prog.tune (v : TunableSet) (P : Prog) : Prog :=
  if P.hasOnAir then P.setEntry { P.entry with pending := v.over P.entry.pending } else P.tuneActive v

/-- PROG.TUNE (R24). -/
def progTuneRequest : Handler := fun x ps s =>
  match ps with
  | prog :: rest => do
    let v ← need (readTunables rest) .malformed
    let p ← need (indexOf prog) .badValue
    demand v.legal .badValue
    demand (s.governs x p) .noRights
    .ok (s.updProg p (Prog.tune v), [])
  | [] => .error (.malformed, [])

def execProgTune (x : PortId) (tag : Byte) (ps : List Byte) (s : State) : Host.Outcome State Fault Refusal :=
  .next (s.request 0x16 progTuneRequest x tag ps)

/-! ### Custody and cue rights -/

/-- R157, R159, R161: a change of custodian, with CUSTODY at every port. -/
def State.setCustodian (s : State) (p : Index) (c : Option PortId) : State :=
  (s.updProg p fun P => P.setEntry { P.entry with custodian := c }).raiseAll .custody p

/-- R157: the outcome by the custodian, for a claim that has the rights. -/
def State.claim (s : State) (x : PortId) (p : Index) (force : Bool) : Taking :=
  match (s.prog p).entry.custodian with
  | none => .ok (s.setCustodian p (some x), [portCode (some x)])
  | some y =>
    if y = x then .ok (s, [portCode (some x)])
    else if force then .ok (s.setCustodian p (some x), [portCode (some x)])
    else .error (.busy, [portCode (some y)])

/-- The checks and effect of request code 0x17 (R157). -/
def claimRequest : Handler := fun x ps s => do
  let b ← readTwo ps
  let p ← need (indexOf b.1) .badValue
  let force ← need (flagOf b.2) .badValue
  demand (!force || s.override == some x) .noRights
  s.claim x p force

/-- PROG.CLAIM with a force byte other than SET. -/
def execProgClaim (x : PortId) (tag : Byte) (ps : List Byte) (s : State) : Host.Outcome State Fault Refusal :=
  .next (s.request 0x17 claimRequest x tag ps)

/-- PROG.CLAIM with its force byte SET. -/
def execProgClaimForce (x : PortId) (tag : Byte) (ps : List Byte) (s : State) : Host.Outcome State Fault Refusal :=
  .next (s.request 0x17 claimRequest x tag ps)

/-- PROG.RELEASE (R159). -/
def progReleaseRequest : Handler := fun x ps s => do
  let p ← readProg ps
  demand ((s.prog p).entry.custodian == some x) .noRights
  .ok (s.setCustodian p none, [])

def execProgRelease (x : PortId) (tag : Byte) (ps : List Byte) (s : State) : Host.Outcome State Fault Refusal :=
  .next (s.request 0x18 progReleaseRequest x tag ps)

/-- PROG.RIGHTS (R160). -/
def progRightsRequest : Handler := fun x ps s => do
  let b ← readTwo ps
  let p ← need (indexOf b.1) .badValue
  let rights ← need (portSetOf b.2) .badValue
  demand (s.governs x p) .noRights
  .ok (s.updProg p fun P => P.setEntry { P.entry with rights := rights }, [])

def execProgRights (x : PortId) (tag : Byte) (ps : List Byte) (s : State) : Host.Outcome State Fault Refusal :=
  .next (s.request 0x19 progRightsRequest x tag ps)

/-- R67: the Programme Account is emptied and the escalation counter becomes 0. -/
def Prog.clearAccount (P : Prog) : Prog :=
  (P.setEntry { P.entry with escalation := 0 }).setMeas { P.meas with account := .empty }

/-- ACCOUNT.CLEAR (R67). -/
def accountClearRequest : Handler := fun x ps s => do
  let p ← readProg ps
  demand (s.governs x p) .noRights
  .ok (s.updProg p Prog.clearAccount, [])

def execAccountClear (x : PortId) (tag : Byte) (ps : List Byte) (s : State) : Host.Outcome State Fault Refusal :=
  .next (s.request 0x1A accountClearRequest x tag ps)

end Sys2Proof.Machine
end

