-- ==== Sys2Proof/Machine/Readout.lean ====
section
/-! DEFINITION. The requests that read the Result Log, the accounts and the meters (R65, R66, R144 to R147, R190, R191):
LOG_COUNT, LOG_PEEK, LOG_FETCH, SNAP_TAKE, SNAP_READ, METER_READ. -/

namespace Sys2Proof.Machine

/-- LOG.COUNT (R145). -/
def logCountRequest : Handler := fun _ ps s => do
  noParams ps
  .ok (s, [byteOfNat s.log.length, byteOfNat s.discards])

def execLogCount (x : PortId) (tag : Byte) (ps : List Byte) (s : State) : Host.Outcome State Fault Refusal :=
  .next (s.request 0x30 logCountRequest x tag ps)

/-- LOG.PEEK (R146). -/
def logPeekRequest : Handler := fun _ ps s =>
  match ps with
  | [place] => do
    let r ← need s.log[place.toNat]? .empty
    .ok (s, resultBytes r)
  | _ => .error (.malformed, [])

def execLogPeek (x : PortId) (tag : Byte) (ps : List Byte) (s : State) : Host.Outcome State Fault Refusal :=
  .next (s.request 0x31 logPeekRequest x tag ps)

/-- LOG.FETCH (R147). -/
def logFetchRequest : Handler := fun _ ps s => do
  noParams ps
  let r ← need s.log.head? .empty
  .ok ({ s with log := s.log.tail }, resultBytes r)

def execLogFetch (x : PortId) (tag : Byte) (ps : List Byte) (s : State) : Host.Outcome State Fault Refusal :=
  .next (s.request 0x32 logFetchRequest x tag ps)

/-- A READY buffer at cursor 0 (R190). -/
def Snapshot.ready (content : List Byte) : Snapshot := ⟨content, 0, content.length⟩

def Port.setSnapshot (v : Option Snapshot) (P : Port) : Port := { P with snapshot := v }

/-- The account a snapshot copies (R65). -/
def Prog.accountOf (P : Prog) (segment : Bool) : Account :=
  if segment then (P.meas.segAccount.getD SegAccount.fresh).account else P.meas.account

/-- SNAP.TAKE (R190): the reply carries the 16-byte header. -/
def snapTakeRequest : Handler := fun x ps s => do
  let b ← readTwo ps
  let p ← need (indexOf b.1) .badValue
  let segment ← need (flagOf b.2) .badValue
  demand (!segment || (s.prog p).hasOnAir) .wrongState
  let content := snapshotContent p segment s.position ((s.prog p).accountOf segment)
  .ok (s.updPort x (Port.setSnapshot (some (Snapshot.ready content))), content.take 16)

def execSnapTake (x : PortId) (tag : Byte) (ps : List Byte) (s : State) : Host.Outcome State Fault Refusal :=
  .next (s.request 0x38 snapTakeRequest x tag ps)

/-- R191: the number of bytes a read returns. -/
def Snapshot.chunk (v : Snapshot) : Nat := min 128 v.remaining

/-- R191: the buffer after a read. -/
def Snapshot.advance (v : Snapshot) : Snapshot :=
  { v with cursor := v.cursor + v.chunk, remaining := v.remaining - v.chunk }

/-- SNAP.READ (R191). -/
def snapReadRequest : Handler := fun x ps s => do
  noParams ps
  let v ← need (s.port x).snapshot .empty
  demand (decide (0 < v.remaining)) .empty
  .ok (s.updPort x (Port.setSnapshot (some v.advance)),
    bytesOfNat 2 v.cursor ++ (v.content.drop v.cursor).take v.chunk)

def execSnapRead (x : PortId) (tag : Byte) (ps : List Byte) (s : State) : Host.Outcome State Fault Refusal :=
  .next (s.request 0x39 snapReadRequest x tag ps)

/-- METER.READ (R66). -/
def meterReadRequest : Handler := fun _ ps s => do
  let p ← readProg ps
  .ok (s, meterBlock (s.prog p))

def execMeterRead (x : PortId) (tag : Byte) (ps : List Byte) (s : State) : Host.Outcome State Fault Refusal :=
  .next (s.request 0x3A meterReadRequest x tag ps)

end Sys2Proof.Machine
end

