-- ==== Sys2Proof/Machine/Segments.lean ====
section
/-! DEFINITION. The requests on segment queues (04_segment_queues.md, R93, R100): SEG_CUE, SEG_AMEND, SEG_WITHDRAW,
SEG_TAKE, SEG_END, SEG_LIST. -/

namespace Sys2Proof.Machine

/-- A record of the queue carries the id (R69, R75). -/
def Queue.hasId (q : Queue) (id : Nat) : Bool := q.records.any fun r => r.id == id

/-- R75: SEG.CUE is taken in STOPPED, RUNNING and STOPPING. -/
def ProgState.cues : ProgState → Bool
  | .stopped => true
  | .running => true
  | .stopping => true
  | .inactive => false
  | .draining => false

/-- R75: the record is appended at the tail as CUED. -/
def Queue.append (q : Queue) (r : SegRecord) : Queue := { q with cued := q.cued ++ [r] }

/-- SEG.CUE (R75). -/
def segCueRequest : Handler := fun x ps s => do
  let c ← need (readCueBody ps) .malformed
  let p ← need (indexOf c.prog) .badValue
  let r ← need (c.record x) .badValue
  demand r.legal .badValue
  demand (!(s.prog p).queue.hasId r.id) .badValue
  demand (s.mayCue x p) .noRights
  demand (s.prog p).entry.state.cues .wrongState
  demand (decide ((s.prog p).queue.count < Config.queueLimit)) .full
  .ok (s.updProg p fun P => P.setQueue (P.queue.append r), [byteOfNat ((s.prog p).queue.count + 1)])

def execSegCue (x : PortId) (tag : Byte) (ps : List Byte) (s : State) : Host.Outcome State Fault Refusal :=
  .next (s.request 0x20 segCueRequest x tag ps)

/-- The record of the queue with this id, and whether it is ON AIR. -/
def Queue.find (q : Queue) (id : Nat) : Option (SegRecord × Bool) :=
  match q.onAir with
  | some o => if o.record.id = id then some (o.record, true) else (q.cued.find? fun r => r.id == id).map fun r => (r, false)
  | none => (q.cued.find? fun r => r.id == id).map fun r => (r, false)

/-- R78: the CUED record takes the fields of the amended record and keeps its place. -/
def Queue.amend (q : Queue) (a : AmendBody) : Queue :=
  { q with cued := q.cued.map fun r => if r.id = a.id.toNat then a.amended r else r }

/-- SEG.AMEND (R77, R78): with no record of the id, the checks of the amended record and of rights are passed over. -/
def segAmendRequest : Handler := fun x ps s => do
  let a ← need (readAmendBody ps) .malformed
  let p ← need (indexOf a.prog) .badValue
  demand (decide (1 ≤ a.id.toNat)) .badValue
  demand a.valuesLegal .badValue
  match (s.prog p).queue.find a.id.toNat with
  | none => .error (.noSuchId, [])
  | some (r, air) => do
    demand (a.amended r).legal .badValue
    demand (s.mayEdit x r) .noRights
    demand (!air) .wrongState
    .ok (s.updProg p fun P => P.setQueue (P.queue.amend a), [])

def execSegAmend (x : PortId) (tag : Byte) (ps : List Byte) (s : State) : Host.Outcome State Fault Refusal :=
  .next (s.request 0x21 segAmendRequest x tag ps)

/-- R80: the record with this id is removed from the CUED records. -/
def Queue.remove (q : Queue) (id : Nat) : Queue := { q with cued := q.cued.filter fun r => r.id != id }

/-- R80: a withdrawal of `r` by `x` that is taken, with WITHDRAWN at the owner when another port asked. -/
def State.withdraw (s : State) (x : PortId) (p : Index) (r : SegRecord) : State :=
  let s1 := s.updProg p fun P => P.setQueue (P.queue.remove r.id)
  if r.owner = x then s1 else s1.raiseAt r.owner .withdrawn (bitOf p)

/-- SEG.WITHDRAW (R80). -/
def segWithdrawRequest : Handler := fun x ps s =>
  match ps with
  | [prog, hi, lo] => do
    let p ← need (indexOf prog) .badValue
    let id : BitVec 16 := hi ++ lo
    demand (decide (1 ≤ id.toNat)) .badValue
    match (s.prog p).queue.find id.toNat with
    | none => .error (.noSuchId, [])
    | some (r, air) => do
      demand (s.mayEdit x r) .noRights
      demand (!air) .wrongState
      let t := s.withdraw x p r
      .ok (t, [byteOfNat (t.prog p).queue.count])
  | _ => .error (.malformed, [])

def execSegWithdraw (x : PortId) (tag : Byte) (ps : List Byte) (s : State) : Host.Outcome State Fault Refusal :=
  .next (s.request 0x22 segWithdrawRequest x tag ps)

/-- An expected id that is carried and is 0 is BAD_VALUE (R93, R100). -/
def expectedLegal (e : Option (BitVec 16)) : Bool := e.all fun v => decide (1 ≤ v.toNat)

/-- An expected id that is carried is this one (R93, R100). -/
def expectedIs (e : Option (BitVec 16)) (id : Nat) : Bool := e.all fun v => v.toNat == id

/-- SEG.TAKE (R93): EMPTY is checked before NO_SUCH_ID. -/
def segTakeRequest : Handler := fun x ps s => do
  let b ← need (readTakeBody ps) .malformed
  let p ← need (indexOf b.1) .badValue
  demand (expectedLegal b.2) .badValue
  demand (s.mayCue x p) .noRights
  demand ((s.prog p).entry.state == .running) .wrongState
  let r ← need (s.prog p).queue.cued.head? .empty
  demand (expectedIs b.2 r.id) .noSuchId
  .ok (s.take p (.command x), bytesOfNat 2 r.id ++ bytesOfNat 6 s.position.toNat)

def execSegTake (x : PortId) (tag : Byte) (ps : List Byte) (s : State) : Host.Outcome State Fault Refusal :=
  .next (s.request 0x23 segTakeRequest x tag ps)

/-- SEG.END (R100). -/
def segEndRequest : Handler := fun x ps s => do
  let b ← need (readEndBody ps) .malformed
  let p ← need (indexOf b.1) .badValue
  let cause ← need (endCauseOf b.2.1) .badValue
  demand (expectedLegal b.2.2) .badValue
  demand (s.mayCue x p) .noRights
  let r ← need (s.prog p).queue.onAir .wrongState
  demand (expectedIs b.2.2 r.record.id) .noSuchId
  .ok (s.endSegment p cause, bytesOfNat 2 r.record.id ++ bytesOfNat 6 s.position.toNat)

def execSegEnd (x : PortId) (tag : Byte) (ps : List Byte) (s : State) : Host.Outcome State Fault Refusal :=
  .next (s.request 0x24 segEndRequest x tag ps)

/-- SEG.LIST (R86). -/
def segListRequest : Handler := fun _ ps s => do
  let p ← readProg ps
  .ok (s, listBytes (s.prog p).queue)

def execSegList (x : PortId) (tag : Byte) (ps : List Byte) (s : State) : Host.Outcome State Fault Refusal :=
  .next (s.request 0x25 segListRequest x tag ps)

end Sys2Proof.Machine
end

