-- ==== Sys2Proof/Machine/Reception.lean ====
section
/-! DEFINITION. Reception on RXD and the end of a reply (R181 to R183, R185): BYTE_RECEIVED, FRAME_CRC_WRONG,
LENGTH_INVALID, FRAMING_ERROR, GAP_TIMEOUT, FRAME_DURING_REPLY, REPLY_END, UNKNOWN_REQUEST. -/

namespace Sys2Proof.Machine

/-- The request of a code (R197); none when the code is not recognised. -/
def handlerOf (code : Byte) : Option Handler :=
  match code.toNat with
  | 0x01 => some devIdentRequest
  | 0x02 => some devRestartRequest
  | 0x03 => some portStatusRequest
  | 0x04 => some portMaskRequest
  | 0x05 => some portTimerRequest
  | 0x06 => some portLeaveRequest
  | 0x07 => some portKeepaliveRequest
  | 0x10 => some progQueryRequest
  | 0x11 => some progSetRequest
  | 0x12 => some progActivateRequest
  | 0x13 => some deactivateRequest
  | 0x14 => some progRunRequest
  | 0x15 => some progStopRequest
  | 0x16 => some progTuneRequest
  | 0x17 => some claimRequest
  | 0x18 => some progReleaseRequest
  | 0x19 => some progRightsRequest
  | 0x1A => some accountClearRequest
  | 0x20 => some segCueRequest
  | 0x21 => some segAmendRequest
  | 0x22 => some segWithdrawRequest
  | 0x23 => some segTakeRequest
  | 0x24 => some segEndRequest
  | 0x25 => some segListRequest
  | 0x30 => some logCountRequest
  | 0x31 => some logPeekRequest
  | 0x32 => some logFetchRequest
  | 0x38 => some snapTakeRequest
  | 0x39 => some snapReadRequest
  | 0x3A => some meterReadRequest
  | 0x40 => some cueConfigRequest
  | 0x41 => some cueReadRequest
  | _ => none

/-- A refusal whatever the parameters. -/
def refuseAll (r : Result) : Handler := fun _ _ _ => .error (r, [])

/-- R184, R185: the frame end of a well-formed frame with this body. A body with no tag is MALFORMED and echoes 0x00; a
code that is not recognised is UNKNOWN. An empty body makes no frame (R180). -/
def State.frameEnd (s : State) (x : PortId) (body : List Byte) : State :=
  match body with
  | [] => s
  | [code] => s.takeRequest code (refuseAll .malformed) x 0x00 []
  | code :: tag :: ps => s.takeRequest code ((handlerOf code).getD (refuseAll .unknown)) x tag ps

def execUnknownRequest (x : PortId) (body : List Byte) (s : State) : Host.Outcome State Fault Refusal :=
  .next (s.settle.frameEnd x body)

/-- A byte is kept: the receiver moves on and the gap timer restarts (R181). -/
def Port.keep (P : Port) (rx : Receiver) : Port := { P with rx := rx, gap := some 0 }

/-- R181: a length byte from 1 to 250. -/
def lengthValid (b : Byte) : Bool := decide (1 ≤ b.toNat) && decide (b.toNat ≤ 250)

/-- The receiver after a body byte: the L-th is followed by the CRC (R181). -/
def bodyByte (length : Nat) (got : List Byte) (b : Byte) : Receiver :=
  if length ≤ got.length + 1 then .crc length (got ++ [b]) [] else .body length (got ++ [b])

/-- R181, R183: the second CRC byte completes the frame. -/
def State.completeRx (s : State) (x : PortId) (body crc : List Byte) : State :=
  if (s.port x).reply.isSome then s.updPort x Port.discardFrame
  else if crc = crcBytes body then s.frameEnd x body
  else s.updPort x Port.discardFrame

/-- R181: one byte received. -/
def State.receive (s : State) (x : PortId) (b : Byte) : State :=
  match (s.port x).rx with
  | .idle => if b = 0xA5 then s.updPort x fun P => P.keep .awaitLength else s
  | .awaitLength =>
    if lengthValid b then s.updPort x fun P => P.keep (.body b.toNat [])
    else s.updPort x Port.discardFrame
  | .body length got => s.updPort x fun P => P.keep (bodyByte length got b)
  | .crc length body [] => s.updPort x fun P => P.keep (.crc length body [b])
  | .crc _ body (c :: _) => s.completeRx x body [c, b]

def execByteReceived (x : PortId) (byte : Byte) (s : State) : Host.Outcome State Fault Refusal :=
  .next (s.settle.receive x byte)

/-- R181: a frame that completes with a wrong CRC is discarded. -/
def execFrameCrcWrong (x : PortId) (s : State) : Host.Outcome State Fault Refusal :=
  .next (s.updPort x Port.discardFrame)

/-- R181: a length byte of 0 or of 251 to 255 discards the frame. -/
def execLengthInvalid (x : PortId) (s : State) : Host.Outcome State Fault Refusal :=
  .next (s.updPort x Port.discardFrame)

/-- R182: a framing error discards the frame in progress; in IDLE it is skipped. -/
def execFramingError (x : PortId) (s : State) : Host.Outcome State Fault Refusal :=
  .next (s.updPort x Port.discardFrame)

/-- R182: the frame in progress is discarded, when the gap timer has run its time: a byte taken first has restarted it (log 3). -/
def State.expireGap (s : State) (x : PortId) : State := if s.expired (.gap x) then s.updPort x Port.discardFrame else s

def execGapTimeout (x : PortId) (s : State) : Host.Outcome State Fault Refusal := .next (s.expireGap x)

/-- R183: a frame that completes while the port is REPLYING is discarded. A port that is not REPLYING has no such frame
(log 4). -/
def execFrameDuringReply (x : PortId) (s : State) : Host.Outcome State Fault Refusal :=
  .next (if (s.port x).reply.isSome then s.updPort x Port.discardFrame else s)

/-- R183: the reply ends; a frame begun during it goes on. -/
def execReplyEnd (x : PortId) (s : State) : Host.Outcome State Fault Refusal :=
  .next (s.updPort x fun P => { P with reply := none })

end Sys2Proof.Machine
end

