-- ==== Sys2Proof/Machine/Clock.lean ====
section
/-! DEFINITION. The reference clock: what the block does when no command waits (log 2). -/

namespace Sys2Proof.Machine

/-- The key of a timer in the free order (log 6). -/
def Timer.key : Timer → Nat
  | .watch => 8
  | .gap x => 9 + portBit x
  | .silence x => 12 + portBit x
  | .reject k => k.val

/-- What the expiry of a timer does, when it has run its time. -/
def State.expire (s : State) : Timer → State
  | .watch => s.expireWatch
  | .gap x => s.expireGap x
  | .silence x => s.expireSilence x
  | .reject k => s.expireReject k

/-- The timer that comes first in the free order. -/
def firstTimer (n : Nat) : (t : Timer) → List Timer → Timer
  | t, [] => t
  | t, u :: us => if Config.orderKey n u.key < Config.orderKey n t.key then firstTimer n u us else firstTimer n t us

/-- One tick on a port: the gap timer counts up, the silence timer count of a PRESENT port counts down (R163). -/
def Port.tick (P : Port) : Port :=
  { P with
    gap := P.gap.map (· + 1)
    timerCount := if P.present then P.timerCount.map (· - 1) else P.timerCount }

def CueLine.tick (l : CueLine) : CueLine := { l with change := l.change.map (· + 1) }

/-- One tick of the reference clock. -/
def State.tick (s : State) : State :=
  { s with
    audio := { s.audio with watch := s.audio.watch.map (· + 1) }
    ports := s.ports.map Port.tick
    lines := s.lines.map CueLine.tick }

/-- With no command waiting: the events already due are taken; then one expired timer, if there is any, takes effect,
in the free order among several; otherwise one tick passes (log 2). -/
def State.idle (s : State) : State :=
  let u := s.settle
  match allTimers.filter u.expired with
  | [] => u.tick
  | [t] => u.expire t
  | t :: ts => (u.useFree).expire (firstTimer u.freeCount t ts)

end Sys2Proof.Machine
end

