-- ==== Sys2Proof/Machine/Dispatch.lean ====
section
/-! DEFINITION. exec: one arm per command, each one call of its meaning. -/

namespace Sys2Proof.Machine

def exec (i : Instr) (s : State) : Host.Outcome State Fault Refusal :=
  match i with
  | .powerOnReset straps levels => Sys2Proof.Machine.execPowerOnReset straps levels s
  | .frameSync => Sys2Proof.Machine.execFrameSync s
  | .goodFrameCount48 => Sys2Proof.Machine.execGoodFrameCount48 s
  | .missingFrameSync => Sys2Proof.Machine.execMissingFrameSync s
  | .syncWatchExpiry => Sys2Proof.Machine.execSyncWatchExpiry s
  | .processedFrame slots => Sys2Proof.Machine.execProcessedFrame slots s
  | .blockClose p => Sys2Proof.Machine.execBlockClose p s
  | .rampCompletion p => Sys2Proof.Machine.execRampCompletion p s
  | .durationReached p => Sys2Proof.Machine.execDurationReached p s
  | .cueLineChange k high => Sys2Proof.Machine.execCueLineChange k high s
  | .rejectLengthExpiry k => Sys2Proof.Machine.execRejectLengthExpiry k s
  | .restartnArmed => Sys2Proof.Machine.execRestartnArmed s
  | .restartnLow => Sys2Proof.Machine.execRestartnLow s
  | .frameCrcWrong x => Sys2Proof.Machine.execFrameCrcWrong x s
  | .lengthInvalid x => Sys2Proof.Machine.execLengthInvalid x s
  | .framingError x => Sys2Proof.Machine.execFramingError x s
  | .gapTimeout x => Sys2Proof.Machine.execGapTimeout x s
  | .frameDuringReply x => Sys2Proof.Machine.execFrameDuringReply x s
  | .replyEnd x => Sys2Proof.Machine.execReplyEnd x s
  | .unknownRequest x body => Sys2Proof.Machine.execUnknownRequest x body s
  | .devIdent x tag ps => Sys2Proof.Machine.execDevIdent x tag ps s
  | .devRestart x tag ps => Sys2Proof.Machine.execDevRestart x tag ps s
  | .portStatus x tag ps => Sys2Proof.Machine.execPortStatus x tag ps s
  | .portMask x tag ps => Sys2Proof.Machine.execPortMask x tag ps s
  | .portTimer x tag ps => Sys2Proof.Machine.execPortTimer x tag ps s
  | .portLeave x tag ps => Sys2Proof.Machine.execPortLeave x tag ps s
  | .portKeepalive x tag ps => Sys2Proof.Machine.execPortKeepalive x tag ps s
  | .silenceTimerExpiry x => Sys2Proof.Machine.execSilenceTimerExpiry x s
  | .progQuery x tag ps => Sys2Proof.Machine.execProgQuery x tag ps s
  | .progSet x tag ps => Sys2Proof.Machine.execProgSet x tag ps s
  | .progActivate x tag ps => Sys2Proof.Machine.execProgActivate x tag ps s
  | .progDeactivate x tag ps => Sys2Proof.Machine.execProgDeactivate x tag ps s
  | .progDeactivateForce x tag ps => Sys2Proof.Machine.execProgDeactivateForce x tag ps s
  | .progRun x tag ps => Sys2Proof.Machine.execProgRun x tag ps s
  | .progStop x tag ps => Sys2Proof.Machine.execProgStop x tag ps s
  | .progTune x tag ps => Sys2Proof.Machine.execProgTune x tag ps s
  | .progClaim x tag ps => Sys2Proof.Machine.execProgClaim x tag ps s
  | .progClaimForce x tag ps => Sys2Proof.Machine.execProgClaimForce x tag ps s
  | .progRelease x tag ps => Sys2Proof.Machine.execProgRelease x tag ps s
  | .progRights x tag ps => Sys2Proof.Machine.execProgRights x tag ps s
  | .accountClear x tag ps => Sys2Proof.Machine.execAccountClear x tag ps s
  | .segCue x tag ps => Sys2Proof.Machine.execSegCue x tag ps s
  | .segAmend x tag ps => Sys2Proof.Machine.execSegAmend x tag ps s
  | .segWithdraw x tag ps => Sys2Proof.Machine.execSegWithdraw x tag ps s
  | .segTake x tag ps => Sys2Proof.Machine.execSegTake x tag ps s
  | .segEnd x tag ps => Sys2Proof.Machine.execSegEnd x tag ps s
  | .segList x tag ps => Sys2Proof.Machine.execSegList x tag ps s
  | .logCount x tag ps => Sys2Proof.Machine.execLogCount x tag ps s
  | .logPeek x tag ps => Sys2Proof.Machine.execLogPeek x tag ps s
  | .logFetch x tag ps => Sys2Proof.Machine.execLogFetch x tag ps s
  | .snapTake x tag ps => Sys2Proof.Machine.execSnapTake x tag ps s
  | .snapRead x tag ps => Sys2Proof.Machine.execSnapRead x tag ps s
  | .meterRead x tag ps => Sys2Proof.Machine.execMeterRead x tag ps s
  | .cueConfig x tag ps => Sys2Proof.Machine.execCueConfig x tag ps s
  | .cueRead x tag ps => Sys2Proof.Machine.execCueRead x tag ps s
  | .byteReceived x byte => Sys2Proof.Machine.execByteReceived x byte s

end Sys2Proof.Machine
end

