-- ==== Sys2Proof/Safety.lean ====
section
/-! DEFINITION. What the statements about the machine speak of: the state in which a request is judged, the answer to a
request, the rows that are requests, and the properties of State that every step is to keep. -/

namespace Sys2Proof.Machine

/-! ### Requests -/

/-- The state in which a request from `x` is judged: the events already due are taken (log 5), and the frame end has
restored the presence of the port and reloaded its silence timer (R162). -/
def State.judged (s : State) (x : PortId) : State := s.settle.updPort x Port.frameArrived

/-- The port is not REPLYING, so a frame that completes is taken (R183). -/
def State.receptive (s : State) (x : PortId) : Prop := (s.settle.port x).reply = none

/-- The outcome of a request that leaves the state `t` and this reply. -/
def answered (t : State) (x : PortId) (code tag : Byte) (r : Result) (data : List Byte) :
    Host.Outcome State Fault Refusal :=
  .next (t.sendReply x (replyFrame code tag r data))

/-- The byte that names a programme or a line (R195). -/
def indexByte (p : Index) : Byte := byteOfNat p.val

/-- The request rows with the request code each carries, on one port with one tag and one list of parameter bytes. -/
def requestRows (x : PortId) (tag : Byte) (ps : List Byte) : List (Byte × Instr) :=
  [(0x01, .devIdent x tag ps), (0x02, .devRestart x tag ps), (0x03, .portStatus x tag ps), (0x04, .portMask x tag ps),
   (0x05, .portTimer x tag ps), (0x06, .portLeave x tag ps), (0x07, .portKeepalive x tag ps)]
  ++ [(0x10, .progQuery x tag ps), (0x11, .progSet x tag ps), (0x12, .progActivate x tag ps),
   (0x13, .progDeactivate x tag ps), (0x13, .progDeactivateForce x tag ps), (0x14, .progRun x tag ps),
   (0x15, .progStop x tag ps), (0x16, .progTune x tag ps), (0x17, .progClaim x tag ps),
   (0x17, .progClaimForce x tag ps), (0x18, .progRelease x tag ps), (0x19, .progRights x tag ps),
   (0x1A, .accountClear x tag ps)]
  ++ [(0x20, .segCue x tag ps), (0x21, .segAmend x tag ps), (0x22, .segWithdraw x tag ps), (0x23, .segTake x tag ps),
   (0x24, .segEnd x tag ps), (0x25, .segList x tag ps), (0x30, .logCount x tag ps), (0x31, .logPeek x tag ps),
   (0x32, .logFetch x tag ps), (0x38, .snapTake x tag ps), (0x39, .snapRead x tag ps), (0x3A, .meterRead x tag ps),
   (0x40, .cueConfig x tag ps), (0x41, .cueRead x tag ps)]

/-- The rows whose request carries no parameter (R197). -/
def bareRows (x : PortId) (tag : Byte) (ps : List Byte) : List (Byte × Instr) :=
  [(0x01, .devIdent x tag ps), (0x02, .devRestart x tag ps), (0x06, .portLeave x tag ps), (0x07, .portKeepalive x tag ps),
   (0x30, .logCount x tag ps), (0x32, .logFetch x tag ps), (0x39, .snapRead x tag ps), (0x41, .cueRead x tag ps)]

/-- The rows whose request carries one programme byte and nothing else (R197). -/
def progRows (x : PortId) (tag : Byte) (ps : List Byte) : List (Byte × Instr) :=
  [(0x10, .progQuery x tag ps), (0x12, .progActivate x tag ps), (0x14, .progRun x tag ps), (0x15, .progStop x tag ps),
   (0x18, .progRelease x tag ps), (0x1A, .accountClear x tag ps), (0x25, .segList x tag ps), (0x3A, .meterRead x tag ps)]

/-- The rows whose request carries two bytes, the first of them a programme (R197). -/
def progPairRows (x : PortId) (tag : Byte) (ps : List Byte) : List (Byte × Instr) :=
  [(0x13, .progDeactivate x tag ps), (0x13, .progDeactivateForce x tag ps), (0x17, .progClaim x tag ps),
   (0x17, .progClaimForce x tag ps), (0x19, .progRights x tag ps), (0x38, .snapTake x tag ps)]

/-- The notice of kind `k` is PENDING at every port, with `i` in its bitmap (R186). -/
def State.noticed (s : State) (k : Kind) (i : Index) : Prop :=
  ∀ x, ((s.port x).notices.get k).pending = true ∧ ((s.port x).notices.get k).bitmap.getLsbD i.val = true

/-- The notice of kind `k`, which has no bitmap, is PENDING at every port. -/
def State.noticedPlain (s : State) (k : Kind) : Prop := ∀ x, ((s.port x).notices.get k).pending = true

/-- Of the ports, at most notices have changed, and none but those of these kinds. -/
def State.onlyNotices (s t : State) (kinds : List Kind) : Prop :=
  ∀ x, t.port x = { s.port x with notices := (t.port x).notices }
    ∧ ∀ k, k ∉ kinds → (t.port x).notices.get k = (s.port x).notices.get k

/-- R186: from `s` to `t` each kind but CUE_EDGE, LOG_HALF and LOG_DISCARD was raised for exactly the programmes `raised` says, at
every port. -/
def State.raisedBy (s t : State) (raised : Kind → Index → Prop) : Prop :=
  ∀ x k, k ≠ .cueEdge → k ≠ .logHalf → k ≠ .logDiscard →
    let old := (s.port x).notices.get k
    let new := (t.port x).notices.get k
    (new.pending = true ↔ old.pending = true ∨ ∃ q, raised k q)
      ∧ ∀ q : Index, new.bitmap.getLsbD q.val = true ↔ old.bitmap.getLsbD q.val = true ∨ raised k q

/-- R97, R106, R139: what takes on the programmes `who` raise: SEG_STARTED where a take acts, SEG_CLOSED where a segment ended
with it, TAKE_MISSED where it does not act, and ESCALATED where a counter has gone from 2 to 3. -/
def State.takesNoticed (s t : State) (who : Index → Prop) : Prop :=
  s.raisedBy t fun k q => match k with
    | .segStarted => who q ∧ (s.prog q).takeActs = true
    | .segClosed => who q ∧ (s.prog q).takeActs = true ∧ (s.prog q).hasOnAir = true
    | .takeMissed => who q ∧ (s.prog q).takeActs = false
    | .escalated => (s.prog q).entry.escalation = 2 ∧ (t.prog q).entry.escalation = 3
    | _ => False

/-- R140, R142, R143: from `s` to `t` this many records were posted: the log has grown to at most 48 of them, LOG_HALF was raised
if it has reached 24, and LOG_DISCARD if it was full before one of them. -/
def State.logNoticed (s t : State) (n : Nat) : Prop :=
  t.log.length = max s.log.length (min 48 (s.log.length + n))
    ∧ ∀ x, ((t.port x).notices.logHalf.pending = true
        ↔ (s.port x).notices.logHalf.pending = true ∨ (s.log.length < 24 ∧ 24 ≤ s.log.length + n))
      ∧ ((t.port x).notices.logDiscard.pending = true
        ↔ (s.port x).notices.logDiscard.pending = true ∨ (0 < n ∧ 48 < s.log.length + n))
      ∧ (t.port x).notices.logHalf.bitmap = (s.port x).notices.logHalf.bitmap
      ∧ (t.port x).notices.logDiscard.bitmap = (s.port x).notices.logDiscard.bitmap

/-! ### The Audio Port -/

/-- R12: the delay line holds 80 stages of 16 samples, raw and corrected. -/
def State.lineShaped (s : State) : Prop :=
  s.audio.line.length = Config.delayFrames ∧ ∀ st ∈ s.audio.line, st.raw.length = 16 ∧ st.cor.length = 16

/-- R5, R6: no frame is in progress exactly in LOST, the good-frame count stops at 48, and SDOUT carries 16 samples. -/
def State.detectorFits (s : State) : Prop :=
  (s.audio.detector = .lost ↔ s.audio.phase = .absent) ∧ s.audio.goodFrames ≤ Config.goodFramesToLock
    ∧ s.audio.sdout.length = 16

/-- R5, R6: SDOUT carries zero samples whenever the detector is not LOCKED. -/
def State.silentUnlessLocked (s : State) : Prop := s.audio.detector ≠ .locked → s.audio.sdout = List.replicate 16 0

/-! ### Programmes and queues -/

/-- R20: the follow relation is acyclic: the programmes can be ranked so that each ranks above the one it follows. -/
def State.followAcyclic (s : State) : Prop :=
  ∃ rank : Index → Nat, ∀ q i, (s.prog q).entry.trigger = .follow i → rank i < rank q

/-- R95: a take on `p` reaches `p`, and each programme that follows one it reaches and on which the take acts: `q` is in every
set of programmes with these in it. -/
def State.reaches (s : State) (p q : Index) : Prop :=
  ∀ R : Index → Prop, R p →
    (∀ l f, R l → (s.prog l).takeActs = true → (s.prog f).entry.trigger = .follow l → R f) → R q

/-- R17: the slots of every entry lie within 0 to 15. -/
def State.slotsWithin (s : State) : Prop := ∀ p, slotsLegal (s.prog p).entry.base (s.prog p).entry.width = true

/-- R17: two programmes that are not INACTIVE have no slot in common. -/
def State.slotsDisjoint (s : State) : Prop :=
  ∀ p q, p ≠ q → (s.prog p).isActive = true → (s.prog q).isActive = true →
    (s.prog p).entry.overlaps (s.prog q).entry = false

/-- R69, R71: at most 6 records, no two with one id, each legal. -/
def Queue.sound (q : Queue) : Prop :=
  q.count ≤ Config.queueLimit ∧ (q.records.map (·.id)).Nodup ∧ ∀ r ∈ q.records, r.legal = true

/-- R69, R25, R58, R121: what stands on air fits the state, and with nothing on air the pending set is empty, no ramp is in
progress and there is no Segment Account. -/
def Prog.fitsState (P : Prog) : Prop :=
  (P.entry.state = .inactive → P.queue = .reset)
    ∧ (P.entry.state = .stopped ∨ P.entry.state = .stopping → P.queue.onAir = none)
    ∧ (P.entry.state = .draining → P.hasOnAir = true ∧ P.queue.cued = [])
    ∧ (P.queue.onAir = none → P.entry.pending = .empty ∧ P.gain.ramp = none ∧ P.meas.segAccount = none)
    ∧ (P.hasOnAir = true → P.meas.segAccount.isSome = true)

/-- R156, R82: a port that is ABSENT is custodian of no programme and owns no CUED record. -/
def State.absentHoldNothing (s : State) : Prop :=
  ∀ x, (s.port x).present = false → ∀ p, (s.prog p).entry.custodian ≠ some x ∧
    ∀ r ∈ (s.prog p).queue.cued, r.owner ≠ x

/-! ### The Measurement Engine -/

/-- R54, R56: 140 bins, none above its limit. -/
def Account.bounded (a : Account) : Prop :=
  a.bins.length = Config.binCount ∧ ∀ b ∈ a.bins, b.count ≤ Config.countLimit

/-- R42, R44, R48, R54, R62: the bounds of the engine's state; the block clock stands at 4800 only while its close is due
(log 5). -/
def Measure.bounded (m : Measure) : Prop :=
  m.inFlight.length ≤ Config.lookAhead ∧ m.clock ≤ Config.blockFrames
    ∧ m.inHist.length = m.outHist.length ∧ m.inHist.length ≤ Config.historyLength
    ∧ m.account.bounded ∧ ∀ a ∈ m.segAccount, a.account.bounded ∧ a.heldBlocks ≤ Config.countLimit

/-- R125, R138: the limiter window and the escalation counter. -/
def Prog.bounded (P : Prog) : Prop :=
  P.meas.bounded ∧ P.gain.window.length ≤ Config.lookAhead ∧ P.entry.escalation ≤ 3

/-! ### The Gain Stage -/

/-- A gain from -30.00 to +15.00 dB (R111). -/
def gainInRange (g : Rat) : Prop := -3000 ≤ g ∧ g ≤ 1500

/-- R22: every tunable of the active set within its range. -/
def Tunables.legal (t : Tunables) : Prop :=
  TunableSet.legal ⟨some t.target, some t.tolerance, some t.maxBoost, some t.maxCut, some t.riseRate, some t.fallRate,
    some t.holdThreshold, some t.defaultRamp, some t.ceiling, some t.release⟩ = true

/-- R111: the ramp runs between two gains in range, over 1 to 96 000 frames. -/
def Ramp.sound (r : Ramp) : Prop :=
  gainInRange r.start ∧ gainInRange r.finish ∧ 1 ≤ r.total ∧ r.total ≤ 96000 ∧ r.elapsed ≤ r.total

/-- R111, R122: the applied and the desired gain lie in range, with the ramp and the tunables that keep them there. -/
def Prog.gainSound (P : Prog) : Prop :=
  gainInRange P.gain.applied ∧ gainInRange P.gain.desired ∧ (∀ r ∈ P.gain.ramp, r.sound)
    ∧ P.entry.active.legal ∧ P.entry.pending.legal = true

/-! ### The Result Log -/

/-- R140, R142. -/
def State.logBounded (s : State) : Prop :=
  s.log.length ≤ Config.logLimit ∧ s.discards ≤ Config.discardLimit ∧ ∀ r ∈ s.log, r.discardsBefore ≤ 1

/-- A log and its discard tally after one more record, with its discards-before: a full log gives up one record first, by R141
(R140, R142). -/
def appendRecord (l : List ResultRecord × Nat) (r : ResultRecord) : List ResultRecord × Nat :=
  if l.1.length < 48 then (l.1 ++ [{ r with discardsBefore := 0 }], l.2)
  else (discardOne l.1 ++ [{ r with discardsBefore := 1 }], min 255 (l.2 + 1))

/-- R105, R134, R137: the record that the close of the segment `o` on air of programme `p` posts, with the applied gain at the end
and the account `a` after the boundary. -/
def ResultRecord.closes (r : ResultRecord) (p : Index) (o : OnAir) (cause : EndCause) (applied : Rat)
    (a : Option SegAccount) : Prop :=
  r.programme = p ∧ r.id = o.record.id ∧ r.owner = o.record.owner ∧ r.cls = o.record.cls ∧ r.label = o.record.label
    ∧ r.cause = o.cause ∧ r.takeStamp = o.takeStamp ∧ r.framesOnAir = o.framesOnAir ∧ r.endCause = cause
    ∧ r.policy = o.policy ∧ r.overridden = o.overridden ∧ r.target = o.target ∧ r.tolerance = o.tolerance
    ∧ r.declared = o.record.declared ∧ r.gainAtTake = o.gainAtTake ∧ r.gainAtEnd = roundAway applied ∧ r.overrun = o.overrun
    ∧ r.verdict = verdictOf cause r.integrated o.target o.tolerance
    ∧ ∀ b, a = some b → r.integrated = b.account.integrated ∧ r.maxMomentary = b.maxMomentary
      ∧ r.maxShortTerm = b.maxShortTerm ∧ r.maxTruePeak = b.maxTruePeak ∧ r.heldBlocks = b.heldBlocks

/-- R90, R95, R140: from `s` to `t` the takes on the programmes `who` have posted their records, with the notices of the log, and
nothing else was posted: one record for each of them on which a take acts with a segment on air, the one its own stages post; one
after another, and none before that of its leader. -/
def State.takesPosted (s t : State) (who : Index → Prop) : Prop :=
  ∃ records : List ResultRecord, (t.log, t.discards) = records.foldl appendRecord (s.log, s.discards)
    ∧ (∀ q, (∃ r ∈ records, r.programme = q) ↔ who q ∧ (s.prog q).takeActs = true ∧ (s.prog q).hasOnAir = true)
    ∧ (records.map (·.programme)).Nodup
    ∧ (∀ r ∈ records, ∀ cause, ∃ n, (s.takeStages r.programme cause).log.getLast? = some { r with discardsBefore := n })
    ∧ (records.Pairwise fun a b => (s.prog a.programme).entry.trigger ≠ .follow b.programme)
    ∧ s.logNoticed t records.length

/-! ### The ports -/

/-- R186: a kind that is CLEAR has an empty bitmap. -/
def NoticeSet.sound (n : NoticeSet) : Prop := ∀ k, (n.get k).pending = false → (n.get k).bitmap = 0

/-- R190, R191: the content is 436 bytes, and the cursor and the remaining count add up to it. -/
def Snapshot.sound (v : Snapshot) : Prop := v.content.length = 436 ∧ v.cursor + v.remaining = 436

/-- R163: the silence timer count is stopped with the setting 0 and while the port is ABSENT, and stays within the
setting. -/
def Port.timerSound (P : Port) : Prop :=
  P.timerSetting ≤ 255 ∧ (P.timerSetting = 0 ∨ P.present = false → P.timerCount = none)
    ∧ ∀ n ∈ P.timerCount, n ≤ P.timerSetting * Config.ticksPerSecond

def Port.sound (P : Port) : Prop := P.notices.sound ∧ (∀ v ∈ P.snapshot, v.sound) ∧ P.timerSound

/-- The ports, with the shape of the accounts that snapshots copy. -/
def State.portsSound (s : State) : Prop :=
  (∀ x, (s.port x).sound) ∧ ∀ p, (s.prog p).meas.account.bounded ∧ ∀ a ∈ (s.prog p).meas.segAccount, a.account.bounded

/-! ### Over all programmes -/

def State.queuesSound (s : State) : Prop := ∀ p, (s.prog p).queue.sound
def State.statesFit (s : State) : Prop := ∀ p, (s.prog p).fitsState
def State.enginesBounded (s : State) : Prop := ∀ p, (s.prog p).bounded
/-- The gains, with the records whose entry gains and ramps reach them. -/
def State.gainsSound (s : State) : Prop := ∀ p, (s.prog p).gainSound ∧ (s.prog p).queue.sound

end Sys2Proof.Machine
end

