-- ==== Sys2Proof/WellFormed.lean ====
section
/-! DEFINITION. Which commands the outside world can send: a frame has 16 slots (R1), a body has 1 to 250 bytes (R180), and
each request row carries the request the opcode table gives it. The machine itself is total: it also answers on the terms
refused here. -/

namespace Sys2Proof

/-- The request codes of R197. -/
def requestCodes : List Byte :=
  [0x01, 0x02, 0x03, 0x04, 0x05, 0x06, 0x07,
   0x10, 0x11, 0x12, 0x13, 0x14, 0x15, 0x16, 0x17, 0x18, 0x19, 0x1A,
   0x20, 0x21, 0x22, 0x23, 0x24, 0x25,
   0x30, 0x31, 0x32, 0x38, 0x39, 0x3A, 0x40, 0x41]

/-- A request code is recognised when it is in the request code list (R185, R197). -/
def recognised (code : Byte) : Bool := requestCodes.contains code

/-- A body has at most 250 bytes, two of which are the code and the tag (R180). -/
def paramsFit (ps : List Byte) : Bool := ps.length ≤ 248

/-- The force flag of PROG.DEACTIVATE and PROG.CLAIM stands second and is SET (R195, R197). -/
def forceSet (ps : List Byte) : Bool := ps.getD 1 0 == 1

/-- The check, row by row. -/
def Instr.wellFormed : Instr → Bool
  | .powerOnReset _ _ => true
  | .frameSync => true
  | .goodFrameCount48 => true
  | .missingFrameSync => true
  | .syncWatchExpiry => true
  | .processedFrame slots => slots.length == 16
  | .blockClose _ => true
  | .rampCompletion _ => true
  | .durationReached _ => true
  | .cueLineChange _ _ => true
  | .rejectLengthExpiry _ => true
  | .restartnArmed => true
  | .restartnLow => true
  | .frameCrcWrong _ => true
  | .lengthInvalid _ => true
  | .framingError _ => true
  | .gapTimeout _ => true
  | .frameDuringReply _ => true
  | .replyEnd _ => true
  | .unknownRequest _ body => match body with
    | [] => false
    | [_] => true
    | code :: _ => !recognised code && body.length ≤ 250
  | .devIdent _ _ ps => paramsFit ps
  | .devRestart _ _ ps => paramsFit ps
  | .portStatus _ _ ps => paramsFit ps
  | .portMask _ _ ps => paramsFit ps
  | .portTimer _ _ ps => paramsFit ps
  | .portLeave _ _ ps => paramsFit ps
  | .portKeepalive _ _ ps => paramsFit ps
  | .silenceTimerExpiry _ => true
  | .progQuery _ _ ps => paramsFit ps
  | .progSet _ _ ps => paramsFit ps
  | .progActivate _ _ ps => paramsFit ps
  | .progDeactivate _ _ ps => paramsFit ps && !forceSet ps
  | .progDeactivateForce _ _ ps => paramsFit ps && forceSet ps
  | .progRun _ _ ps => paramsFit ps
  | .progStop _ _ ps => paramsFit ps
  | .progTune _ _ ps => paramsFit ps
  | .progClaim _ _ ps => paramsFit ps && !forceSet ps
  | .progClaimForce _ _ ps => paramsFit ps && forceSet ps
  | .progRelease _ _ ps => paramsFit ps
  | .progRights _ _ ps => paramsFit ps
  | .accountClear _ _ ps => paramsFit ps
  | .segCue _ _ ps => paramsFit ps
  | .segAmend _ _ ps => paramsFit ps
  | .segWithdraw _ _ ps => paramsFit ps
  | .segTake _ _ ps => paramsFit ps
  | .segEnd _ _ ps => paramsFit ps
  | .segList _ _ ps => paramsFit ps
  | .logCount _ _ ps => paramsFit ps
  | .logPeek _ _ ps => paramsFit ps
  | .logFetch _ _ ps => paramsFit ps
  | .snapTake _ _ ps => paramsFit ps
  | .snapRead _ _ ps => paramsFit ps
  | .meterRead _ _ ps => paramsFit ps
  | .cueConfig _ _ ps => paramsFit ps
  | .cueRead _ _ ps => paramsFit ps
  | .byteReceived _ _ => true

end Sys2Proof
end

