-- ==== Sys2Proof/Certificates/Slice0/Obligations.lean ====
section
/-! DEFINITION. The statements for the provers. In each, `u` is the state once the events already due have been taken
(log 5), and `v` the state in which a request of port `x` is judged. -/

section Statements

open Sys2Proof Sys2Proof.Machine

/-! ### The machine -/

/-- A step runs the command at the front of the queue on the queue's rest. -/
def Obligations.StepRunsTheFrontCommand : Prop :=
  ∀ (c : Instr) (rest : List Instr) (s : State), s.pending = c :: rest → step s = exec c { s with pending := rest }

/-- The model's choice (log 2): with no command waiting, the events already due are taken (log 5), and then one timer that has run
its time expires, in a free order among several (log 6); when none has, one tick passes. A tick, a third of a microsecond, moves
the sync watch, each gap timer and each pending change of a line one up (R2, R171, R182), takes one from the silence timer count
of a PRESENT port (R163), and keeps all the rest. The watch has run its time at 250 ticks (R2), a gap timer beyond 10 ms (R182), a
count at 0 in a PRESENT port (R163), a pending change at its reject length (R171); each expiry is what its command does. The
events due are the lock, the block closes, the ramp completions, the overrun marks and then the AUTO events, each as its own
command takes it; the order of several AUTO events at one frame is open (log 6), and nothing is said of it here. -/
def Obligations.EmptyQueueTicks : Prop :=
  (∀ s : State, s.pending = [] → let u := s.settle
    (allTimers.filter u.expired = [] → step s = .next u.tick)
    ∧ (∀ t, allTimers.filter u.expired = [t] → step s = .next (u.expire t))
    ∧ (∀ t₁ t₂ ts, allTimers.filter u.expired = t₁ :: t₂ :: ts →
        ∃ t, u.expired t = true ∧ step s = .next (u.useFree.expire t)))
  ∧ (allTimers.Nodup ∧ ∀ t, t ∈ allTimers)
  ∧ (∀ s : State, let t := s.tick
    t = { s with audio := t.audio, ports := t.ports, lines := t.lines }
    ∧ t.audio = { s.audio with watch := s.audio.watch.map (· + 1) }
    ∧ (∀ x, t.port x = { s.port x with
        gap := (s.port x).gap.map (· + 1)
        timerCount := if (s.port x).present then (s.port x).timerCount.map (· - 1) else (s.port x).timerCount })
    ∧ ∀ k, t.line k = { s.line k with change := (s.line k).change.map (· + 1) })
  ∧ (∀ s : State,
    (s.expired .watch = true ↔ ∃ n, s.audio.watch = some n ∧ 250 ≤ n)
    ∧ (∀ x, (s.expired (.gap x) = true ↔ ∃ n, (s.port x).gap = some n ∧ 10 * 3000 < n)
      ∧ (s.expired (.silence x) = true ↔ (s.port x).present = true ∧ (s.port x).timerCount = some 0))
    ∧ ∀ k, s.expired (.reject k) = true ↔ ∃ n, (s.line k).change = some n ∧ (match (s.line k).reject with
        | .ms0 => 0
        | .ms2 => 2 * 3000
        | .ms8 => 8 * 3000
        | .ms32 => 32 * 3000) ≤ n)
  ∧ (∀ s : State, let u := s.settle
    exec .syncWatchExpiry s = .next (u.expire .watch)
    ∧ (∀ x, exec (.gapTimeout x) s = .next (s.expire (.gap x))
      ∧ exec (.silenceTimerExpiry x) s = .next (u.expire (.silence x)))
    ∧ ∀ k, exec (.rejectLengthExpiry k) s = .next (u.expire (.reject k)))
  ∧ ∀ s : State,
    let run := fun (t : State) (c : Instr) => match exec c t with
      | .next u => u
      | .fault _ => t
      | .refused _ => t
    let v := (.goodFrameCount48 :: (allIndices.map Instr.blockClose ++ allIndices.map Instr.rampCompletion)).foldl run s
    let overrun := fun p => (v.prog p).durationDue && (match (v.prog p).queue.onAir with
      | some o => !o.record.autoAdvance
      | none => false)
    let w := ((allIndices.filter overrun).map Instr.durationReached).foldl run v
    ((∀ p, (w.prog p).durationDue = false) → s.settle = w)
    ∧ ∀ p, (w.prog p).durationDue = true → (∀ q, q ≠ p → (w.prog q).durationDue = false) →
      exec (.durationReached p) w = .next s.settle

/-- POWER_ON_RESET: the straps' tables (R152, R179), the cue lines at their first samples (R178), and every block at its
power-on values (R15, R39, R68, R87, R133, R150, R168, R194), RESTARTn not armed (log 18) and no moment of an inactive tally
remembered (log 19). The commands waiting are the model's own and stay (log 22). -/
def Obligations.PowerOnReset : Prop :=
  ∀ (straps : Straps) (levels : BitVec 8) (s : State), ∃ t, exec (.powerOnReset straps levels) s = .next t
    ∧ t.override = (if straps.ovr1 then (if straps.ovr0 then some .c else some .b)
        else if straps.ovr0 then some .a else none)
    ∧ t.baud = (if straps.baud1 then (if straps.baud0 then .b230400 else .b115200)
        else if straps.baud0 then .b57600 else .b38400)
    ∧ (∀ k : Index, t.line k = ⟨false, .ms8, levels.getLsbD k.val, levels.getLsbD k.val, none⟩)
    ∧ (∀ p : Index, (t.prog p).entry = ⟨.inactive, 2 * p.val, 2, .off, none,
          ⟨-2300, 100, 900, -2000, 10, 30, -4500, 500, -10, 200⟩,
          ⟨none, none, none, none, none, none, none, none, none, none⟩, none, 0b111, 0⟩
        ∧ (t.prog p).queue = ⟨none, []⟩
        ∧ (t.prog p).meas = ⟨List.replicate 6 ⟨0, 0, 0, 0, 0, 0⟩, List.replicate 6 ⟨0, 0, 0, 0, 0, 0⟩, [], 0, 0, 0, false,
          [], [], false, ⟨List.replicate 140 ⟨0, 0⟩, false⟩, none⟩
        ∧ (t.prog p).gain = ⟨0, 0, .adaptive, true, none, [], 0, [], none⟩
        ∧ (t.prog p).mode = .frozen)
    ∧ t.audio = ⟨.lost, 0, none, .absent, 0, List.replicate 80 ⟨List.replicate 16 0, List.replicate 16 0⟩,
        List.replicate 16 0⟩
    ∧ t.log = [] ∧ t.discards = 0
    ∧ (∀ x, (t.port x).rx = .idle ∧ (t.port x).gap = none ∧ (t.port x).reply = none
        ∧ (t.port x).present = true ∧ (t.port x).timerSetting = 0 ∧ (t.port x).timerCount = none
        ∧ (∀ k, (t.port x).notices.get k = ⟨false, 0⟩) ∧ (t.port x).mask = BitVec.allOnes 12 ∧ (t.port x).attn = false
        ∧ (t.port x).snapshot = none ∧ (t.port x).rising = 0 ∧ (t.port x).falling = 0)
    ∧ t.restartArmed = false ∧ t.pending = s.pending

/-- R152: the override port is sampled at power-on and held: no other command, a restart included, and no tick changes it;
the same holds of the bit rate (R179). -/
def Obligations.StrapsHoldUntilPowerOn : Prop :=
  (∀ (straps : Straps) (levels : BitVec 8) (s t : State), exec (.powerOnReset straps levels) s = .next t →
      t.override = overrideOf straps ∧ t.baud = baudOf straps)
    ∧ (overrideOf ⟨false, false, false, false⟩ = none ∧ overrideOf ⟨false, true, false, false⟩ = some .a
      ∧ overrideOf ⟨true, false, false, false⟩ = some .b ∧ overrideOf ⟨true, true, false, false⟩ = some .c)
    ∧ ∀ s t : State, step s = .next t →
      (∃ straps levels rest, s.pending = .powerOnReset straps levels :: rest)
        ∨ (t.override = s.override ∧ t.baud = s.baud)

/-! ### The Audio Port -/

/-- FRAME_SYNC in each detector state (R2, R3, R5, R6): nothing but the Audio Port changes, and of it neither the Air Clock nor
the delay line. And the sample an output frame carries in a slot (R13): the corrected one in a slot of an active programme, the
raw one in any other slot. A programme is active in every state but INACTIVE (R13). -/
def Obligations.FrameSync : Prop :=
  (∀ s : State, let u := s.settle
      ∃ a, exec .frameSync s = .next { u with audio := a }
        ∧ a.watch = some 0 ∧ a.phase = .receiving ∧ a.airClock = u.audio.airClock ∧ a.line = u.audio.line
        ∧ (u.audio.detector = .lost → a.detector = .recovering ∧ a.goodFrames = 0 ∧ a.sdout = silentOutput)
        ∧ (u.audio.detector = .recovering → a.detector = .recovering ∧ a.sdout = u.audio.sdout
            ∧ a.goodFrames = if u.audio.phase = .complete then u.audio.goodFrames + 1 else 0)
        ∧ (u.audio.detector = .locked → a.detector = .locked
            ∧ a.sdout = if u.audio.phase = .complete then (List.range 16).map (u.outputSample (u.audio.line.headD Stage.zero))
                else u.audio.sdout))
  ∧ silentOutput = List.replicate 16 0
  ∧ (∀ P : Prog, P.isActive = true ↔ P.entry.state ≠ .inactive)
  ∧ (∀ (s : State) (st : Stage) (i : Nat),
      let corrected := ∃ p, (s.prog p).entry.state ≠ .inactive ∧ (s.prog p).entry.base ≤ i
        ∧ i < (s.prog p).entry.base + (s.prog p).entry.width
      (corrected → s.outputSample st i = st.cor.getD i 0) ∧ (¬corrected → s.outputSample st i = st.raw.getD i 0))
  ∧ (∀ (s : State) (i : Nat), i < 16 →
      ((∃ p, (s.prog p).isActive = true ∧ (s.prog p).entry.base ≤ i
          ∧ i < (s.prog p).entry.base + (s.prog p).entry.width) →
        s.formOutput.audio.sdout[i]? = some ((s.audio.line.headD Stage.zero).cor.getD i 0))
      ∧ ((∀ p, (s.prog p).isActive = true → ¬((s.prog p).entry.base ≤ i
          ∧ i < (s.prog p).entry.base + (s.prog p).entry.width)) →
        s.formOutput.audio.sdout[i]? = some ((s.audio.line.headD Stage.zero).raw.getD i 0)))

/-- The detector's other events. GOOD_FRAME_COUNT_48 (R6, R8): in RECOVERING at 48 good frames the detector enters LOCKED with
AUDIO at every port and the first output frame of the delay line. MISSING_FRAME_SYNC (R3, R6): at the sync position of a
complete frame the port flywheels in LOCKED, without restarting the sync watch, and enters LOST in RECOVERING.
SYNC_WATCH_EXPIRY (R4, R5, R6, R8), of a watch that has run its 250 ticks (log 2): the watch stops; LOCKED and RECOVERING go to
LOST with no frame in progress, AUDIO being raised at every port for the first alone; in LOST nothing else changes. Where such
an event cannot arise it changes nothing, a watch that a frame sync has restarted included (R4; logs 3 and 4). -/
def Obligations.DetectorEvents : Prop :=
  (∀ s : State,
      (s.audio.detector = .recovering ∧ 48 ≤ s.audio.goodFrames →
        ∃ a, exec .goodFrameCount48 s = .next (({ s with audio := a }).raisePlain .audio)
          ∧ a.detector = .locked ∧ a.airClock = s.audio.airClock ∧ a.line = s.audio.line ∧ a.watch = s.audio.watch
          ∧ a.phase = s.audio.phase
          ∧ a.sdout = (List.range 16).map (s.outputSample (s.audio.line.headD Stage.zero)))
      ∧ (¬(s.audio.detector = .recovering ∧ 48 ≤ s.audio.goodFrames) → exec .goodFrameCount48 s = .next s))
  ∧ (∀ s : State, let u := s.settle
      (u.audio.phase = .complete → u.audio.detector = .locked →
        exec .missingFrameSync s = .next { u with audio := { u.audio with
          phase := .receiving, sdout := (List.range 16).map (u.outputSample (u.audio.line.headD Stage.zero)) } })
      ∧ (u.audio.phase = .complete → u.audio.detector = .recovering →
        exec .missingFrameSync s = .next { u with audio := { u.audio with
          detector := .lost, phase := .absent, sdout := List.replicate 16 0 } })
      ∧ (u.audio.phase ≠ .complete ∨ u.audio.detector = .lost → exec .missingFrameSync s = .next u))
  ∧ (∀ s : State, let u := s.settle
      let lost := { u.audio with watch := none, detector := .lost, phase := .absent, sdout := List.replicate 16 0 }
      let due := ∃ n, u.audio.watch = some n ∧ 250 ≤ n
      (due → u.audio.detector = .locked →
        exec .syncWatchExpiry s = .next (({ u with audio := lost }).raisePlain .audio))
      ∧ (due → u.audio.detector = .recovering →
        exec .syncWatchExpiry s = .next { u with audio := lost })
      ∧ (due → u.audio.detector = .lost →
        exec .syncWatchExpiry s = .next { u with audio := { u.audio with watch := none } })
      ∧ (¬due → exec .syncWatchExpiry s = .next u))

/-- PROCESSED_FRAME in LOCKED, for a frame being received (R3, R10 to R12, R42, R47, R74, R112, R125): the frame takes the Air
Clock's value, which then advances by one; the 16 raw samples enter the delay line and the oldest stage leaves. Of each active
programme the gain moves, the oldest position of a full limiter window is fixed and the frame's position enters the window, the
oldest of 72 positions in flight is measured, the frame's position is in flight with its tally mark when the programme is
measuring, and frames on air rise by one; its corrected samples stand in the line, one place on. All else is unchanged. A
programme is active in every state but INACTIVE (R13), and measuring in RUNNING, STOPPING and DRAINING (R42). In RECOVERING a
frame being received completes and is not processed; otherwise nothing changes (R5 to R7, log 7). -/
def Obligations.ProcessedFrame : Prop :=
  (∀ (s : State) (slots : List (BitVec 32)), let u := s.settle
      u.audio.detector = .locked → u.audio.phase = .receiving →
        let raw := (List.range 16).map fun i => (slots.getD i 0).extractLsb' 8 24
        ∃ t, exec (.processedFrame slots) s = .next t
          ∧ t = { u with audio := t.audio, progs := t.progs }
          ∧ t.audio = { u.audio with airClock := u.audio.airClock + 1, phase := .complete, line := t.audio.line }
          ∧ t.audio.line.map (·.raw) = (u.audio.line.map (·.raw)).drop 1 ++ [raw]
          ∧ (∀ p, (u.prog p).isActive = false → t.prog p = u.prog p)
          ∧ (∀ p, (u.prog p).isActive = true → (t.prog p).entry = (u.prog p).entry
            ∧ (t.prog p).queue.cued = (u.prog p).queue.cued
            ∧ (t.prog p).queue.onAir = (u.prog p).queue.onAir.map
                (fun r => { r with framesOnAir := min 4294967295 (r.framesOnAir + 1) })
            ∧ (t.prog p).gain.applied = (u.prog p).moveGain.applied)
          ∧ (u.lineShaped → u.slotsWithin → u.slotsDisjoint → ∀ p, (u.prog p).isActive = true →
            let P := u.prog p
            let Q := t.prog p
            let now := P.tallyInactive u.lines
            let fixed := if 72 ≤ P.gain.window.length then fixOldest P.entry u.audio.line P.moveGain
              else (u.audio.line, P.moveGain)
            let measured := if P.isMeasuring = true ∧ 72 ≤ P.meas.inFlight.length then (P.measureOldest fixed.1).meas
              else P.meas
            Q.gain = { fixed.2 with window := fixed.2.window ++ [⟨channels P.entry raw, P.moveGain.applied⟩] }
            ∧ Q.meas = { measured with
                inFlight := if P.isMeasuring then measured.inFlight ++ [⟨channels P.entry raw, P.meas.tallyLatch || now⟩]
                  else measured.inFlight
                tallyLatch := now }
            ∧ ∀ i, i < 79 → channels P.entry (t.audio.line.getD i Stage.zero).cor
                = channels P.entry (fixed.1.getD (i + 1) Stage.zero).cor))
  ∧ (∀ (s : State) (slots : List (BitVec 32)), let u := s.settle
      (u.audio.detector = .recovering → u.audio.phase = .receiving →
        exec (.processedFrame slots) s = .next { u with audio := { u.audio with phase := .complete } })
      ∧ (u.audio.detector = .lost ∨ u.audio.phase ≠ .receiving → exec (.processedFrame slots) s = .next u))
  ∧ ∀ P : Prog, (P.isActive = true ↔ P.entry.state ≠ .inactive)
    ∧ (P.isMeasuring = true ↔ P.entry.state = .running ∨ P.entry.state = .stopping ∨ P.entry.state = .draining)

/-! ### Programme events -/

/-- BLOCK_CLOSE (R44, R45, R48, R49, R35) of a block clock at 4800: both histories gain the block's record, at most 30
staying; the clock and the block in progress start anew; the accounts take the output window and the maxima as
AccountsAcceptWindows says; the adaptive law takes the input short-term loudness; a STOPPING programme becomes STOPPED, with no
position in flight and STATE at every port. The filters, the other positions in flight, the queue and every other programme stay.
With no close due, nothing changes (log 4). -/
def Obligations.BlockClose : Prop :=
  (∀ (s : State) (p : Index), let P := s.prog p
      let segment := P.queue.onAir.map fun o => BlockSegment.mk o.record.id o.takeStamp
      (P.meas.clock < 4800 → exec (.blockClose p) s = .next s)
      ∧ (4800 ≤ P.meas.clock → ∃ Q, exec (.blockClose p) s
            = .next (if P.entry.state = .stopping then (s.setProg p Q).raiseAll .state p else s.setProg p Q)
          ∧ Q.queue = P.queue
          ∧ Q.entry = (if P.entry.state = .stopping then { P.entry with state := .stopped } else P.entry)
          ∧ Q.meas.inHist = appendHistory P.meas.inHist
              ⟨P.meas.inSum / ((P.meas.clock : Int) : Rat), P.meas.clock, P.meas.held, segment⟩
          ∧ Q.meas.outHist = appendHistory P.meas.outHist
              ⟨P.meas.outSum / ((P.meas.clock : Int) : Rat), P.meas.clock, P.meas.held, segment⟩
          ∧ Q.meas.clock = 0 ∧ Q.meas.inSum = 0 ∧ Q.meas.outSum = 0 ∧ Q.meas.held = false
          ∧ Q.meas.inFlight = (if P.entry.state = .stopping then [] else P.meas.inFlight)
          ∧ Q.meas.account = P.closedMeasure.account ∧ Q.meas.segAccount = P.closedMeasure.segAccount
          ∧ Q.meas.inFilters = P.meas.inFilters ∧ Q.meas.outFilters = P.meas.outFilters
          ∧ Q.meas.tallyLatch = P.meas.tallyLatch
          ∧ Q.gain = P.gain.law P.entry.active P.lawTarget (shortTerm Q.meas.inHist) P.meas.held))
  ∧ (∀ (h : List BlockRecord) (b : BlockRecord), h.length ≤ 30 →
      (appendHistory h b).length = min 30 (h.length + 1) ∧ (appendHistory h b).getLast? = some b
        ∧ appendHistory h b = if h.length = 30 then h.tail ++ [b] else h ++ [b])

/-- R54, R55, R56: at a close the Programme Account takes the output window of at least 4 records when no block of it is
HELD and its loudness is -70.00 LUFS or above; the Segment Account when, besides, all four blocks belong to the segment on
air. A window goes to the bin of its loudness, or marks the account saturated when that bin is full. R60, R62: the max momentary
rises to a window the Segment Account takes, the max short-term to the loudness of 30 blocks of the segment with none HELD, and
the held block count by one at a HELD block; the max true peak stays. With nothing on air the Segment Account stays. -/
def Obligations.AccountsAcceptWindows : Prop :=
  (∀ P : Prog, let h := appendHistory P.meas.outHist ⟨P.meas.outSum / ((P.meas.clock : Int) : Rat), P.meas.clock, P.meas.held,
        P.queue.onAir.map fun o => ⟨o.record.id, o.takeStamp⟩⟩
    let w := h.drop (h.length - 4)
    let energy := (w.map fun b => b.energy * (b.frames : Rat)).sum / (((w.map (·.frames)).sum : Nat) : Rat)
    let ok := 4 ≤ h.length ∧ (∀ b ∈ w, b.held = false) ∧ -7000 ≤ setLoudness w
    (ok → P.closedMeasure.account = P.meas.account.add (setLoudness w) energy)
    ∧ (¬ok → P.closedMeasure.account = P.meas.account)
    ∧ (P.queue.onAir = none ∨ P.meas.segAccount = none → P.closedMeasure.segAccount = P.meas.segAccount)
    ∧ ∀ o a, P.queue.onAir = some o → P.meas.segAccount = some a →
        let own := fun (b : BlockRecord) => ∃ g, b.segment = some g ∧ g.takeStamp = o.takeStamp
        let rise := fun (old : Option Int) (v : Int) => some (match old with
          | some m => max m v
          | none => v)
        ∃ a', P.closedMeasure.segAccount = some a'
          ∧ ((ok ∧ ∀ b ∈ w, own b) → a'.account = a.account.add (setLoudness w) energy
              ∧ a'.maxMomentary = rise a.maxMomentary (setLoudness w))
          ∧ (¬(ok ∧ ∀ b ∈ w, own b) → a'.account = a.account ∧ a'.maxMomentary = a.maxMomentary)
          ∧ ((h.length = 30 ∧ ∀ b ∈ h, own b ∧ b.held = false) → a'.maxShortTerm = rise a.maxShortTerm (setLoudness h))
          ∧ (¬(h.length = 30 ∧ ∀ b ∈ h, own b ∧ b.held = false) → a'.maxShortTerm = a.maxShortTerm)
          ∧ a'.maxTruePeak = a.maxTruePeak
          ∧ a'.heldBlocks = if P.meas.held then min 16777215 (a.heldBlocks + 1) else a.heldBlocks)
  ∧ ∀ (a : Account) (l : Int) (e : Rat), a.bins.length = 140 → -7000 ≤ l →
      let b := min ((l + 7000) / 50).toNat 139
      let bin := a.bins.getD b Bin.empty
      (bin.count < 16777215 → a.add l e = { a with bins := a.bins.set b ⟨bin.count + 1, bin.energy + e⟩ })
      ∧ (16777215 ≤ bin.count → a.add l e = { a with saturated := true })

/-- R50, R52, R53, R57: the loudness of a set of blocks is that of their frame-weighted mean energy, rounded to 0.01 LUFS: the
edge of a value is the energy half a step below it, and powers of ten are those of log 11. The momentary loudness is that of
the last four records and the short-term that of all, absent below four. The integrated loudness of an account: absent with no
window; otherwise the loudness of the bins whose lower edge is no lower than 10.00 LU below the ungated level. The model's powers of
ten (its choice, log 11) are exact at whole numbers, never decrease, and lie within 2^-80 of their value: the n-th power of
10^(k/n), so the 10000th at an edge, lies within the n-th power of that factor of 10^k. -/
def Obligations.LoudnessAndGating : Prop :=
  (∀ n : Int, pow10 (n : Rat) = (10 : Rat) ^ n)
  ∧ (∀ a b : Rat, a ≤ b → pow10 a ≤ pow10 b)
  ∧ (∀ (k : Int) (n : Nat), 0 < n → let power := pow10 ((k : Rat) / (n : Rat)) ^ n
      (1 - 1 / 2 ^ 80) ^ n * (10 : Rat) ^ k ≤ power ∧ power ≤ (1 + 1 / 2 ^ 80) ^ n * (10 : Rat) ^ k)
  ∧ (∀ bs : List BlockRecord, setLoudness bs
      = loudnessOf ((bs.map fun b => b.energy * (b.frames : Rat)).sum / (((bs.map (·.frames)).sum : Nat) : Rat)))
  ∧ (∀ e : Rat, (e ≤ 0 → loudnessOf e = -9999)
      ∧ (0 < e → -9999 ≤ loudnessOf e
        ∧ e < pow10 (((10 * (loudnessOf e + 1) + 686 : Int) : Rat) / 10000)
        ∧ (-9999 < loudnessOf e → pow10 (((10 * loudnessOf e + 686 : Int) : Rat) / 10000) ≤ e)))
  ∧ (∀ h : List BlockRecord,
      (h.length < 4 → momentary h = none ∧ shortTerm h = none)
      ∧ (4 ≤ h.length → momentary h = some (setLoudness (h.drop (h.length - 4))) ∧ shortTerm h = some (setLoudness h)))
  ∧ ∀ a : Account,
      let n := (a.bins.map (·.count)).sum
      let level := loudnessOf ((a.bins.map (·.energy)).sum / (n : Rat))
      let kept := a.bins.zipIdx.filter fun b => decide (level - 1000 ≤ -7000 + 50 * (b.2 : Int))
      let n2 := (kept.map (·.1.count)).sum
      (n = 0 → a.integrated = none)
      ∧ (n ≠ 0 → n2 = 0 → a.integrated = none)
      ∧ (n ≠ 0 → n2 ≠ 0 → a.integrated = some (loudnessOf ((kept.map (·.1.energy)).sum / (n2 : Rat))))

/-- R18, R41, R42, R61: the measuring of the oldest position in flight. Each weighted channel of the input and of the corrected
samples goes through the two stages of the K-weighting; its weighted square joins the sum of the block in progress, an INACTIVE
tally mark makes the block HELD, the clock advances by one, and the max true peak of the segment on air takes the position's
estimate when it is higher. R47, R177: the tally is INACTIVE while its line's accepted level, after polarity, is, and a line's
change to inactive is remembered by the programmes that name it. The model's choices: filters and sums in exact rationals (logs 9
and 10), the field that remembers a moment of inactivity (log 19), and the estimate formed at the measuring (log 25). -/
def Obligations.MeasuredPosition : Prop :=
  (∀ (f : Filter) (x : Rat),
      let y := (153512485958697 * x - 269169618940638 * f.x1 + 119839281085285 * f.x2 + 169065929318241 * f.y1
        - 73248077421585 * f.y2) / 100000000000000
      let z := y - 2 * f.y1 + f.y2 + (199004745483398 * f.z1 - 99007225036621 * f.z2) / 100000000000000
      f.step x = ⟨x, f.x1, y, f.y1, z, f.z1⟩)
  ∧ (∀ c, channelWeight 1 c = 1 ∧ channelWeight 2 c = 1)
  ∧ (channelWeight 6 0 = 1 ∧ channelWeight 6 1 = 1 ∧ channelWeight 6 2 = 1 ∧ channelWeight 6 3 = 0
      ∧ channelWeight 6 4 = 141 / 100 ∧ channelWeight 6 5 = 141 / 100)
  ∧ (∀ (P : Prog) (line : List Stage) (f : InFlight) (rest : List InFlight), P.meas.inFlight = f :: rest →
      let Q := P.measureOldest line
      let place := line.length - P.meas.inFlight.length
      let width := P.entry.width
      let output := channels P.entry (line.getD place Stage.zero).cor
      let weighted := fun c => c < width ∧ channelWeight width c ≠ 0
      let after := fun (c : Nat) (old : List Filter) (samples : List Sample) =>
        (old.getD c Filter.zero).step (((samples.getD c 0).toInt : Rat) / 8388608)
      Q = { P with meas := Q.meas }
      ∧ (∀ c, c < 6 → weighted c → Q.meas.inFilters[c]? = some (after c P.meas.inFilters f.input)
          ∧ Q.meas.outFilters[c]? = some (after c P.meas.outFilters output))
      ∧ (∀ c, c < 6 → ¬weighted c → Q.meas.inFilters[c]? = some (P.meas.inFilters.getD c Filter.zero)
          ∧ Q.meas.outFilters[c]? = some (P.meas.outFilters.getD c Filter.zero))
      ∧ Q.meas.inSum = P.meas.inSum
          + ((List.range width).map fun c => channelWeight width c * (Q.meas.inFilters.getD c Filter.zero).z1 ^ 2).sum
      ∧ Q.meas.outSum = P.meas.outSum
          + ((List.range width).map fun c => channelWeight width c * (Q.meas.outFilters.getD c Filter.zero).z1 ^ 2).sum
      ∧ Q.meas.inFlight = rest ∧ Q.meas.clock = P.meas.clock + 1 ∧ Q.meas.held = (P.meas.held || f.inactiveTally)
      ∧ Q.meas.inHist = P.meas.inHist ∧ Q.meas.outHist = P.meas.outHist ∧ Q.meas.account = P.meas.account
      ∧ Q.meas.tallyLatch = P.meas.tallyLatch
      ∧ Q.meas.segAccount = P.meas.segAccount.map fun a =>
          { a with maxTruePeak := max a.maxTruePeak (truePeakTenths (estimateAt P.entry line place)) })
  ∧ (∀ (P : Prog) (lines : Octet CueLine), P.tallyInactive lines = true ↔
      ∃ k, P.entry.tally = some k ∧ (lines.get k).accepted = (lines.get k).inverted)
  ∧ ∀ (P : Prog) (k : Index) (active : Bool),
      (P.entry.tally = some k → active = false →
        P.tallyChange k active = { P with meas := { P.meas with tallyLatch := true } })
      ∧ (P.entry.tally ≠ some k ∨ active = true → P.tallyChange k active = P)

/-- R115: the adaptive law at a block close. R114: the mode. R116, R119: the gain's step at a frame: one step along the ramp, or
one adaptive step that ends on the desired gain when it would pass it, or none. RAMP_COMPLETION (R119): when frames elapsed have
reached frames total the gain takes the end gain exactly and the ramp record is discarded, and nothing else changes; otherwise
nothing changes (log 4). -/
def Obligations.GainMotion : Prop :=
  (∀ P : Prog, let g := P.closeBlock.gain
      let t := P.entry.active
      let target := match P.queue.onAir with
        | some r => r.target
        | none => t.target
      (P.gain.policy ≠ .adaptive → g = P.gain)
      ∧ (P.gain.policy = .adaptive →
          (shortTerm P.closedMeasure.inHist = none ∨ P.meas.held = true
            ∨ (∃ v, shortTerm P.closedMeasure.inHist = some v ∧ v < t.holdThreshold)) →
          g = { P.gain with holding := true })
      ∧ (P.gain.policy = .adaptive → P.meas.held = false →
          ∀ v, shortTerm P.closedMeasure.inHist = some v → t.holdThreshold ≤ v →
          g = { P.gain with
            desired := if target - v < t.maxCut then (t.maxCut : Rat) else if t.maxBoost < target - v then (t.maxBoost : Rat)
              else ((target - v : Int) : Rat)
            holding := false }))
  ∧ (∀ P : Prog,
      (P.gain.ramp.isSome = true → P.mode = .ramping)
      ∧ (P.gain.ramp = none → P.entry.state = .inactive ∨ P.entry.state = .stopped → P.mode = .frozen)
      ∧ (P.gain.ramp = none → P.gain.policy = .fixed ∨ P.gain.policy = .bypass → P.mode = .frozen)
      ∧ (P.gain.ramp = none → P.gain.policy = .adaptive → P.gain.holding = true → P.mode = .frozen)
      ∧ (P.gain.ramp = none → P.entry.state ≠ .inactive → P.entry.state ≠ .stopped → P.gain.policy = .adaptive →
          P.gain.holding = false → P.mode = .following))
  ∧ (∀ P : Prog,
      (∀ r, P.gain.ramp = some r → P.moveGain = { P.gain with
          applied := r.start + (r.finish - r.start) * (((r.elapsed + 1 : Nat) : Rat) / (r.total : Rat))
          ramp := some { r with elapsed := r.elapsed + 1 } })
      ∧ (P.mode = .frozen → P.moveGain = P.gain)
      ∧ (P.mode = .following → P.gain.applied = P.gain.desired → P.moveGain = P.gain)
      ∧ (P.mode = .following → P.gain.applied < P.gain.desired → P.moveGain = { P.gain with
          applied := min P.gain.desired (P.gain.applied + (P.entry.active.riseRate : Rat) / 4800) })
      ∧ (P.mode = .following → P.gain.desired < P.gain.applied → P.moveGain = { P.gain with
          applied := max P.gain.desired (P.gain.applied - (P.entry.active.fallRate : Rat) / 4800) }))
  ∧ (∀ (s : State) (p : Index),
      (∀ r, (s.prog p).gain.ramp = some r → r.total ≤ r.elapsed →
        exec (.rampCompletion p) s = .next (s.setProg p { s.prog p with
          gain := { (s.prog p).gain with applied := r.finish, ramp := none } }))
      ∧ ((∀ r, (s.prog p).gain.ramp = some r → r.elapsed < r.total) → exec (.rampCompletion p) s = .next s))

/-- DURATION_REACHED (R96): a record on air whose frames on air are its duration times 4800. With auto-advance CLEAR the overrun
mark is SET with OVERRUN at every port and the segment goes on; with it SET the event is an AUTO take that acts, or ends the
segment with DURATION_END. It takes effect after the frame, so every overrun mark that the frame brings, on whatever programme, is
SET before it, with OVERRUN for exactly these programmes. With nothing on air, no duration, other frames on air, or the overrun mark
SET already with auto-advance CLEAR, no duration is reached and nothing changes (log 4). -/
def Obligations.DurationReached : Prop :=
  ∀ (s : State) (p : Index),
    ((∀ r d, (s.prog p).queue.onAir = some r → r.record.duration = some d →
        d = 0 ∨ r.framesOnAir ≠ d * 4800 ∨ (r.record.autoAdvance = false ∧ r.overrun = true)) →
      exec (.durationReached p) s = .next s)
    ∧ ((s.prog p).durationDue = true ↔ ∃ r d, (s.prog p).queue.onAir = some r ∧ r.record.duration = some d ∧ 1 ≤ d
      ∧ r.framesOnAir = d * 4800 ∧ (r.record.autoAdvance = true ∨ r.overrun = false))
    ∧ (let m := s.settleOverruns
      let overrun := fun q => ∃ r d, (s.prog q).queue.onAir = some r ∧ r.record.duration = some d ∧ 1 ≤ d
        ∧ r.framesOnAir = d * 4800 ∧ r.record.autoAdvance = false ∧ r.overrun = false
      (∀ q, (overrun q → m.prog q = { s.prog q with queue := { (s.prog q).queue with
            onAir := (s.prog q).queue.onAir.map fun o => { o with overrun := true } } })
          ∧ (¬overrun q → m.prog q = s.prog q))
        ∧ s.onlyNotices m [.overrun] ∧ (s.raisedBy m fun k q => k = .overrun ∧ overrun q)
        ∧ m = { s with progs := m.progs, ports := m.ports })
    ∧ ∀ r d, (s.prog p).queue.onAir = some r → r.record.duration = some d → 1 ≤ d → r.framesOnAir = d * 4800 →
      (r.record.autoAdvance = false → r.overrun = false →
        exec (.durationReached p) s = .next ((s.setProg p { s.prog p with
          queue := { (s.prog p).queue with onAir := some { r with overrun := true } } }).raiseAll .overrun p))
      ∧ (r.record.autoAdvance = true → (s.prog p).entry.state = .running → (s.prog p).queue.cued ≠ [] →
        exec (.durationReached p) s = .next (s.settleOverruns.take p .auto))
      ∧ (r.record.autoAdvance = true → ((s.prog p).entry.state ≠ .running ∨ (s.prog p).queue.cued = []) →
        exec (.durationReached p) s = .next (s.settleOverruns.endSegment p .durationEnd))

/-! ### Takes and ends -/

/-- R43, R46, R89, R129: the boundary work of a programme. The limiter fixes every position of the window, oldest first, one after
another (LimiterFixing), and the window is then empty. Every position in flight is then measured, oldest first (MeasuredPosition),
and a full block closes whenever the clock stands at 4800; at the end a block in progress with a clock above 0 closes as a short
block, and with a clock of 0 none does. No position is then in flight and the clock stands at 0. A close of n frames is the whole
close of R49 (BlockClose, AccountsAcceptWindows): both histories gain the record of n frames, with the segment on air or none. At
a boundary nothing but the delay line's corrected samples and the programme changes. -/
def Obligations.BoundaryWork : Prop :=
  (∀ (line : List Stage) (P : Prog),
    let fixed := (fun r : List Stage × Gain => fixOldest P.entry r.1 r.2)^[P.gain.window.length] (line, P.gain)
    let closeIfFull := fun Q : Prog => if 4800 ≤ Q.meas.clock then Q.closeBlock else Q
    let flushed := (fun Q : Prog => closeIfFull (Q.measureOldest fixed.1))^[P.meas.inFlight.length]
      (closeIfFull { P with gain := fixed.2 })
    let r := boundaryWork line P
    r = (fixed.1, if 0 < flushed.meas.clock then flushed.closeBlock else flushed)
    ∧ r.2.gain.window = [] ∧ r.2.meas.inFlight = [] ∧ r.2.meas.clock = 0)
  ∧ (∀ P : Prog, let Q := P.closeBlock
    let m := P.meas
    let record := fun (sum : Rat) => BlockRecord.mk (sum / ((m.clock : Int) : Rat)) m.clock m.held
      (P.queue.onAir.map fun o => ⟨o.record.id, o.takeStamp⟩)
    Q.queue = P.queue
    ∧ Q.entry = (if P.entry.state = .stopping then { P.entry with state := .stopped } else P.entry)
    ∧ Q.meas = { m with
        inHist := appendHistory m.inHist (record m.inSum)
        outHist := appendHistory m.outHist (record m.outSum)
        account := P.closedMeasure.account
        segAccount := P.closedMeasure.segAccount
        inFlight := if P.entry.state = .stopping then [] else m.inFlight
        clock := 0
        inSum := 0
        outSum := 0
        held := false }
    ∧ Q.gain = P.gain.law P.entry.active P.lawTarget (shortTerm Q.meas.inHist) m.held)
  ∧ ∀ (s : State) (p : Index), let r := boundaryWork s.audio.line (s.prog p)
    s.boundary p = ({ s with audio := { s.audio with line := r.1 } }).setProg p r.2

/-- R88 to R92, stages 1 to 5 of a take that acts: the boundary work is done (BoundaryWork), and the engine and the line stand as
it leaves them. The segment on air, if any, is closed: one record with TAKE_NEXT and the values of its account after the boundary is
posted (R140), the log being the log before, less the one record a full log gives up, with this record appended; its notices and
the escalation counter are those of that posting (Posting). The pending set is applied, and the rest of the entry stays; the next
record goes on air with the fields of R91 and an empty Segment Account; and the ramp starts from the applied gain to the entry
value, over the record's ramp length or the default ramp, landing at once when there is no course or no change. With nothing on air
the log and the ports stay. Every other programme is unchanged. -/
def Obligations.TakeStages : Prop :=
  ∀ (s : State) (p : Index) (cause : TakeCause) (r : SegRecord) (rest : List SegRecord),
    (s.prog p).queue.cued = r :: rest →
    let t := s.takeStages p cause
    let P := s.prog p
    let Q := t.prog p
    let cut := (boundaryWork s.audio.line P).2
    let n := Q.entry.escalation
    let active := P.entry.active.apply P.entry.pending
    let ms := r.rampLength.getD active.defaultRamp
    (∃ o, Q.queue = ⟨some o, rest⟩ ∧ o.record = r ∧ o.takeStamp = s.audio.airClock ∧ o.cause = cause
      ∧ o.framesOnAir = 0 ∧ o.overrun = false
      ∧ o.policy = (if r.policy = .fixed ∧ n = 3 then .adaptive else r.policy)
      ∧ o.overridden = decide (r.policy = .fixed ∧ n = 3)
      ∧ o.target = r.targetOverride.getD active.target ∧ o.tolerance = r.toleranceOverride.getD active.tolerance
      ∧ o.gainAtTake = roundAway P.gain.applied
      ∧ Q.gain.policy = o.policy ∧ Q.gain.holding = false
      ∧ (let entry := entryValue r o.policy o.overridden o.target P.gain.applied
        Q.gain.desired = entry
        ∧ (ms ≤ 0 ∨ entry = P.gain.applied → Q.gain.applied = entry ∧ Q.gain.ramp = none)
        ∧ (0 < ms → entry ≠ P.gain.applied → Q.gain.applied = P.gain.applied
          ∧ Q.gain.ramp = some ⟨P.gain.applied, entry, 48 * ms.toNat, 0⟩)))
    ∧ Q.entry = { P.entry with state := cut.entry.state, active := active, pending := .empty, escalation := n }
    ∧ (P.entry.state = .running → Q.entry.state = .running)
    ∧ Q.meas = { cut.meas with segAccount := some ⟨⟨List.replicate 140 ⟨0, 0⟩, false⟩, none, none, -999, 0⟩ }
    ∧ Q.meas.clock = 0 ∧ Q.meas.inFlight = []
    ∧ Q.gain.window = [] ∧ Q.gain.reduction = cut.gain.reduction ∧ Q.gain.passed = cut.gain.passed
    ∧ Q.gain.oldCeiling = ceilingChange P.entry.active.ceiling active.ceiling cut.gain.oldCeiling
    ∧ t.audio.line = (boundaryWork s.audio.line P).1
    ∧ (P.queue.onAir = none → t.log = s.log ∧ t.discards = s.discards ∧ t.ports = s.ports ∧ n = P.entry.escalation)
    ∧ (∀ o, P.queue.onAir = some o → ∃ rec, (t.log, t.discards) = appendRecord (s.log, s.discards) rec
      ∧ t.log.getLast? = some rec ∧ rec.closes p o .takeNext P.gain.applied cut.meas.segAccount
      ∧ t.ports = (s.post rec).ports ∧ n = ((s.post rec).prog p).entry.escalation)
    ∧ s.onlyNotices t [.escalated, .logHalf, .logDiscard]
    ∧ t = { s with audio := t.audio, progs := t.progs, log := t.log, discards := t.discards, ports := t.ports }
    ∧ t.audio = { s.audio with line := t.audio.line }
    ∧ ∀ q, q ≠ p → t.prog q = s.prog q

/-- R113, R118, R123: the ramp of a take: the effective policy, FIXED becoming ADAPTIVE exactly when the counter is 3; its entry
value by that policy; its course in frames, and the landing at once of a ramp with no frames or no change. -/
def Obligations.TransitionRamp : Prop :=
  (∀ (cued : Policy) (counter : Nat), counter ≤ 3 →
      effectivePolicy cued counter = match cued with
        | .fixed => if counter = 3 then (.adaptive, true) else (.fixed, false)
        | .adaptive => (.adaptive, false)
        | .bypass => (.bypass, false))
  ∧ (∀ (r : SegRecord) (target : Int) (applied : Rat) (v : Int),
      r.declared = some v →
      let limited := max (-3000) (min 1500 (target - v))
      entryValue r .fixed false target applied = (limited : Rat) ∧ entryValue r .adaptive true target applied = (limited : Rat))
  ∧ (∀ (r : SegRecord) (mark : Bool) (target : Int) (applied : Rat), entryValue r .bypass mark target applied = 0)
  ∧ (∀ (r : SegRecord) (target : Int) (applied : Rat),
      entryValue r .adaptive false target applied = match r.entryGain with
        | some g => (g : Rat)
        | none => applied)
  ∧ ∀ (g : Gain) (policy : Policy) (entry : Rat) (ms : Int), 0 ≤ ms →
      let h := g.startRamp policy entry ms
      h.policy = policy ∧ h.desired = entry ∧ h.holding = false ∧ h.window = g.window ∧ h.reduction = g.reduction
      ∧ (ms = 0 ∨ entry = g.applied → h.applied = entry ∧ h.ramp = none)
      ∧ (0 < ms → entry ≠ g.applied → h.applied = g.applied
          ∧ h.ramp = some ⟨g.applied, entry, 48 * ms.toNat, 0⟩)

/-- R99, R100, R102, R103: a segment on air ends other than by a take. The boundary work is done (BoundaryWork), the record leaves
the queue, the CUED records stay, the pending set is applied and the rest of the entry stays; one record with the end cause and
the values of its account after the boundary is posted, the log being the log before, less the one record a full log gives up,
with this record appended, with the notices and the escalation counter of that posting (Posting); SEG_CLOSED is raised. A RUNNING
programme goes on in free-run with the gain and the engine as they stand, and a DRAINING one becomes INACTIVE with STATE, its
histories emptied and its reduction 0.00 dB, its policy then ADAPTIVE (log 17) and an old ceiling still to govern (log 26). Other
programmes are unchanged. -/
def Obligations.SegmentEnd : Prop :=
  ∀ (s : State) (p : Index) (cause : EndCause) (o : OnAir), (s.prog p).queue.onAir = some o →
    let t := s.endSegment p cause
    let P := s.prog p
    let Q := t.prog p
    let cut := (boundaryWork s.audio.line P).2
    let active := P.entry.active.apply P.entry.pending
    let oldCeiling := ceilingChange P.entry.active.ceiling active.ceiling cut.gain.oldCeiling
    Q.queue = ⟨none, P.queue.cued⟩
    ∧ Q.entry = { P.entry with
        state := Q.entry.state
        active := active
        pending := .empty
        escalation := Q.entry.escalation }
    ∧ Q.meas.segAccount = none ∧ Q.meas.inFlight = [] ∧ Q.meas.clock = 0 ∧ Q.meas.account = cut.meas.account
    ∧ Q.gain.applied = P.gain.applied ∧ Q.gain.policy = .adaptive ∧ Q.gain.window = [] ∧ Q.gain.ramp = none
    ∧ t.noticed .segClosed p
    ∧ (∃ rec, (t.log, t.discards) = appendRecord (s.log, s.discards) rec ∧ t.log.getLast? = some rec
      ∧ rec.closes p o cause P.gain.applied cut.meas.segAccount
      ∧ Q.entry.escalation = ((s.post rec).prog p).entry.escalation
      ∧ (let closed := (s.post rec).raiseAll .segClosed p
        t.ports = (if P.entry.state = .draining then closed.raiseAll .state p else closed).ports))
    ∧ (P.entry.state = .running → Q.entry.state = .running ∧ Q.meas = { cut.meas with segAccount := none }
        ∧ Q.gain = { cut.gain with
            policy := .adaptive
            desired := P.gain.applied
            holding := false
            ramp := none
            oldCeiling := oldCeiling })
    ∧ (P.entry.state = .draining → Q.entry.state = .inactive ∧ t.noticed .state p
        ∧ Q.meas = { cut.meas with
            segAccount := none
            inSum := 0
            outSum := 0
            held := false
            inHist := []
            outHist := [] }
        ∧ Q.gain = { cut.gain with policy := .adaptive, ramp := none, reduction := 0, oldCeiling := oldCeiling })
    ∧ s.onlyNotices t [.escalated, .logHalf, .logDiscard, .segClosed, .state]
    ∧ t = { s with audio := t.audio, progs := t.progs, log := t.log, discards := t.discards, ports := t.ports }
    ∧ t.audio = { s.audio with line := (boundaryWork s.audio.line P).1 }
    ∧ ∀ q, q ≠ p → t.prog q = s.prog q

/-- R88, R95, R97: a take acts on a RUNNING programme with a CUED record, and on no other. One that acts on `p` leaves on `p` what
its own stages leave, with SEG_STARTED, and SEG_CLOSED when a segment ended; a take by cue or follow that does not act changes
nothing but TAKE_MISSED at every port. The take passes on to each programme that follows one on which it acts, once: a RUNNING one
with a CUED record goes on air with the cause FOLLOW of its leader at the same position, another misses the take. A programme the
cascade does not reach, the lines, the straps and the Audio Port but for corrected samples are unchanged. With the delay line in
its shape and the slots of active programmes apart (what every step keeps): the take leaves on each programme on which it acts,
and in its slots of the delay line, all that its own stages leave (TakeStages), and leaves the slots of the other active
programmes; and the records posted are those of these stages, none before that of its leader (R95, R149). The notices of these
kinds are raised for these programmes and no others, and ESCALATED for those whose counter goes from 2 to 3. -/
def Obligations.TakeAndItsCascade : Prop :=
  (∀ P : Prog, (P.takeActs = true ↔ P.entry.state = .running ∧ P.queue.cued ≠ [])
      ∧ (P.hasOnAir = true ↔ ∃ o, P.queue.onAir = some o))
  ∧ ∀ (s : State) (p : Index) (cause : TakeCause), s.followAcyclic → let t := s.take p cause
    ((s.prog p).takeActs = true → t.prog p = (s.takeStages p cause).prog p ∧ t.noticed .segStarted p
      ∧ ((s.prog p).hasOnAir = true → t.noticed .segClosed p))
    ∧ ((s.prog p).takeActs = false → t = s.raiseAll .takeMissed p)
    ∧ (∀ q l, q ≠ p → s.reaches p q → (s.prog q).entry.trigger = .follow l →
      ((s.prog q).takeActs = true → t.noticed .segStarted q ∧ ((s.prog q).hasOnAir = true → t.noticed .segClosed q)
        ∧ ∃ o r, (s.prog q).queue.cued.head? = some r ∧ (t.prog q).queue = ⟨some o, (s.prog q).queue.cued.tail⟩
          ∧ o.record = r ∧ o.cause = .follow l ∧ o.takeStamp = s.audio.airClock)
      ∧ ((s.prog q).takeActs = false → t.prog q = s.prog q ∧ t.noticed .takeMissed q))
    ∧ (∀ q, ¬s.reaches p q → t.prog q = s.prog q)
    ∧ (s.lineShaped → s.slotsDisjoint →
      (∀ q l, q ≠ p → s.reaches p q → (s.prog q).entry.trigger = .follow l → (s.prog q).takeActs = true →
        t.prog q = (s.takeStages q (.follow l)).prog q)
      ∧ (∀ q c i, s.reaches p q → (s.prog q).takeActs = true → let e := (s.prog q).entry
        channels e (t.audio.line.getD i Stage.zero).cor
          = channels e ((s.takeStages q c).audio.line.getD i Stage.zero).cor)
      ∧ (∀ q i, ¬(s.reaches p q ∧ (s.prog q).takeActs = true) → (s.prog q).isActive = true → let e := (s.prog q).entry
        channels e (t.audio.line.getD i Stage.zero).cor = channels e (s.audio.line.getD i Stage.zero).cor)
      ∧ s.takesPosted t (s.reaches p))
    ∧ t.audio = { s.audio with line := t.audio.line } ∧ t.audio.line.map (·.raw) = s.audio.line.map (·.raw)
    ∧ t.lines = s.lines ∧ t.override = s.override ∧ t.baud = s.baud ∧ t.restartArmed = s.restartArmed
    ∧ t.pending = s.pending
    ∧ s.onlyNotices t [.segStarted, .segClosed, .takeMissed, .escalated, .logHalf, .logDiscard]
    ∧ s.takesNoticed t (s.reaches p)

/-! ### Verdicts and the Result Log -/

/-- R134: the verdict by the first case that applies; the tolerance test is that of R135. -/
def Obligations.VerdictOfARecord : Prop :=
  ∀ (cause : EndCause) (integrated : Option Int) (target tolerance : Int), 0 ≤ tolerance →
    let v := verdictOf cause integrated target tolerance
    (cause = .abort ∨ cause = .forced → v = .aborted)
    ∧ (cause = .restart → v = .interrupted)
    ∧ (cause = .takeNext ∨ cause = .finish ∨ cause = .durationEnd →
      (integrated = none → v = .silent)
      ∧ ∀ l, integrated = some l →
        (|l - target| ≤ tolerance → v = .pass)
        ∧ (target + tolerance < l → v = .high)
        ∧ (l < target - tolerance → v = .low))

/-- R138, R139: the escalation counter of the record's programme after a posting, and ESCALATED exactly when it goes from 2
to 3; nothing else of a programme is changed, and no other notice. R140, R142, R143: a posting appends the record with its verdict
as the newest; a full log first gives up one record, with the tally and LOG_DISCARD; the log reaching 24 records raises LOG_HALF.
R141: the record a full log gives up is the oldest PASS if it holds one, otherwise the oldest; the others keep their order. -/
def Obligations.Posting : Prop :=
  (∀ (s : State) (r : ResultRecord), let t := s.post r
    let verdict := verdictOf r.endCause r.integrated r.target r.tolerance
    let counts := r.cls = .spot ∨ r.cls = .promo
    let before := (s.prog r.programme).entry.escalation
    let after := (t.prog r.programme).entry.escalation
    (counts → (verdict = .high ∨ verdict = .low) → after = min 3 (before + 1))
    ∧ (counts → verdict = .pass → after = 0)
    ∧ (counts → (verdict = .silent ∨ verdict = .aborted ∨ verdict = .interrupted) → after = before)
    ∧ (¬counts → after = before)
    ∧ (before = 2 → after = 3 → t.noticed .escalated r.programme)
    ∧ (¬(before = 2 ∧ after = 3) → ∀ x, (t.port x).notices.escalated = (s.port x).notices.escalated)
    ∧ t.prog r.programme = { s.prog r.programme with entry := { (s.prog r.programme).entry with escalation := after } }
    ∧ (∀ q, q ≠ r.programme → t.prog q = s.prog q)
    ∧ s.onlyNotices t [.escalated, .logHalf, .logDiscard]
    ∧ t = { s with progs := t.progs, log := t.log, discards := t.discards, ports := t.ports })
  ∧ (∀ (s : State) (r : ResultRecord), let t := s.post r
    let judged := { r with verdict := verdictOf r.endCause r.integrated r.target r.tolerance }
    (s.log.length < 48 → t.log = s.log ++ [{ judged with discardsBefore := 0 }] ∧ t.discards = s.discards
      ∧ (∀ x, (t.port x).notices.logDiscard = (s.port x).notices.logDiscard)
      ∧ (s.log.length = 23 → t.noticedPlain .logHalf)
      ∧ (s.log.length ≠ 23 → ∀ x, (t.port x).notices.logHalf = (s.port x).notices.logHalf))
    ∧ (48 ≤ s.log.length → t.log = discardOne s.log ++ [{ judged with discardsBefore := 1 }]
      ∧ t.discards = min 255 (s.discards + 1) ∧ t.noticedPlain .logDiscard
      ∧ ∀ x, (t.port x).notices.logHalf = (s.port x).notices.logHalf))
  ∧ ∀ log : List ResultRecord,
    (∀ older r newer, log = older ++ r :: newer → r.verdict = .pass → (∀ q ∈ older, q.verdict ≠ .pass) →
      discardOne log = older ++ newer)
    ∧ ((∀ r ∈ log, r.verdict ≠ .pass) → discardOne log = log.tail)

/-! ### The limiter -/

/-- R127: the position a programme fixes meets the continuation condition under its governing ceiling whenever the position
before it met it under that same ceiling: the samples it is given keep its own estimate, and the estimates of the three
positions after it if they were all zero, at or below the ceiling. And whatever the position before met, after a lowered ceiling
too, the position meets the condition if any reduction makes it meet it: this second clause is the model's choice (log 28). The
model's choice too: the reduction is a whole number of steps (log 12), and 160.00 dB is a mute (log 13). -/
def Obligations.LimiterKeepsTheCeiling : Prop :=
  (∀ (e : Entry) (g : Gain) (w : GainApplied) (rest : List GainApplied) (s3 s2 s1 s0 : List Int),
      let n := w.input.length
      s3.length = n → s2.length = n → s1.length = n → s0.length = n →
      let ceiling := g.governing e.active.ceiling
      continuation ceiling s3 s2 s1 s0 = true →
      continuation ceiling s2 s1 s0 (sampleInts (w.corrected (g.chooseReduction e w rest s2 s1 s0))) = true)
  ∧ (∀ (e : Entry) (g : Gain) (w : GainApplied) (rest : List GainApplied) (s3 s2 s1 : List Int) (r : Nat),
      let n := w.input.length
      s3.length = n → s2.length = n → s1.length = n →
      let ceiling := g.governing e.active.ceiling
      continuation ceiling s3 s2 s1 (sampleInts (w.corrected r)) = true →
      continuation ceiling s3 s2 s1 (sampleInts (w.corrected (g.chooseReduction e w rest s3 s2 s1))) = true)

/-- R125 to R127: fixing the oldest position of the window. Its reduction is the one chosen after the corrected samples of the
three positions before it; the corrected samples of its channels are its input times the gain less the reduction, rounded to 24
bits and held in range; they go into the programme's slots beside the raw samples, and nothing else of the line changes. A lowered
ceiling leaves the one before it to govern the next three positions fixed, and a raise ends that. The estimate is the greatest
magnitude, over all channels, of the sample and the three points of R126; it is within a ceiling exactly when it is no greater, and
is reported to 0.1 dBTP, from -99.9; the continuation condition is that of the estimates of p and of p + 1 to p + 3 with zero
samples there; and the estimate foreseen is the same of gain-applied samples (R128). The model's choices: the steps of the
reduction (log 12), zero samples at 160.00 dB and beyond (log 13), powers of ten (log 11), and what a second change of the ceiling
within three positions does (log 15). -/
def Obligations.LimiterFixing : Prop :=
  (∀ (e : Entry) (line : List Stage) (g : Gain) (w : GainApplied) (rest : List GainApplied), g.window = w :: rest →
      let place := line.length - g.window.length
      let before := fun back => if back ≤ place then sampleInts (channels e (line.getD (place - back) Stage.zero).cor)
        else List.replicate e.width 0
      let reduction := g.chooseReduction e w rest (before 3) (before 2) (before 1)
      let r := fixOldest e line g
      r.2 = { g with
          window := rest
          reduction := reduction
          passed := (w :: g.passed).take 3
          oldCeiling := match g.oldCeiling with
            | some old => if 1 < old.left then some ⟨old.ceiling, old.left - 1⟩ else none
            | none => none }
      ∧ r.1.length = line.length ∧ r.1.map (·.raw) = line.map (·.raw)
      ∧ (∀ i, i ≠ place → (r.1)[i]? = (line)[i]?)
      ∧ (place < line.length → ∀ j, j < 16 → (r.1.getD place Stage.zero).cor[j]?
          = some (if e.base ≤ j ∧ j < e.base + e.width then (w.corrected reduction).getD (j - e.base) 0
            else (line.getD place Stage.zero).cor.getD j 0)))
  ∧ (∀ (w : GainApplied) (r c : Nat), (w.corrected r).length = w.input.length
      ∧ ∀ v, w.input[c]? = some v → ∃ x, (w.corrected r)[c]? = some x
        ∧ (16000 * 2 ^ 32 ≤ r → x = 0)
        ∧ (r < 16000 * 2 ^ 32 → x.toInt = max (-8388608) (min 8388607
            (roundAway ((v.toInt : Rat) * gainFactor (w.gain - (r : Rat) / 2 ^ 32))))))
  ∧ (∀ (g : Gain) (ceiling : Int), (g.oldCeiling = none → g.governing ceiling = ceiling)
      ∧ ∀ old, g.oldCeiling = some old → g.governing ceiling = if 0 < old.left then old.ceiling else ceiling)
  ∧ (∀ (before after : Int) (old : Option OldCeiling),
      (after < before → ceilingChange before after old = some ⟨before, 3⟩)
      ∧ (before < after → ceilingChange before after old = none)
      ∧ (before = after → ceilingChange before after old = old))
  ∧ (∀ a b c d : Int, peakPoints a b c d
      = [256 * d, 10 * a - 54 * b + 270 * c + 30 * d, 16 * a - 80 * b + 240 * c + 80 * d, 14 * a - 66 * b + 154 * c + 154 * d])
  ∧ (∀ a b c d : Rat, peakPoints a b c d
      = [256 * d, 10 * a - 54 * b + 270 * c + 30 * d, 16 * a - 80 * b + 240 * c + 80 * d, 14 * a - 66 * b + 154 * c + 154 * d])
  ∧ (∀ s3 s2 s1 s0 : List Int, let m := peakMagnitude s3 s2 s1 s0
      let point := fun v => ∃ (i : Nat) (a b c d : Int), s3[i]? = some a ∧ s2[i]? = some b ∧ s1[i]? = some c ∧ s0[i]? = some d
        ∧ v ∈ peakPoints a b c d
      (∀ v, point v → v.natAbs ≤ m) ∧ (m = 0 ∨ ∃ v, point v ∧ v.natAbs = m))
  ∧ (∀ s3 s2 s1 s0 : List Rat, let m := foreseenMagnitude s3 s2 s1 s0
      let point := fun v => ∃ (i : Nat) (a b c d : Rat), s3[i]? = some a ∧ s2[i]? = some b ∧ s1[i]? = some c ∧ s0[i]? = some d
        ∧ v ∈ peakPoints a b c d
      (∀ v, point v → |v| ≤ m) ∧ (m = 0 ∨ ∃ v, point v ∧ |v| = m))
  ∧ (∀ (e : Entry) (slots : List Sample), channels e slots = (List.range e.width).map fun c => slots.getD (e.base + c) 0)
  ∧ (∀ samples : List Sample, sampleInts samples = samples.map fun v => v.toInt)
  ∧ (∀ (e : Entry) (line : List Stage) (i : Nat),
      let tap := fun back => if back ≤ i then sampleInts (channels e (line.getD (i - back) Stage.zero).cor)
        else List.replicate e.width 0
      estimateAt e line i = peakMagnitude (tap 3) (tap 2) (tap 1) (tap 0))
  ∧ (∀ width : Nat, gainAppliedValues width none = List.replicate width 0)
  ∧ (∀ (width : Nat) (w : GainApplied),
      gainAppliedValues width (some w) = w.input.map fun v => (v.toInt : Rat) * gainFactor w.gain)
  ∧ (∀ g : Rat, gainFactor g = pow10 (g / 2000))
  ∧ (∀ (m : Nat) (ceiling : Int), withinCeiling m ceiling = true ↔ ((m : Rat) / 2 ^ 31) ^ 200 ≤ (10 : Rat) ^ ceiling)
  ∧ (∀ (ceiling : Int) (s3 s2 s1 s0 : List Int), let zero := List.replicate s0.length 0
      continuation ceiling s3 s2 s1 s0 = true ↔ withinCeiling (peakMagnitude s3 s2 s1 s0) ceiling = true
        ∧ withinCeiling (peakMagnitude s2 s1 s0 zero) ceiling = true
        ∧ withinCeiling (peakMagnitude s1 s0 zero zero) ceiling = true
        ∧ withinCeiling (peakMagnitude s0 zero zero zero) ceiling = true)
  ∧ ∀ (m : Nat) (t : Int), m ≤ 2 ^ 32 → t = truePeakTenths m →
      -999 ≤ t ∧ ((m : Rat) / 2 ^ 31) ^ 400 < (10 : Rat) ^ (2 * t + 1)
      ∧ (-999 < t → (10 : Rat) ^ (2 * t - 1) ≤ ((m : Rat) / 2 ^ 31) ^ 400)

/-- R128: the reduction chosen for a position. Where the greater of release and attack meets the continuation condition it is
chosen; otherwise the least reduction that does, which is then greater than both where the position before met the condition under
the ceiling that governs this one (R127), as it did but after a lowered ceiling; and a mute of 160.00 dB where none does. Release:
the reduction before, times e^-(1/48T). Attack: over the positions behind in the window, the greatest of the need of the j-th
times (72 - j)/72, foreseen under the ceiling that governs this position, so without warning of a lowered one while an old one
governs (R131). Need: the least reduction that brings the estimate of the gain-applied samples to the ceiling, or 160.00 dB. The
model's choices: powers (log 11), steps and their rounding (log 12), the mute (log 13), and what is chosen after a lowered ceiling
(log 28); the ceiling of the forecast is deduced from R131 (log 14). -/
def Obligations.LimiterReduction : Prop :=
  (∀ (e : Entry) (g : Gain) (w : GainApplied) (rest : List GainApplied) (s3 s2 s1 : List Int),
      let n := w.input.length
      s3.length = n → s2.length = n → s1.length = n →
      let meets := fun r => continuation (g.governing e.active.ceiling) s3 s2 s1 (sampleInts (w.corrected r)) = true
      let least := max (g.release e) (g.attack e w rest)
      let chosen := g.chooseReduction e w rest s3 s2 s1
      (meets least → chosen = least)
      ∧ (∀ r, ¬meets least → meets r → meets chosen ∧ chosen ≤ r)
      ∧ (∀ s4 : List Int, s4.length = n → continuation (g.governing e.active.ceiling) s4 s3 s2 s1 = true → ¬meets least →
        least < chosen)
      ∧ ((∀ r, ¬meets r) → chosen = 16000 * 2 ^ 32))
  ∧ (∀ (e : Entry) (g : Gain) (T : Nat), e.active.release = (T : Int) → 1 ≤ T →
      let x := 2 ^ 96 / (48 * T)
      g.release e = g.reduction * 2 ^ 96 / expFixed x
      ∧ 2 ^ 96 + x ≤ expFixed x ∧ expFixed x * (2 ^ 96 - x) ≤ 2 ^ 192)
  ∧ (∀ (e : Entry) (g : Gain) (w : GainApplied) (rest : List GainApplied),
      let scaled := gainAppliedValues e.width
      let seq := scaled g.passed[1]? :: scaled g.passed[0]? :: scaled (some w) :: rest.map fun q => scaled (some q)
      let share := fun j => foreseenNeed (g.governing e.active.ceiling)
        (foreseenMagnitude (seq.getD (j - 1) []) (seq.getD j []) (seq.getD (j + 1) []) (seq.getD (j + 2) [])) * (72 - j) / 72
      (∀ j, 1 ≤ j → j ≤ 71 → j ≤ rest.length → share j ≤ g.attack e w rest)
      ∧ (g.attack e w rest = 0 ∨ ∃ j, 1 ≤ j ∧ j ≤ 71 ∧ j ≤ rest.length ∧ g.attack e w rest = share j))
  ∧ ∀ (ceiling : Int) (m : Rat),
      let enough := fun (r : Nat) => m ≤ 2 ^ 31 * pow10 ((ceiling : Rat) / 200 + (r : Rat) / (2000 * 2 ^ 32))
      (enough (foreseenNeed ceiling m) ∨ foreseenNeed ceiling m = 16000 * 2 ^ 32)
      ∧ ∀ r, r < foreseenNeed ceiling m → ¬enough r

/-! ### Cue lines -/

/-- CUE_LINE_CHANGE and REJECT_LENGTH_EXPIRY (R171), with 3000 ticks in a millisecond (log 2). A change to the level last sampled
is none (log 4), and an expiry before the elapsed time has reached the reject length is none (log 3). -/
def Obligations.CueLineQualification : Prop :=
  ∀ (s : State) (k : Index) (high : Bool), let u := s.settle
    let l := u.line k
    (high = l.raw → exec (.cueLineChange k high) s = .next u)
    ∧ (high ≠ l.raw → high = l.accepted →
      exec (.cueLineChange k high) s = .next (u.setLine k { l with raw := high, change := none }))
    ∧ (high ≠ l.raw → high ≠ l.accepted → l.reject ≠ .ms0 →
      exec (.cueLineChange k high) s = .next (u.setLine k { l with raw := high, change := some 0 }))
    ∧ (high ≠ l.raw → high ≠ l.accepted → l.reject = .ms0 →
      exec (.cueLineChange k high) s = .next ((u.setLine k { l with raw := high }).acceptEdge k))
    ∧ (∀ n, l.change = some n →
      let limit := match l.reject with
        | .ms0 => 0
        | .ms2 => 2 * 3000
        | .ms8 => 8 * 3000
        | .ms32 => 32 * 3000
      (limit ≤ n → exec (.rejectLengthExpiry k) s = .next (u.acceptEdge k))
      ∧ (n < limit → exec (.rejectLengthExpiry k) s = .next u))
    ∧ (l.change = none → exec (.rejectLengthExpiry k) s = .next u)

/-- R172, R173, R94, R95, R97, R176, R177: an accepted edge: the accepted level takes the raw level; the rising or the falling
flag of the line is SET and CUE_EDGE raised at every port. An inactive-going one changes no queue, gain, entry, log or other
notice; the programmes whose tally the line is remember the moment, in a field of the model's own (log 19). An active-going one
leaves those moments. It is a take with cause CUE on each programme the line triggers, and through them a take with cause FOLLOW
on their followers: where the take acts, which is on a RUNNING programme with a CUED record (R88, R97), SEG_STARTED, and
SEG_CLOSED when a segment ended; where it does not, TAKE_MISSED and no change; a programme it does not reach is unchanged and gets
none of these notices. With the delay line in its shape and the slots apart, it leaves on each programme on which it acts all that
its own stages leave, in its slots of the line too and in no others, and the records posted are theirs, none before that of its
leader. -/
def Obligations.AcceptedEdge : Prop :=
  (∀ P : Prog, (P.takeActs = true ↔ P.entry.state = .running ∧ P.queue.cued ≠ [])
      ∧ (P.hasOnAir = true ↔ ∃ o, P.queue.onAir = some o))
  ∧ ∀ (s : State) (k : Index), let t := s.acceptEdge k
    let rising := (s.line k).raw != (s.line k).inverted
    let reached := fun q => ∃ p, (s.prog p).entry.trigger = .cue k ∧ s.reaches p q
    let caused := fun q c => ((s.prog q).entry.trigger = .cue k ∧ c = TakeCause.cue k)
      ∨ ∃ l, (s.prog q).entry.trigger = .follow l ∧ c = .follow l
    t.line k = { s.line k with accepted := (s.line k).raw, change := none }
    ∧ (∀ j, j ≠ k → t.line j = s.line j)
    ∧ (∀ x, (t.port x).notices.get .cueEdge = ⟨true, ((s.port x).notices.get .cueEdge).bitmap ||| bitOf k⟩)
    ∧ (∀ x, (t.port x).rising = (if rising then (s.port x).rising ||| bitOf k else (s.port x).rising)
        ∧ (t.port x).falling = (if rising then (s.port x).falling else (s.port x).falling ||| bitOf k)
        ∧ t.port x = { s.port x with
            notices := (t.port x).notices
            rising := (t.port x).rising
            falling := (t.port x).falling })
    ∧ (rising = false → ∀ x j, j ≠ .cueEdge → (t.port x).notices.get j = (s.port x).notices.get j)
    ∧ (rising = true → s.takesNoticed t reached)
    ∧ (rising = false → t.log = s.log ∧ ∀ p, t.prog p = { s.prog p with meas := { (s.prog p).meas with
        tallyLatch := (s.prog p).meas.tallyLatch || decide ((s.prog p).entry.tally = some k) } })
    ∧ (rising = true → ∀ p, (t.prog p).meas.tallyLatch = (s.prog p).meas.tallyLatch)
    ∧ (rising = true → ∀ p, (s.prog p).entry.trigger = .cue k →
        ((s.prog p).takeActs = true → ∃ o r, (s.prog p).queue.cued.head? = some r
          ∧ (t.prog p).queue.onAir = some o ∧ o.record = r ∧ o.cause = .cue k ∧ o.takeStamp = s.audio.airClock)
        ∧ ((s.prog p).takeActs = false → (t.prog p).queue = (s.prog p).queue ∧ t.noticed .takeMissed p))
    ∧ (rising = true → ∀ q,
        (reached q → (s.prog q).takeActs = true → t.noticed .segStarted q
          ∧ ((s.prog q).hasOnAir = true → t.noticed .segClosed q))
        ∧ (reached q → (s.prog q).takeActs = false → t.prog q = s.prog q ∧ t.noticed .takeMissed q)
        ∧ (¬reached q → t.prog q = s.prog q))
    ∧ (rising = true → s.lineShaped → s.slotsDisjoint →
        (∀ q c, reached q → caused q c → (s.prog q).takeActs = true → t.prog q = (s.takeStages q c).prog q
          ∧ ∀ i, channels (s.prog q).entry (t.audio.line.getD i Stage.zero).cor
            = channels (s.prog q).entry ((s.takeStages q c).audio.line.getD i Stage.zero).cor)
        ∧ (∀ q i, ¬(reached q ∧ (s.prog q).takeActs = true) → (s.prog q).isActive = true →
          channels (s.prog q).entry (t.audio.line.getD i Stage.zero).cor
            = channels (s.prog q).entry (s.audio.line.getD i Stage.zero).cor)
        ∧ s.takesPosted t reached)
    ∧ t.audio = { s.audio with line := t.audio.line } ∧ t.audio.line.map (·.raw) = s.audio.line.map (·.raw)
    ∧ t.override = s.override ∧ t.baud = s.baud ∧ t.restartArmed = s.restartArmed ∧ t.pending = s.pending

/-- CUE.CONFIG (R175) with three parameter bytes: BAD_VALUE, NO_RIGHTS, or the polarity and then the reject length (other lengths
are MALFORMED: BadRequests). A polarity change is no edge: queues, entries, gains, log, flags and notices stay; when it makes the
line INACTIVE, the programmes whose tally it is remember the moment (R177), in a field of the model's own (log 19). A new length
restarts a pending change at 0, and a new length of 0 accepts it at once, which is then an edge (AcceptedEdge). CUE.READ (R174)
with no parameter: one byte for each line, CL0 first, and then all sixteen edge flags of the requesting port are CLEAR. -/
def Obligations.CueRequests : Prop :=
  (∀ (s : State) (x : PortId) (tag line polarity length : Byte), s.receptive x → let v := s.judged x
      let ask := exec (.cueConfig x tag [line, polarity, length]) s
      ((indexOf line = none ∨ flagOf polarity = none ∨ rejectOf length = none) →
        ask = answered v x 0x40 tag .badValue [])
      ∧ ∀ k inverted reject, indexOf line = some k → flagOf polarity = some inverted → rejectOf length = some reject →
        (¬(v.override = none ∨ v.override = some x) → ask = answered v x 0x40 tag .noRights [])
        ∧ (v.override = none ∨ v.override = some x → ∃ t, ask = answered t x 0x40 tag .ok []
          ∧ (t.line k).inverted = inverted ∧ (t.line k).reject = reject ∧ (t.line k).raw = (v.line k).raw
          ∧ (∀ j, j ≠ k → t.line j = v.line j)
          ∧ (reject = (v.line k).reject → (t.line k).change = (v.line k).change ∧ (t.line k).accepted = (v.line k).accepted
              ∧ t.ports = v.ports)
          ∧ (reject ≠ (v.line k).reject → reject ≠ .ms0 → (t.line k).change = (v.line k).change.map (fun _ => 0)
              ∧ (t.line k).accepted = (v.line k).accepted ∧ t.ports = v.ports)
          ∧ (reject ≠ (v.line k).reject → reject = .ms0 → (v.line k).change = none → t.ports = v.ports)
          ∧ (reject ≠ (v.line k).reject → reject = .ms0 → (v.line k).change.isSome = true →
              (t.line k).change = none ∧ (t.line k).accepted = (v.line k).raw ∧ t.noticed .cueEdge k)
          ∧ ∃ u, t = (if reject ≠ (v.line k).reject ∧ reject = .ms0 ∧ (v.line k).change.isSome = true then u.acceptEdge k
                else u)
              ∧ u = { v with lines := u.lines, progs := u.progs }
              ∧ u.line k = { v.line k with
                  inverted := inverted
                  reject := reject
                  change := if reject = (v.line k).reject then (v.line k).change else (v.line k).change.map fun _ => 0 }
              ∧ ∀ p, let inactive := (v.prog p).entry.tally = some k ∧ inverted ≠ (v.line k).inverted
                    ∧ (v.line k).accepted = inverted
                u.prog p = { v.prog p with
                  meas := { (v.prog p).meas with tallyLatch := (v.prog p).meas.tallyLatch || decide inactive } }))
  ∧ (∀ (s : State) (x : PortId) (tag : Byte), s.receptive x → let v := s.judged x
      exec (.cueRead x tag []) s
        = answered (v.setPort x { v.port x with rising := 0, falling := 0 }) x 0x41 tag .ok
          (allIndices.map fun k => lineByte (v.port x) k (v.line k)))

/-! ### Restart -/

/-- RESTARTN_ARMED, RESTARTN_LOW and DEV.RESTART (R193): ten high samples arm the pin; ten low samples of the armed pin make a
restart and disarm it, and of a pin that is not armed make none; DEV.RESTART makes one for the override port alone, answered OK
after it. And what a restart leaves (R15, R40, R68, R87, R133, R168, R178, R194). R104, R105, R140, R141, R151: a restart posts
one INTERRUPTED record for each segment on air, with the values of its account after the boundary and the gain at its end, one
after another in some order; a full log gives up one record for each; with room for them all, the log before is a prefix of the
log after. The Programme Account of such a programme is as the boundary leaves it. The boundaries are told by the line and the
slots as every step keeps them (lineShaped, slotsDisjoint, statesFit). The model's readings: the pin's arming by the table's rows,
which a restart itself leaves as it is (log 18); the commands waiting stay (log 22); an old ceiling goes on governing (log 26). -/
def Obligations.Restart : Prop :=
  (∀ s : State,
      exec .restartnArmed s = .next { s with restartArmed := true }
      ∧ (s.settle.restartArmed = true → exec .restartnLow s = .next { s.settle.restart with restartArmed := false })
      ∧ (s.settle.restartArmed = false → exec .restartnLow s = .next s.settle)
      ∧ ∀ (x : PortId) (tag : Byte), s.receptive x →
        ((s.judged x).override = some x → exec (.devRestart x tag []) s = answered (s.judged x).restart x 0x02 tag .ok [])
        ∧ ((s.judged x).override ≠ some x →
          exec (.devRestart x tag []) s = answered (s.judged x) x 0x02 tag .noRights []))
  ∧ (∀ s : State, let t := s.restart
      t.audio = ⟨.lost, 0, none, .absent, s.audio.airClock, List.replicate 80 ⟨List.replicate 16 0, List.replicate 16 0⟩,
        List.replicate 16 0⟩
      ∧ t.override = s.override ∧ t.baud = s.baud ∧ t.restartArmed = s.restartArmed ∧ t.pending = s.pending
      ∧ (∀ k, (t.line k).inverted = (s.line k).inverted ∧ (t.line k).reject = (s.line k).reject
          ∧ (t.line k).accepted = (s.line k).accepted ∧ (t.line k).raw = (s.line k).raw
          ∧ (t.line k).change = if (s.line k).raw = (s.line k).accepted then none else some 0)
      ∧ (∀ x, (t.port x).rx = .idle ∧ (t.port x).gap = none ∧ (t.port x).reply = (s.port x).reply
          ∧ (t.port x).present = true ∧ (t.port x).timerSetting = 0 ∧ (t.port x).timerCount = none
          ∧ (∀ k, (t.port x).notices.get k = ⟨false, 0⟩) ∧ (t.port x).mask = BitVec.allOnes 12 ∧ (t.port x).attn = false
          ∧ (t.port x).snapshot = none ∧ (t.port x).rising = 0 ∧ (t.port x).falling = 0)
      ∧ ∀ p, let P := s.prog p
        let Q := t.prog p
        Q.queue = ⟨none, []⟩ ∧ Q.entry.custodian = none ∧ Q.entry.rights = P.entry.rights
        ∧ Q.entry.base = P.entry.base ∧ Q.entry.width = P.entry.width ∧ Q.entry.trigger = P.entry.trigger
        ∧ Q.entry.tally = P.entry.tally ∧ Q.entry.escalation = P.entry.escalation
        ∧ Q.entry.active = P.entry.active.apply P.entry.pending ∧ Q.entry.pending = .empty
        ∧ (P.entry.state = .inactive → Q.entry.state = .inactive)
        ∧ (P.entry.state = .stopped → Q.entry.state = .stopped)
        ∧ (P.entry.state = .running → Q.entry.state = .running)
        ∧ (P.entry.state = .stopping → Q.entry.state = .stopped)
        ∧ (P.entry.state = .draining → Q.entry.state = .inactive)
        ∧ Q.meas.inHist = [] ∧ Q.meas.outHist = [] ∧ Q.meas.clock = 0 ∧ Q.meas.inFlight = [] ∧ Q.meas.segAccount = none
        ∧ Q.meas.inFilters = List.replicate 6 Filter.zero ∧ Q.meas.outFilters = List.replicate 6 Filter.zero
        ∧ Q.meas.inSum = 0 ∧ Q.meas.outSum = 0 ∧ Q.meas.held = false ∧ Q.meas.tallyLatch = Q.tallyInactive t.lines
        ∧ (P.queue.onAir = none → Q.meas.account = P.meas.account
          ∧ Q.gain.oldCeiling = ceilingChange P.entry.active.ceiling Q.entry.active.ceiling P.gain.oldCeiling)
        ∧ Q.gain.applied = 0 ∧ Q.gain.desired = 0 ∧ Q.gain.policy = .adaptive ∧ Q.gain.holding = true
        ∧ Q.gain.ramp = none ∧ Q.gain.window = [] ∧ Q.gain.reduction = 0 ∧ Q.gain.passed = [] ∧ Q.mode = .frozen)
  ∧ (∀ s : State, s.lineShaped → s.slotsDisjoint → s.statesFit → let t := s.restart
      let cut := fun p => (boundaryWork s.audio.line (s.prog p)).2
      (∃ records : List ResultRecord, (t.log, t.discards) = records.foldl appendRecord (s.log, s.discards)
        ∧ (∀ p, (∃ r ∈ records, r.programme = p) ↔ ∃ o, (s.prog p).queue.onAir = some o)
        ∧ (records.map (·.programme)).Nodup
        ∧ ∀ r ∈ records, r.verdict = .interrupted ∧ ∀ o, (s.prog r.programme).queue.onAir = some o →
          r.closes r.programme o .restart (s.prog r.programme).gain.applied (cut r.programme).meas.segAccount)
      ∧ ∀ p o, (s.prog p).queue.onAir = some o → (t.prog p).meas.account = (cut p).meas.account
        ∧ (t.prog p).gain.oldCeiling
          = ceilingChange (s.prog p).entry.active.ceiling (t.prog p).entry.active.ceiling (cut p).gain.oldCeiling)
  ∧ (∀ s : State, let n := (allIndices.filter fun p => (s.prog p).hasOnAir).length
      s.log.length + n ≤ 48 →
      ∃ new, s.restart.log = s.log ++ new ∧ new.length = n ∧ s.restart.discards = s.discards
        ∧ (∀ r ∈ new, r.verdict = .interrupted ∧ r.endCause = .restart ∧ (s.prog r.programme).hasOnAir = true)
        ∧ ∀ p o, (s.prog p).queue.onAir = some o → ∃ r ∈ new, r.programme = p ∧ r.id = o.record.id)

/-! ### Reception -/

/-- BYTE_RECEIVED (R181), by the state of the receiver: the second CRC byte of a right frame takes its request, and that of a body
with no tag or with a code that is not in the request code list is UNKNOWN_REQUEST of that body (R185). A wrong CRC,
an invalid length and a framing error discard the frame in progress and nothing else (R181, R182, log 4), and so does a gap of
more than 10 ms, which is 30000 ticks (logs 2, 3); a frame that completes during a reply is discarded, and the end of a reply
leaves REPLYING and a frame in progress (R183). -/
def Obligations.Reception : Prop :=
  (∀ (s : State) (x : PortId) (b : Byte), let u := s.settle
      let P := u.port x
      let kept := fun rx => u.setPort x { P with rx := rx, gap := some 0 }
      let dropped := u.setPort x { P with rx := .idle, gap := none }
      (P.rx = .idle → b = 0xA5 → exec (.byteReceived x b) s = .next (kept .awaitLength))
      ∧ (P.rx = .idle → b ≠ 0xA5 → exec (.byteReceived x b) s = .next u)
      ∧ (P.rx = .awaitLength → 1 ≤ b.toNat → b.toNat ≤ 250 →
          exec (.byteReceived x b) s = .next (kept (.body b.toNat [])))
      ∧ (P.rx = .awaitLength → b.toNat = 0 ∨ 251 ≤ b.toNat → exec (.byteReceived x b) s = .next dropped)
      ∧ (∀ l got, P.rx = .body l got → got.length + 1 < l →
          exec (.byteReceived x b) s = .next (kept (.body l (got ++ [b]))))
      ∧ (∀ l got, P.rx = .body l got → l = got.length + 1 →
          exec (.byteReceived x b) s = .next (kept (.crc l (got ++ [b]) [])))
      ∧ (∀ l body, P.rx = .crc l body [] → exec (.byteReceived x b) s = .next (kept (.crc l body [b])))
      ∧ (∀ l body c, P.rx = .crc l body [c] → P.reply = none → [c, b] ≠ crcBytes body →
          exec (.byteReceived x b) s = .next dropped)
      ∧ (∀ l body c, P.rx = .crc l body [c] → P.reply.isSome = true → exec (.byteReceived x b) s = .next dropped)
      ∧ (∀ l code tag ps c ci, P.rx = .crc l (code :: tag :: ps) [c] → P.reply = none →
          [c, b] = crcBytes (code :: tag :: ps) → ci ∈ requestRows x tag ps → ci.1 = code →
          exec (.byteReceived x b) s = exec ci.2 s)
      ∧ (∀ l body c, P.rx = .crc l body [c] → P.reply = none → [c, b] = crcBytes body →
          ((∃ code, body = [code]) ∨ ∃ code tag ps, body = code :: tag :: ps ∧ recognised code = false) →
          exec (.byteReceived x b) s = exec (.unknownRequest x body) s))
  ∧ (∀ (code : Byte) (x : PortId) (tag : Byte) (ps : List Byte),
      recognised code = true ↔ ∃ ci ∈ requestRows x tag ps, ci.1 = code)
  ∧ (∀ (s : State) (x : PortId),
      let dropped := s.setPort x { s.port x with rx := .idle, gap := none }
      exec (.frameCrcWrong x) s = .next dropped ∧ exec (.lengthInvalid x) s = .next dropped
      ∧ exec (.framingError x) s = .next dropped
      ∧ (∀ n, (s.port x).gap = some n → 30000 < n → exec (.gapTimeout x) s = .next dropped)
      ∧ (∀ n, (s.port x).gap = some n → n ≤ 30000 → exec (.gapTimeout x) s = .next s)
      ∧ ((s.port x).gap = none → exec (.gapTimeout x) s = .next s)
      ∧ ((s.port x).reply.isSome = true → exec (.frameDuringReply x) s = .next dropped)
      ∧ ((s.port x).reply = none → exec (.frameDuringReply x) s = .next s)
      ∧ exec (.replyEnd x) s = .next (s.setPort x { s.port x with reply := none }))

/-- R185, R195, R197: UNKNOWN_REQUEST, where a body with no tag is answered MALFORMED with the tag 0x00 and a code that is not in
the request code list UNKNOWN; parameters that do not match their layout, which are MALFORMED; and a programme index above 7,
which is BAD_VALUE in every request that names a programme. The frame is well-formed each time, so presence is restored. -/
def Obligations.BadRequests : Prop :=
  (∀ (s : State) (x : PortId), s.receptive x → let v := s.judged x
      (∀ code, exec (.unknownRequest x [code]) s = answered v x code 0x00 .malformed [])
      ∧ ∀ code tag ps, recognised code = false →
          exec (.unknownRequest x (code :: tag :: ps)) s = answered v x code tag .unknown [])
  ∧ (∀ (s : State) (x : PortId) (tag : Byte) (ps : List Byte), s.receptive x → let v := s.judged x
      (ps ≠ [] → ∀ ci ∈ bareRows x tag ps, exec ci.2 s = answered v x ci.1 tag .malformed [])
      ∧ (ps.length ≠ 1 → ∀ ci ∈ progRows x tag ps, exec ci.2 s = answered v x ci.1 tag .malformed [])
      ∧ (ps.length ≠ 2 → ∀ ci ∈ progPairRows x tag ps, exec ci.2 s = answered v x ci.1 tag .malformed [])
      ∧ (ps.length ≠ 5 → exec (.progSet x tag ps) s = answered v x 0x11 tag .malformed [])
      ∧ (ps.length ≠ 3 → exec (.segWithdraw x tag ps) s = answered v x 0x22 tag .malformed [])
      ∧ (ps.length ≠ 3 → exec (.cueConfig x tag ps) s = answered v x 0x40 tag .malformed [])
      ∧ (ps.length ≠ 2 → exec (.portStatus x tag ps) s = answered v x 0x03 tag .malformed [])
      ∧ (ps.length ≠ 2 → exec (.portMask x tag ps) s = answered v x 0x04 tag .malformed [])
      ∧ (ps.length ≠ 1 → exec (.portTimer x tag ps) s = answered v x 0x05 tag .malformed [])
      ∧ (ps.length ≠ 1 → exec (.logPeek x tag ps) s = answered v x 0x31 tag .malformed [])
      ∧ (readTunables ps.tail = none → exec (.progTune x tag ps) s = answered v x 0x16 tag .malformed [])
      ∧ (readCueBody ps = none → exec (.segCue x tag ps) s = answered v x 0x20 tag .malformed [])
      ∧ (readAmendBody ps = none → exec (.segAmend x tag ps) s = answered v x 0x21 tag .malformed [])
      ∧ (readTakeBody ps = none → exec (.segTake x tag ps) s = answered v x 0x23 tag .malformed [])
      ∧ (readEndBody ps = none → exec (.segEnd x tag ps) s = answered v x 0x24 tag .malformed []))
  ∧ (∀ (s : State) (x : PortId) (tag b c : Byte), s.receptive x → 8 ≤ b.toNat → let v := s.judged x
      (∀ ci ∈ progRows x tag [b], exec ci.2 s = answered v x ci.1 tag .badValue [])
      ∧ (∀ ci ∈ progPairRows x tag [b, c], exec ci.2 s = answered v x ci.1 tag .badValue [])
      ∧ (∀ base width trigger tally, exec (.progSet x tag [b, base, width, trigger, tally]) s
          = answered v x 0x11 tag .badValue [])
      ∧ (∀ rest set, readTunables rest = some set → exec (.progTune x tag (b :: rest)) s
          = answered v x 0x16 tag .badValue [])
      ∧ (∀ hi lo, exec (.segWithdraw x tag [b, hi, lo]) s = answered v x 0x22 tag .badValue [])
      ∧ (∀ ps body, readCueBody ps = some body → body.prog = b → exec (.segCue x tag ps) s
          = answered v x 0x20 tag .badValue [])
      ∧ (∀ ps body, readAmendBody ps = some body → body.prog = b → exec (.segAmend x tag ps) s
          = answered v x 0x21 tag .badValue [])
      ∧ (∀ ps e, readTakeBody ps = some (b, e) → exec (.segTake x tag ps) s = answered v x 0x23 tag .badValue [])
      ∧ (∀ ps m e, readEndBody ps = some (b, m, e) → exec (.segEnd x tag ps) s = answered v x 0x24 tag .badValue []))

/-- R162, R183, R184: every request, with any parameters, is answered: one reply frame with the request's code and tag is
being sent, the receiver is idle, and the port is PRESENT unless the request is PORT.LEAVE. A request that is refused
changes no other state: the state after it is the one it was judged in. The frame of any request
that completes while the port is REPLYING is discarded, without reply and without effect on presence. -/
def Obligations.EveryRequestIsAnswered : Prop :=
  (∀ (s : State) (x : PortId) (tag : Byte) (ps : List Byte), s.receptive x →
      ∀ ci ∈ requestRows x tag ps, ∃ t r data, exec ci.2 s = answered t x ci.1 tag r data
        ∧ (t.port x).rx = .idle ∧ (t.port x).gap = none
        ∧ (ci.1 ≠ 0x06 → (t.port x).present = true)
        ∧ (r ≠ .ok → t = s.judged x))
  ∧ (∀ (s : State) (x : PortId) (tag : Byte) (ps : List Byte), (s.settle.port x).reply.isSome = true →
      ∀ ci ∈ requestRows x tag ps,
        exec ci.2 s = .next (s.settle.setPort x { s.settle.port x with rx := .idle, gap := none }))

/-! ### Requests that read -/

/-- The requests that change nothing (R38, R66, R86, R189, R192): each is answered OK with its reading of the state it
is judged in, to any port. SNAP.TAKE and SNAP.READ (R190, R191), every form with the right length. -/
def Obligations.ReadingRequests : Prop :=
  (∀ (s : State) (x : PortId) (tag : Byte) (p : Index), s.receptive x → let v := s.judged x
      exec (.devIdent x tag []) s
        = answered v x 0x01 tag .ok [0x0C, 0x71, 0x28, 0x16, 0x01, portCode v.override, baudCode v.baud]
      ∧ exec (.portKeepalive x tag []) s = answered v x 0x07 tag .ok []
      ∧ exec (.progQuery x tag [indexByte p]) s = answered v x 0x10 tag .ok (entryBlock (v.prog p))
      ∧ exec (.segList x tag [indexByte p]) s = answered v x 0x25 tag .ok (listBytes (v.prog p).queue)
      ∧ exec (.meterRead x tag [indexByte p]) s = answered v x 0x3A tag .ok (meterBlock (v.prog p)))
  ∧ (∀ (s : State) (x : PortId) (tag kind : Byte) (p : Index), s.receptive x → let v := s.judged x
      let ask := exec (.snapTake x tag [indexByte p, kind]) s
      let copy := fun segment account =>
        let content := snapshotContent p segment v.audio.airClock account
        answered (v.setPort x { v.port x with snapshot := some ⟨content, 0, content.length⟩ }) x 0x38 tag .ok
          (content.take 16)
      (kind = 0 → ask = copy false (v.prog p).meas.account)
      ∧ (kind = 1 → (v.prog p).hasOnAir = false → ask = answered v x 0x38 tag .wrongState [])
      ∧ (kind = 1 → (v.prog p).hasOnAir = true → ∀ a, (v.prog p).meas.segAccount = some a → ask = copy true a.account)
      ∧ (1 < kind.toNat → ask = answered v x 0x38 tag .badValue [])
      ∧ ((v.port x).snapshot = none → exec (.snapRead x tag []) s = answered v x 0x39 tag .empty [])
      ∧ (∀ b, (v.port x).snapshot = some b → b.remaining = 0 →
          exec (.snapRead x tag []) s = answered v x 0x39 tag .empty [])
      ∧ (∀ b, (v.port x).snapshot = some b → 0 < b.remaining → let k := min 128 b.remaining
          exec (.snapRead x tag []) s
            = answered (v.setPort x { v.port x with snapshot := some ⟨b.content, b.cursor + k, b.remaining - k⟩ }) x 0x39 tag
              .ok (bytesOfNat 2 b.cursor ++ (b.content.drop b.cursor).take k)))

/-- LOG.COUNT (R145): the number of records and the discard tally, to any port, an empty log included; a body with a parameter
is MALFORMED. LOG.PEEK (R146): the record at the place carried, leaving the log, or EMPTY at and beyond the count. LOG.FETCH
(R147): the oldest record is returned and removed, the others moving up, the tally and the notices staying; an empty log is
refused EMPTY. A body of another length is MALFORMED. -/
def Obligations.LogRequests : Prop :=
  (∀ (s : State) (x : PortId) (tag : Byte) (ps : List Byte), s.receptive x →
      exec (.logCount x tag ps) s =
        if ps = [] then
          answered (s.judged x) x 0x30 tag .ok [byteOfNat (s.judged x).log.length, byteOfNat (s.judged x).discards]
        else answered (s.judged x) x 0x30 tag .malformed [])
  ∧ (∀ (s : State) (x : PortId) (tag place : Byte), s.receptive x → let v := s.judged x
      (∀ r, v.log[place.toNat]? = some r → exec (.logPeek x tag [place]) s = answered v x 0x31 tag .ok (resultBytes r))
      ∧ (v.log.length ≤ place.toNat → exec (.logPeek x tag [place]) s = answered v x 0x31 tag .empty [])
      ∧ ∀ ps : List Byte, ps.length ≠ 1 → exec (.logPeek x tag ps) s = answered v x 0x31 tag .malformed [])
  ∧ (∀ (s : State) (x : PortId) (tag : Byte), s.receptive x → let v := s.judged x
      (∀ r rest, v.log = r :: rest →
        exec (.logFetch x tag []) s = answered { v with log := rest } x 0x32 tag .ok (resultBytes r))
      ∧ (v.log = [] → exec (.logFetch x tag []) s = answered v x 0x32 tag .empty [])
      ∧ ∀ ps : List Byte, ps ≠ [] → exec (.logFetch x tag ps) s = answered v x 0x32 tag .malformed [])

/-- R195 to R199: the bytes of the replies that carry a block: numbers high byte first and two's complement; the codes; the status
block of PORT.STATUS, with the kinds in their order and the time left in whole seconds, rounded up (R162), of 3000000 ticks each
(log 2); the entry block of PROG.QUERY, the records of SEG.LIST, the meter block of METER.READ, the result record of LOG.PEEK and
LOG.FETCH, the 436 bytes of a snapshot, and the line byte of CUE.READ. A field that is absent takes no bytes, but for the
integrated loudness of a snapshot. A gain is reported to the nearest 0.01 dB, a tie away from zero (R111), and so is a reduction,
of 2^32 steps to 0.01 dB (log 12), up to 99.99 dB (R132). -/
def Obligations.ReplyLayouts : Prop :=
  let word := wordOfInt
  let opt := fun (v : Option Int) => match v with
    | some n => wordOfInt n
    | none => []
  let optByte := fun (v : Option Int) => match v with
    | some n => [BitVec.ofInt 8 n]
    | none => []
  let bit := fun (b : Bool) (k : Nat) => if b then k else 0
  (∀ v : Int, word v = [(BitVec.ofInt 16 v).extractLsb' 8 8, (BitVec.ofInt 16 v).extractLsb' 0 8])
  ∧ (∀ n v i : Nat, (bytesOfNat n v).length = n
      ∧ (i < n → (bytesOfNat n v)[i]? = some (BitVec.ofNat 8 (v / 256 ^ (n - 1 - i)))))
  ∧ (∀ v : Nat, byteOfNat v = BitVec.ofNat 8 v)
  ∧ (∀ q : Rat, (0 ≤ q → (roundAway q : Rat) - 1 / 2 ≤ q ∧ q < roundAway q + 1 / 2)
      ∧ (q < 0 → (roundAway q : Rat) - 1 / 2 < q ∧ q ≤ roundAway q + 1 / 2))
  ∧ (∀ steps : Nat, (reportedReduction steps : Int) = min 9999 (roundAway ((steps : Rat) / 2 ^ 32)))
  ∧ ([ProgState.inactive, .stopped, .running, .stopping, .draining].map stateCode = [0, 1, 2, 3, 4]
      ∧ [none, some PortId.a, some .b, some .c].map portCode = [0, 1, 2, 3]
      ∧ [SegClass.programme, .spot, .promo, .live].map classCode = [0, 1, 2, 3]
      ∧ [Policy.adaptive, .fixed, .bypass].map policyCode = [0, 1, 2]
      ∧ [EndCause.takeNext, .finish, .abort, .durationEnd, .forced, .restart].map endCauseCode = [0, 1, 2, 3, 4, 5]
      ∧ [Verdict.pass, .high, .low, .silent, .aborted, .interrupted].map verdictCode = [0, 1, 2, 3, 4, 5]
      ∧ [GainMode.following, .frozen, .ramping].map modeCode = [0, 1, 2]
      ∧ [Detector.locked, .lost, .recovering].map detectorCode = [0, 1, 2]
      ∧ [Baud.b38400, .b57600, .b115200, .b230400].map baudCode = [0, 1, 2, 3]
      ∧ [Kind.segStarted, .segClosed, .takeMissed, .overrun, .escalated, .custody, .state, .withdrawn, .logHalf, .logDiscard,
          .audio, .cueEdge].map Kind.index = List.range 12
      ∧ allIndices = List.finRange 8
      ∧ (∀ i : Index, triggerCode (.cue i) = BitVec.ofNat 8 (0x10 + i.val)
        ∧ triggerCode (.follow i) = BitVec.ofNat 8 (0x20 + i.val) ∧ tallyCode (some i) = BitVec.ofNat 8 (0x10 + i.val)
        ∧ takeCauseCode (.cue i) = BitVec.ofNat 8 (0x10 + i.val) ∧ takeCauseCode (.follow i) = BitVec.ofNat 8 (0x20 + i.val))
      ∧ triggerCode .off = 0 ∧ tallyCode none = 0 ∧ takeCauseCode .auto = 0x30
      ∧ [PortId.a, .b, .c].map (fun x => takeCauseCode (.command x)) = [1, 2, 3])
  ∧ (∀ (P : Port) (a : AudioPort) (presence : Byte), let n := P.notices
      statusBlock P a presence = bytesOfNat 2 (bit n.segStarted.pending 1 + bit n.segClosed.pending 2 + bit n.takeMissed.pending 4
          + bit n.overrun.pending 8 + bit n.escalated.pending 16 + bit n.custody.pending 32 + bit n.state.pending 64
          + bit n.withdrawn.pending 128 + bit n.logHalf.pending 256 + bit n.logDiscard.pending 512 + bit n.audio.pending 1024
          + bit n.cueEdge.pending 2048)
        ++ [n.segStarted.bitmap, n.segClosed.bitmap, n.takeMissed.bitmap, n.overrun.bitmap, n.escalated.bitmap,
          n.custody.bitmap, n.state.bitmap, n.withdrawn.bitmap, n.cueEdge.bitmap]
        ++ bytesOfNat 2 P.mask.toNat ++ [detectorCode a.detector] ++ bytesOfNat 6 a.airClock.toNat
        ++ [presence, BitVec.ofNat 8 P.timerSetting, match P.timerCount with
          | some left => BitVec.ofNat 8 (left / 3000000 + if left % 3000000 = 0 then 0 else 1)
          | none => 0])
  ∧ (∀ s : State, s.presenceByte
      = BitVec.ofNat 8 (bit (s.port .a).present 1 + bit (s.port .b).present 2 + bit (s.port .c).present 4))
  ∧ (∀ (P : Port) (k : Index) (l : CueLine), lineByte P k l
      = BitVec.ofNat 8 (bit l.inverted 1 + (match l.reject with
          | .ms0 => 0
          | .ms2 => 2
          | .ms8 => 4
          | .ms32 => 6)
        + bit l.accepted 8 + bit (l.accepted != l.inverted) 16 + bit l.change.isSome 32 + bit (P.rising.getLsbD k.val) 64
        + bit (P.falling.getLsbD k.val) 128))
  ∧ (∀ P : Prog, let e := P.entry
      let a := e.active
      let q := e.pending
      entryBlock P = [stateCode e.state, BitVec.ofNat 8 e.base, BitVec.ofNat 8 e.width, triggerCode e.trigger, tallyCode e.tally]
        ++ (word a.target ++ word a.tolerance ++ word a.maxBoost ++ word a.maxCut
          ++ [BitVec.ofInt 8 a.riseRate, BitVec.ofInt 8 a.fallRate] ++ word a.holdThreshold ++ word a.defaultRamp
          ++ [BitVec.ofInt 8 a.ceiling] ++ word a.release)
        ++ (bytesOfNat 2 (bit q.target.isSome 1 + bit q.tolerance.isSome 2 + bit q.maxBoost.isSome 4 + bit q.maxCut.isSome 8
            + bit q.riseRate.isSome 16 + bit q.fallRate.isSome 32 + bit q.holdThreshold.isSome 64
            + bit q.defaultRamp.isSome 128 + bit q.ceiling.isSome 256 + bit q.release.isSome 512)
          ++ opt q.target ++ opt q.tolerance ++ opt q.maxBoost ++ opt q.maxCut ++ optByte q.riseRate ++ optByte q.fallRate
          ++ opt q.holdThreshold ++ opt q.defaultRamp ++ optByte q.ceiling ++ opt q.release)
        ++ [portCode e.custodian, e.rights.setWidth 8, BitVec.ofNat 8 e.escalation, BitVec.ofNat 8 P.queue.count]
        ++ (match P.queue.onAir with
          | some o => 1 :: bytesOfNat 2 o.record.id
          | none => [0])
      ∧ 29 ≤ (entryBlock P).length ∧ (entryBlock P).length ≤ 48)
  ∧ (∀ P : Prog, let i1 := momentary P.meas.inHist
      let o1 := momentary P.meas.outHist
      let i2 := shortTerm P.meas.inHist
      let o2 := shortTerm P.meas.outHist
      let pr := P.meas.account.integrated
      let sg := P.meas.segAccount.bind (·.account.integrated)
      meterBlock P = [stateCode P.entry.state, BitVec.ofNat 8 (bit i1.isSome 1 + bit o1.isSome 2 + bit i2.isSome 4
          + bit o2.isSome 8 + bit pr.isSome 16 + bit sg.isSome 32)]
        ++ opt i1 ++ opt o1 ++ opt i2 ++ opt o2 ++ opt pr ++ opt sg ++ word (roundAway P.gain.applied)
        ++ word (roundAway P.gain.desired) ++ bytesOfNat 2 (reportedReduction P.gain.reduction) ++ [modeCode P.mode])
  ∧ (∀ q : Queue,
      let tail := fun (r : SegRecord) => [classCode r.cls, policyCode r.policy, if r.autoAdvance then 1 else 0,
          BitVec.ofNat 8 (bit r.declared.isSome 1 + bit r.entryGain.isSome 2 + bit r.rampLength.isSome 4
            + bit r.duration.isSome 8 + bit r.targetOverride.isSome 16 + bit r.toleranceOverride.isSome 32)]
        ++ opt r.declared ++ opt r.entryGain ++ opt r.rampLength ++ opt (r.duration.map fun d => (d : Int))
        ++ opt r.targetOverride ++ opt r.toleranceOverride ++ [BitVec.ofNat 8 r.label.length] ++ r.label
      listBytes q = [BitVec.ofNat 8 (q.cued.length + if q.onAir.isSome then 1 else 0)]
        ++ (match q.onAir with
          | some o => bytesOfNat 2 o.record.id ++ [0x10 ||| portCode (some o.record.owner)] ++ tail o.record
            ++ bytesOfNat 6 o.takeStamp.toNat ++ [takeCauseCode o.cause, policyCode o.policy,
              BitVec.ofNat 8 (bit o.overridden 1 + bit o.overrun 2)]
            ++ word o.target ++ word o.tolerance ++ word o.gainAtTake ++ bytesOfNat 4 o.framesOnAir
          | none => [])
        ++ (q.cued.map fun r => bytesOfNat 2 r.id ++ [portCode (some r.owner)] ++ tail r).flatten)
  ∧ (∀ r : ResultRecord, resultBytes r = [BitVec.ofNat 8 r.programme.val] ++ bytesOfNat 2 r.id
        ++ [portCode (some r.owner), classCode r.cls, takeCauseCode r.cause] ++ bytesOfNat 6 r.takeStamp.toNat
        ++ bytesOfNat 4 r.framesOnAir ++ [endCauseCode r.endCause, policyCode r.policy,
          BitVec.ofNat 8 (bit r.overridden 1 + bit r.overrun 2)]
        ++ word r.target ++ word r.tolerance
        ++ [BitVec.ofNat 8 (bit r.declared.isSome 1 + bit r.integrated.isSome 2 + bit r.maxMomentary.isSome 4
          + bit r.maxShortTerm.isSome 8)]
        ++ opt r.declared ++ opt r.integrated ++ opt r.maxMomentary ++ opt r.maxShortTerm
        ++ word r.maxTruePeak ++ word r.gainAtTake ++ word r.gainAtEnd ++ bytesOfNat 3 r.heldBlocks
        ++ [verdictCode r.verdict, BitVec.ofNat 8 r.discardsBefore, BitVec.ofNat 8 r.label.length] ++ r.label)
  ∧ ∀ (p : Index) (segment : Bool) (stamp : Position) (a : Account), a.bins.length = 140 →
      let c := snapshotContent p segment stamp a
      c.length = 436 ∧ c.take 2 = [BitVec.ofNat 8 p.val, if segment then 1 else 0]
      ∧ (c.drop 2).take 6 = bytesOfNat 6 stamp.toNat
      ∧ (c.drop 8).take 3 = (match a.integrated with
        | some l => 1 :: word l
        | none => [0, 0, 0])
      ∧ (c.drop 11).take 5 = bytesOfNat 4 (a.bins.map (·.count)).sum ++ [if a.saturated then 1 else 0]
      ∧ ∀ b, b < 140 → (c.drop (16 + 3 * b)).take 3 = bytesOfNat 3 (a.bins.getD b ⟨0, 0⟩).count

/-- R180, R184, R195, R197: the frame of a body is the lead byte, the length, the body and the CRC, high byte first. The CRC is
over the length and the body, most significant bit first, with the generator x^16 + x^12 + x^5 + 1 from 0xFFFF, and is 0x29B1 over
the characters "123456789". A reply body is the request code with its top bit set, the tag, the result code and the data, and its
port is REPLYING from then on (R183). R162: the state in which a request is judged has its port PRESENT, with no frame in progress
and a silence timer count reloaded, at 3000000 ticks a second (log 2), unless the setting is 0. -/
def Obligations.FramesAndReplies : Prop :=
  (∀ body : List Byte, let crc := crc16 (BitVec.ofNat 8 body.length :: body)
    crcBytes body = [crc.extractLsb' 8 8, crc.extractLsb' 0 8]
    ∧ frameOf body = [0xA5, BitVec.ofNat 8 body.length] ++ body ++ [crc.extractLsb' 8 8, crc.extractLsb' 0 8])
  ∧ crc16 [] = 0xFFFF
  ∧ (∀ (bs : List Byte) (b : Byte), crc16 (bs ++ [b])
    = [b.getLsbD 7, b.getLsbD 6, b.getLsbD 5, b.getLsbD 4, b.getLsbD 3, b.getLsbD 2, b.getLsbD 1, b.getLsbD 0].foldl
      (fun (r : BitVec 16) bit => if r.getLsbD 15 = bit then r <<< 1 else (r <<< 1) ^^^ 0x1021) (crc16 bs))
  ∧ crc16 [0x31, 0x32, 0x33, 0x34, 0x35, 0x36, 0x37, 0x38, 0x39] = 0x29B1
  ∧ [Result.ok, .busy, .noRights, .wrongState, .badValue, .full, .empty, .noSuchId, .malformed, .unknown].map Result.code
    = [0x00, 0x01, 0x02, 0x03, 0x04, 0x05, 0x06, 0x07, 0x08, 0x09]
  ∧ (∀ (t : State) (x : PortId) (code tag : Byte) (r : Result) (data : List Byte), answered t x code tag r data
    = .next (t.setPort x { t.port x with reply := some (frameOf ([code ||| 0x80, tag, r.code] ++ data)) }))
  ∧ ∀ (s : State) (x : PortId), let P := s.settle.port x
    s.judged x = s.settle.setPort x { P with
      rx := .idle
      gap := none
      present := true
      timerCount := if P.timerSetting = 0 then P.timerCount else some (P.timerSetting * 3000000) }

/-- R195 to R198: the bytes of a request's fields and of the bodies of SEG.CUE, SEG.TAKE, SEG.END and PROG.TUNE: a body is read as
these fields exactly when it is the bytes given, high bytes first, with the presence bits of the fields it carries, in order; any
other is MALFORMED (BadRequests). A code is read as exactly the value that has that code in ReplyLayouts. A cue body gives the
record of its fields, owned by the requesting port (R73), or none when a code is undefined. -/
def Obligations.RequestLayouts : Prop :=
  let word := fun (v : BitVec 16) => [v.extractLsb' 8 8, v.extractLsb' 0 8]
  let opt := fun (v : Option (BitVec 16)) => match v with
    | some w => [w.extractLsb' 8 8, w.extractLsb' 0 8]
    | none => []
  let number := fun (v : Option Int) => match v with
    | some n => [(BitVec.ofInt 16 n).extractLsb' 8 8, (BitVec.ofInt 16 n).extractLsb' 0 8]
    | none => []
  let single := fun (v : Option Int) => match v with
    | some n => [BitVec.ofInt 8 n]
    | none => []
  let within := fun (lo hi : Int) (v : Option Int) => ∀ n, v = some n → lo ≤ n ∧ n ≤ hi
  let bit := fun (b : Bool) (k : Nat) => if b then k else 0
  (∀ b : Byte, (∀ i, indexOf b = some i ↔ b = BitVec.ofNat 8 i.val)
    ∧ (∀ v, flagOf b = some v ↔ b = if v then 1 else 0) ∧ (∀ c, classOf b = some c ↔ b = classCode c)
    ∧ (∀ c, policyOf b = some c ↔ b = policyCode c) ∧ (∀ v, triggerOf b = some v ↔ b = triggerCode v)
    ∧ (∀ v, tallyOf b = some v ↔ b = tallyCode v)
    ∧ ∀ r, rejectOf b = some r ↔ b = match r with
      | .ms0 => 0
      | .ms2 => 2
      | .ms8 => 8
      | .ms32 => 32)
  ∧ (∀ (ps : List Byte) (c : CueBody), readCueBody ps = some c ↔ c.label.length ≤ 255
    ∧ ps = [c.prog] ++ word c.id ++ [c.cls, c.policy, c.flags, BitVec.ofNat 8 (bit c.declared.isSome 1 + bit c.entryGain.isSome 2
          + bit c.rampLength.isSome 4 + bit c.duration.isSome 8 + bit c.targetOverride.isSome 16
          + bit c.toleranceOverride.isSome 32)]
        ++ opt c.declared ++ opt c.entryGain ++ opt c.rampLength ++ opt c.duration ++ opt c.targetOverride
        ++ opt c.toleranceOverride ++ [BitVec.ofNat 8 c.label.length] ++ c.label)
  ∧ (∀ (c : CueBody) (x : PortId) (r : SegRecord), c.record x = some r ↔
    classOf c.cls = some r.cls ∧ policyOf c.policy = some r.policy ∧ flagOf c.flags = some r.autoAdvance
    ∧ r.id = c.id.toNat ∧ r.owner = x ∧ r.declared = c.declared.map (fun v => v.toInt)
    ∧ r.entryGain = c.entryGain.map (fun v => v.toInt) ∧ r.rampLength = c.rampLength.map (fun v => (v.toNat : Int))
    ∧ r.duration = c.duration.map (fun v => v.toNat) ∧ r.targetOverride = c.targetOverride.map (fun v => v.toInt)
    ∧ r.toleranceOverride = c.toleranceOverride.map (fun v => (v.toNat : Int)) ∧ r.label = c.label)
  ∧ (∀ (ps : List Byte) (p : Byte) (e : Option (BitVec 16)), readTakeBody ps = some (p, e) ↔
    ps = [p, BitVec.ofNat 8 (bit e.isSome 1)] ++ opt e)
  ∧ (∀ (ps : List Byte) (p mode : Byte) (e : Option (BitVec 16)), readEndBody ps = some (p, mode, e) ↔
    ps = [p, mode, BitVec.ofNat 8 (bit e.isSome 1)] ++ opt e)
  ∧ ∀ (ps : List Byte) (v : TunableSet), readTunables ps = some v ↔
    (within (-32768) 32767 v.target ∧ within 0 65535 v.tolerance ∧ within (-32768) 32767 v.maxBoost
      ∧ within (-32768) 32767 v.maxCut ∧ within 0 255 v.riseRate ∧ within 0 255 v.fallRate
      ∧ within (-32768) 32767 v.holdThreshold ∧ within 0 65535 v.defaultRamp ∧ within (-128) 127 v.ceiling
      ∧ within 0 65535 v.release)
    ∧ ps = word (BitVec.ofNat 16 (bit v.target.isSome 1 + bit v.tolerance.isSome 2 + bit v.maxBoost.isSome 4
          + bit v.maxCut.isSome 8 + bit v.riseRate.isSome 16 + bit v.fallRate.isSome 32 + bit v.holdThreshold.isSome 64
          + bit v.defaultRamp.isSome 128 + bit v.ceiling.isSome 256 + bit v.release.isSome 512))
        ++ number v.target ++ number v.tolerance ++ number v.maxBoost ++ number v.maxCut ++ single v.riseRate
        ++ single v.fallRate ++ number v.holdThreshold ++ number v.defaultRamp ++ single v.ceiling ++ number v.release

/-- R77, R78, R198: the body of SEG.AMEND: the programme, the id, the instruction word of ten codes of two bits, Keep 0, Set 1 and
Clear 2, the first field lowest, and the values Set in order; class, policy, auto-advance and label are never Cleared; a body is
read as these fields exactly when it is these bytes, and any other is MALFORMED (BadRequests). A value Set is legal within its
values in R70. In the amended record a Set field has the value carried, a Clear field is absent and a Keep field stays; the id and
the owner stay (R73). -/
def Obligations.AmendLayout : Prop :=
  let word := fun (v : BitVec 16) => [v.extractLsb' 8 8, v.extractLsb' 0 8]
  let byteCode := fun (i : Amend Byte) => match i with
    | .keep => 0
    | .put _ => 1
    | .clear => 2
  let wordCode := fun (i : Amend (BitVec 16)) => match i with
    | .keep => 0
    | .put _ => 1
    | .clear => 2
  let labelCode := fun (i : Amend (List Byte)) => match i with
    | .keep => 0
    | .put _ => 1
    | .clear => 2
  let byteValue := fun (i : Amend Byte) => match i with
    | .put b => [b]
    | _ => []
  let wordValue := fun (i : Amend (BitVec 16)) => match i with
    | .put v => [v.extractLsb' 8 8, v.extractLsb' 0 8]
    | _ => []
  (∀ (ps : List Byte) (a : AmendBody),
    let instructions : BitVec 24 := BitVec.ofNat 24 (byteCode a.cls + 4 * byteCode a.policy + 16 * byteCode a.autoAdvance
      + 64 * wordCode a.declared + 256 * wordCode a.entryGain + 1024 * wordCode a.rampLength + 4096 * wordCode a.duration
      + 16384 * wordCode a.targetOverride + 65536 * wordCode a.toleranceOverride + 262144 * labelCode a.label)
    readAmendBody ps = some a ↔ (a.cls ≠ .clear ∧ a.policy ≠ .clear ∧ a.autoAdvance ≠ .clear ∧ a.label ≠ .clear)
      ∧ (∀ l, a.label = .put l → l.length ≤ 255)
      ∧ ps = [a.prog] ++ word a.id
          ++ [instructions.extractLsb' 16 8, instructions.extractLsb' 8 8, instructions.extractLsb' 0 8]
          ++ byteValue a.cls ++ byteValue a.policy ++ byteValue a.autoAdvance ++ wordValue a.declared ++ wordValue a.entryGain
          ++ wordValue a.rampLength ++ wordValue a.duration ++ wordValue a.targetOverride ++ wordValue a.toleranceOverride
          ++ (match a.label with
            | .put l => BitVec.ofNat 8 l.length :: l
            | _ => []))
  ∧ (∀ a : AmendBody, a.valuesLegal = true ↔
    (∀ b, a.cls = .put b → b.toNat ≤ 3) ∧ (∀ b, a.policy = .put b → b.toNat ≤ 2)
    ∧ (∀ b, a.autoAdvance = .put b → b.toNat ≤ 1) ∧ (∀ v, a.declared = .put v → -7000 ≤ v.toInt ∧ v.toInt ≤ 0)
    ∧ (∀ v, a.entryGain = .put v → -3000 ≤ v.toInt ∧ v.toInt ≤ 1500)
    ∧ (∀ v, a.rampLength = .put v → v.toNat ≤ 2000 ∧ v.toNat % 10 = 0) ∧ (∀ v, a.duration = .put v → 1 ≤ v.toNat)
    ∧ (∀ v, a.targetOverride = .put v → -3100 ≤ v.toInt ∧ v.toInt ≤ -1400)
    ∧ (∀ v, a.toleranceOverride = .put v → 10 ≤ v.toNat ∧ v.toNat ≤ 500) ∧ ∀ l, a.label = .put l → l.length ≤ 12)
  ∧ ∀ (a : AmendBody) (r : SegRecord), let n := a.amended r
    n.id = r.id ∧ n.owner = r.owner
    ∧ (a.cls = .keep → n.cls = r.cls) ∧ (∀ c, a.cls = .put (classCode c) → n.cls = c)
    ∧ (a.policy = .keep → n.policy = r.policy) ∧ (∀ c, a.policy = .put (policyCode c) → n.policy = c)
    ∧ (a.autoAdvance = .keep → n.autoAdvance = r.autoAdvance)
    ∧ (∀ v : Bool, a.autoAdvance = .put (if v then 1 else 0) → n.autoAdvance = v)
    ∧ (a.label = .keep → n.label = r.label) ∧ (∀ l, a.label = .put l → n.label = l)
    ∧ n.declared = (match a.declared with
      | .keep => r.declared
      | .put v => some v.toInt
      | .clear => none)
    ∧ n.entryGain = (match a.entryGain with
      | .keep => r.entryGain
      | .put v => some v.toInt
      | .clear => none)
    ∧ n.rampLength = (match a.rampLength with
      | .keep => r.rampLength
      | .put v => some (v.toNat : Int)
      | .clear => none)
    ∧ n.duration = (match a.duration with
      | .keep => r.duration
      | .put v => some v.toNat
      | .clear => none)
    ∧ n.targetOverride = (match a.targetOverride with
      | .keep => r.targetOverride
      | .put v => some v.toInt
      | .clear => none)
    ∧ n.toleranceOverride = (match a.toleranceOverride with
      | .keep => r.toleranceOverride
      | .put v => some (v.toNat : Int)
      | .clear => none)

/-! ### Requests on the port -/

/-- PORT.STATUS and PORT.MASK (R187, R188): the reply is formed before the clearing, and shows the mask before the change;
only the requesting port's notices, or mask, change. A kind that does not exist is BAD_VALUE (R195). ATTN is
asserted exactly while some kind is PENDING and enabled (R187). A raise makes its kind PENDING at every port and, for the nine kinds
that carry a bitmap, adds its programme or line; LOG_HALF, LOG_DISCARD and AUDIO carry none (R8, R186). The clause on raises at
every port is that of the eleven kinds other than WITHDRAWN, which is raised at its owner port alone: there it becomes PENDING with
the programmes added to its bitmap, and no other kind and no other port is touched. -/
def Obligations.NoticesStatusAndMask : Prop :=
  (∀ (s : State) (x : PortId) (tag hi lo : Byte), s.receptive x → let v := s.judged x
      let word : BitVec 16 := hi ++ lo
      (4096 ≤ word.toNat → exec (.portStatus x tag [hi, lo]) s = answered v x 0x03 tag .badValue []
        ∧ exec (.portMask x tag [hi, lo]) s = answered v x 0x04 tag .badValue [])
      ∧ (word.toNat < 4096 →
        exec (.portMask x tag [hi, lo]) s
            = answered (v.setPort x { v.port x with mask := word.setWidth 12 }) x 0x04 tag .ok
              (bytesOfNat 2 (v.port x).mask.toNat)
        ∧ ∃ n, exec (.portStatus x tag [hi, lo]) s
            = answered (v.setPort x { v.port x with notices := n }) x 0x03 tag .ok
              (statusBlock (v.port x) v.audio v.presenceByte)
          ∧ ∀ k : Kind, n.get k = if word.getLsbD k.index then ⟨false, 0⟩ else (v.port x).notices.get k))
  ∧ (∀ P : Port, P.attn = true ↔ ∃ k, (P.notices.get k).pending = true ∧ P.mask.getLsbD k.index = true)
  ∧ (∀ (s : State) (k : Kind) (i : Index) (x : PortId),
    let plain := k = .logHalf ∨ k = .logDiscard ∨ k = .audio
    k ≠ .withdrawn →
    let t := if plain then s.raisePlain k else s.raiseAll k i
    (¬plain → (t.port x).notices.get k = ⟨true, ((s.port x).notices.get k).bitmap ||| bitOf i⟩)
    ∧ (plain → (t.port x).notices.get k = ⟨true, ((s.port x).notices.get k).bitmap⟩)
    ∧ (∀ j, j ≠ k → (t.port x).notices.get j = (s.port x).notices.get j)
    ∧ t.port x = { s.port x with notices := (t.port x).notices }
    ∧ t = { s with ports := t.ports })
  ∧ ∀ (s : State) (owner : PortId) (bits : BitVec 8), let t := s.raiseAt owner .withdrawn bits
    (t.port owner).notices.withdrawn = ⟨true, (s.port owner).notices.withdrawn.bitmap ||| bits⟩
    ∧ (∀ j, j ≠ .withdrawn → (t.port owner).notices.get j = (s.port owner).notices.get j)
    ∧ t.port owner = { s.port owner with notices := (t.port owner).notices }
    ∧ (∀ x, x ≠ owner → t.port x = s.port x)
    ∧ t = { s with ports := t.ports }
    ∧ ∀ i j : Index, (bitOf i).getLsbD j.val = true ↔ j = i

/-- PORT.TIMER (R164) with its setting is taken in every state: the setting carried replaces the port's, a setting other than 0
loading the count, at 3000000 ticks a second (log 2), and 0 stopping it; the reply is OK with the setting before. PORT.LEAVE is
taken in every state, and is a lapse (R165); so is SILENCE_TIMER_EXPIRY when the count of a PRESENT port has run to 0 (R163); with
the count reloaded or stopped it changes nothing (logs 3 and 4). What a lapse does (R166, R82, R161): the port is ABSENT with its
count stopped and its snapshot EMPTY; its custodies are released, with CUSTODY at every port for these programmes if there are any,
and its CUED records leave every queue, with WITHDRAWN at the port for these programmes if there are any; every other notice, and
all the rest, is kept. -/
def Obligations.SilenceTimerAndLapse : Prop :=
  (∀ (s : State) (x : PortId) (tag setting : Byte), s.receptive x → let v := s.judged x
    exec (.portTimer x tag [setting]) s
      = answered (v.setPort x { v.port x with
          timerSetting := setting.toNat
          timerCount := if setting.toNat = 0 then none else some (setting.toNat * 3000000) })
        x 0x05 tag .ok [byteOfNat (v.port x).timerSetting])
  ∧ ∀ (s : State) (x : PortId),
    (∀ tag, s.receptive x → exec (.portLeave x tag []) s = answered ((s.judged x).lapse x) x 0x06 tag .ok [])
    ∧ ((s.settle.port x).present = true → (s.settle.port x).timerCount = some 0 →
      exec (.silenceTimerExpiry x) s = .next (s.settle.lapse x))
    ∧ (¬((s.settle.port x).present = true ∧ (s.settle.port x).timerCount = some 0) →
      exec (.silenceTimerExpiry x) s = .next s.settle)
    ∧ let t := s.lapse x
      let held := s.custodyBitmap x
      let owned := s.ownedBitmap x
      t = { s with progs := t.progs, ports := t.ports }
      ∧ t.port x = { s.port x with present := false, timerCount := none, snapshot := none, notices := (t.port x).notices }
      ∧ (∀ y, y ≠ x → t.port y = { s.port y with notices := (t.port y).notices })
      ∧ (∀ p : Index, (held.getLsbD p.val = true ↔ (s.prog p).entry.custodian = some x)
        ∧ (owned.getLsbD p.val = true ↔ ∃ r ∈ (s.prog p).queue.cued, r.owner = x))
      ∧ (∀ y k, (t.port y).notices.get k =
          if k = .custody ∧ held ≠ 0 then ⟨true, ((s.port y).notices.get k).bitmap ||| held⟩
          else if k = .withdrawn ∧ y = x ∧ owned ≠ 0 then ⟨true, ((s.port y).notices.get k).bitmap ||| owned⟩
          else (s.port y).notices.get k)
      ∧ ∀ p, t.prog p = { s.prog p with
            entry := { (s.prog p).entry with
              custodian := if (s.prog p).entry.custodian = some x then none else (s.prog p).entry.custodian }
            queue := { (s.prog p).queue with cued := (s.prog p).queue.cued.filter fun r => r.owner != x } }
        ∧ ((s.prog p).entry.custodian = some x → t.noticed .custody p)
        ∧ ((∃ r ∈ (s.prog p).queue.cued, r.owner = x) → ((t.port x).notices.get .withdrawn).pending = true
            ∧ ((t.port x).notices.get .withdrawn).bitmap.getLsbD p.val = true)

/-! ### Requests on programmes -/

/-- PROG.SET (R27), every form of five parameters: BAD_VALUE before rights and state; when taken, the four fields are replaced
and nothing else changes. A trigger FOLLOW(i) closes a follow cycle exactly when the chain of triggers from Pi reaches the
programme: when the programme lies in every set that holds Pi and the leader of each follower in it; NONE and CUE never do. And the
rights of every request (R154, R155): a port governs a programme as its custodian or as the override port, and may cue it as a port
of its cue-rights set. -/
def Obligations.ProgSet : Prop :=
  (∀ (s : State) (p : Index) (k : Index), s.closesCycle p .off = false ∧ s.closesCycle p (.cue k) = false)
  ∧ (∀ (s : State) (p i : Index), s.closesCycle p (.follow i) = true ↔
      ∀ R : Index → Prop, R i → (∀ a b, R a → (s.prog a).entry.trigger = .follow b → R b) → R p)
  ∧ (∀ (s : State) (x : PortId) (p : Index),
      (s.governs x p = true ↔ (s.prog p).entry.custodian = some x ∨ s.override = some x)
      ∧ s.mayCue x p = (s.prog p).entry.rights.getLsbD (match x with
        | .a => 0
        | .b => 1
        | .c => 2))
  ∧ ∀ (s : State) (x : PortId) (tag base width trigger tally : Byte) (p : Index), s.receptive x → let v := s.judged x
    let ask := exec (.progSet x tag [indexByte p, base, width, trigger, tally]) s
    let slots := (width.toNat = 1 ∨ width.toNat = 2 ∨ width.toNat = 6) ∧ base.toNat ≤ 15 ∧ base.toNat + width.toNat ≤ 16
    (¬slots ∨ triggerOf trigger = none ∨ tallyOf tally = none → ask = answered v x 0x11 tag .badValue [])
    ∧ ∀ t l, slots → triggerOf trigger = some t → tallyOf tally = some l →
      (v.closesCycle p t = true → ask = answered v x 0x11 tag .badValue [])
      ∧ (v.closesCycle p t = false → v.governs x p = false → ask = answered v x 0x11 tag .noRights [])
      ∧ (v.closesCycle p t = false → v.governs x p = true → (v.prog p).entry.state ≠ .inactive →
        ask = answered v x 0x11 tag .wrongState [])
      ∧ (v.closesCycle p t = false → v.governs x p = true → (v.prog p).entry.state = .inactive →
        ask = answered (v.setProg p { v.prog p with entry := { (v.prog p).entry with
          base := base.toNat, width := width.toNat, trigger := t, tally := l } }) x 0x11 tag .ok [])

/-- PROG.ACTIVATE (R14, R28, R63, R117, R130): refused by overlap, rights and state in that order; when taken the programme is
RUNNING in free-run from rest, with STATE and no other notice at every port, and no other programme and no log record changes. The
positions already in the delay line are given the gain 0.00 dB and fixed at once, oldest first (LimiterFixing), from a reduction
of 0.00 dB and with the positions of the line behind each as its window; the line and the limiter stand as this leaves them, and
an old ceiling goes on governing (log 26). -/
def Obligations.ProgActivate : Prop :=
  (∀ a b : Entry, a.overlaps b = true ↔ a.base < b.base + b.width ∧ b.base < a.base + a.width)
  ∧ ∀ (s : State) (x : PortId) (tag : Byte) (p : Index), s.receptive x → let v := s.judged x
    let ask := exec (.progActivate x tag [indexByte p]) s
    let overlap := ∃ q, q ≠ p ∧ (v.prog q).isActive = true ∧ (v.prog p).entry.overlaps (v.prog q).entry = true
    (overlap → ask = answered v x 0x12 tag .badValue [])
    ∧ (¬overlap → v.governs x p = false → ask = answered v x 0x12 tag .noRights [])
    ∧ (¬overlap → v.governs x p = true → (v.prog p).entry.state ≠ .inactive →
      ask = answered v x 0x12 tag .wrongState [])
    ∧ (¬overlap → v.governs x p = true → (v.prog p).entry.state = .inactive →
      let e := { (v.prog p).entry with state := .running, escalation := 0 }
      let start := { (v.prog p).gain with
        applied := 0
        desired := 0
        policy := .adaptive
        holding := true
        ramp := none
        window := v.audio.line.map fun st => GainApplied.mk (channels e st.raw) 0
        reduction := 0
        passed := [] }
      let fixed := (fun r : List Stage × Gain => fixOldest e r.1 r.2)^[v.audio.line.length] (v.audio.line, start)
      ∃ t, ask = answered t x 0x12 tag .ok [] ∧ t.noticed .state p ∧ v.onlyNotices t [.state]
        ∧ (∀ y, (t.port y).notices.get .state = ⟨true, ((v.port y).notices.get .state).bitmap ||| bitOf p⟩)
        ∧ t = { v with audio := t.audio, progs := t.progs, ports := t.ports }
        ∧ t.audio = { v.audio with line := fixed.1 } ∧ (t.prog p).gain = fixed.2
        ∧ t.audio.line.map (·.raw) = v.audio.line.map (·.raw)
        ∧ (∀ q, q ≠ p → t.prog q = v.prog q)
        ∧ (t.prog p).entry = e
        ∧ (t.prog p).queue = (v.prog p).queue
        ∧ (t.prog p).meas.account = ⟨List.replicate 140 ⟨0, 0⟩, false⟩
        ∧ (t.prog p).meas.clock = 0 ∧ (t.prog p).meas.inFlight = []
        ∧ (t.prog p).meas.inHist = [] ∧ (t.prog p).meas.outHist = [] ∧ (t.prog p).meas.segAccount = none
        ∧ (t.prog p).meas.inFilters = List.replicate 6 Filter.zero
        ∧ (t.prog p).meas.outFilters = List.replicate 6 Filter.zero
        ∧ (t.prog p).meas.inSum = 0 ∧ (t.prog p).meas.outSum = 0 ∧ (t.prog p).meas.held = false
        ∧ (t.prog p).meas.tallyLatch = (v.prog p).tallyInactive v.lines
        ∧ (t.prog p).gain.applied = 0 ∧ (t.prog p).gain.desired = 0 ∧ (t.prog p).gain.policy = .adaptive
        ∧ (t.prog p).gain.holding = true ∧ (t.prog p).gain.ramp = none ∧ (t.prog p).gain.window = [])

/-- PROG.DEACTIVATE without and with force (R29 to R32, R81, R103): with nothing on air the CUED records are withdrawn and the
programme becomes INACTIVE, its positions in flight and block in progress discarded (R63); without force a segment on air drains;
with force it is closed FORCED first, as at an end: the boundary work is done, its record posted (the log gains it and no other),
the pending set applied; then the CUED records are withdrawn and the programme is INACTIVE with its histories emptied and its
reduction 0.00 dB. Becoming INACTIVE keeps the applied and the desired gain, leaves the policy ADAPTIVE (log 17), and keeps an old
ceiling (log 26). The owner of each record withdrawn gets WITHDRAWN, another port does not. A force byte above 1 is BAD_VALUE
(R195). -/
def Obligations.ProgDeactivate : Prop :=
  ∀ (s : State) (x : PortId) (tag : Byte) (p : Index), s.receptive x → let v := s.judged x
    let plain := exec (.progDeactivate x tag [indexByte p, 0]) s
    let force := exec (.progDeactivateForce x tag [indexByte p, 1]) s
    let withdrawn := fun t : State => ∀ y, (t.port y).notices.get .withdrawn =
      if (v.prog p).queue.cued.any (fun r => r.owner == y) then
        ⟨true, ((v.port y).notices.get .withdrawn).bitmap ||| bitOf p⟩
      else (v.port y).notices.get .withdrawn
    let raised := fun (t : State) (k : Kind) => ∀ y, (t.port y).notices.get k
      = ⟨true, ((v.port y).notices.get k).bitmap ||| bitOf p⟩
    (∀ b : Byte, 1 < b.toNat → exec (.progDeactivate x tag [indexByte p, b]) s = answered v x 0x13 tag .badValue [])
    ∧ (v.governs x p = false → plain = answered v x 0x13 tag .noRights [] ∧ force = answered v x 0x13 tag .noRights [])
    ∧ (v.governs x p = true → (v.prog p).entry.state = .inactive →
      plain = answered v x 0x13 tag .wrongState [] ∧ force = answered v x 0x13 tag .wrongState [])
    ∧ (v.governs x p = true → (v.prog p).entry.state ≠ .inactive →
      ((v.prog p).queue.onAir = none → ∃ t, plain = answered t x 0x13 tag .ok [] ∧ force = answered t x 0x13 tag .ok []
        ∧ raised t .state ∧ (t.prog p).entry = { (v.prog p).entry with state := .inactive }
        ∧ (t.prog p).queue = ⟨none, []⟩
        ∧ (t.prog p).meas = { (v.prog p).meas with
            inFlight := []
            clock := 0
            inSum := 0
            outSum := 0
            held := false
            inHist := []
            outHist := [] }
        ∧ (t.prog p).gain = { (v.prog p).gain with policy := .adaptive, ramp := none, window := [], reduction := 0 }
        ∧ t.log = v.log ∧ (∀ q, q ≠ p → t.prog q = v.prog q)
        ∧ t = { v with progs := t.progs, ports := t.ports } ∧ v.onlyNotices t [.withdrawn, .state] ∧ withdrawn t)
      ∧ ((v.prog p).hasOnAir = true → (v.prog p).entry.state = .draining → plain = answered v x 0x13 tag .ok [])
      ∧ ((v.prog p).hasOnAir = true → (v.prog p).entry.state ≠ .draining →
        ∃ t, plain = answered t x 0x13 tag .ok [] ∧ raised t .state ∧ t.log = v.log ∧ t.audio = v.audio
          ∧ (t.prog p) = { v.prog p with
              entry := { (v.prog p).entry with state := .draining }, queue := ⟨(v.prog p).queue.onAir, []⟩ }
          ∧ (∀ q, q ≠ p → t.prog q = v.prog q)
          ∧ t = { v with progs := t.progs, ports := t.ports } ∧ v.onlyNotices t [.withdrawn, .state] ∧ withdrawn t)
      ∧ (∀ o, (v.prog p).queue.onAir = some o →
        let P := v.prog p
        let cut := (boundaryWork v.audio.line P).2
        let active := P.entry.active.apply P.entry.pending
        ∃ t, force = answered t x 0x13 tag .ok [] ∧ raised t .state ∧ raised t .segClosed
          ∧ (t.prog p).entry = { P.entry with
              state := .inactive
              active := active
              pending := .empty
              escalation := (t.prog p).entry.escalation }
          ∧ (t.prog p).queue = ⟨none, []⟩
          ∧ (t.prog p).meas = { cut.meas with
              segAccount := none
              inSum := 0
              outSum := 0
              held := false
              inHist := []
              outHist := [] }
          ∧ (t.prog p).meas.inFlight = [] ∧ (t.prog p).meas.clock = 0
          ∧ (t.prog p).gain = { cut.gain with
              policy := .adaptive
              ramp := none
              reduction := 0
              oldCeiling := ceilingChange P.entry.active.ceiling active.ceiling cut.gain.oldCeiling }
          ∧ (t.prog p).gain.applied = P.gain.applied ∧ (t.prog p).gain.window = []
          ∧ (∃ rec, (t.log, t.discards) = appendRecord (v.log, v.discards) rec ∧ t.log.getLast? = some rec
              ∧ rec.closes p o .forced P.gain.applied cut.meas.segAccount ∧ rec.verdict = .aborted
              ∧ (t.prog p).entry.escalation = ((v.post rec).prog p).entry.escalation
              ∧ ∀ y, ∀ k ∈ [Kind.escalated, .logHalf, .logDiscard],
                (t.port y).notices.get k = ((v.post rec).port y).notices.get k)
          ∧ withdrawn t ∧ v.onlyNotices t [.escalated, .logHalf, .logDiscard, .segClosed, .withdrawn, .state]
          ∧ t = { v with audio := t.audio, progs := t.progs, log := t.log, discards := t.discards, ports := t.ports }
          ∧ t.audio = { v.audio with line := (boundaryWork v.audio.line P).1 }
          ∧ ∀ q, q ≠ p → t.prog q = v.prog q))

/-- PROG.STOP and PROG.RUN (R34, R36, R44, R47, R63, R117), in every state. A PROG.RUN from STOPPED starts the engine from rest:
the filters at zero, no position in flight, the block clock at 0 with an empty block, and no history; the tally counts from that
moment, in a field of the model's own (log 19); the accounts stay. -/
def Obligations.ProgStopAndRun : Prop :=
  ∀ (s : State) (x : PortId) (tag : Byte) (p : Index), s.receptive x → let v := s.judged x
    let P := v.prog p
    let stop := exec (.progStop x tag [indexByte p]) s
    let run := exec (.progRun x tag [indexByte p]) s
    (v.governs x p = false → stop = answered v x 0x15 tag .noRights [] ∧ run = answered v x 0x14 tag .noRights [])
    ∧ (v.governs x p = true →
      (P.entry.state = .running → P.queue.onAir = none →
        stop = answered ((v.setProg p { P with entry := { P.entry with state := .stopping } }).raiseAll .state p) x 0x15 tag
          .ok [])
      ∧ (¬(P.entry.state = .running ∧ P.queue.onAir = none) → stop = answered v x 0x15 tag .wrongState [])
      ∧ (P.entry.state = .stopping →
        run = answered ((v.setProg p { P with entry := { P.entry with state := .running } }).raiseAll .state p) x 0x14 tag
          .ok [])
      ∧ (P.entry.state = .running → run = answered v x 0x14 tag .ok [])
      ∧ (P.entry.state = .inactive ∨ P.entry.state = .draining → run = answered v x 0x14 tag .wrongState [])
      ∧ (P.entry.state = .stopped → ∃ Q,
        run = answered ((v.setProg p Q).raiseAll .state p) x 0x14 tag .ok []
          ∧ Q.entry = { P.entry with state := .running } ∧ Q.queue = P.queue
          ∧ Q.meas = { P.meas with
              inFilters := List.replicate 6 Filter.zero
              outFilters := List.replicate 6 Filter.zero
              inFlight := []
              clock := 0
              inSum := 0
              outSum := 0
              held := false
              inHist := []
              outHist := []
              tallyLatch := P.tallyInactive v.lines }
          ∧ Q.gain = { P.gain with desired := P.gain.applied, policy := .adaptive, holding := true }))

/-- PROG.TUNE (R22, R24): an illegal value refuses all; with nothing on air each tunable carried replaces its active value at
once, otherwise it is written into the pending set; a tunable that is not carried keeps its value, and so does all the rest, but
that a change of the ceiling in force leaves the limiter what LimiterFixing says (R127, R131). The legal values are those of R22,
each in its unit of R195. -/
def Obligations.ProgTune : Prop :=
  (∀ set : TunableSet, set.legal = true ↔
      (∀ v, set.target = some v → -3100 ≤ v ∧ v ≤ -1400) ∧ (∀ v, set.tolerance = some v → 10 ≤ v ∧ v ≤ 500)
      ∧ (∀ v, set.maxBoost = some v → 0 ≤ v ∧ v ≤ 1500) ∧ (∀ v, set.maxCut = some v → -3000 ≤ v ∧ v ≤ 0)
      ∧ (∀ v, set.riseRate = some v → 1 ≤ v ∧ v ≤ 60) ∧ (∀ v, set.fallRate = some v → 1 ≤ v ∧ v ≤ 120)
      ∧ (∀ v, set.holdThreshold = some v → -6000 ≤ v ∧ v ≤ -3000)
      ∧ (∀ v, set.defaultRamp = some v → 0 ≤ v ∧ v ≤ 2000 ∧ v % 10 = 0)
      ∧ (∀ v, set.ceiling = some v → -90 ≤ v ∧ v ≤ 0) ∧ (∀ v, set.release = some v → 10 ≤ v ∧ v ≤ 1000))
  ∧ (∀ (old : Tunables) (set : TunableSet), old.apply set
      = ⟨set.target.getD old.target, set.tolerance.getD old.tolerance, set.maxBoost.getD old.maxBoost,
          set.maxCut.getD old.maxCut, set.riseRate.getD old.riseRate, set.fallRate.getD old.fallRate,
          set.holdThreshold.getD old.holdThreshold, set.defaultRamp.getD old.defaultRamp, set.ceiling.getD old.ceiling,
          set.release.getD old.release⟩)
  ∧ (∀ new old : TunableSet, let either := fun (a b : Option Int) => match a with
        | some v => some v
        | none => b
      new.over old = ⟨either new.target old.target, either new.tolerance old.tolerance, either new.maxBoost old.maxBoost,
          either new.maxCut old.maxCut, either new.riseRate old.riseRate, either new.fallRate old.fallRate,
          either new.holdThreshold old.holdThreshold, either new.defaultRamp old.defaultRamp,
          either new.ceiling old.ceiling, either new.release old.release⟩)
  ∧ ∀ (s : State) (x : PortId) (tag : Byte) (rest : List Byte) (p : Index) (set : TunableSet), s.receptive x →
    readTunables rest = some set → let v := s.judged x
    let ask := exec (.progTune x tag (indexByte p :: rest)) s
    (set.legal = false → ask = answered v x 0x16 tag .badValue [])
    ∧ (set.legal = true → v.governs x p = false → ask = answered v x 0x16 tag .noRights [])
    ∧ (set.legal = true → v.governs x p = true → (v.prog p).queue.onAir = none →
      ∃ Q, ask = answered (v.setProg p Q) x 0x16 tag .ok []
        ∧ Q.entry = { (v.prog p).entry with active := (v.prog p).entry.active.apply set }
        ∧ Q.queue = (v.prog p).queue ∧ Q.meas = (v.prog p).meas
        ∧ (let old := (v.prog p).entry.active
          Q.gain = { (v.prog p).gain with
            oldCeiling := ceilingChange old.ceiling (old.apply set).ceiling (v.prog p).gain.oldCeiling }))
    ∧ (set.legal = true → v.governs x p = true → (v.prog p).hasOnAir = true →
      ask = answered (v.setProg p { v.prog p with
        entry := { (v.prog p).entry with pending := set.over (v.prog p).entry.pending } }) x 0x16 tag .ok [])
    ∧ ∀ old : Tunables, (old.apply (set.over (v.prog p).entry.pending)) = (old.apply (v.prog p).entry.pending).apply set

/-- PROG.CLAIM without and with force (R157), a force byte above 1 being BAD_VALUE (R195), and PROG.RELEASE (R159): the custodian
alone releases; the custodian becomes NONE with CUSTODY at every port, and nothing else changes. PROG.RIGHTS (R160) and
ACCOUNT.CLEAR (R67): for the custodian or the override port; the cue-rights set is replaced, or the Programme Account emptied and
the escalation counter set to 0, and nothing else changes. -/
def Obligations.CustodyRightsAndAccount : Prop :=
  (∀ (s : State) (x : PortId) (tag : Byte) (p : Index), s.receptive x → let v := s.judged x
      let plain := exec (.progClaim x tag [indexByte p, 0]) s
      let force := exec (.progClaimForce x tag [indexByte p, 1]) s
      let held := (v.prog p).entry.custodian
      let claimed := (v.setProg p { v.prog p with
        entry := { (v.prog p).entry with custodian := some x } }).raiseAll .custody p
      (∀ b : Byte, 1 < b.toNat → exec (.progClaim x tag [indexByte p, b]) s = answered v x 0x17 tag .badValue [])
      ∧ (held = none → plain = answered claimed x 0x17 tag .ok [portCode (some x)])
      ∧ (held = some x → plain = answered v x 0x17 tag .ok [portCode (some x)])
      ∧ (∀ y, y ≠ x → held = some y → plain = answered v x 0x17 tag .busy [portCode (some y)])
      ∧ (v.override ≠ some x → force = answered v x 0x17 tag .noRights [])
      ∧ (v.override = some x → held = some x → force = answered v x 0x17 tag .ok [portCode (some x)])
      ∧ (v.override = some x → held ≠ some x → force = answered claimed x 0x17 tag .ok [portCode (some x)]))
  ∧ (∀ (s : State) (x : PortId) (tag b : Byte), s.receptive x → let v := s.judged x
      (8 ≤ b.toNat → exec (.progRelease x tag [b]) s = answered v x 0x18 tag .badValue [])
      ∧ ∀ p : Index, p.val = b.toNat →
        ((v.prog p).entry.custodian ≠ some x → exec (.progRelease x tag [b]) s = answered v x 0x18 tag .noRights [])
        ∧ ((v.prog p).entry.custodian = some x → exec (.progRelease x tag [b]) s
            = answered ((v.setProg p { v.prog p with entry := { (v.prog p).entry with custodian := none } }).raiseAll
              .custody p) x 0x18 tag .ok []))
  ∧ (∀ (s : State) (x : PortId) (tag set : Byte) (p : Index), s.receptive x → let v := s.judged x
      let rights := exec (.progRights x tag [indexByte p, set]) s
      let clear := exec (.accountClear x tag [indexByte p]) s
      (8 ≤ set.toNat → rights = answered v x 0x19 tag .badValue [])
      ∧ (set.toNat < 8 → v.governs x p = false → rights = answered v x 0x19 tag .noRights [])
      ∧ (set.toNat < 8 → v.governs x p = true → rights = answered (v.setProg p { v.prog p with
          entry := { (v.prog p).entry with rights := set.setWidth 3 } }) x 0x19 tag .ok [])
      ∧ (v.governs x p = false → clear = answered v x 0x1A tag .noRights [])
      ∧ (v.governs x p = true → clear = answered (v.setProg p { v.prog p with
          entry := { (v.prog p).entry with escalation := 0 }
          meas := { (v.prog p).meas with account := ⟨List.replicate 140 ⟨0, 0⟩, false⟩ } }) x 0x1A tag .ok []))

/-! ### Requests on segment queues -/

/-- SEG.CUE (R70, R71, R73, R75), every form that matches its layout: the first refusal that applies, or the record appended at
the tail with the requesting port as its owner, and the queue count after it. A record is legal when its fields lie within the
values of R70 and the four conditions of R71 hold. The records of a queue are the one on air, if any, and then the CUED ones
(R69). -/
def Obligations.SegCue : Prop :=
  (∀ q : Queue, q.records = (match q.onAir with
      | some o => o.record :: q.cued
      | none => q.cued)
    ∧ q.count = q.records.length)
  ∧ (∀ r : SegRecord, r.legal = true ↔
      (1 ≤ r.id ∧ r.id ≤ 65535) ∧ (∀ v, r.declared = some v → -7000 ≤ v ∧ v ≤ 0)
      ∧ (∀ v, r.entryGain = some v → -3000 ≤ v ∧ v ≤ 1500)
      ∧ (∀ v, r.rampLength = some v → 0 ≤ v ∧ v ≤ 2000 ∧ v % 10 = 0)
      ∧ (∀ v, r.duration = some v → 1 ≤ v ∧ v ≤ 65535)
      ∧ (∀ v, r.targetOverride = some v → -3100 ≤ v ∧ v ≤ -1400)
      ∧ (∀ v, r.toleranceOverride = some v → 10 ≤ v ∧ v ≤ 500) ∧ r.label.length ≤ 12
      ∧ (r.policy = .fixed → r.declared.isSome = true ∧ (r.cls = .spot ∨ r.cls = .promo))
      ∧ (r.entryGain.isSome = true → r.policy = .adaptive) ∧ (r.autoAdvance = true → r.duration.isSome = true))
  ∧ ∀ (s : State) (x : PortId) (tag : Byte) (ps : List Byte) (c : CueBody) (p : Index), s.receptive x →
    readCueBody ps = some c → indexOf c.prog = some p → let v := s.judged x
    let q := (v.prog p).queue
    let ask := exec (.segCue x tag ps) s
    (c.record x = none → ask = answered v x 0x20 tag .badValue [])
    ∧ ∀ r, c.record x = some r → r.owner = x ∧ r.id = c.id.toNat ∧ r.label = c.label
      ∧ (r.legal = false ∨ (∃ o ∈ q.records, o.id = r.id) → ask = answered v x 0x20 tag .badValue [])
      ∧ (r.legal = true → (∀ o ∈ q.records, o.id ≠ r.id) →
        (v.mayCue x p = false → ask = answered v x 0x20 tag .noRights [])
        ∧ (v.mayCue x p = true → (v.prog p).entry.state = .inactive ∨ (v.prog p).entry.state = .draining →
          ask = answered v x 0x20 tag .wrongState [])
        ∧ (v.mayCue x p = true → (v.prog p).entry.state ≠ .inactive → (v.prog p).entry.state ≠ .draining →
          6 ≤ q.count → ask = answered v x 0x20 tag .full [])
        ∧ (v.mayCue x p = true → (v.prog p).entry.state ≠ .inactive → (v.prog p).entry.state ≠ .draining →
          q.count < 6 → ask = answered (v.setProg p { v.prog p with queue := ⟨q.onAir, q.cued ++ [r]⟩ }) x 0x20 tag .ok
            [byteOfNat (q.count + 1)]))

/-- SEG.AMEND (R77, R78), for a body that matches its layout with an id from 1 and legal values: with no record of the id,
NO_SUCH_ID; otherwise the amended record is checked, then rights, then ON AIR; when taken the CUED record of the id takes
its new fields in its place, with its id and owner. -/
def Obligations.SegAmend : Prop :=
  ∀ (s : State) (x : PortId) (tag : Byte) (ps : List Byte) (a : AmendBody) (p : Index), s.receptive x →
    readAmendBody ps = some a → indexOf a.prog = some p → let v := s.judged x
    let q := (v.prog p).queue
    let ask := exec (.segAmend x tag ps) s
    (a.id.toNat = 0 ∨ a.valuesLegal = false → ask = answered v x 0x21 tag .badValue [])
    ∧ (1 ≤ a.id.toNat → a.valuesLegal = true →
      ((∀ r ∈ q.records, r.id ≠ a.id.toNat) → ask = answered v x 0x21 tag .noSuchId [])
      ∧ ∀ r, q.records.find? (fun o => o.id == a.id.toNat) = some r →
        let air := ∃ o, q.onAir = some o ∧ o.record.id = a.id.toNat
        let mine := r.owner = x ∨ v.override = some x
        ((a.amended r).legal = false → ask = answered v x 0x21 tag .badValue [])
        ∧ ((a.amended r).legal = true → ¬mine → ask = answered v x 0x21 tag .noRights [])
        ∧ ((a.amended r).legal = true → mine → air → ask = answered v x 0x21 tag .wrongState [])
        ∧ ((a.amended r).legal = true → mine → ¬air → ask = answered (v.setProg p { v.prog p with
            queue := { q with cued := q.cued.map fun o => if o.id = a.id.toNat then a.amended o else o } }) x 0x21 tag
            .ok [])
        ∧ (a.amended r).id = r.id ∧ (a.amended r).owner = r.owner)

/-- SEG.WITHDRAW (R80): as SEG.AMEND for id, rights and ON AIR; the record leaves the queue, and WITHDRAWN is raised at its
owner when another port asked. -/
def Obligations.SegWithdraw : Prop :=
  ∀ (s : State) (x : PortId) (tag hi lo : Byte) (p : Index), s.receptive x → let v := s.judged x
    let id : BitVec 16 := hi ++ lo
    let q := (v.prog p).queue
    let ask := exec (.segWithdraw x tag [indexByte p, hi, lo]) s
    (id.toNat = 0 → ask = answered v x 0x22 tag .badValue [])
    ∧ (1 ≤ id.toNat → (∀ r ∈ q.records, r.id ≠ id.toNat) → ask = answered v x 0x22 tag .noSuchId [])
    ∧ ∀ r, 1 ≤ id.toNat → q.records.find? (fun o => o.id == id.toNat) = some r →
      let air := ∃ o, q.onAir = some o ∧ o.record.id = id.toNat
      let mine := r.owner = x ∨ v.override = some x
      let left : Queue := { q with cued := q.cued.filter fun o => o.id != id.toNat }
      let removed := v.setProg p { v.prog p with queue := left }
      (¬mine → ask = answered v x 0x22 tag .noRights [])
      ∧ (mine → air → ask = answered v x 0x22 tag .wrongState [])
      ∧ (¬air → r.owner = x → ask = answered removed x 0x22 tag .ok [byteOfNat left.count])
      ∧ (¬air → mine → r.owner ≠ x →
        ask = answered (removed.raiseAt r.owner .withdrawn (bitOf p)) x 0x22 tag .ok [byteOfNat left.count])

/-- SEG.TAKE (R93): the first refusal that applies, EMPTY before NO_SUCH_ID; when taken, a take with cause COMMAND of the
port, and the reply carries the id put on air and the Air Clock value. -/
def Obligations.SegTake : Prop :=
  ∀ (s : State) (x : PortId) (tag : Byte) (ps : List Byte) (e : Option (BitVec 16)) (p : Index), s.receptive x →
    readTakeBody ps = some (indexByte p, e) → let v := s.judged x
    let ask := exec (.segTake x tag ps) s
    (e = some 0 → ask = answered v x 0x23 tag .badValue [])
    ∧ (e ≠ some 0 →
      (v.mayCue x p = false → ask = answered v x 0x23 tag .noRights [])
      ∧ (v.mayCue x p = true → (v.prog p).entry.state ≠ .running → ask = answered v x 0x23 tag .wrongState [])
      ∧ (v.mayCue x p = true → (v.prog p).entry.state = .running →
        ((v.prog p).queue.cued = [] → ask = answered v x 0x23 tag .empty [])
        ∧ ∀ r rest, (v.prog p).queue.cued = r :: rest →
          (∀ id, e = some id → id.toNat ≠ r.id → ask = answered v x 0x23 tag .noSuchId [])
          ∧ ((∀ id, e = some id → id.toNat = r.id) → ask = answered (v.take p (.command x)) x 0x23 tag .ok
            (bytesOfNat 2 r.id ++ bytesOfNat 6 v.audio.airClock.toNat))))

/-- SEG.END (R100): the first refusal that applies; when taken the segment on air ends with END or ABORT, and the reply carries
its id and the Air Clock value. -/
def Obligations.SegEnd : Prop :=
  ∀ (s : State) (x : PortId) (tag mode : Byte) (ps : List Byte) (e : Option (BitVec 16)) (p : Index), s.receptive x →
    readEndBody ps = some (indexByte p, mode, e) → let v := s.judged x
    let ask := exec (.segEnd x tag ps) s
    (1 < mode.toNat ∨ e = some 0 → ask = answered v x 0x24 tag .badValue [])
    ∧ (mode.toNat ≤ 1 → e ≠ some 0 →
      (v.mayCue x p = false → ask = answered v x 0x24 tag .noRights [])
      ∧ (v.mayCue x p = true → (v.prog p).queue.onAir = none → ask = answered v x 0x24 tag .wrongState [])
      ∧ ∀ o, v.mayCue x p = true → (v.prog p).queue.onAir = some o →
        (∀ id, e = some id → id.toNat ≠ o.record.id → ask = answered v x 0x24 tag .noSuchId [])
        ∧ ((∀ id, e = some id → id.toNat = o.record.id) →
          ask = answered (v.endSegment p (if mode = 0 then .finish else .abort)) x 0x24 tag .ok
            (bytesOfNat 2 o.record.id ++ bytesOfNat 6 v.audio.airClock.toNat)))

/-! ### What every step keeps -/

/-- R12, R5, R6: the delay line keeps its 80 stages of 16 samples, and the detector its law; and SDOUT goes on carrying zero samples
whenever the detector is not LOCKED. -/
def Obligations.StepKeepsTheAudioPort : Prop :=
  (∀ s t : State, s.lineShaped → s.detectorFits → step s = .next t → t.lineShaped ∧ t.detectorFits)
  ∧ ∀ s t : State, s.silentUnlessLocked → step s = .next t → t.silentUnlessLocked

/-- R20: the follow relation of the eight entries stays acyclic. -/
def Obligations.StepKeepsFollowAcyclic : Prop :=
  ∀ s t : State, s.followAcyclic → step s = .next t → t.followAcyclic

/-- R17: slots stay within the frame, and active programmes' slots stay disjoint. -/
def Obligations.StepKeepsSlotsDisjoint : Prop :=
  ∀ s t : State, s.slotsWithin → s.slotsDisjoint → step s = .next t → t.slotsWithin ∧ t.slotsDisjoint

/-- R69, R71: every queue stays within 6 legal records of different ids. -/
def Obligations.StepKeepsQueuesSound : Prop :=
  ∀ s t : State, s.queuesSound → step s = .next t → t.queuesSound

/-- R25, R58, R69, R121: what is on air, pending and in progress stays fitting to each programme's state. -/
def Obligations.StepKeepsStatesFit : Prop :=
  ∀ s t : State, s.statesFit → step s = .next t → t.statesFit

/-- R156, R82: a port that is ABSENT stays custodian of nothing and owner of no CUED record. -/
def Obligations.StepKeepsAbsentHoldNothing : Prop :=
  ∀ s t : State, s.absentHoldNothing → step s = .next t → t.absentHoldNothing

/-- R42, R44, R48, R54, R125, R138: the bounds of the Measurement Engine, the limiter window and the escalation counters. -/
def Obligations.StepKeepsEnginesBounded : Prop :=
  ∀ s t : State, s.enginesBounded → step s = .next t → t.enginesBounded

/-- R111, R122: the applied and the desired gain of every programme stay from -30.00 to +15.00 dB. -/
def Obligations.StepKeepsGainsInRange : Prop :=
  ∀ s t : State, s.gainsSound → step s = .next t → t.gainsSound

/-- R140, R142: the log stays within 48 records and the discard tally within 255. -/
def Obligations.StepKeepsLogBounded : Prop :=
  ∀ s t : State, s.logBounded → step s = .next t → t.logBounded

/-- R163, R186, R191: notices, snapshot buffers and silence timers keep their laws. -/
def Obligations.StepKeepsPortsSound : Prop :=
  ∀ s t : State, s.portsSound → step s = .next t → t.portsSound

/-- All the properties that every step keeps hold at reset. -/
def Obligations.ResetIsSound : Prop :=
  Sys2Proof.core.reset = State.reset
  ∧ State.reset.lineShaped ∧ State.reset.detectorFits ∧ State.reset.silentUnlessLocked ∧ State.reset.followAcyclic
  ∧ State.reset.slotsWithin ∧ State.reset.slotsDisjoint ∧ State.reset.queuesSound ∧ State.reset.statesFit
  ∧ State.reset.absentHoldNothing ∧ State.reset.enginesBounded ∧ State.reset.gainsSound ∧ State.reset.logBounded ∧ State.reset.portsSound

end Statements
end

