-- ==== Sys2Proof/Laws/State.lean ====
section
/-! SUPPORT. What each update of State leaves in each field, and reading after writing for families of like things. -/

namespace Sys2Proof.Machine

/-! ### Families -/

theorem Octet.get_set_same {α : Type} (o : Octet α) (i : Index) (v : α) : (o.set i v).get i = v := by
  fin_cases i <;> rfl

theorem Octet.get_set_other {α : Type} (o : Octet α) (i j : Index) (v : α) (h : j ≠ i) :
    (o.set i v).get j = o.get j := by
  fin_cases i <;> fin_cases j <;> first | rfl | exact absurd rfl h

theorem Octet.get_map {α β : Type} (f : α → β) (o : Octet α) (i : Index) : (o.map f).get i = f (o.get i) := by
  fin_cases i <;> rfl

theorem Octet.set_get {α : Type} (o : Octet α) (i : Index) : o.set i (o.get i) = o := by
  fin_cases i <;> rfl

theorem Octet.set_set {α : Type} (o : Octet α) (i : Index) (v w : α) : (o.set i v).set i w = o.set i w := by
  fin_cases i <;> rfl

theorem Trio.get_set_same {α : Type} (t : Trio α) (x : PortId) (v : α) : (t.set x v).get x = v := by
  cases x <;> rfl

theorem Trio.get_set_other {α : Type} (t : Trio α) (x y : PortId) (v : α) (h : y ≠ x) :
    (t.set x v).get y = t.get y := by
  cases x <;> cases y <;> first | rfl | exact absurd rfl h

theorem Trio.get_map {α β : Type} (f : α → β) (t : Trio α) (x : PortId) : (t.map f).get x = f (t.get x) := by
  cases x <;> rfl

theorem Trio.set_get {α : Type} (t : Trio α) (x : PortId) : t.set x (t.get x) = t := by cases x <;> rfl

theorem Trio.set_set {α : Type} (t : Trio α) (x : PortId) (v w : α) : (t.set x v).set x w = t.set x w := by
  cases x <;> rfl

/-! ### Fields after an update -/

@[simp] theorem State.setProg_audio (s : State) (p : Index) (v : Prog) : (s.setProg p v).audio = s.audio := rfl
@[simp] theorem State.setProg_progs (s : State) (p : Index) (v : Prog) : (s.setProg p v).progs = s.progs.set p v := rfl
@[simp] theorem State.setProg_log (s : State) (p : Index) (v : Prog) : (s.setProg p v).log = s.log := rfl
@[simp] theorem State.setProg_discards (s : State) (p : Index) (v : Prog) : (s.setProg p v).discards = s.discards := rfl
@[simp] theorem State.setProg_lines (s : State) (p : Index) (v : Prog) : (s.setProg p v).lines = s.lines := rfl
@[simp] theorem State.setProg_ports (s : State) (p : Index) (v : Prog) : (s.setProg p v).ports = s.ports := rfl
@[simp] theorem State.setProg_override (s : State) (p : Index) (v : Prog) : (s.setProg p v).override = s.override := rfl
@[simp] theorem State.setProg_baud (s : State) (p : Index) (v : Prog) : (s.setProg p v).baud = s.baud := rfl
@[simp] theorem State.setProg_restartArmed (s : State) (p : Index) (v : Prog) : (s.setProg p v).restartArmed = s.restartArmed := rfl
@[simp] theorem State.setProg_freeCount (s : State) (p : Index) (v : Prog) : (s.setProg p v).freeCount = s.freeCount := rfl
@[simp] theorem State.setProg_pending (s : State) (p : Index) (v : Prog) : (s.setProg p v).pending = s.pending := rfl

@[simp] theorem State.updProg_audio (s : State) (p : Index) (f : Prog → Prog) : (s.updProg p f).audio = s.audio := rfl
@[simp] theorem State.updProg_progs (s : State) (p : Index) (f : Prog → Prog) : (s.updProg p f).progs = s.progs.set p (f (s.prog p)) := rfl
@[simp] theorem State.updProg_log (s : State) (p : Index) (f : Prog → Prog) : (s.updProg p f).log = s.log := rfl
@[simp] theorem State.updProg_discards (s : State) (p : Index) (f : Prog → Prog) : (s.updProg p f).discards = s.discards := rfl
@[simp] theorem State.updProg_lines (s : State) (p : Index) (f : Prog → Prog) : (s.updProg p f).lines = s.lines := rfl
@[simp] theorem State.updProg_ports (s : State) (p : Index) (f : Prog → Prog) : (s.updProg p f).ports = s.ports := rfl
@[simp] theorem State.updProg_override (s : State) (p : Index) (f : Prog → Prog) : (s.updProg p f).override = s.override := rfl
@[simp] theorem State.updProg_baud (s : State) (p : Index) (f : Prog → Prog) : (s.updProg p f).baud = s.baud := rfl
@[simp] theorem State.updProg_restartArmed (s : State) (p : Index) (f : Prog → Prog) : (s.updProg p f).restartArmed = s.restartArmed := rfl
@[simp] theorem State.updProg_freeCount (s : State) (p : Index) (f : Prog → Prog) : (s.updProg p f).freeCount = s.freeCount := rfl
@[simp] theorem State.updProg_pending (s : State) (p : Index) (f : Prog → Prog) : (s.updProg p f).pending = s.pending := rfl

@[simp] theorem State.mapProgs_audio (s : State) (f : Prog → Prog) : (s.mapProgs f).audio = s.audio := rfl
@[simp] theorem State.mapProgs_progs (s : State) (f : Prog → Prog) : (s.mapProgs f).progs = s.progs.map f := rfl
@[simp] theorem State.mapProgs_log (s : State) (f : Prog → Prog) : (s.mapProgs f).log = s.log := rfl
@[simp] theorem State.mapProgs_discards (s : State) (f : Prog → Prog) : (s.mapProgs f).discards = s.discards := rfl
@[simp] theorem State.mapProgs_lines (s : State) (f : Prog → Prog) : (s.mapProgs f).lines = s.lines := rfl
@[simp] theorem State.mapProgs_ports (s : State) (f : Prog → Prog) : (s.mapProgs f).ports = s.ports := rfl
@[simp] theorem State.mapProgs_override (s : State) (f : Prog → Prog) : (s.mapProgs f).override = s.override := rfl
@[simp] theorem State.mapProgs_baud (s : State) (f : Prog → Prog) : (s.mapProgs f).baud = s.baud := rfl
@[simp] theorem State.mapProgs_restartArmed (s : State) (f : Prog → Prog) : (s.mapProgs f).restartArmed = s.restartArmed := rfl
@[simp] theorem State.mapProgs_freeCount (s : State) (f : Prog → Prog) : (s.mapProgs f).freeCount = s.freeCount := rfl
@[simp] theorem State.mapProgs_pending (s : State) (f : Prog → Prog) : (s.mapProgs f).pending = s.pending := rfl

@[simp] theorem State.setPort_audio (s : State) (x : PortId) (v : Port) : (s.setPort x v).audio = s.audio := rfl
@[simp] theorem State.setPort_progs (s : State) (x : PortId) (v : Port) : (s.setPort x v).progs = s.progs := rfl
@[simp] theorem State.setPort_log (s : State) (x : PortId) (v : Port) : (s.setPort x v).log = s.log := rfl
@[simp] theorem State.setPort_discards (s : State) (x : PortId) (v : Port) : (s.setPort x v).discards = s.discards := rfl
@[simp] theorem State.setPort_lines (s : State) (x : PortId) (v : Port) : (s.setPort x v).lines = s.lines := rfl
@[simp] theorem State.setPort_ports (s : State) (x : PortId) (v : Port) : (s.setPort x v).ports = s.ports.set x v := rfl
@[simp] theorem State.setPort_override (s : State) (x : PortId) (v : Port) : (s.setPort x v).override = s.override := rfl
@[simp] theorem State.setPort_baud (s : State) (x : PortId) (v : Port) : (s.setPort x v).baud = s.baud := rfl
@[simp] theorem State.setPort_restartArmed (s : State) (x : PortId) (v : Port) : (s.setPort x v).restartArmed = s.restartArmed := rfl
@[simp] theorem State.setPort_freeCount (s : State) (x : PortId) (v : Port) : (s.setPort x v).freeCount = s.freeCount := rfl
@[simp] theorem State.setPort_pending (s : State) (x : PortId) (v : Port) : (s.setPort x v).pending = s.pending := rfl

@[simp] theorem State.updPort_audio (s : State) (x : PortId) (f : Port → Port) : (s.updPort x f).audio = s.audio := rfl
@[simp] theorem State.updPort_progs (s : State) (x : PortId) (f : Port → Port) : (s.updPort x f).progs = s.progs := rfl
@[simp] theorem State.updPort_log (s : State) (x : PortId) (f : Port → Port) : (s.updPort x f).log = s.log := rfl
@[simp] theorem State.updPort_discards (s : State) (x : PortId) (f : Port → Port) : (s.updPort x f).discards = s.discards := rfl
@[simp] theorem State.updPort_lines (s : State) (x : PortId) (f : Port → Port) : (s.updPort x f).lines = s.lines := rfl
@[simp] theorem State.updPort_ports (s : State) (x : PortId) (f : Port → Port) : (s.updPort x f).ports = s.ports.set x (f (s.port x)) := rfl
@[simp] theorem State.updPort_override (s : State) (x : PortId) (f : Port → Port) : (s.updPort x f).override = s.override := rfl
@[simp] theorem State.updPort_baud (s : State) (x : PortId) (f : Port → Port) : (s.updPort x f).baud = s.baud := rfl
@[simp] theorem State.updPort_restartArmed (s : State) (x : PortId) (f : Port → Port) : (s.updPort x f).restartArmed = s.restartArmed := rfl
@[simp] theorem State.updPort_freeCount (s : State) (x : PortId) (f : Port → Port) : (s.updPort x f).freeCount = s.freeCount := rfl
@[simp] theorem State.updPort_pending (s : State) (x : PortId) (f : Port → Port) : (s.updPort x f).pending = s.pending := rfl

@[simp] theorem State.mapPorts_audio (s : State) (f : Port → Port) : (s.mapPorts f).audio = s.audio := rfl
@[simp] theorem State.mapPorts_progs (s : State) (f : Port → Port) : (s.mapPorts f).progs = s.progs := rfl
@[simp] theorem State.mapPorts_log (s : State) (f : Port → Port) : (s.mapPorts f).log = s.log := rfl
@[simp] theorem State.mapPorts_discards (s : State) (f : Port → Port) : (s.mapPorts f).discards = s.discards := rfl
@[simp] theorem State.mapPorts_lines (s : State) (f : Port → Port) : (s.mapPorts f).lines = s.lines := rfl
@[simp] theorem State.mapPorts_ports (s : State) (f : Port → Port) : (s.mapPorts f).ports = s.ports.map f := rfl
@[simp] theorem State.mapPorts_override (s : State) (f : Port → Port) : (s.mapPorts f).override = s.override := rfl
@[simp] theorem State.mapPorts_baud (s : State) (f : Port → Port) : (s.mapPorts f).baud = s.baud := rfl
@[simp] theorem State.mapPorts_restartArmed (s : State) (f : Port → Port) : (s.mapPorts f).restartArmed = s.restartArmed := rfl
@[simp] theorem State.mapPorts_freeCount (s : State) (f : Port → Port) : (s.mapPorts f).freeCount = s.freeCount := rfl
@[simp] theorem State.mapPorts_pending (s : State) (f : Port → Port) : (s.mapPorts f).pending = s.pending := rfl

@[simp] theorem State.setLine_audio (s : State) (k : Index) (v : CueLine) : (s.setLine k v).audio = s.audio := rfl
@[simp] theorem State.setLine_progs (s : State) (k : Index) (v : CueLine) : (s.setLine k v).progs = s.progs := rfl
@[simp] theorem State.setLine_log (s : State) (k : Index) (v : CueLine) : (s.setLine k v).log = s.log := rfl
@[simp] theorem State.setLine_discards (s : State) (k : Index) (v : CueLine) : (s.setLine k v).discards = s.discards := rfl
@[simp] theorem State.setLine_lines (s : State) (k : Index) (v : CueLine) : (s.setLine k v).lines = s.lines.set k v := rfl
@[simp] theorem State.setLine_ports (s : State) (k : Index) (v : CueLine) : (s.setLine k v).ports = s.ports := rfl
@[simp] theorem State.setLine_override (s : State) (k : Index) (v : CueLine) : (s.setLine k v).override = s.override := rfl
@[simp] theorem State.setLine_baud (s : State) (k : Index) (v : CueLine) : (s.setLine k v).baud = s.baud := rfl
@[simp] theorem State.setLine_restartArmed (s : State) (k : Index) (v : CueLine) : (s.setLine k v).restartArmed = s.restartArmed := rfl
@[simp] theorem State.setLine_freeCount (s : State) (k : Index) (v : CueLine) : (s.setLine k v).freeCount = s.freeCount := rfl
@[simp] theorem State.setLine_pending (s : State) (k : Index) (v : CueLine) : (s.setLine k v).pending = s.pending := rfl

@[simp] theorem State.setAudio_audio (s : State) (v : AudioPort) : (s.setAudio v).audio = v := rfl
@[simp] theorem State.setAudio_progs (s : State) (v : AudioPort) : (s.setAudio v).progs = s.progs := rfl
@[simp] theorem State.setAudio_log (s : State) (v : AudioPort) : (s.setAudio v).log = s.log := rfl
@[simp] theorem State.setAudio_discards (s : State) (v : AudioPort) : (s.setAudio v).discards = s.discards := rfl
@[simp] theorem State.setAudio_lines (s : State) (v : AudioPort) : (s.setAudio v).lines = s.lines := rfl
@[simp] theorem State.setAudio_ports (s : State) (v : AudioPort) : (s.setAudio v).ports = s.ports := rfl
@[simp] theorem State.setAudio_override (s : State) (v : AudioPort) : (s.setAudio v).override = s.override := rfl
@[simp] theorem State.setAudio_baud (s : State) (v : AudioPort) : (s.setAudio v).baud = s.baud := rfl
@[simp] theorem State.setAudio_restartArmed (s : State) (v : AudioPort) : (s.setAudio v).restartArmed = s.restartArmed := rfl
@[simp] theorem State.setAudio_freeCount (s : State) (v : AudioPort) : (s.setAudio v).freeCount = s.freeCount := rfl
@[simp] theorem State.setAudio_pending (s : State) (v : AudioPort) : (s.setAudio v).pending = s.pending := rfl

@[simp] theorem State.setDelayLine_audio (s : State) (v : List Stage) : (s.setDelayLine v).audio = { s.audio with line := v } := rfl
@[simp] theorem State.setDelayLine_progs (s : State) (v : List Stage) : (s.setDelayLine v).progs = s.progs := rfl
@[simp] theorem State.setDelayLine_log (s : State) (v : List Stage) : (s.setDelayLine v).log = s.log := rfl
@[simp] theorem State.setDelayLine_discards (s : State) (v : List Stage) : (s.setDelayLine v).discards = s.discards := rfl
@[simp] theorem State.setDelayLine_lines (s : State) (v : List Stage) : (s.setDelayLine v).lines = s.lines := rfl
@[simp] theorem State.setDelayLine_ports (s : State) (v : List Stage) : (s.setDelayLine v).ports = s.ports := rfl
@[simp] theorem State.setDelayLine_override (s : State) (v : List Stage) : (s.setDelayLine v).override = s.override := rfl
@[simp] theorem State.setDelayLine_baud (s : State) (v : List Stage) : (s.setDelayLine v).baud = s.baud := rfl
@[simp] theorem State.setDelayLine_restartArmed (s : State) (v : List Stage) : (s.setDelayLine v).restartArmed = s.restartArmed := rfl
@[simp] theorem State.setDelayLine_freeCount (s : State) (v : List Stage) : (s.setDelayLine v).freeCount = s.freeCount := rfl
@[simp] theorem State.setDelayLine_pending (s : State) (v : List Stage) : (s.setDelayLine v).pending = s.pending := rfl

@[simp] theorem State.raiseAt_audio (s : State) (x : PortId) (k : Kind) (b : BitVec 8) : (s.raiseAt x k b).audio = s.audio := rfl
@[simp] theorem State.raiseAt_progs (s : State) (x : PortId) (k : Kind) (b : BitVec 8) : (s.raiseAt x k b).progs = s.progs := rfl
@[simp] theorem State.raiseAt_log (s : State) (x : PortId) (k : Kind) (b : BitVec 8) : (s.raiseAt x k b).log = s.log := rfl
@[simp] theorem State.raiseAt_discards (s : State) (x : PortId) (k : Kind) (b : BitVec 8) : (s.raiseAt x k b).discards = s.discards := rfl
@[simp] theorem State.raiseAt_lines (s : State) (x : PortId) (k : Kind) (b : BitVec 8) : (s.raiseAt x k b).lines = s.lines := rfl
@[simp] theorem State.raiseAt_ports (s : State) (x : PortId) (k : Kind) (b : BitVec 8) : (s.raiseAt x k b).ports = s.ports.set x (Port.raise k b (s.port x)) := rfl
@[simp] theorem State.raiseAt_override (s : State) (x : PortId) (k : Kind) (b : BitVec 8) : (s.raiseAt x k b).override = s.override := rfl
@[simp] theorem State.raiseAt_baud (s : State) (x : PortId) (k : Kind) (b : BitVec 8) : (s.raiseAt x k b).baud = s.baud := rfl
@[simp] theorem State.raiseAt_restartArmed (s : State) (x : PortId) (k : Kind) (b : BitVec 8) : (s.raiseAt x k b).restartArmed = s.restartArmed := rfl
@[simp] theorem State.raiseAt_freeCount (s : State) (x : PortId) (k : Kind) (b : BitVec 8) : (s.raiseAt x k b).freeCount = s.freeCount := rfl
@[simp] theorem State.raiseAt_pending (s : State) (x : PortId) (k : Kind) (b : BitVec 8) : (s.raiseAt x k b).pending = s.pending := rfl

@[simp] theorem State.raiseAll_audio (s : State) (k : Kind) (i : Index) : (s.raiseAll k i).audio = s.audio := rfl
@[simp] theorem State.raiseAll_progs (s : State) (k : Kind) (i : Index) : (s.raiseAll k i).progs = s.progs := rfl
@[simp] theorem State.raiseAll_log (s : State) (k : Kind) (i : Index) : (s.raiseAll k i).log = s.log := rfl
@[simp] theorem State.raiseAll_discards (s : State) (k : Kind) (i : Index) : (s.raiseAll k i).discards = s.discards := rfl
@[simp] theorem State.raiseAll_lines (s : State) (k : Kind) (i : Index) : (s.raiseAll k i).lines = s.lines := rfl
@[simp] theorem State.raiseAll_ports (s : State) (k : Kind) (i : Index) : (s.raiseAll k i).ports = s.ports.map (Port.raise k (bitOf i)) := rfl
@[simp] theorem State.raiseAll_override (s : State) (k : Kind) (i : Index) : (s.raiseAll k i).override = s.override := rfl
@[simp] theorem State.raiseAll_baud (s : State) (k : Kind) (i : Index) : (s.raiseAll k i).baud = s.baud := rfl
@[simp] theorem State.raiseAll_restartArmed (s : State) (k : Kind) (i : Index) : (s.raiseAll k i).restartArmed = s.restartArmed := rfl
@[simp] theorem State.raiseAll_freeCount (s : State) (k : Kind) (i : Index) : (s.raiseAll k i).freeCount = s.freeCount := rfl
@[simp] theorem State.raiseAll_pending (s : State) (k : Kind) (i : Index) : (s.raiseAll k i).pending = s.pending := rfl

@[simp] theorem State.raisePlain_audio (s : State) (k : Kind) : (s.raisePlain k).audio = s.audio := rfl
@[simp] theorem State.raisePlain_progs (s : State) (k : Kind) : (s.raisePlain k).progs = s.progs := rfl
@[simp] theorem State.raisePlain_log (s : State) (k : Kind) : (s.raisePlain k).log = s.log := rfl
@[simp] theorem State.raisePlain_discards (s : State) (k : Kind) : (s.raisePlain k).discards = s.discards := rfl
@[simp] theorem State.raisePlain_lines (s : State) (k : Kind) : (s.raisePlain k).lines = s.lines := rfl
@[simp] theorem State.raisePlain_ports (s : State) (k : Kind) : (s.raisePlain k).ports = s.ports.map (Port.raise k 0) := rfl
@[simp] theorem State.raisePlain_override (s : State) (k : Kind) : (s.raisePlain k).override = s.override := rfl
@[simp] theorem State.raisePlain_baud (s : State) (k : Kind) : (s.raisePlain k).baud = s.baud := rfl
@[simp] theorem State.raisePlain_restartArmed (s : State) (k : Kind) : (s.raisePlain k).restartArmed = s.restartArmed := rfl
@[simp] theorem State.raisePlain_freeCount (s : State) (k : Kind) : (s.raisePlain k).freeCount = s.freeCount := rfl
@[simp] theorem State.raisePlain_pending (s : State) (k : Kind) : (s.raisePlain k).pending = s.pending := rfl

@[simp] theorem State.useFree_audio (s : State) : (s.useFree).audio = s.audio := rfl
@[simp] theorem State.useFree_progs (s : State) : (s.useFree).progs = s.progs := rfl
@[simp] theorem State.useFree_log (s : State) : (s.useFree).log = s.log := rfl
@[simp] theorem State.useFree_discards (s : State) : (s.useFree).discards = s.discards := rfl
@[simp] theorem State.useFree_lines (s : State) : (s.useFree).lines = s.lines := rfl
@[simp] theorem State.useFree_ports (s : State) : (s.useFree).ports = s.ports := rfl
@[simp] theorem State.useFree_override (s : State) : (s.useFree).override = s.override := rfl
@[simp] theorem State.useFree_baud (s : State) : (s.useFree).baud = s.baud := rfl
@[simp] theorem State.useFree_restartArmed (s : State) : (s.useFree).restartArmed = s.restartArmed := rfl
@[simp] theorem State.useFree_freeCount (s : State) : (s.useFree).freeCount = s.freeCount + 1 := rfl
@[simp] theorem State.useFree_pending (s : State) : (s.useFree).pending = s.pending := rfl

@[simp] theorem State.sendReply_audio (s : State) (x : PortId) (f : List Byte) : (s.sendReply x f).audio = s.audio := rfl
@[simp] theorem State.sendReply_progs (s : State) (x : PortId) (f : List Byte) : (s.sendReply x f).progs = s.progs := rfl
@[simp] theorem State.sendReply_log (s : State) (x : PortId) (f : List Byte) : (s.sendReply x f).log = s.log := rfl
@[simp] theorem State.sendReply_discards (s : State) (x : PortId) (f : List Byte) : (s.sendReply x f).discards = s.discards := rfl
@[simp] theorem State.sendReply_lines (s : State) (x : PortId) (f : List Byte) : (s.sendReply x f).lines = s.lines := rfl
@[simp] theorem State.sendReply_ports (s : State) (x : PortId) (f : List Byte) : (s.sendReply x f).ports = s.ports.set x { s.port x with reply := some f } := rfl
@[simp] theorem State.sendReply_override (s : State) (x : PortId) (f : List Byte) : (s.sendReply x f).override = s.override := rfl
@[simp] theorem State.sendReply_baud (s : State) (x : PortId) (f : List Byte) : (s.sendReply x f).baud = s.baud := rfl
@[simp] theorem State.sendReply_restartArmed (s : State) (x : PortId) (f : List Byte) : (s.sendReply x f).restartArmed = s.restartArmed := rfl
@[simp] theorem State.sendReply_freeCount (s : State) (x : PortId) (f : List Byte) : (s.sendReply x f).freeCount = s.freeCount := rfl
@[simp] theorem State.sendReply_pending (s : State) (x : PortId) (f : List Byte) : (s.sendReply x f).pending = s.pending := rfl

/-! ### Parts after an update -/

@[simp] theorem State.setPort_prog (s : State) (x : PortId) (v : Port) (q : Index) : (s.setPort x v).prog q = s.prog q := rfl
@[simp] theorem State.updPort_prog (s : State) (x : PortId) (f : Port → Port) (q : Index) : (s.updPort x f).prog q = s.prog q := rfl
@[simp] theorem State.mapPorts_prog (s : State) (f : Port → Port) (q : Index) : (s.mapPorts f).prog q = s.prog q := rfl
@[simp] theorem State.setLine_prog (s : State) (k : Index) (v : CueLine) (q : Index) : (s.setLine k v).prog q = s.prog q := rfl
@[simp] theorem State.setAudio_prog (s : State) (v : AudioPort) (q : Index) : (s.setAudio v).prog q = s.prog q := rfl
@[simp] theorem State.setDelayLine_prog (s : State) (v : List Stage) (q : Index) : (s.setDelayLine v).prog q = s.prog q := rfl
@[simp] theorem State.raiseAt_prog (s : State) (x : PortId) (k : Kind) (b : BitVec 8) (q : Index) : (s.raiseAt x k b).prog q = s.prog q := rfl
@[simp] theorem State.raiseAll_prog (s : State) (k : Kind) (i : Index) (q : Index) : (s.raiseAll k i).prog q = s.prog q := rfl
@[simp] theorem State.raisePlain_prog (s : State) (k : Kind) (q : Index) : (s.raisePlain k).prog q = s.prog q := rfl
@[simp] theorem State.useFree_prog (s : State) (q : Index) : (s.useFree).prog q = s.prog q := rfl
@[simp] theorem State.sendReply_prog (s : State) (x : PortId) (f : List Byte) (q : Index) : (s.sendReply x f).prog q = s.prog q := rfl

@[simp] theorem State.setProg_port (s : State) (p : Index) (v : Prog) (y : PortId) : (s.setProg p v).port y = s.port y := rfl
@[simp] theorem State.updProg_port (s : State) (p : Index) (f : Prog → Prog) (y : PortId) : (s.updProg p f).port y = s.port y := rfl
@[simp] theorem State.mapProgs_port (s : State) (f : Prog → Prog) (y : PortId) : (s.mapProgs f).port y = s.port y := rfl
@[simp] theorem State.setLine_port (s : State) (k : Index) (v : CueLine) (y : PortId) : (s.setLine k v).port y = s.port y := rfl
@[simp] theorem State.setAudio_port (s : State) (v : AudioPort) (y : PortId) : (s.setAudio v).port y = s.port y := rfl
@[simp] theorem State.setDelayLine_port (s : State) (v : List Stage) (y : PortId) : (s.setDelayLine v).port y = s.port y := rfl
@[simp] theorem State.useFree_port (s : State) (y : PortId) : (s.useFree).port y = s.port y := rfl

@[simp] theorem State.setProg_line (s : State) (p : Index) (v : Prog) (j : Index) : (s.setProg p v).line j = s.line j := rfl
@[simp] theorem State.updProg_line (s : State) (p : Index) (f : Prog → Prog) (j : Index) : (s.updProg p f).line j = s.line j := rfl
@[simp] theorem State.mapProgs_line (s : State) (f : Prog → Prog) (j : Index) : (s.mapProgs f).line j = s.line j := rfl
@[simp] theorem State.setPort_line (s : State) (x : PortId) (v : Port) (j : Index) : (s.setPort x v).line j = s.line j := rfl
@[simp] theorem State.updPort_line (s : State) (x : PortId) (f : Port → Port) (j : Index) : (s.updPort x f).line j = s.line j := rfl
@[simp] theorem State.mapPorts_line (s : State) (f : Port → Port) (j : Index) : (s.mapPorts f).line j = s.line j := rfl
@[simp] theorem State.setAudio_line (s : State) (v : AudioPort) (j : Index) : (s.setAudio v).line j = s.line j := rfl
@[simp] theorem State.setDelayLine_line (s : State) (v : List Stage) (j : Index) : (s.setDelayLine v).line j = s.line j := rfl
@[simp] theorem State.raiseAt_line (s : State) (x : PortId) (k : Kind) (b : BitVec 8) (j : Index) : (s.raiseAt x k b).line j = s.line j := rfl
@[simp] theorem State.raiseAll_line (s : State) (k : Kind) (i : Index) (j : Index) : (s.raiseAll k i).line j = s.line j := rfl
@[simp] theorem State.raisePlain_line (s : State) (k : Kind) (j : Index) : (s.raisePlain k).line j = s.line j := rfl
@[simp] theorem State.useFree_line (s : State) (j : Index) : (s.useFree).line j = s.line j := rfl
@[simp] theorem State.sendReply_line (s : State) (x : PortId) (f : List Byte) (j : Index) : (s.sendReply x f).line j = s.line j := rfl

@[simp] theorem State.setProg_prog_same (s : State) (p : Index) (v : Prog) : (s.setProg p v).prog p = v :=
  Octet.get_set_same _ _ _

theorem State.setProg_prog_other (s : State) (p q : Index) (v : Prog) (h : q ≠ p) : (s.setProg p v).prog q = s.prog q :=
  Octet.get_set_other _ _ _ _ h

@[simp] theorem State.updProg_prog_same (s : State) (p : Index) (f : Prog → Prog) :
    (s.updProg p f).prog p = f (s.prog p) := Octet.get_set_same _ _ _

theorem State.updProg_prog_other (s : State) (p q : Index) (f : Prog → Prog) (h : q ≠ p) :
    (s.updProg p f).prog q = s.prog q := Octet.get_set_other _ _ _ _ h

@[simp] theorem State.mapProgs_prog (s : State) (f : Prog → Prog) (q : Index) :
    (s.mapProgs f).prog q = f (s.prog q) := Octet.get_map _ _ _

@[simp] theorem State.setPort_port_same (s : State) (x : PortId) (v : Port) : (s.setPort x v).port x = v :=
  Trio.get_set_same _ _ _

theorem State.setPort_port_other (s : State) (x y : PortId) (v : Port) (h : y ≠ x) :
    (s.setPort x v).port y = s.port y := Trio.get_set_other _ _ _ _ h

@[simp] theorem State.updPort_port_same (s : State) (x : PortId) (f : Port → Port) :
    (s.updPort x f).port x = f (s.port x) := Trio.get_set_same _ _ _

theorem State.updPort_port_other (s : State) (x y : PortId) (f : Port → Port) (h : y ≠ x) :
    (s.updPort x f).port y = s.port y := Trio.get_set_other _ _ _ _ h

@[simp] theorem State.mapPorts_port (s : State) (f : Port → Port) (y : PortId) :
    (s.mapPorts f).port y = f (s.port y) := Trio.get_map _ _ _

@[simp] theorem State.raiseAll_port (s : State) (k : Kind) (i : Index) (y : PortId) :
    (s.raiseAll k i).port y = Port.raise k (bitOf i) (s.port y) := Trio.get_map _ _ _

@[simp] theorem State.raisePlain_port (s : State) (k : Kind) (y : PortId) :
    (s.raisePlain k).port y = Port.raise k 0 (s.port y) := Trio.get_map _ _ _

@[simp] theorem State.raiseAt_port_same (s : State) (x : PortId) (k : Kind) (b : BitVec 8) :
    (s.raiseAt x k b).port x = Port.raise k b (s.port x) := Trio.get_set_same _ _ _

theorem State.raiseAt_port_other (s : State) (x y : PortId) (k : Kind) (b : BitVec 8) (h : y ≠ x) :
    (s.raiseAt x k b).port y = s.port y := Trio.get_set_other _ _ _ _ h

@[simp] theorem State.sendReply_port_same (s : State) (x : PortId) (f : List Byte) :
    (s.sendReply x f).port x = { s.port x with reply := some f } := Trio.get_set_same _ _ _

theorem State.sendReply_port_other (s : State) (x y : PortId) (f : List Byte) (h : y ≠ x) :
    (s.sendReply x f).port y = s.port y := Trio.get_set_other _ _ _ _ h

@[simp] theorem State.setLine_line_same (s : State) (k : Index) (v : CueLine) : (s.setLine k v).line k = v :=
  Octet.get_set_same _ _ _

theorem State.setLine_line_other (s : State) (k j : Index) (v : CueLine) (h : j ≠ k) :
    (s.setLine k v).line j = s.line j := Octet.get_set_other _ _ _ _ h

end Sys2Proof.Machine
end

