-- ==== Sys2Proof/Laws/Ports.lean ====
section
/-! SUPPORT. Notices: reading after raising and clearing, and the relation "only notices have been raised". -/

namespace Sys2Proof.Machine

theorem NoticeSet.get_set_same (n : NoticeSet) (k : Kind) (v : Notice) : (n.set k v).get k = v := by cases k <;> rfl

theorem NoticeSet.get_set_other (n : NoticeSet) (j k : Kind) (v : Notice) (h : j ≠ k) :
    (n.set k v).get j = n.get j := by
  cases k <;> cases j <;> first | rfl | exact absurd rfl h

@[simp] theorem NoticeSet.get_clear (k : Kind) : NoticeSet.clear.get k = Notice.clear := by cases k <;> rfl

theorem Kind.mem_allKinds (k : Kind) : k ∈ allKinds := by cases k <;> decide

theorem mem_allIndices (p : Index) : p ∈ allIndices := by fin_cases p <;> decide

theorem mem_allPorts (x : PortId) : x ∈ allPorts := by cases x <;> decide

theorem bitOf_getLsbD (i j : Index) : (bitOf i).getLsbD j.val = decide (i = j) := by
  revert i j; decide

@[simp] theorem Port.raise_rx (k : Kind) (b : BitVec 8) (P : Port) : (P.raise k b).rx = P.rx := rfl
@[simp] theorem Port.raise_gap (k : Kind) (b : BitVec 8) (P : Port) : (P.raise k b).gap = P.gap := rfl
@[simp] theorem Port.raise_reply (k : Kind) (b : BitVec 8) (P : Port) : (P.raise k b).reply = P.reply := rfl
@[simp] theorem Port.raise_present (k : Kind) (b : BitVec 8) (P : Port) : (P.raise k b).present = P.present := rfl
@[simp] theorem Port.raise_timerSetting (k : Kind) (b : BitVec 8) (P : Port) :
    (P.raise k b).timerSetting = P.timerSetting := rfl
@[simp] theorem Port.raise_timerCount (k : Kind) (b : BitVec 8) (P : Port) :
    (P.raise k b).timerCount = P.timerCount := rfl
@[simp] theorem Port.raise_mask (k : Kind) (b : BitVec 8) (P : Port) : (P.raise k b).mask = P.mask := rfl
@[simp] theorem Port.raise_snapshot (k : Kind) (b : BitVec 8) (P : Port) : (P.raise k b).snapshot = P.snapshot := rfl
@[simp] theorem Port.raise_rising (k : Kind) (b : BitVec 8) (P : Port) : (P.raise k b).rising = P.rising := rfl
@[simp] theorem Port.raise_falling (k : Kind) (b : BitVec 8) (P : Port) : (P.raise k b).falling = P.falling := rfl

theorem Port.raise_get_same (k : Kind) (b : BitVec 8) (P : Port) :
    (P.raise k b).notices.get k = ⟨true, (P.notices.get k).bitmap ||| b⟩ := NoticeSet.get_set_same _ _ _

theorem Port.raise_get_other (j k : Kind) (b : BitVec 8) (P : Port) (h : j ≠ k) :
    (P.raise k b).notices.get j = P.notices.get j := NoticeSet.get_set_other _ _ _ _ h

theorem NoticeSet.clearKinds_get (n : NoticeSet) (kinds : BitVec 12) (j : Kind) :
    (n.clearKinds kinds).get j = if kinds.getLsbD j.index then Notice.clear else n.get j := by
  have step : ∀ (ks : List Kind) (m : NoticeSet), ks.Nodup →
      (ks.foldl (fun m k => if kinds.getLsbD k.index then m.set k Notice.clear else m) m).get j
        = if j ∈ ks ∧ kinds.getLsbD j.index = true then Notice.clear else m.get j := by
    intro ks
    induction ks with
    | nil => intro m _; simp
    | cons k ks ih =>
      intro m nd
      rw [List.nodup_cons] at nd
      rw [List.foldl_cons, ih _ nd.2]
      by_cases hj : j = k
      · subst hj
        by_cases hb : kinds.getLsbD j.index = true
        · simp [hb, nd.1, NoticeSet.get_set_same]
        · simp [hb]
      · by_cases hk : kinds.getLsbD k.index = true
        · simp [hk, hj, NoticeSet.get_set_other _ _ _ _ hj]
        · simp [hk, hj]
  have h := step allKinds n (by decide)
  simp only [NoticeSet.clearKinds, h, Kind.mem_allKinds, true_and]

/-- `Q` is `P` but for notices raised: what was PENDING is PENDING, and no bit has left a bitmap. -/
def Port.onlyRaised (P Q : Port) : Prop :=
  Q = { P with notices := Q.notices } ∧
    ∀ k, ((P.notices.get k).pending = true → (Q.notices.get k).pending = true) ∧
      ∀ i, (P.notices.get k).bitmap.getLsbD i = true → (Q.notices.get k).bitmap.getLsbD i = true

theorem Port.onlyRaised_refl (P : Port) : P.onlyRaised P := ⟨rfl, fun _ => ⟨id, fun _ => id⟩⟩

theorem Port.onlyRaised_trans {P Q R : Port} (h : P.onlyRaised Q) (g : Q.onlyRaised R) : P.onlyRaised R := by
  refine ⟨?_, fun k => ⟨fun a => (g.2 k).1 ((h.2 k).1 a), fun i a => (g.2 k).2 i ((h.2 k).2 i a)⟩⟩
  rw [g.1, h.1]

theorem Port.raise_onlyRaised (k : Kind) (b : BitVec 8) (P : Port) : P.onlyRaised (P.raise k b) := by
  refine ⟨rfl, fun j => ?_⟩
  by_cases h : j = k
  · subst h
    rw [Port.raise_get_same]
    exact ⟨fun _ => rfl, fun i hi => by simp [hi]⟩
  · rw [Port.raise_get_other _ _ _ _ h]
    exact ⟨id, fun _ => id⟩

/-- At every port only notices have been raised. -/
def State.onlyRaised (s t : State) : Prop := ∀ x, (s.port x).onlyRaised (t.port x)

theorem State.onlyRaised_refl (s : State) : s.onlyRaised s := fun _ => Port.onlyRaised_refl _

theorem State.onlyRaised_trans {s t u : State} (h : s.onlyRaised t) (g : t.onlyRaised u) : s.onlyRaised u :=
  fun x => Port.onlyRaised_trans (h x) (g x)

theorem State.onlyRaised_of_ports {s t : State} (h : t.ports = s.ports) : s.onlyRaised t := by
  intro x
  have : t.port x = s.port x := by simp [State.port, h]
  rw [this]
  exact Port.onlyRaised_refl _

theorem State.raiseAll_onlyRaised (s : State) (k : Kind) (i : Index) : s.onlyRaised (s.raiseAll k i) := by
  intro x
  rw [State.raiseAll_port]
  exact Port.raise_onlyRaised _ _ _

theorem State.raisePlain_onlyRaised (s : State) (k : Kind) : s.onlyRaised (s.raisePlain k) := by
  intro x
  rw [State.raisePlain_port]
  exact Port.raise_onlyRaised _ _ _

theorem State.raiseAt_onlyRaised (s : State) (y : PortId) (k : Kind) (b : BitVec 8) :
    s.onlyRaised (s.raiseAt y k b) := by
  intro x
  by_cases h : x = y
  · subst h
    rw [State.raiseAt_port_same]
    exact Port.raise_onlyRaised _ _ _
  · rw [State.raiseAt_port_other _ _ _ _ _ h]
    exact Port.onlyRaised_refl _

end Sys2Proof.Machine
end

