-- ==== Sys2Proof/Laws/Requests.lean ====
section
/-! SUPPORT. What a request that is taken has passed and what it leaves: one lemma for each handler, read from its checks;
and what taking a request does in every case. -/

namespace Sys2Proof.Machine

/-! ### Checks -/

theorem demand_bind_ok {β : Type} (b : Bool) (r : Result) (f : Unit → Except (Result × List Byte) β) (v : β) :
    (demand b r >>= f) = .ok v ↔ b = true ∧ f () = .ok v := by
  cases b <;> simp [demand, bind, Except.bind]

theorem need_bind_ok {α β : Type} (o : Option α) (r : Result) (f : α → Except (Result × List Byte) β) (v : β) :
    (need o r >>= f) = .ok v ↔ ∃ a, o = some a ∧ f a = .ok v := by
  cases o <;> simp [need, bind, Except.bind]

theorem readProg_bind_ok {β : Type} (ps : List Byte) (f : Index → Except (Result × List Byte) β) (v : β) :
    (readProg ps >>= f) = .ok v ↔ ∃ b p, ps = [b] ∧ indexOf b = some p ∧ f p = .ok v := by
  rcases ps with _ | ⟨b, _ | ⟨c, rest⟩⟩
  · simp [readProg, bind, Except.bind]
  · cases h : indexOf b <;> simp [readProg, need, h, bind, Except.bind]
  · simp [readProg, bind, Except.bind]

theorem readTwo_bind_ok {β : Type} (ps : List Byte) (f : Byte × Byte → Except (Result × List Byte) β) (v : β) :
    (readTwo ps >>= f) = .ok v ↔ ∃ b c, ps = [b, c] ∧ f (b, c) = .ok v := by
  rcases ps with _ | ⟨b, _ | ⟨c, _ | ⟨d, rest⟩⟩⟩ <;> simp [readTwo, bind, Except.bind]

theorem noParams_bind_ok {β : Type} (ps : List Byte) (f : Unit → Except (Result × List Byte) β) (v : β) :
    (noParams ps >>= f) = .ok v ↔ ps = [] ∧ f () = .ok v := by
  rw [noParams, demand_bind_ok, List.isEmpty_iff]

theorem readKinds_bind_ok {β : Type} (ps : List Byte) (f : BitVec 12 → Except (Result × List Byte) β) (v : β) :
    (readKinds ps >>= f) = .ok v ↔ ∃ hi lo k, ps = [hi, lo] ∧ kindSetOf (hi ++ lo) = some k ∧ f k = .ok v := by
  rcases ps with _ | ⟨b, _ | ⟨c, _ | ⟨d, rest⟩⟩⟩
  · simp [readKinds, bind, Except.bind]
  · simp [readKinds, bind, Except.bind]
  · cases h : kindSetOf (b ++ c) <;> simp [readKinds, need, h, bind, Except.bind]
  · simp [readKinds, bind, Except.bind]

theorem ok_pair (t u : State) (d e : List Byte) :
    ((.ok (t, d) : Taking) = .ok (u, e)) ↔ t = u ∧ d = e := by
  constructor
  · intro h
    injection h with h
    injection h with h1 h2
    exact ⟨h1, h2⟩
  · rintro ⟨rfl, rfl⟩
    rfl

/-! ### What a request that is taken has passed -/

section Taken

variable {x : PortId} {ps : List Byte} {s t : State} {d : List Byte}

theorem devIdent_taken (h : devIdentRequest x ps s = .ok (t, d)) : ps = [] ∧ t = s := by
  unfold devIdentRequest at h
  rw [noParams_bind_ok, ok_pair] at h
  exact ⟨h.1, h.2.1.symm⟩

theorem devRestart_taken (h : devRestartRequest x ps s = .ok (t, d)) :
    ps = [] ∧ s.override = some x ∧ t = s.restart := by
  unfold devRestartRequest at h
  rw [noParams_bind_ok, demand_bind_ok, ok_pair] at h
  exact ⟨h.1, by simpa using h.2.1, h.2.2.1.symm⟩

theorem portStatus_taken (h : portStatusRequest x ps s = .ok (t, d)) :
    ∃ kinds, t = s.updPort x (Port.clearNotices kinds)
      ∧ d = statusBlock (s.port x) s.audio s.presenceByte := by
  unfold portStatusRequest at h
  rw [readKinds_bind_ok] at h
  obtain ⟨_, _, k, _, _, h⟩ := h
  rw [ok_pair] at h
  exact ⟨k, h.1.symm, h.2.symm⟩

theorem portMask_taken (h : portMaskRequest x ps s = .ok (t, d)) :
    ∃ mask, t = s.updPort x (Port.setMask mask) := by
  unfold portMaskRequest at h
  rw [readKinds_bind_ok] at h
  obtain ⟨_, _, k, _, _, h⟩ := h
  rw [ok_pair] at h
  exact ⟨k, h.1.symm⟩

theorem portTimer_taken (h : portTimerRequest x ps s = .ok (t, d)) :
    ∃ setting : Byte, t = s.updPort x (Port.setTimer setting.toNat) := by
  unfold portTimerRequest at h
  split at h
  · rw [ok_pair] at h
    exact ⟨_, h.1.symm⟩
  · simp at h

theorem portLeave_taken (h : portLeaveRequest x ps s = .ok (t, d)) : t = s.lapse x := by
  unfold portLeaveRequest at h
  rw [noParams_bind_ok, ok_pair] at h
  exact h.2.1.symm

theorem portKeepalive_taken (h : portKeepaliveRequest x ps s = .ok (t, d)) : t = s := by
  unfold portKeepaliveRequest at h
  rw [noParams_bind_ok, ok_pair] at h
  exact h.2.1.symm

theorem progQuery_taken (h : progQueryRequest x ps s = .ok (t, d)) : t = s := by
  unfold progQueryRequest at h
  rw [readProg_bind_ok] at h
  obtain ⟨_, _, _, _, h⟩ := h
  rw [ok_pair] at h
  exact h.1.symm

theorem progSet_taken (h : progSetRequest x ps s = .ok (t, d)) :
    ∃ p base width trig tally, slotsLegal base width = true ∧ s.closesCycle p trig = false
      ∧ s.governs x p = true ∧ (s.prog p).entry.state = .inactive
      ∧ t = s.updProg p fun P => P.configure base width trig tally := by
  unfold progSetRequest at h
  split at h
  · simp only [need_bind_ok, demand_bind_ok, ok_pair] at h
    obtain ⟨p, _, hs, tr, _, l, _, hc, hg, hi, ht, _⟩ := h
    exact ⟨p, _, _, tr, l, hs, by simpa using hc, hg, by simpa using hi, ht.symm⟩
  · simp at h

theorem progActivate_taken (h : progActivateRequest x ps s = .ok (t, d)) :
    ∃ p, s.slotsTaken p = false ∧ s.governs x p = true ∧ (s.prog p).entry.state = .inactive ∧ t = s.activate p := by
  unfold progActivateRequest at h
  simp only [readProg_bind_ok, demand_bind_ok, ok_pair] at h
  obtain ⟨_, p, _, _, hs, hg, hi, ht, _⟩ := h
  exact ⟨p, by simpa using hs, hg, by simpa using hi, ht.symm⟩

theorem deactivate_taken (h : deactivateRequest x ps s = .ok (t, d)) :
    ∃ p force, s.governs x p = true ∧ (s.prog p).isActive = true ∧ t = s.deactivation p force := by
  unfold deactivateRequest at h
  simp only [readTwo_bind_ok, need_bind_ok, demand_bind_ok, ok_pair] at h
  obtain ⟨_, _, _, p, _, f, _, hg, ha, ht, _⟩ := h
  exact ⟨p, f, hg, ha, ht.symm⟩

theorem progRun_taken (h : progRunRequest x ps s = .ok (t, d)) :
    ∃ p, s.governs x p = true ∧ (s.prog p).entry.state.runs = true ∧ t = s.run p := by
  unfold progRunRequest at h
  simp only [readProg_bind_ok, demand_bind_ok, ok_pair] at h
  obtain ⟨_, p, _, _, hg, hr, ht, _⟩ := h
  exact ⟨p, hg, hr, ht.symm⟩

theorem progStop_taken (h : progStopRequest x ps s = .ok (t, d)) :
    ∃ p, s.governs x p = true ∧ (s.prog p).entry.state = .running ∧ (s.prog p).hasOnAir = false
      ∧ t = (s.updProg p fun P => P.setState .stopping).raiseAll .state p := by
  unfold progStopRequest at h
  simp only [readProg_bind_ok, demand_bind_ok, ok_pair] at h
  obtain ⟨_, p, _, _, hg, hr, ht, _⟩ := h
  simp only [Bool.and_eq_true, beq_iff_eq, Bool.not_eq_true'] at hr
  exact ⟨p, hg, hr.1, hr.2, ht.symm⟩

theorem progTune_taken (h : progTuneRequest x ps s = .ok (t, d)) :
    ∃ p v, v.legal = true ∧ s.governs x p = true ∧ t = s.updProg p (Prog.tune v) := by
  unfold progTuneRequest at h
  split at h
  · simp only [need_bind_ok, demand_bind_ok, ok_pair] at h
    obtain ⟨v, _, p, _, hl, hg, ht, _⟩ := h
    exact ⟨p, v, hl, hg, ht.symm⟩
  · simp at h

theorem claim_taken (h : claimRequest x ps s = .ok (t, d)) : ∃ p, t = s ∨ t = s.setCustodian p (some x) := by
  unfold claimRequest at h
  simp only [readTwo_bind_ok, need_bind_ok, demand_bind_ok] at h
  obtain ⟨_, _, _, p, _, f, _, _, h⟩ := h
  refine ⟨p, ?_⟩
  unfold State.claim at h
  split at h
  · rw [ok_pair] at h
    exact .inr h.1.symm
  · split at h
    · rw [ok_pair] at h
      exact .inl h.1.symm
    · split at h
      · rw [ok_pair] at h
        exact .inr h.1.symm
      · simp at h

theorem progRelease_taken (h : progReleaseRequest x ps s = .ok (t, d)) :
    ∃ p, (s.prog p).entry.custodian = some x ∧ t = s.setCustodian p none := by
  unfold progReleaseRequest at h
  simp only [readProg_bind_ok, demand_bind_ok, ok_pair] at h
  obtain ⟨_, p, _, _, hc, ht, _⟩ := h
  exact ⟨p, by simpa using hc, ht.symm⟩

theorem progRights_taken (h : progRightsRequest x ps s = .ok (t, d)) :
    ∃ p rights, s.governs x p = true
      ∧ t = s.updProg p fun P => P.setEntry { P.entry with rights := rights } := by
  unfold progRightsRequest at h
  simp only [readTwo_bind_ok, need_bind_ok, demand_bind_ok, ok_pair] at h
  obtain ⟨_, _, _, p, _, r, _, hg, ht, _⟩ := h
  exact ⟨p, r, hg, ht.symm⟩

theorem accountClear_taken (h : accountClearRequest x ps s = .ok (t, d)) :
    ∃ p, s.governs x p = true ∧ t = s.updProg p Prog.clearAccount := by
  unfold accountClearRequest at h
  simp only [readProg_bind_ok, demand_bind_ok, ok_pair] at h
  obtain ⟨_, p, _, _, hg, ht, _⟩ := h
  exact ⟨p, hg, ht.symm⟩

theorem CueBody.record_owner {c : CueBody} {r : SegRecord} (h : c.record x = some r) :
    r.owner = x ∧ r.id = c.id.toNat ∧ r.label = c.label := by
  unfold CueBody.record at h
  simp only [bind, Option.bind_eq_some_iff, Option.some.injEq] at h
  obtain ⟨_, _, _, _, _, _, rfl⟩ := h
  exact ⟨rfl, rfl, rfl⟩

theorem segCue_taken (h : segCueRequest x ps s = .ok (t, d)) :
    ∃ p r, r.owner = x ∧ r.legal = true ∧ (s.prog p).queue.hasId r.id = false ∧ s.mayCue x p = true
      ∧ (s.prog p).entry.state.cues = true ∧ (s.prog p).queue.count < Config.queueLimit
      ∧ t = s.updProg p fun P => P.setQueue (P.queue.append r) := by
  unfold segCueRequest at h
  simp only [need_bind_ok, demand_bind_ok, ok_pair] at h
  obtain ⟨c, _, p, _, r, hr, hl, hid, hm, hst, hq, ht, _⟩ := h
  exact ⟨p, r, (CueBody.record_owner hr).1, hl, by simpa using hid, hm, hst, by simpa using hq, ht.symm⟩

theorem segAmend_taken (h : segAmendRequest x ps s = .ok (t, d)) :
    ∃ p a r, (s.prog p).queue.find a.id.toNat = some (r, false) ∧ (a.amended r).legal = true ∧ s.mayEdit x r = true
      ∧ t = s.updProg p fun P => P.setQueue (P.queue.amend a) := by
  unfold segAmendRequest at h
  simp only [need_bind_ok, demand_bind_ok] at h
  obtain ⟨a, _, p, _, _, _, h⟩ := h
  split at h
  · simp at h
  · rename_i r air hf
    simp only [demand_bind_ok, ok_pair] at h
    obtain ⟨hl, hm, ha, ht, _⟩ := h
    simp only [Bool.not_eq_true'] at ha
    subst ha
    exact ⟨p, a, r, hf, hl, hm, ht.symm⟩

theorem segWithdraw_taken (h : segWithdrawRequest x ps s = .ok (t, d)) :
    ∃ p id r, (s.prog p).queue.find id = some (r, false) ∧ s.mayEdit x r = true ∧ t = s.withdraw x p r := by
  unfold segWithdrawRequest at h
  split at h
  · simp only [need_bind_ok, demand_bind_ok] at h
    obtain ⟨p, _, _, h⟩ := h
    split at h
    · simp at h
    · rename_i r air hf
      simp only [demand_bind_ok, ok_pair] at h
      obtain ⟨hm, ha, ht, _⟩ := h
      simp only [Bool.not_eq_true'] at ha
      subst ha
      exact ⟨p, _, r, hf, hm, ht.symm⟩
  · simp at h

theorem segTake_taken (h : segTakeRequest x ps s = .ok (t, d)) :
    ∃ p, s.mayCue x p = true ∧ (s.prog p).takeActs = true ∧ t = s.take p (.command x) := by
  unfold segTakeRequest at h
  simp only [need_bind_ok, demand_bind_ok, ok_pair] at h
  obtain ⟨_, _, p, _, _, hm, hr, r, hq, _, ht, _⟩ := h
  refine ⟨p, hm, ?_, ht.symm⟩
  unfold Prog.takeActs
  rw [hr]
  cases hc : (s.prog p).queue.cued with
  | nil => simp [hc] at hq
  | cons a l => rfl

theorem segEnd_taken (h : segEndRequest x ps s = .ok (t, d)) :
    ∃ p cause, s.mayCue x p = true ∧ (s.prog p).hasOnAir = true ∧ t = s.endSegment p cause := by
  unfold segEndRequest at h
  simp only [need_bind_ok, demand_bind_ok, ok_pair] at h
  obtain ⟨_, _, p, _, c, _, _, hm, r, hq, _, ht, _⟩ := h
  exact ⟨p, c, hm, by simp [Prog.hasOnAir, hq], ht.symm⟩

theorem segList_taken (h : segListRequest x ps s = .ok (t, d)) : t = s := by
  unfold segListRequest at h
  simp only [readProg_bind_ok, ok_pair] at h
  obtain ⟨_, _, _, _, ht, _⟩ := h
  exact ht.symm

theorem logCount_taken (h : logCountRequest x ps s = .ok (t, d)) : t = s := by
  unfold logCountRequest at h
  rw [noParams_bind_ok, ok_pair] at h
  exact h.2.1.symm

theorem logPeek_taken (h : logPeekRequest x ps s = .ok (t, d)) : t = s := by
  unfold logPeekRequest at h
  split at h
  · simp only [need_bind_ok, ok_pair] at h
    obtain ⟨_, _, ht, _⟩ := h
    exact ht.symm
  · simp at h

theorem logFetch_taken (h : logFetchRequest x ps s = .ok (t, d)) : t = { s with log := s.log.tail } := by
  unfold logFetchRequest at h
  simp only [noParams_bind_ok, need_bind_ok, ok_pair] at h
  obtain ⟨_, _, _, ht, _⟩ := h
  exact ht.symm

theorem snapTake_taken (h : snapTakeRequest x ps s = .ok (t, d)) :
    ∃ p segment, t = s.updPort x (Port.setSnapshot (some (Snapshot.ready
      (snapshotContent p segment s.position ((s.prog p).accountOf segment))))) := by
  unfold snapTakeRequest at h
  simp only [readTwo_bind_ok, need_bind_ok, demand_bind_ok, ok_pair] at h
  obtain ⟨_, _, _, p, _, k, _, _, ht, _⟩ := h
  exact ⟨p, k, ht.symm⟩

theorem snapRead_taken (h : snapReadRequest x ps s = .ok (t, d)) :
    ∃ v, (s.port x).snapshot = some v ∧ 0 < v.remaining ∧ t = s.updPort x (Port.setSnapshot (some v.advance)) := by
  unfold snapReadRequest at h
  simp only [noParams_bind_ok, need_bind_ok, demand_bind_ok, ok_pair] at h
  obtain ⟨_, v, hv, hr, ht, _⟩ := h
  exact ⟨v, hv, by simpa using hr, ht.symm⟩

theorem meterRead_taken (h : meterReadRequest x ps s = .ok (t, d)) : t = s := by
  unfold meterReadRequest at h
  simp only [readProg_bind_ok, ok_pair] at h
  obtain ⟨_, _, _, _, ht, _⟩ := h
  exact ht.symm

theorem cueConfig_taken (h : cueConfigRequest x ps s = .ok (t, d)) :
    ∃ k inverted reject, s.mayConfigureLines x = true ∧ t = (s.setPolarity k inverted).setReject k reject := by
  unfold cueConfigRequest at h
  split at h
  · simp only [need_bind_ok, demand_bind_ok, ok_pair] at h
    obtain ⟨k, _, i, _, r, _, hm, ht, _⟩ := h
    exact ⟨k, i, r, hm, ht.symm⟩
  · simp at h

theorem cueRead_taken (h : cueReadRequest x ps s = .ok (t, d)) : t = s.updPort x Port.clearEdges := by
  unfold cueReadRequest at h
  rw [noParams_bind_ok, ok_pair] at h
  exact h.2.1.symm

end Taken

/-! ### Taking a request -/

/-- A request whose port is REPLYING is discarded (R183). -/
theorem takeRequest_replying (s : State) (code : Byte) (h : Handler) (x : PortId) (tag : Byte) (ps : List Byte)
    (hr : (s.port x).reply.isSome = true) : s.takeRequest code h x tag ps = s.updPort x Port.discardFrame := by
  simp [State.takeRequest, hr]

/-- A request that is refused sends its reply and changes nothing else (R184). -/
theorem takeRequest_refused (s : State) (code : Byte) (h : Handler) (x : PortId) (tag : Byte) (ps : List Byte)
    (r : Result) (data : List Byte) (hr : (s.port x).reply = none)
    (he : h x ps (s.updPort x Port.frameArrived) = .error (r, data)) :
    s.takeRequest code h x tag ps
      = (s.updPort x Port.frameArrived).sendReply x (replyFrame code tag r data) := by
  simp [State.takeRequest, hr, he, Taking.conclude]

/-- A request that is taken has its effect, and sends its reply (R184). -/
theorem takeRequest_taken (s : State) (code : Byte) (h : Handler) (x : PortId) (tag : Byte) (ps : List Byte)
    (t : State) (data : List Byte) (hr : (s.port x).reply = none)
    (he : h x ps (s.updPort x Port.frameArrived) = .ok (t, data)) :
    s.takeRequest code h x tag ps = t.sendReply x (replyFrame code tag .ok data) := by
  simp [State.takeRequest, hr, he, Taking.conclude]

/-- The three cases of a request. -/
theorem takeRequest_cases (s : State) (code : Byte) (h : Handler) (x : PortId) (tag : Byte) (ps : List Byte) :
    s.takeRequest code h x tag ps = s.updPort x Port.discardFrame
    ∨ (∃ f, s.takeRequest code h x tag ps = (s.updPort x Port.frameArrived).sendReply x f)
    ∨ ∃ t data f, h x ps (s.updPort x Port.frameArrived) = .ok (t, data)
        ∧ s.takeRequest code h x tag ps = t.sendReply x f := by
  by_cases hr : (s.port x).reply.isSome = true
  · exact .inl (takeRequest_replying s code h x tag ps hr)
  · rw [Option.not_isSome_iff_eq_none] at hr
    right
    cases he : h x ps (s.updPort x Port.frameArrived) with
    | error e => exact .inl ⟨_, takeRequest_refused s code h x tag ps e.1 e.2 hr he⟩
    | ok v => exact .inr ⟨v.1, v.2, _, rfl, takeRequest_taken s code h x tag ps v.1 v.2 hr he⟩

end Sys2Proof.Machine
end

