-- ==== Sys2Proof/Laws/Answers.lean ====
section
/-! SUPPORT. The answer to a request of a port that is not REPLYING, read from the outcome of its checks. -/

namespace Sys2Proof.Machine

variable {s : State} {x : PortId}

/-- A request that is taken is answered OK in the state its effect leaves. -/
theorem request_taken (hs : s.receptive x) (code : Byte) (h : Handler) (tag : Byte) (ps : List Byte) {t : State}
    {data : List Byte} (he : h x ps (s.judged x) = .ok (t, data)) :
    Host.Outcome.next (s.request code h x tag ps) = answered t x code tag .ok data := by
  unfold State.request
  rw [takeRequest_taken s.settle code h x tag ps t data hs he]
  rfl

/-- A request that is refused is answered with its result in the state it was judged in. -/
theorem request_refused (hs : s.receptive x) (code : Byte) (h : Handler) (tag : Byte) (ps : List Byte) {r : Result}
    {data : List Byte} (he : h x ps (s.judged x) = .error (r, data)) :
    Host.Outcome.next (s.request code h x tag ps) = answered (s.judged x) x code tag r data := by
  unfold State.request
  rw [takeRequest_refused s.settle code h x tag ps r data hs he]
  rfl

/-! ### The outcome of one check -/

theorem demand_true {β : Type} (r : Result) (f : Unit → Except (Result × List Byte) β) :
    (demand true r >>= f) = f () := rfl

theorem demand_false {β : Type} (r : Result) (f : Unit → Except (Result × List Byte) β) :
    (demand false r >>= f) = .error (r, []) := rfl

theorem need_some {α β : Type} (a : α) (r : Result) (f : α → Except (Result × List Byte) β) :
    (need (some a) r >>= f) = f a := rfl

theorem need_none {α β : Type} (r : Result) (f : α → Except (Result × List Byte) β) :
    (need none r >>= f) = .error (r, []) := rfl

theorem readProg_one {β : Type} (b : Byte) (f : Index → Except (Result × List Byte) β) :
    (readProg [b] >>= f) = (need (indexOf b) .badValue >>= f) := rfl

theorem readTwo_two {β : Type} (b c : Byte) (f : Byte × Byte → Except (Result × List Byte) β) :
    (readTwo [b, c] >>= f) = f (b, c) := rfl

theorem indexOf_indexByte (p : Index) : indexOf (indexByte p) = some p := by fin_cases p <;> rfl

theorem indexOf_none {b : Byte} (h : 8 ≤ b.toNat) : indexOf b = none := by
  unfold indexOf
  rw [dif_neg (by omega)]

end Sys2Proof.Machine
end

