-- ==== Sys2Proof/Laws/Engine.lean ====
section
/-! SUPPORT. What the limiter and the Measurement Engine can change: one lemma for each operation. -/

namespace Sys2Proof.Machine

/-! ### Search -/

/-- A search that ends at a number that is `ok` answers one. -/
theorem leastBetween_ok (ok : Nat → Bool) (fuel : Nat) : ∀ lo hi, ok hi = true → ok (leastBetween ok fuel lo hi) = true := by
  induction fuel with
  | zero => intro lo hi h; exact h
  | succ n ih =>
    intro lo hi h
    rw [leastBetween]
    split
    · exact h
    · split
      · rename_i hm
        exact ih _ _ hm
      · exact ih _ _ h

/-! ### The limiter -/

/-- A position at the greatest reduction, or beyond it, is silent (log 13). -/
theorem corrected_muted (w : GainApplied) (r : Nat) (h : Config.muteReduction ≤ r) :
    sampleInts (w.corrected r) = List.replicate w.input.length 0 := by
  have hc : correctedValue w.gain r = fun _ => 0 := by
    funext v
    unfold correctedValue
    rw [if_pos h]
  unfold GainApplied.corrected sampleInts
  rw [hc, List.map_map]
  exact List.map_const'

/-- What a run of fixings leaves of the Gain Stage. -/
structure Gain.SameButFixed (g h : Gain) : Prop where
  applied : h.applied = g.applied
  desired : h.desired = g.desired
  policy : h.policy = g.policy
  holding : h.holding = g.holding
  ramp : h.ramp = g.ramp

theorem Gain.SameButFixed.refl (g : Gain) : g.SameButFixed g := ⟨rfl, rfl, rfl, rfl, rfl⟩

theorem Gain.SameButFixed.trans {g h k : Gain} (a : g.SameButFixed h) (b : h.SameButFixed k) : g.SameButFixed k :=
  ⟨b.applied.trans a.applied, b.desired.trans a.desired, b.policy.trans a.policy, b.holding.trans a.holding,
    b.ramp.trans a.ramp⟩

theorem fixOldest_gain (e : Entry) (line : List Stage) (g : Gain) : g.SameButFixed (fixOldest e line g).2 := by
  unfold fixOldest
  cases g.window with
  | nil => exact Gain.SameButFixed.refl g
  | cons w rest => exact ⟨rfl, rfl, rfl, rfl, rfl⟩

theorem fixOldest_window (e : Entry) (line : List Stage) (g : Gain) :
    (fixOldest e line g).2.window = g.window.tail := by
  unfold fixOldest
  cases hw : g.window with
  | nil => simp [hw]
  | cons w rest => rfl

theorem writeChannels_length (e : Entry) (slots chans : List Sample) : (writeChannels e slots chans).length = 16 := by
  simp [writeChannels]

theorem fixOldest_length (e : Entry) (line : List Stage) (g : Gain) :
    (fixOldest e line g).1.length = line.length := by
  unfold fixOldest
  cases g.window with
  | nil => rfl
  | cons w rest => simp

/-- The raw samples of the delay line stay as they are. -/
theorem fixOldest_raw (e : Entry) (line : List Stage) (g : Gain) :
    (fixOldest e line g).1.map (·.raw) = line.map (·.raw) := by
  unfold fixOldest
  cases g.window with
  | nil => rfl
  | cons w rest =>
    apply List.ext_getElem
    · simp
    · intro i h1 h2
      simp only [List.length_map] at h2
      simp only [List.getElem_map, List.getElem_set]
      split
      · rename_i h
        subst h
        simp only [List.getD_eq_getElem?_getD, List.getElem?_eq_getElem h2, Option.getD_some]
      · rfl

theorem getD_shape (line : List Stage) (i : Nat) (h : ∀ st ∈ line, st.raw.length = 16 ∧ st.cor.length = 16) :
    (line.getD i Stage.zero).raw.length = 16 := by
  rw [List.getD_eq_getElem?_getD]
  by_cases hi : i < line.length
  · rw [List.getElem?_eq_getElem hi, Option.getD_some]
    exact (h _ (List.getElem_mem hi)).1
  · rw [List.getElem?_eq_none (Nat.le_of_not_lt hi), Option.getD_none]
    rfl

/-- A stage of the line after a fixing has 16 corrected samples if every stage had. -/
theorem fixOldest_shape (e : Entry) (line : List Stage) (g : Gain)
    (h : ∀ st ∈ line, st.raw.length = 16 ∧ st.cor.length = 16) :
    ∀ st ∈ (fixOldest e line g).1, st.raw.length = 16 ∧ st.cor.length = 16 := by
  unfold fixOldest
  cases g.window with
  | nil => exact h
  | cons w rest =>
    intro st hst
    rcases List.mem_or_eq_of_mem_set hst with hst | rfl
    · exact h st hst
    · exact ⟨getD_shape line _ h, writeChannels_length _ _ _⟩

/-- What `n` fixings leave. -/
theorem fixMany_facts (e : Entry) (n : Nat) : ∀ (line : List Stage) (g : Gain),
    g.SameButFixed (fixMany e n line g).2 ∧ (fixMany e n line g).2.window = g.window.drop n
      ∧ (fixMany e n line g).1.length = line.length
      ∧ (fixMany e n line g).1.map (·.raw) = line.map (·.raw)
      ∧ ((∀ st ∈ line, st.raw.length = 16 ∧ st.cor.length = 16) →
        ∀ st ∈ (fixMany e n line g).1, st.raw.length = 16 ∧ st.cor.length = 16) := by
  induction n with
  | zero => intro line g; exact ⟨Gain.SameButFixed.refl g, rfl, rfl, rfl, fun h => h⟩
  | succ n ih =>
    intro line g
    obtain ⟨h1, h2, h3, h4, h5⟩ := ih (fixOldest e line g).1 (fixOldest e line g).2
    refine ⟨(fixOldest_gain e line g).trans h1, ?_, h3.trans (fixOldest_length e line g),
      h4.trans (fixOldest_raw e line g), fun h => h5 (fixOldest_shape e line g h)⟩
    rw [fixMany, h2, fixOldest_window, List.drop_tail]

/-- What fixing the whole window leaves (R129). -/
theorem fixAll_facts (e : Entry) (line : List Stage) (g : Gain) :
    g.SameButFixed (fixAll e line g).2 ∧ (fixAll e line g).2.window = []
      ∧ (fixAll e line g).1.length = line.length
      ∧ (fixAll e line g).1.map (·.raw) = line.map (·.raw)
      ∧ ((∀ st ∈ line, st.raw.length = 16 ∧ st.cor.length = 16) →
        ∀ st ∈ (fixAll e line g).1, st.raw.length = 16 ∧ st.cor.length = 16) := by
  obtain ⟨h1, h2, h3, h4, h5⟩ := fixMany_facts e g.window.length line g
  exact ⟨h1, by rw [fixAll, h2, List.drop_length], h3, h4, h5⟩

/-! ### Block closes -/

theorem Gain.law_applied (g : Gain) (t : Tunables) (target : Int) (short : Option Int) (held : Bool) :
    (g.law t target short held).applied = g.applied ∧ (g.law t target short held).policy = g.policy
      ∧ (g.law t target short held).ramp = g.ramp ∧ (g.law t target short held).window = g.window
      ∧ (g.law t target short held).reduction = g.reduction := by
  unfold Gain.law
  split
  · split
    · exact ⟨rfl, rfl, rfl, rfl, rfl⟩
    · split <;> exact ⟨rfl, rfl, rfl, rfl, rfl⟩
  · exact ⟨rfl, rfl, rfl, rfl, rfl⟩

/-- What the engine's work on one programme, in any number of closes and measured positions, leaves. -/
structure Prog.Worked (P Q : Prog) : Prop where
  queue : Q.queue = P.queue
  entry : Q.entry = P.entry ∨ (P.entry.state = .stopping ∧ Q.entry = { P.entry with state := .stopped })
  applied : Q.gain.applied = P.gain.applied
  policy : Q.gain.policy = P.gain.policy
  ramp : Q.gain.ramp = P.gain.ramp
  window : Q.gain.window = P.gain.window
  segment : Q.meas.segAccount.isSome = P.meas.segAccount.isSome

theorem Prog.Worked.refl (P : Prog) : P.Worked P := ⟨rfl, .inl rfl, rfl, rfl, rfl, rfl, rfl⟩

theorem Prog.Worked.trans {P Q R : Prog} (a : P.Worked Q) (b : Q.Worked R) : P.Worked R := by
  refine ⟨b.queue.trans a.queue, ?_, b.applied.trans a.applied, b.policy.trans a.policy, b.ramp.trans a.ramp,
    b.window.trans a.window, b.segment.trans a.segment⟩
  rcases a.entry with ha | ⟨hs, ha⟩
  · rcases b.entry with hb | ⟨hs, hb⟩
    · exact .inl (hb.trans ha)
    · exact .inr ⟨by rw [← ha]; exact hs, by rw [hb, ha]⟩
  · rcases b.entry with hb | ⟨hs', hb⟩
    · exact .inr ⟨hs, hb.trans ha⟩
    · rw [ha] at hs'
      exact absurd hs' (by simp)

/-- A programme that is not STOPPING keeps its entry. -/
theorem Prog.Worked.entry_eq {P Q : Prog} (a : P.Worked Q) (h : P.entry.state ≠ .stopping) : Q.entry = P.entry := by
  rcases a.entry with ha | ⟨hs, _⟩
  · exact ha
  · exact absurd hs h

theorem Prog.completeStop_worked (P : Prog) : P.Worked P.completeStop := by
  unfold Prog.completeStop
  split
  · rename_i h
    exact ⟨rfl, .inr ⟨h, rfl⟩, rfl, rfl, rfl, rfl, rfl⟩
  · exact Prog.Worked.refl P

theorem Prog.closedMeasure_segment (P : Prog) :
    P.closedMeasure.segAccount.isSome = P.meas.segAccount.isSome := by
  unfold Prog.closedMeasure
  cases P.queue.onAir <;> cases P.meas.segAccount <;> simp

theorem Prog.closeBlock_worked (P : Prog) : P.Worked P.closeBlock := by
  unfold Prog.closeBlock
  refine Prog.Worked.trans ?_ (Prog.completeStop_worked _)
  obtain ⟨h1, h2, h3, h4, _⟩ := Gain.law_applied P.gain P.entry.active P.lawTarget (shortTerm P.closedMeasure.inHist)
    P.meas.held
  exact ⟨rfl, .inl rfl, h1, h2, h3, h4, Prog.closedMeasure_segment P⟩

theorem Prog.completeStop_clock (P : Prog) : P.completeStop.meas.clock = P.meas.clock := by
  unfold Prog.completeStop
  split <;> rfl

theorem Prog.closeBlock_clock (P : Prog) : P.closeBlock.meas.clock = 0 := by
  unfold Prog.closeBlock
  rw [Prog.completeStop_clock]
  rfl

theorem Prog.closeIfFull_worked (P : Prog) : P.Worked P.closeIfFull := by
  unfold Prog.closeIfFull
  split
  · exact Prog.closeBlock_worked P
  · exact Prog.Worked.refl P

theorem Prog.measureOldest_worked (line : List Stage) (P : Prog) : P.Worked (P.measureOldest line) := by
  unfold Prog.measureOldest
  cases P.meas.inFlight with
  | nil => exact Prog.Worked.refl P
  | cons f rest => exact ⟨rfl, .inl rfl, rfl, rfl, rfl, rfl, by simp [Prog.setMeas]⟩

theorem Prog.flush_worked (line : List Stage) (n : Nat) : ∀ P : Prog, P.Worked (Prog.flush line n P) := by
  induction n with
  | zero => exact Prog.Worked.refl
  | succ n ih =>
    intro P
    exact ((Prog.measureOldest_worked line P).trans (Prog.closeIfFull_worked _)).trans (ih _)

theorem Prog.closeShort_worked (P : Prog) : P.Worked P.closeShort := by
  unfold Prog.closeShort
  split
  · exact Prog.Worked.refl P
  · exact Prog.closeBlock_worked P

theorem Prog.closeShort_clock (P : Prog) : P.closeShort.meas.clock = 0 := by
  unfold Prog.closeShort
  split
  · assumption
  · exact Prog.closeBlock_clock P

theorem Prog.boundaryMeasure_worked (line : List Stage) (P : Prog) : P.Worked (P.boundaryMeasure line) :=
  ((Prog.closeIfFull_worked P).trans (Prog.flush_worked line _ _)).trans (Prog.closeShort_worked _)

theorem Prog.boundaryMeasure_clock (line : List Stage) (P : Prog) : (P.boundaryMeasure line).meas.clock = 0 :=
  Prog.closeShort_clock _

/-- Positions in flight after one step of the work: never more, and one fewer after a measured position. -/
theorem Prog.completeStop_inFlight (P : Prog) : P.completeStop.meas.inFlight.length ≤ P.meas.inFlight.length := by
  unfold Prog.completeStop
  split
  · exact Nat.zero_le _
  · exact Nat.le_refl _

theorem Prog.closeBlock_inFlight (P : Prog) : P.closeBlock.meas.inFlight.length ≤ P.meas.inFlight.length := by
  unfold Prog.closeBlock
  exact Prog.completeStop_inFlight _

theorem Prog.closeIfFull_inFlight (P : Prog) : P.closeIfFull.meas.inFlight.length ≤ P.meas.inFlight.length := by
  unfold Prog.closeIfFull
  split
  · exact Prog.closeBlock_inFlight P
  · exact Nat.le_refl _

theorem Prog.measureOldest_inFlight (line : List Stage) (P : Prog) :
    (P.measureOldest line).meas.inFlight = P.meas.inFlight.tail := by
  unfold Prog.measureOldest
  cases h : P.meas.inFlight with
  | nil => simp [h]
  | cons f rest => rfl

theorem Prog.flush_inFlight (line : List Stage) (n : Nat) : ∀ P : Prog, P.meas.inFlight.length ≤ n →
    (Prog.flush line n P).meas.inFlight = [] := by
  induction n with
  | zero =>
    intro P h
    exact List.length_eq_zero_iff.mp (Nat.le_zero.mp h)
  | succ n ih =>
    intro P h
    refine ih _ (Nat.le_trans (Prog.closeIfFull_inFlight _) ?_)
    rw [Prog.measureOldest_inFlight, List.length_tail]
    omega

theorem Prog.closeShort_inFlight (P : Prog) : P.closeShort.meas.inFlight.length ≤ P.meas.inFlight.length := by
  unfold Prog.closeShort
  split
  · exact Nat.le_refl _
  · exact Prog.closeBlock_inFlight P

theorem Prog.boundaryMeasure_inFlight (line : List Stage) (P : Prog) :
    (P.boundaryMeasure line).meas.inFlight = [] := by
  have h := Prog.closeShort_inFlight (Prog.flush line P.meas.inFlight.length P.closeIfFull)
  rw [Prog.flush_inFlight _ _ _ (Prog.closeIfFull_inFlight P)] at h
  exact List.length_eq_zero_iff.mp (Nat.le_zero.mp h)

/-- What the boundary work of a programme leaves (R43, R46, R129). -/
theorem boundaryWork_facts (line : List Stage) (P : Prog) :
    (boundaryWork line P).1.length = line.length
    ∧ (boundaryWork line P).1.map (·.raw) = line.map (·.raw)
    ∧ ((∀ st ∈ line, st.raw.length = 16 ∧ st.cor.length = 16) →
        ∀ st ∈ (boundaryWork line P).1, st.raw.length = 16 ∧ st.cor.length = 16)
    ∧ (boundaryWork line P).2.queue = P.queue
    ∧ ((boundaryWork line P).2.entry = P.entry
        ∨ (P.entry.state = .stopping ∧ (boundaryWork line P).2.entry = { P.entry with state := .stopped }))
    ∧ (boundaryWork line P).2.gain.applied = P.gain.applied
    ∧ (boundaryWork line P).2.gain.policy = P.gain.policy
    ∧ (boundaryWork line P).2.gain.ramp = P.gain.ramp
    ∧ (boundaryWork line P).2.gain.window = []
    ∧ (boundaryWork line P).2.meas.clock = 0
    ∧ (boundaryWork line P).2.meas.inFlight = []
    ∧ (boundaryWork line P).2.meas.segAccount.isSome = P.meas.segAccount.isSome := by
  obtain ⟨h1, h2, h3, h4, h5⟩ := fixAll_facts P.entry line P.gain
  have w := Prog.boundaryMeasure_worked (fixAll P.entry line P.gain).1 (P.setGain (fixAll P.entry line P.gain).2)
  exact ⟨h3, h4, h5, w.queue, w.entry, w.applied.trans h1.applied, w.policy.trans h1.policy, w.ramp.trans h1.ramp,
    w.window.trans h2, Prog.boundaryMeasure_clock _ _, Prog.boundaryMeasure_inFlight _ _, w.segment⟩

/-! ### A frame -/

theorem Prog.moveGain_facts (P : Prog) :
    P.moveGain.desired = P.gain.desired ∧ P.moveGain.policy = P.gain.policy ∧ P.moveGain.holding = P.gain.holding
      ∧ P.moveGain.window = P.gain.window ∧ P.moveGain.reduction = P.gain.reduction := by
  unfold Prog.moveGain
  split
  · unfold Gain.rampStep
    split <;> exact ⟨rfl, rfl, rfl, rfl, rfl⟩
  · unfold Gain.adaptiveStep
    split
    · exact ⟨rfl, rfl, rfl, rfl, rfl⟩
    · split <;> exact ⟨rfl, rfl, rfl, rfl, rfl⟩
  · exact ⟨rfl, rfl, rfl, rfl, rfl⟩

/-- What a measured position leaves of the engine, but for its filters and sums (R42, R61). -/
theorem Prog.measureOldest_meas (line : List Stage) (P : Prog) :
    (P.measureOldest line).gain = P.gain ∧ (P.measureOldest line).meas.inHist = P.meas.inHist
      ∧ (P.measureOldest line).meas.outHist = P.meas.outHist ∧ (P.measureOldest line).meas.account = P.meas.account
      ∧ (P.measureOldest line).meas.clock = (if P.meas.inFlight = [] then P.meas.clock else P.meas.clock + 1)
      ∧ ((P.measureOldest line).meas.segAccount = P.meas.segAccount ∨
        ∃ t, (P.measureOldest line).meas.segAccount = P.meas.segAccount.map (·.peak t)) := by
  unfold Prog.measureOldest
  cases h : P.meas.inFlight with
  | nil => exact ⟨rfl, rfl, rfl, rfl, by simp, .inl rfl⟩
  | cons f rest => exact ⟨rfl, rfl, rfl, rfl, by simp [Prog.setMeas], .inr ⟨_, rfl⟩⟩

/-- A record on air after one more frame (R74). -/
def OnAir.aged (r : OnAir) : OnAir := { r with framesOnAir := min Config.framesOnAirLimit (r.framesOnAir + 1) }

/-- What one frame leaves of an active programme (R11, R42, R74, R112). -/
theorem Prog.handFrame_facts (line : List Stage) (raw : List Sample) (now : Bool) (P : Prog) :
    let Q := (P.handFrame line raw now).2
    Q.entry = P.entry ∧ Q.queue = ⟨P.queue.onAir.map OnAir.aged, P.queue.cued⟩
      ∧ Q.gain.applied = P.moveGain.applied ∧ Q.gain.desired = P.gain.desired ∧ Q.gain.policy = P.gain.policy
      ∧ Q.gain.holding = P.gain.holding ∧ Q.gain.ramp = P.moveGain.ramp
      ∧ Q.gain.window.length ≤ max Config.lookAhead P.gain.window.length
      ∧ Q.meas.inHist = P.meas.inHist ∧ Q.meas.outHist = P.meas.outHist ∧ Q.meas.account = P.meas.account
      ∧ Q.meas.clock ≤ P.meas.clock + 1 ∧ Q.meas.inFlight.length ≤ max Config.lookAhead P.meas.inFlight.length
      ∧ (Q.meas.segAccount = P.meas.segAccount ∨ ∃ t, Q.meas.segAccount = P.meas.segAccount.map (·.peak t)) := by
  simp only [Prog.handFrame]
  obtain ⟨m1, m2, m3, m4, m5⟩ := P.moveGain_facts
  -- the window: the position that leaves it, then the one that enters
  generalize hf : (if Config.lookAhead ≤ P.moveGain.window.length then fixOldest P.entry line P.moveGain
    else (line, P.moveGain)) = fixed
  have hs : P.moveGain.SameButFixed fixed.2 := by
    rw [← hf]
    split
    · exact fixOldest_gain P.entry line P.moveGain
    · exact .refl _
  have hw : fixed.2.window.length + 1 ≤ max Config.lookAhead P.gain.window.length := by
    rw [← hf, ← m4]
    split
    · rw [fixOldest_window, List.length_tail]
      unfold Config.lookAhead at *
      omega
    · show P.moveGain.window.length + 1 ≤ _
      omega
  generalize hg : ({ fixed.2 with window := fixed.2.window ++ [⟨channels P.entry raw, fixed.2.applied⟩] } : Gain) = g'
  have hP : ∀ R : Prog, (R = P.setGain g' ∨ R = (P.setGain g').measureOldest fixed.1) →
      R.entry = P.entry ∧ R.queue = P.queue ∧ R.gain = g' ∧ R.meas.inHist = P.meas.inHist
        ∧ R.meas.outHist = P.meas.outHist ∧ R.meas.account = P.meas.account ∧ R.meas.clock ≤ P.meas.clock + 1
        ∧ (R.meas.segAccount = P.meas.segAccount ∨ ∃ t, R.meas.segAccount = P.meas.segAccount.map (·.peak t)) := by
    intro R hR
    rcases hR with rfl | rfl
    · exact ⟨rfl, rfl, rfl, rfl, rfl, rfl, Nat.le_succ _, .inl rfl⟩
    · obtain ⟨e1, e2, e3, e4, e5, e6⟩ := Prog.measureOldest_meas fixed.1 (P.setGain g')
      have w := Prog.measureOldest_worked fixed.1 (P.setGain g')
      refine ⟨?_, w.queue, e1, e2, e3, e4, ?_, e6⟩
      · unfold Prog.measureOldest
        split <;> rfl
      · rw [e5]
        split
        · exact Nat.le_succ _
        · exact Nat.le_refl _
  have hl : ∀ R : Prog, (R = if (P.setGain g').isMeasuring && decide (Config.lookAhead ≤ (P.setGain g').meas.inFlight.length)
      then (P.setGain g').measureOldest fixed.1 else P.setGain g') →
      (if R.isMeasuring then R.meas.inFlight ++ [(⟨channels P.entry raw, R.meas.tallyLatch || now⟩ : InFlight)]
        else R.meas.inFlight).length ≤ max Config.lookAhead P.meas.inFlight.length := by
    intro R hR
    by_cases hc : ((P.setGain g').isMeasuring && decide (Config.lookAhead ≤ (P.setGain g').meas.inFlight.length)) = true
    · rw [if_pos hc] at hR
      have ht := Prog.measureOldest_inFlight fixed.1 (P.setGain g')
      rw [← hR] at ht
      have hb : Config.lookAhead ≤ P.meas.inFlight.length := of_decide_eq_true (((Bool.and_eq_true _ _).mp hc).2)
      split
      · rw [ht, List.length_append, List.length_tail]
        show P.meas.inFlight.length - 1 + 1 ≤ _
        unfold Config.lookAhead at *
        omega
      · rw [ht, List.length_tail]
        show P.meas.inFlight.length - 1 ≤ _
        omega
    · rw [if_neg hc] at hR
      subst hR
      split
      · rename_i hm
        rw [List.length_append]
        show P.meas.inFlight.length + 1 ≤ _
        have hb : ¬Config.lookAhead ≤ P.meas.inFlight.length := fun hb =>
          hc ((Bool.and_eq_true _ _).mpr ⟨hm, decide_eq_true hb⟩)
        omega
      · exact Nat.le_max_right _ _
  generalize hR : (if (P.setGain g').isMeasuring && decide (Config.lookAhead ≤ (P.setGain g').meas.inFlight.length)
      then (P.setGain g').measureOldest fixed.1 else P.setGain g') = R
  obtain ⟨r1, r2, r3, r4, r5, r6, r7, r8⟩ := hP R (by rw [← hR]; split <;> simp)
  refine ⟨r1, ?_, ?_, ?_, ?_, ?_, ?_, ?_, r4, r5, r6, r7, hl R hR.symm, r8⟩
  · show Queue.mk (R.queue.onAir.map OnAir.aged) R.queue.cued = _
    rw [r2]
  · show R.gain.applied = _
    rw [r3, ← hg]
    exact hs.applied
  · show R.gain.desired = _
    rw [r3, ← hg]
    exact hs.desired.trans m1
  · show R.gain.policy = _
    rw [r3, ← hg]
    exact hs.policy.trans m2
  · show R.gain.holding = _
    rw [r3, ← hg]
    exact hs.holding.trans m3
  · show R.gain.ramp = _
    rw [r3, ← hg]
    exact hs.ramp
  · show R.gain.window.length ≤ _
    rw [r3, ← hg, List.length_append]
    exact hw

/-! ### One after another -/

theorem fixMany_iterate (e : Entry) (n : Nat) : ∀ (line : List Stage) (g : Gain),
    fixMany e n line g = (fun r : List Stage × Gain => fixOldest e r.1 r.2)^[n] (line, g) := by
  induction n with
  | zero => intro line g; rfl
  | succ n ih => intro line g; rw [fixMany, Function.iterate_succ_apply]; exact ih _ _

theorem Prog.flush_iterate (line : List Stage) (n : Nat) : ∀ P : Prog,
    Prog.flush line n P = (fun Q : Prog => (Q.measureOldest line).closeIfFull)^[n] P := by
  induction n with
  | zero => intro P; rfl
  | succ n ih => intro P; rw [Prog.flush, Function.iterate_succ_apply]; exact ih _

end Sys2Proof.Machine
end

