-- ==== Sys2Proof/Laws/Takes.lean ====
section
/-! SUPPORT. Takes, ends and due events: what each stage leaves, what a cascade leaves alone, and the induction over the
work of `settle`. -/

namespace Sys2Proof.Machine

/-! ### What surrounds the programmes -/

/-- Takes, ends and due events leave the lines, the straps, the restart pin and the queue of commands, and raise notices. -/
structure State.Around (s t : State) : Prop where
  lines : t.lines = s.lines
  override : t.override = s.override
  baud : t.baud = s.baud
  armed : t.restartArmed = s.restartArmed
  pending : t.pending = s.pending
  raised : s.onlyRaised t

theorem State.Around.refl (s : State) : s.Around s := ⟨rfl, rfl, rfl, rfl, rfl, s.onlyRaised_refl⟩

theorem State.Around.trans {s t u : State} (a : s.Around t) (b : t.Around u) : s.Around u :=
  ⟨b.lines.trans a.lines, b.override.trans a.override, b.baud.trans a.baud, b.armed.trans a.armed,
    b.pending.trans a.pending, State.onlyRaised_trans a.raised b.raised⟩

/-- Of the Audio Port, at most the corrected samples in the delay line have changed. -/
structure State.SameAudio (s t : State) : Prop where
  audio : t.audio = { s.audio with line := t.audio.line }
  raw : t.audio.line.map (·.raw) = s.audio.line.map (·.raw)

theorem State.SameAudio.refl (s : State) : s.SameAudio s := ⟨rfl, rfl⟩

theorem State.SameAudio.of_eq {s t : State} (h : t.audio = s.audio) : s.SameAudio t := ⟨by rw [h], by rw [h]⟩

theorem State.SameAudio.trans {s t u : State} (a : s.SameAudio t) (b : t.SameAudio u) : s.SameAudio u :=
  ⟨by rw [b.audio, a.audio], b.raw.trans a.raw⟩

theorem State.SameAudio.position {s t : State} (a : s.SameAudio t) : t.position = s.position := by
  rw [State.position, State.position, a.audio]

theorem State.raiseAll_around (s : State) (k : Kind) (i : Index) : s.Around (s.raiseAll k i) :=
  ⟨rfl, rfl, rfl, rfl, rfl, s.raiseAll_onlyRaised k i⟩

theorem State.raisePlain_around (s : State) (k : Kind) : s.Around (s.raisePlain k) :=
  ⟨rfl, rfl, rfl, rfl, rfl, s.raisePlain_onlyRaised k⟩

theorem State.updProg_around (s : State) (p : Index) (f : Prog → Prog) : s.Around (s.updProg p f) :=
  ⟨rfl, rfl, rfl, rfl, rfl, State.onlyRaised_of_ports rfl⟩

/-! ### A posting -/

theorem State.appendLog_facts (s : State) (r : ResultRecord) :
    s.Around (s.appendLog r) ∧ (s.appendLog r).audio = s.audio ∧ (s.appendLog r).progs = s.progs
      ∧ (s.appendLog r).freeCount = s.freeCount ∧ ∃ b, (s.appendLog r).log.getLast? = some { r with discardsBefore := b } := by
  unfold State.appendLog
  simp only
  split
  · refine ⟨⟨rfl, rfl, rfl, rfl, rfl, fun x => ?_⟩, rfl, rfl, rfl, 1, by simp⟩
    rw [State.raisePlain_port]
    exact Port.raise_onlyRaised _ _ _
  · split
    · refine ⟨⟨rfl, rfl, rfl, rfl, rfl, fun x => ?_⟩, rfl, rfl, rfl, 0, by simp⟩
      rw [State.raisePlain_port]
      exact Port.raise_onlyRaised _ _ _
    · exact ⟨⟨rfl, rfl, rfl, rfl, rfl, fun _ => Port.onlyRaised_refl _⟩, rfl, rfl, rfl, 0, by simp⟩

theorem State.escalate_facts (s : State) (r : ResultRecord) :
    s.Around (s.escalate r) ∧ (s.escalate r).audio = s.audio ∧ (s.escalate r).log = s.log
      ∧ (s.escalate r).discards = s.discards ∧ (s.escalate r).freeCount = s.freeCount
      ∧ (s.escalate r).progs = s.progs.set r.programme { s.prog r.programme with
          entry := { (s.prog r.programme).entry with
            escalation := escalationAfter r.cls r.verdict (s.prog r.programme).entry.escalation } } := by
  unfold State.escalate
  simp only
  split
  · exact ⟨(s.updProg_around _ _).trans (State.raiseAll_around _ _ _), rfl, rfl, rfl, rfl, rfl⟩
  · exact ⟨s.updProg_around _ _, rfl, rfl, rfl, rfl, rfl⟩

/-- What a posting leaves (R138, R140): of the programmes only the counter of the record's own, and the record is last. -/
theorem State.post_facts (s : State) (r : ResultRecord) :
    s.Around (s.post r) ∧ (s.post r).audio = s.audio ∧ (s.post r).freeCount = s.freeCount
      ∧ (s.post r).progs = s.progs.set r.programme { s.prog r.programme with
          entry := { (s.prog r.programme).entry with
            escalation := escalationAfter r.cls r.judged.verdict (s.prog r.programme).entry.escalation } }
      ∧ ∃ b, (s.post r).log.getLast? = some { r.judged with discardsBefore := b } := by
  obtain ⟨a1, a2, a3, a4, b, hb⟩ := (s.escalate r.judged).appendLog_facts r.judged
  obtain ⟨e1, e2, _, _, e5, e6⟩ := s.escalate_facts r.judged
  exact ⟨e1.trans a1, a2.trans e2, a4.trans e5, a3.trans e6, b, hb⟩

theorem State.post_prog_same (s : State) (r : ResultRecord) (p : Index) (h : r.programme = p) :
    (s.post r).prog p = { s.prog p with entry := { (s.prog p).entry with
      escalation := escalationAfter r.cls r.judged.verdict (s.prog p).entry.escalation } } := by
  subst h
  rw [State.prog, (s.post_facts r).2.2.2.1]
  exact Octet.get_set_same _ _ _

theorem State.post_prog_other (s : State) (r : ResultRecord) (q : Index) (h : q ≠ r.programme) :
    (s.post r).prog q = s.prog q := by
  rw [State.prog, (s.post_facts r).2.2.2.1]
  exact Octet.get_set_other _ _ _ _ h

/-! ### Boundary and close -/

theorem State.boundary_prog_same (s : State) (p : Index) :
    (s.boundary p).prog p = (boundaryWork s.audio.line (s.prog p)).2 := Octet.get_set_same _ _ _

theorem State.boundary_prog_other (s : State) (p q : Index) (h : q ≠ p) : (s.boundary p).prog q = s.prog q :=
  Octet.get_set_other _ _ _ _ h

theorem State.boundary_around (s : State) (p : Index) : s.Around (s.boundary p) :=
  ⟨rfl, rfl, rfl, rfl, rfl, State.onlyRaised_of_ports rfl⟩

theorem State.boundary_audio (s : State) (p : Index) : s.SameAudio (s.boundary p) :=
  ⟨rfl, (boundaryWork_facts s.audio.line (s.prog p)).2.1⟩

/-- A programme whose segment on air, if any, has been closed: the record and its Segment Account are gone (R58, R84), and the
counter stands at `n` (R138). -/
def Prog.closed (P : Prog) (n : Nat) : Prog :=
  if P.hasOnAir then
    { P with
      entry := { P.entry with escalation := n }
      queue := { P.queue with onAir := none }
      meas := { P.meas with segAccount := none } }
  else P

theorem escalationAfter_le (cls : SegClass) (v : Verdict) (n : Nat) (h : n ≤ 3) : escalationAfter cls v n ≤ 3 := by
  cases cls <;> cases v <;> simp only [escalationAfter] <;> omega

theorem State.closeSegment_prog_same (s : State) (p : Index) (cause : EndCause) :
    ∃ n, ((s.prog p).entry.escalation ≤ 3 → n ≤ 3) ∧ (s.closeSegment p cause).prog p = (s.prog p).closed n := by
  unfold State.closeSegment
  cases h : (s.prog p).queue.onAir with
  | none => exact ⟨0, fun _ => by omega, by simp [Prog.closed, Prog.hasOnAir, h]⟩
  | some r =>
    refine ⟨escalationAfter r.record.cls ((s.prog p).resultRecord p r cause).judged.verdict
      (s.prog p).entry.escalation, escalationAfter_le _ _ _, ?_⟩
    simp only [Prog.closed, Prog.hasOnAir, h, Option.isSome_some, if_true, State.updProg_prog_same,
      State.post_prog_same s ((s.prog p).resultRecord p r cause) p rfl]
    rfl

@[simp] theorem Prog.closed_gain (P : Prog) (n : Nat) : (P.closed n).gain = P.gain := by
  unfold Prog.closed; split <;> rfl

@[simp] theorem Prog.closed_onAir (P : Prog) (n : Nat) : (P.closed n).queue.onAir = none := by
  unfold Prog.closed
  split
  · rfl
  · rename_i h
    simpa [Prog.hasOnAir] using h

@[simp] theorem Prog.closed_cued (P : Prog) (n : Nat) : (P.closed n).queue.cued = P.queue.cued := by
  unfold Prog.closed; split <;> rfl

@[simp] theorem Prog.closed_state (P : Prog) (n : Nat) : (P.closed n).entry.state = P.entry.state := by
  unfold Prog.closed; split <;> rfl

/-- What a close leaves of the entry: all but the escalation counter. -/
theorem Prog.closed_entry (P : Prog) (n : Nat) :
    (P.closed n).entry = { P.entry with escalation := (P.closed n).entry.escalation } := by
  unfold Prog.closed; split <;> rfl

/-- What a close leaves of the engine: all but the Segment Account. -/
theorem Prog.closed_meas (P : Prog) (n : Nat) :
    (P.closed n).meas = { P.meas with segAccount := (P.closed n).meas.segAccount } := by
  unfold Prog.closed; split <;> rfl

theorem State.closeSegment_prog_other (s : State) (p q : Index) (cause : EndCause) (h : q ≠ p) :
    (s.closeSegment p cause).prog q = s.prog q := by
  unfold State.closeSegment
  cases ho : (s.prog p).queue.onAir with
  | none => rfl
  | some r =>
    simp only [State.updProg_prog_other _ _ _ _ h]
    exact State.post_prog_other s _ q h

theorem State.closeSegment_facts (s : State) (p : Index) (cause : EndCause) :
    s.Around (s.closeSegment p cause) ∧ (s.closeSegment p cause).audio = s.audio
      ∧ (s.closeSegment p cause).freeCount = s.freeCount := by
  unfold State.closeSegment
  cases ho : (s.prog p).queue.onAir with
  | none => exact ⟨.refl s, rfl, rfl⟩
  | some r =>
    obtain ⟨h1, h2, h3, _, _⟩ := s.post_facts ((s.prog p).resultRecord p r cause)
    exact ⟨h1.trans (State.updProg_around _ _ _), h2, h3⟩

/-- The record a close posts is the last of the log (R105, R140). -/
theorem State.closeSegment_log (s : State) (p : Index) (cause : EndCause) (o : OnAir)
    (h : (s.prog p).queue.onAir = some o) :
    ∃ b, (s.closeSegment p cause).log.getLast?
      = some { ((s.prog p).resultRecord p o cause).judged with discardsBefore := b } := by
  unfold State.closeSegment
  simp only [h]
  exact (s.post_facts ((s.prog p).resultRecord p o cause)).2.2.2.2

/-! ### The stages of a take -/

theorem State.takeStages_around (s : State) (p : Index) (cause : TakeCause) : s.Around (s.takeStages p cause) := by
  unfold State.takeStages
  exact (((s.boundary_around p).trans (State.closeSegment_facts _ p _).1).trans (State.updProg_around _ _ _)).trans
    (State.updProg_around _ _ _)

theorem State.takeStages_audio (s : State) (p : Index) (cause : TakeCause) : s.SameAudio (s.takeStages p cause) := by
  unfold State.takeStages
  exact (s.boundary_audio p).trans (.of_eq (State.closeSegment_facts _ p _).2.1)

theorem State.takeStages_prog_other (s : State) (p q : Index) (cause : TakeCause) (h : q ≠ p) :
    (s.takeStages p cause).prog q = s.prog q := by
  unfold State.takeStages
  simp only [State.updProg_prog_other _ _ _ _ h]
  rw [State.closeSegment_prog_other _ _ _ _ h, State.boundary_prog_other _ _ _ h]

theorem Prog.applyPending_entry (P : Prog) : P.applyPending.entry
    = { P.entry with active := P.entry.active.apply P.entry.pending, pending := .empty } := rfl

theorem Prog.goOnAir_entry (P : Prog) (n : Position) (cause : TakeCause) : (P.goOnAir n cause).entry = P.entry := by
  unfold Prog.goOnAir
  split <;> rfl

/-- What the stages of a take leave of its own programme (R88 to R92). -/
theorem State.takeStages_prog_same (s : State) (p : Index) (cause : TakeCause) :
    ∃ n, ((s.prog p).entry.escalation ≤ 3 → n ≤ 3) ∧ (s.takeStages p cause).prog p
      = (((boundaryWork s.audio.line (s.prog p)).2.closed n).applyPending).goOnAir s.position cause := by
  obtain ⟨n, hn, hc⟩ := State.closeSegment_prog_same (s.boundary p) p .takeNext
  rw [State.boundary_prog_same] at hc hn
  refine ⟨n, fun h => hn ?_, ?_⟩
  · obtain ⟨_, _, _, _, he, _⟩ := boundaryWork_facts s.audio.line (s.prog p)
    rcases he with he | ⟨_, he⟩ <;> rw [he] <;> exact h
  · unfold State.takeStages
    simp only [State.updProg_prog_same, hc]

/-- What a take's stages leave of the entry: state (but for a STOPPING programme), slots, trigger and the rest. -/
theorem State.takeStages_entry (s : State) (p : Index) (cause : TakeCause) :
    ∃ n st, ((s.takeStages p cause).prog p).entry = { (s.prog p).entry with
        state := st
        active := (s.prog p).entry.active.apply (s.prog p).entry.pending
        pending := .empty
        escalation := n }
      ∧ ((s.prog p).entry.state ≠ .stopping → st = (s.prog p).entry.state) := by
  obtain ⟨n, _, hp⟩ := s.takeStages_prog_same p cause
  obtain ⟨_, _, _, _, he, _⟩ := boundaryWork_facts s.audio.line (s.prog p)
  rw [hp, Prog.goOnAir_entry, Prog.applyPending_entry, Prog.closed_entry]
  rcases he with he | ⟨hs, he⟩
  · exact ⟨_, _, by rw [he], fun _ => rfl⟩
  · exact ⟨_, _, by rw [he], fun h => absurd hs h⟩

/-! ### Induction over takes and over the events that are due -/

/-- A property of states that each piece of a cascade keeps. -/
structure Takes (M : State → Prop) : Prop where
  free : ∀ s, M s → M s.useFree
  raise : ∀ s k i, M s → M (s.raiseAll k i)
  stages : ∀ s p cause, (s.prog p).takeActs = true → M s → M (s.takeStages p cause)

/-- A property of states that each piece of the work at a duration keeps: overrun marks, AUTO takes and ends. -/
structure Durations (M : State → Prop) : Prop extends Takes M where
  overrun : ∀ s p, M s → M (s.markOverrun p)
  finish : ∀ s p cause, (s.prog p).hasOnAir = true → M s → M (s.endSegment p cause)

theorem Takes.takeNotices {M : State → Prop} (K : Takes M) (s : State) (p : Index) (closed : Bool) (h : M s) :
    M (s.takeNotices p closed) := by
  unfold State.takeNotices
  split
  · exact K.raise _ _ _ (K.raise _ _ _ h)
  · exact K.raise _ _ _ h

/-- A piece of work that is a take. -/
def Work.isTake : Work → Bool
  | .take _ _ => true
  | .auto _ => false

theorem Takes.performTake {M : State → Prop} (K : Takes M) (s : State) (p : Index) (cause : TakeCause) (h : M s) :
    M (s.performTake p cause).1 ∧ ∀ w ∈ (s.performTake p cause).2, w.isTake = true := by
  unfold State.performTake
  split
  · rename_i ha
    refine ⟨K.takeNotices _ _ _ (K.stages s p cause ha h), fun w hw => ?_⟩
    obtain ⟨q, _, rfl⟩ := List.mem_map.mp hw
    rfl
  · exact ⟨K.raise _ _ _ h, by simp⟩

theorem Prog.hasOnAir_of_autoDue {P : Prog} (h : P.autoDue = true) : P.hasOnAir = true := by
  unfold Prog.autoDue at h
  unfold Prog.hasOnAir
  cases hr : P.queue.onAir with
  | none => simp [hr] at h
  | some r => rfl

theorem Durations.performAuto {M : State → Prop} (K : Durations M) (s : State) (p : Index) (h : M s) :
    M (s.performAuto p).1 := by
  unfold State.performAuto
  split
  · rename_i hd
    split
    · exact (K.toTakes.performTake s p .auto h).1
    · exact K.finish _ _ _ (Prog.hasOnAir_of_autoDue hd) h
  · exact h

theorem mem_insertByKey {α : Type} (key : α → Nat) (a b : α) (l : List α) :
    b ∈ insertByKey key a l ↔ b = a ∨ b ∈ l := by
  induction l with
  | nil => simp [insertByKey]
  | cons c l ih =>
    unfold insertByKey
    split
    · simp
    · simp only [List.mem_cons, ih]
      tauto

theorem insertByKey_perm {α : Type} (key : α → Nat) (a : α) (l : List α) : (insertByKey key a l).Perm (a :: l) := by
  induction l with
  | nil => exact List.Perm.refl _
  | cons b l ih =>
    unfold insertByKey
    split
    · exact List.Perm.refl _
    · exact (ih.cons b).trans (List.Perm.swap a b l)

theorem arrangeBy_perm {α : Type} (number : α → Nat) (n : Nat) (l : List α) : (arrangeBy number n l).Perm l := by
  induction l with
  | nil => exact List.Perm.refl _
  | cons a l ih => exact (insertByKey_perm _ a _).trans (ih.cons a)

theorem arrange_perm (n : Nat) (l : List Index) : (arrange n l).Perm l := arrangeBy_perm _ n l

theorem mem_arrange (n : Nat) (l : List Index) (q : Index) : q ∈ arrange n l ↔ q ∈ l := (arrange_perm n l).mem_iff

/-- A cascade keeps what each piece of its work keeps; `good` holds of the pieces it starts with and of those they bring. -/
theorem State.cascade_keeps {M : State → Prop} (good : Work → Prop) (free : ∀ s, M s → M s.useFree)
    (piece : ∀ s w, good w → M s → M (s.perform w).1 ∧ ∀ v ∈ (s.perform w).2, good v) (fuel : Nat) :
    ∀ (s : State) (work : List Work), (∀ w ∈ work, good w) → M s → M (s.cascade fuel work) := by
  induction fuel with
  | zero => intro s work _ h; exact h
  | succ fuel ih =>
    intro s work hw h
    have hp := arrangeBy_perm Work.number s.freeCount work
    rw [State.cascade]
    cases hc : arrangeBy Work.number s.freeCount work with
    | nil => exact h
    | cons w rest =>
      rw [hc] at hp
      have hall : ∀ v ∈ w :: rest, good v := fun v hv => hw v (hp.mem_iff.mp hv)
      have h1 : M (if rest.isEmpty then s else s.useFree) := by
        split
        · exact h
        · exact free s h
      obtain ⟨h2, h3⟩ := piece _ w (hall w List.mem_cons_self) h1
      refine ih _ _ (fun v hv => ?_) h2
      rcases List.mem_append.mp hv with hv | hv
      · exact hall v (List.mem_cons_of_mem _ hv)
      · exact h3 v hv

/-- A cascade of takes keeps what each take keeps. -/
theorem Takes.cascade {M : State → Prop} (K : Takes M) (fuel : Nat) (s : State) (work : List Work)
    (hw : ∀ w ∈ work, w.isTake = true) (h : M s) : M (s.cascade fuel work) := by
  refine State.cascade_keeps (fun w => w.isTake = true) K.free (fun t w hg ht => ?_) fuel s work hw h
  cases w with
  | take p cause => exact K.performTake t p cause ht
  | auto p => simp [Work.isTake] at hg

/-- A cascade of takes and AUTO events keeps what each of them keeps. -/
theorem Durations.cascade {M : State → Prop} (K : Durations M) (fuel : Nat) (s : State) (work : List Work) (h : M s) :
    M (s.cascade fuel work) := by
  refine State.cascade_keeps (fun _ => True) K.free (fun t w _ ht => ⟨?_, fun _ _ => trivial⟩) fuel s work
    (fun _ _ => trivial) h
  cases w with
  | take p cause => exact (K.toTakes.performTake t p cause ht).1
  | auto p => exact K.performAuto t p ht

theorem Takes.take {M : State → Prop} (K : Takes M) (s : State) (p : Index) (cause : TakeCause) (h : M s) :
    M (s.take p cause) := K.cascade cascadeLimit s _ (by simp [Work.isTake]) h

theorem Takes.edgeTakes {M : State → Prop} (K : Takes M) (s : State) (k : Index) (h : M s) : M (s.edgeTakes k) :=
  K.cascade cascadeLimit s _ (fun w hw => by obtain ⟨q, _, rfl⟩ := List.mem_map.mp hw; rfl) h

theorem takes_around (s : State) : Takes s.Around :=
  ⟨fun _ h => h.trans ⟨rfl, rfl, rfl, rfl, rfl, State.onlyRaised_of_ports rfl⟩,
    fun _ _ _ h => h.trans (State.raiseAll_around _ _ _), fun _ _ _ _ h => h.trans (State.takeStages_around _ _ _)⟩

theorem takes_audio (s : State) : Takes s.SameAudio :=
  ⟨fun _ h => h.trans (.of_eq rfl), fun _ _ _ h => h.trans (.of_eq rfl),
    fun _ _ _ _ h => h.trans (State.takeStages_audio _ _ _)⟩

theorem State.take_around (s : State) (p : Index) (cause : TakeCause) : s.Around (s.take p cause) :=
  (takes_around s).take s p cause (.refl s)

theorem State.take_audio (s : State) (p : Index) (cause : TakeCause) : s.SameAudio (s.take p cause) :=
  (takes_audio s).take s p cause (.refl s)

/-- The triggers stay as they are through a cascade (R16: only PROG.SET changes one). -/
def State.SameTriggers (s t : State) : Prop := ∀ q, (t.prog q).entry.trigger = (s.prog q).entry.trigger

theorem State.takeStages_triggers (s : State) (p : Index) (cause : TakeCause) :
    s.SameTriggers (s.takeStages p cause) := by
  intro q
  by_cases h : q = p
  · subst h
    obtain ⟨_, _, he, _⟩ := s.takeStages_entry q cause
    rw [he]
  · rw [State.takeStages_prog_other _ _ _ _ h]

theorem takes_triggers (s : State) : Takes s.SameTriggers :=
  ⟨fun _ h => h, fun _ _ _ h => h, fun t p c _ h q => (t.takeStages_triggers p c q).trans (h q)⟩

theorem State.mem_followers (s : State) (p q : Index) :
    q ∈ s.followers p ↔ (s.prog q).entry.trigger = .follow p := by
  simp [State.followers, mem_allIndices]



/-- A property of states that each piece of the work of due events keeps. -/
structure Settles (M : State → Prop) : Prop extends Durations M where
  lock : ∀ s, s.lockDue = true → M s → M s.enterLocked
  close : ∀ s p, (s.prog p).closeDue = true → M s → M (s.closeBlock p)
  ramp : ∀ s p, (s.prog p).rampDue = true → M s → M (s.completeRamp p)

theorem Settles.settleClose {M : State → Prop} (K : Settles M) (s : State) (p : Index) (h : M s) :
    M (s.settleClose p) := by
  unfold State.settleClose
  split
  · rename_i hd
    exact K.close s p hd h
  · exact h

theorem Settles.settleRamp {M : State → Prop} (K : Settles M) (s : State) (p : Index) (h : M s) :
    M (s.settleRamp p) := by
  unfold State.settleRamp
  split
  · rename_i hd
    exact K.ramp s p hd h
  · exact h

theorem foldl_keeps {α : Type} {M : State → Prop} (f : State → α → State) (h : ∀ s a, M s → M (f s a)) :
    ∀ (l : List α) (s : State), M s → M (l.foldl f s) := by
  intro l
  induction l with
  | nil => intro s hs; exact hs
  | cons a l ih => intro s hs; exact ih _ (h _ _ hs)

theorem Durations.settleOverrun {M : State → Prop} (K : Durations M) (s : State) (p : Index) (h : M s) :
    M (s.settleOverrun p) := by
  unfold State.settleOverrun
  split
  · exact K.overrun s p h
  · exact h

theorem Durations.settleOverruns {M : State → Prop} (K : Durations M) (s : State) (h : M s) : M s.settleOverruns :=
  foldl_keeps _ K.settleOverrun allIndices s h

theorem Durations.settleDuration {M : State → Prop} (K : Durations M) (s : State) (p : Index) (h : M s) :
    M (s.settleDuration p) := by
  unfold State.settleDuration
  split
  · exact K.cascade cascadeLimit _ _ (K.settleOverruns s h)
  · exact K.settleOverrun s p h

theorem Settles.settle {M : State → Prop} (K : Settles M) (s : State) (h : M s) : M s.settle := by
  unfold State.settle
  have h1 : M (if s.lockDue then s.enterLocked else s) := by
    split
    · rename_i hd
      exact K.lock s hd h
    · exact h
  have h2 := foldl_keeps State.settleClose K.settleClose allIndices _ h1
  have h3 := foldl_keeps State.settleRamp K.settleRamp allIndices _ h2
  exact K.toDurations.cascade cascadeLimit _ _ (K.toDurations.settleOverruns _ h3)

/-! ### What settling leaves -/

theorem State.closeBlock_around (s : State) (p : Index) : s.Around (s.closeBlock p) := by
  unfold State.closeBlock
  simp only
  split
  · exact (s.updProg_around _ _).trans (State.raiseAll_around _ _ _)
  · exact s.updProg_around _ _

theorem State.endCore_around (s : State) (p : Index) (cause : EndCause) : s.Around (s.endCore p cause) :=
  (((s.boundary_around p).trans (State.closeSegment_facts _ p _).1).trans (State.updProg_around _ _ _)).trans
    (State.raiseAll_around _ _ _)

theorem State.endCore_audio (s : State) (p : Index) (cause : EndCause) : s.SameAudio (s.endCore p cause) :=
  (s.boundary_audio p).trans (.of_eq (State.closeSegment_facts _ p _).2.1)

theorem State.endCore_prog_other (s : State) (p q : Index) (cause : EndCause) (h : q ≠ p) :
    (s.endCore p cause).prog q = s.prog q := by
  unfold State.endCore
  simp only [State.raiseAll_prog, State.updProg_prog_other _ _ _ _ h]
  rw [State.closeSegment_prog_other _ _ _ _ h, State.boundary_prog_other _ _ _ h]

theorem State.deactivate_around (s : State) (p : Index) : s.Around (s.deactivate p) :=
  (s.updProg_around _ _).trans (State.raiseAll_around _ _ _)

theorem State.endSegment_around (s : State) (p : Index) (cause : EndCause) : s.Around (s.endSegment p cause) := by
  unfold State.endSegment
  simp only
  split
  · exact (s.endCore_around p cause).trans (State.deactivate_around _ _)
  · exact (s.endCore_around p cause).trans (State.updProg_around _ _ _)

theorem State.endSegment_audio (s : State) (p : Index) (cause : EndCause) : s.SameAudio (s.endSegment p cause) := by
  unfold State.endSegment
  simp only
  split
  · exact (s.endCore_audio p cause).trans (.of_eq rfl)
  · exact (s.endCore_audio p cause).trans (.of_eq rfl)

theorem State.endSegment_prog_other (s : State) (p q : Index) (cause : EndCause) (h : q ≠ p) :
    (s.endSegment p cause).prog q = s.prog q := by
  unfold State.endSegment State.deactivate
  simp only
  split <;>
    simp only [State.raiseAll_prog, State.updProg_prog_other _ _ _ _ h, State.endCore_prog_other _ _ _ _ h]

theorem State.enterLocked_around (s : State) : s.Around s.enterLocked := by
  refine ⟨rfl, rfl, rfl, rfl, rfl, fun x => ?_⟩
  unfold State.enterLocked
  rw [State.raisePlain_port]
  exact Port.raise_onlyRaised _ _ _

theorem settles_around (s : State) : Settles s.Around where
  toTakes := takes_around s
  lock := fun t _ h => h.trans (State.enterLocked_around t)
  close := fun _ _ _ h => h.trans (State.closeBlock_around _ _)
  ramp := fun _ _ _ h => h.trans (State.updProg_around _ _ _)
  overrun := fun _ _ h => (h.trans (State.updProg_around _ _ _)).trans (State.raiseAll_around _ _ _)
  finish := fun _ _ _ _ h => h.trans (State.endSegment_around _ _ _)

/-- Settling leaves the lines, the straps, the pin and the queue of commands, and raises notices. -/
theorem State.settle_around (s : State) : s.Around s.settle := (settles_around s).settle s (.refl s)

theorem State.settle_port (s : State) (x : PortId) : (s.port x).onlyRaised (s.settle.port x) := s.settle_around.raised x

/-- No block close and no ramp completion is due. -/
def State.ProgsCalm (s : State) : Prop := ∀ p, (s.prog p).closeDue = false ∧ (s.prog p).rampDue = false

theorem Gain.startRamp_calm (g : Gain) (policy : Policy) (entry : Rat) (ms : Int) :
    ∀ r, (g.startRamp policy entry ms).ramp = some r → r.elapsed = 0 ∧ 1 ≤ r.total := by
  intro r hr
  unfold Gain.startRamp at hr
  simp only at hr
  split at hr
  · simp at hr
  · rename_i h
    simp only [Option.some.injEq] at hr
    subst hr
    refine ⟨rfl, ?_⟩
    push Not at h
    exact Nat.one_le_iff_ne_zero.mpr h.1

theorem Prog.rampDue_false {P : Prog} (h : ∀ r, P.gain.ramp = some r → r.elapsed < r.total) : P.rampDue = false := by
  unfold Prog.rampDue
  cases hr : P.gain.ramp with
  | none => rfl
  | some r => simp [h r hr]

/-- A boundary and a close leave the block clock at 0 and the ramp as it was. -/
theorem State.cut_facts (s : State) (p : Index) (cause : EndCause) :
    (((s.boundary p).closeSegment p cause).prog p).meas.clock = 0
      ∧ (((s.boundary p).closeSegment p cause).prog p).gain = ((s.boundary p).prog p).gain := by
  obtain ⟨_, _, h⟩ := State.closeSegment_prog_same (s.boundary p) p cause
  obtain ⟨_, _, _, _, _, _, _, _, _, hc, _⟩ := boundaryWork_facts s.audio.line (s.prog p)
  have hc' : ((s.boundary p).prog p).meas.clock = 0 := by rw [State.boundary_prog_same]; exact hc
  rw [h]
  exact ⟨by rw [Prog.closed_meas]; exact hc', Prog.closed_gain _ _⟩

theorem Prog.goOnAir_calm (P : Prog) (n : Position) (cause : TakeCause) (h : P.meas.clock = 0)
    (hq : P.queue.cued ≠ []) : (P.goOnAir n cause).closeDue = false ∧ (P.goOnAir n cause).rampDue = false := by
  unfold Prog.goOnAir
  cases hc : P.queue.cued with
  | nil => exact absurd hc hq
  | cons r rest =>
    refine ⟨by simp [Prog.closeDue, h, Config.blockFrames], Prog.rampDue_false fun v hv => ?_⟩
    obtain ⟨h0, h1⟩ := Gain.startRamp_calm _ _ _ _ v hv
    omega

theorem State.cut_cued (s : State) (p : Index) (cause : EndCause) :
    (((s.boundary p).closeSegment p cause).prog p).queue.cued = (s.prog p).queue.cued := by
  obtain ⟨_, _, h⟩ := State.closeSegment_prog_same (s.boundary p) p cause
  obtain ⟨_, _, _, hq, _⟩ := boundaryWork_facts s.audio.line (s.prog p)
  rw [h, State.boundary_prog_same, Prog.closed_cued, hq]

theorem takes_calm : Takes State.ProgsCalm where
  free := fun _ h => h
  raise := fun _ _ _ h => h
  stages := fun s p cause ha h q => by
    by_cases hq : q = p
    · subst hq
      unfold State.takeStages
      simp only [State.updProg_prog_same]
      refine Prog.goOnAir_calm _ _ _ (s.cut_facts q _).1 ?_
      intro hn
      have hc := s.cut_cued q .takeNext
      rw [show ((((s.boundary q).closeSegment q .takeNext).prog q).applyPending).queue
        = (((s.boundary q).closeSegment q .takeNext).prog q).queue from rfl] at hn
      rw [hn] at hc
      simp [Prog.takeActs, ← hc] at ha
    · rw [State.takeStages_prog_other _ _ _ _ hq]
      exact h q

theorem Gain.freeRun_ramp (g : Gain) (ms : Int) : (g.freeRun ms).ramp = none := by
  simp [Gain.freeRun, Gain.startRamp]

theorem durations_calm : Durations State.ProgsCalm where
  toTakes := takes_calm
  overrun := fun s p h q => by
    by_cases hq : q = p
    · subst hq
      unfold State.markOverrun
      simp only [State.raiseAll_prog, State.updProg_prog_same]
      exact h q
    · unfold State.markOverrun
      simp only [State.raiseAll_prog, State.updProg_prog_other _ _ _ _ hq]
      exact h q
  finish := fun s p cause _ h q => by
    by_cases hq : q = p
    · subst hq
      have hc : ((s.endCore q cause).prog q).meas.clock = 0 := by
        unfold State.endCore
        simp only [State.raiseAll_prog, State.updProg_prog_same]
        exact (s.cut_facts q cause).1
      unfold State.endSegment State.deactivate
      simp only
      split
      · simp only [State.raiseAll_prog, State.updProg_prog_same]
        exact ⟨by simp [Prog.closeDue, Prog.becomeInactive, Measure.discard, Config.blockFrames],
          by simp [Prog.rampDue, Prog.becomeInactive, Gain.rest]⟩
      · simp only [State.updProg_prog_same]
        refine ⟨by simp [Prog.closeDue, Prog.toFreeRun, Prog.setGain, hc, Config.blockFrames], ?_⟩
        simp only [Prog.rampDue, Prog.toFreeRun, Prog.setGain, Gain.freeRun_ramp]
    · rw [State.endSegment_prog_other _ _ _ _ hq]
      exact h q

theorem State.settleClose_prog_other (s : State) (p q : Index) (h : q ≠ p) :
    (s.settleClose p).prog q = s.prog q := by
  unfold State.settleClose State.closeBlock
  simp only
  split
  · split <;> simp only [State.raiseAll_prog, State.updProg_prog_other _ _ _ _ h]
  · rfl

theorem State.settleClose_closeDue (s : State) (p : Index) : ((s.settleClose p).prog p).closeDue = false := by
  unfold State.settleClose State.closeBlock
  simp only
  split
  · split <;> simp [Prog.closeDue, Prog.closeBlock_clock, Config.blockFrames]
  · rename_i h
    simpa using h

theorem State.settleClose_audio (s : State) (p : Index) : (s.settleClose p).audio = s.audio := by
  unfold State.settleClose State.closeBlock
  simp only
  split
  · split <;> rfl
  · rfl

theorem State.settleRamp_prog_other (s : State) (p q : Index) (h : q ≠ p) :
    (s.settleRamp p).prog q = s.prog q := by
  unfold State.settleRamp State.completeRamp
  split
  · exact State.updProg_prog_other _ _ _ _ h
  · rfl

theorem State.settleRamp_prog_same (s : State) (p : Index) :
    ((s.settleRamp p).prog p).rampDue = false ∧ ((s.settleRamp p).prog p).closeDue = (s.prog p).closeDue := by
  unfold State.settleRamp State.completeRamp
  split
  · rename_i h
    simp only [State.updProg_prog_same]
    refine ⟨?_, rfl⟩
    unfold Prog.rampDue at h ⊢
    cases hr : (s.prog p).gain.ramp with
    | none => simp [hr] at h
    | some r => simp [Prog.setGain, Gain.completeRamp, hr]
  · rename_i h
    exact ⟨by simpa using h, rfl⟩

theorem State.settleRamp_audio (s : State) (p : Index) : (s.settleRamp p).audio = s.audio := by
  unfold State.settleRamp State.completeRamp
  split <;> rfl

/-- A walk over programmes, each step of which puts its own programme in order and leaves the others alone. -/
theorem foldl_all (f : State → Index → State) (good : Prog → Prop) (own : ∀ s p, good ((f s p).prog p))
    (other : ∀ s p q, q ≠ p → (f s p).prog q = s.prog q) :
    ∀ (l : List Index) (s : State) (q : Index), (q ∈ l ∨ good (s.prog q)) → good ((l.foldl f s).prog q) := by
  intro l
  induction l with
  | nil =>
    intro s q h
    rcases h with h | h
    · simp at h
    · exact h
  | cons p l ih =>
    intro s q h
    refine ih (f s p) q ?_
    by_cases hq : q = p
    · subst hq
      exact .inr (own s q)
    · rw [other s p q hq]
      rcases h with h | h
      · exact .inl ((List.mem_cons.mp h).resolve_left hq)
      · exact .inr h

/-- A state in which no lock, no block close and no ramp completion is due. -/
structure State.Calm (s : State) : Prop where
  lock : s.lockDue = false
  progs : s.ProgsCalm

theorem State.enterLocked_locked (s : State) : s.enterLocked.audio.detector = .locked := rfl

/-- Settling leaves a calm state (log 5). -/
theorem State.settle_calm (s : State) : s.settle.Calm := by
  have hl : ∀ t : State, t.lockDue = false → ∀ u : State, u.audio.detector = t.audio.detector →
      u.audio.goodFrames = t.audio.goodFrames → u.lockDue = false := by
    intro t ht u h1 h2
    unfold State.lockDue at ht ⊢
    rw [h1, h2]
    exact ht
  have h1 : (if s.lockDue then s.enterLocked else s).lockDue = false := by
    split
    · simp [State.lockDue, State.enterLocked_locked]
    · rename_i h
      simpa using h
  have h2 := foldl_keeps (M := fun t => t.lockDue = false) State.settleClose
    (fun t p ht => hl t ht _ (by rw [State.settleClose_audio]) (by rw [State.settleClose_audio])) allIndices _ h1
  have h3 := foldl_keeps (M := fun t => t.lockDue = false) State.settleRamp
    (fun t p ht => hl t ht _ (by rw [State.settleRamp_audio]) (by rw [State.settleRamp_audio])) allIndices _ h2
  have c2 : ∀ q, ((allIndices.foldl State.settleClose (if s.lockDue then s.enterLocked else s)).prog q).closeDue
      = false := fun q => foldl_all State.settleClose (fun P => P.closeDue = false) State.settleClose_closeDue
        State.settleClose_prog_other allIndices _ q (.inl (mem_allIndices q))
  have c3 : ∀ q, ((allIndices.foldl State.settleRamp
      (allIndices.foldl State.settleClose (if s.lockDue then s.enterLocked else s))).prog q).closeDue = false := by
    refine foldl_keeps (M := fun t => ∀ q, (t.prog q).closeDue = false) State.settleRamp ?_ allIndices _ c2
    intro t p ht q
    by_cases hq : q = p
    · subst hq
      rw [(State.settleRamp_prog_same t q).2]
      exact ht q
    · rw [State.settleRamp_prog_other _ _ _ hq]
      exact ht q
  have r3 : ∀ q, ((allIndices.foldl State.settleRamp
      (allIndices.foldl State.settleClose (if s.lockDue then s.enterLocked else s))).prog q).rampDue = false :=
    fun q => foldl_all State.settleRamp (fun P => P.rampDue = false) (fun t p => (State.settleRamp_prog_same t p).1)
      State.settleRamp_prog_other allIndices _ q (.inl (mem_allIndices q))
  have dl : Durations fun t : State => t.lockDue = false := {
    free := fun _ h => h
    raise := fun _ _ _ h => h
    stages := fun t p c _ h => hl t h _ (by rw [(t.takeStages_audio p c).audio]) (by rw [(t.takeStages_audio p c).audio])
    overrun := fun _ _ h => h
    finish := fun t p c _ h => hl t h _ (by rw [(t.endSegment_audio p c).audio])
      (by rw [(t.endSegment_audio p c).audio]) }
  unfold State.settle
  simp only
  generalize List.map Work.auto _ = work
  generalize cascadeLimit = fuel
  exact ⟨dl.cascade fuel _ work (dl.settleOverruns _ h3),
    durations_calm.cascade fuel _ work (durations_calm.settleOverruns _ fun q => ⟨c3 q, r3 q⟩)⟩

end Sys2Proof.Machine
end

