-- ==== Sys2Proof/Laws/Lines.lean ====
section
/-! SUPPORT. What a programme sees of the delay line: the corrected samples of its own slots. Its boundary work depends on nothing
else of the line, and the boundary work of a programme with other slots leaves it (R17, R43, R129). -/

namespace Sys2Proof.Machine

/-- Two delay lines look alike to a programme: they are as long, and hold the same corrected samples in its channels. -/
structure Entry.SeesAlike (e : Entry) (a b : List Stage) : Prop where
  length : a.length = b.length
  cor : ∀ i, channels e (a.getD i Stage.zero).cor = channels e (b.getD i Stage.zero).cor

theorem Entry.SeesAlike.refl (e : Entry) (a : List Stage) : e.SeesAlike a a := ⟨rfl, fun _ => rfl⟩

theorem Entry.SeesAlike.trans {e : Entry} {a b c : List Stage} (h : e.SeesAlike a b) (g : e.SeesAlike b c) :
    e.SeesAlike a c := ⟨h.length.trans g.length, fun i => (h.cor i).trans (g.cor i)⟩

theorem Entry.SeesAlike.symm {e : Entry} {a b : List Stage} (h : e.SeesAlike a b) : e.SeesAlike b a :=
  ⟨h.length.symm, fun i => (h.cor i).symm⟩

/-- What a programme sees depends on its slots alone. -/
theorem Entry.SeesAlike.of_slots {e f : Entry} {a b : List Stage} (hb : f.base = e.base) (hw : f.width = e.width)
    (h : e.SeesAlike a b) : f.SeesAlike a b :=
  ⟨h.length, fun i => by simpa [channels, hb, hw] using h.cor i⟩

theorem correctedAt_congr {e : Entry} {a b : List Stage} (h : e.SeesAlike a b) (idx back : Nat) :
    correctedAt e a idx back = correctedAt e b idx back := by
  unfold correctedAt
  rw [h.cor]

/-- What is written into the programme's slots is what it sees there, whatever stood in the other slots. -/
theorem channels_write_same (e : Entry) (a b x : List Sample) :
    channels e (writeChannels e a x) = channels e (writeChannels e b x) := by
  unfold channels
  refine List.map_congr_left fun c hc => ?_
  rw [List.mem_range] at hc
  unfold writeChannels
  by_cases h : e.base + c < 16
  · simp [List.getD_eq_getElem?_getD, List.getElem?_map, List.getElem?_range h, Entry.covers, hc]
  · simp [List.getD_eq_getElem?_getD, Nat.le_of_not_lt h]

theorem channels_write_other {e f : Entry} (a x : List Sample) (ha : a.length = 16) (h : f.overlaps e = false) :
    channels f (writeChannels e a x) = channels f a := by
  unfold channels
  refine List.map_congr_left fun c hc => ?_
  rw [List.mem_range] at hc
  have hn : e.covers (f.base + c) = false := by
    unfold Entry.covers
    unfold Entry.overlaps at h
    simp only [Bool.and_eq_false_iff, decide_eq_false_iff_not] at h ⊢
    omega
  unfold writeChannels
  by_cases hi : f.base + c < 16
  · simp [List.getD_eq_getElem?_getD, List.getElem?_map, List.getElem?_range hi, hn]
  · simp [List.getD_eq_getElem?_getD, Nat.le_of_not_lt hi, ha]

theorem getD_set (line : List Stage) (i j : Nat) (st : Stage) :
    (line.set i st).getD j Stage.zero = if i = j ∧ i < line.length then st else line.getD j Stage.zero := by
  simp only [List.getD_eq_getElem?_getD, List.getElem?_set]
  by_cases h : i = j
  · subst h
    by_cases hi : i < line.length
    · simp [hi]
    · simp [hi]
  · simp [h]

/-- A fixing on two lines that look alike leaves the same gain, and lines that look alike. -/
theorem fixOldest_congr {e : Entry} {a b : List Stage} (h : e.SeesAlike a b) (g : Gain) :
    (fixOldest e a g).2 = (fixOldest e b g).2 ∧ e.SeesAlike (fixOldest e a g).1 (fixOldest e b g).1 := by
  unfold fixOldest
  cases g.window with
  | nil => exact ⟨rfl, h⟩
  | cons w rest =>
    simp only [correctedAt_congr h, h.length]
    refine ⟨trivial, by simp [h.length], fun i => ?_⟩
    rw [getD_set, getD_set, h.length]
    split
    · exact channels_write_same _ _ _ _
    · exact h.cor i

/-- A fixing of one programme leaves what a programme with other slots sees. -/
theorem fixOldest_other {e f : Entry} (line : List Stage) (g : Gain)
    (hs : ∀ st ∈ line, st.raw.length = 16 ∧ st.cor.length = 16) (h : f.overlaps e = false) :
    f.SeesAlike line (fixOldest e line g).1 := by
  unfold fixOldest
  cases g.window with
  | nil => exact .refl _ _
  | cons w rest =>
    refine ⟨by simp, fun i => ?_⟩
    rw [getD_set]
    split
    · rename_i hi
      obtain ⟨rfl, hi⟩ := hi
      rw [channels_write_other _ _ _ h]
      rw [List.getD_eq_getElem?_getD, List.getElem?_eq_getElem hi]
      exact (hs _ (List.getElem_mem hi)).2
    · rfl

theorem fixMany_congr {e : Entry} (n : Nat) : ∀ {a b : List Stage} (_ : e.SeesAlike a b) (g : Gain),
    (fixMany e n a g).2 = (fixMany e n b g).2 ∧ e.SeesAlike (fixMany e n a g).1 (fixMany e n b g).1 := by
  induction n with
  | zero => intro a b h g; exact ⟨rfl, h⟩
  | succ n ih =>
    intro a b h g
    obtain ⟨h1, h2⟩ := fixOldest_congr h g
    simp only [fixMany]
    rw [h1]
    exact ih h2 _

theorem fixMany_other {e f : Entry} (h : f.overlaps e = false) (n : Nat) : ∀ (line : List Stage) (g : Gain),
    (∀ st ∈ line, st.raw.length = 16 ∧ st.cor.length = 16) → f.SeesAlike line (fixMany e n line g).1 := by
  induction n with
  | zero => intro line g _; exact .refl _ _
  | succ n ih =>
    intro line g hs
    exact (fixOldest_other line g hs h).trans (ih _ _ (fixOldest_shape e line g hs))

theorem Prog.measureOldest_congr {a b : List Stage} (P : Prog) (h : P.entry.SeesAlike a b) :
    P.measureOldest a = P.measureOldest b := by
  unfold Prog.measureOldest estimateAt
  simp only [correctedAt_congr h, h.length, h.cor]

theorem Prog.closeIfFull_slots (P : Prog) :
    P.closeIfFull.entry.base = P.entry.base ∧ P.closeIfFull.entry.width = P.entry.width := by
  rcases P.closeIfFull_worked.entry with h | ⟨_, h⟩ <;> rw [h] <;> exact ⟨rfl, rfl⟩

theorem Prog.measureOldest_slots (line : List Stage) (P : Prog) :
    (P.measureOldest line).entry.base = P.entry.base ∧ (P.measureOldest line).entry.width = P.entry.width := by
  rcases (P.measureOldest_worked line).entry with h | ⟨_, h⟩ <;> rw [h] <;> exact ⟨rfl, rfl⟩

theorem Prog.flush_congr {a b : List Stage} (n : Nat) : ∀ (P : Prog), P.entry.SeesAlike a b →
    Prog.flush a n P = Prog.flush b n P := by
  induction n with
  | zero => intro P _; rfl
  | succ n ih =>
    intro P h
    rw [Prog.flush, Prog.flush, P.measureOldest_congr h]
    obtain ⟨m1, m2⟩ := P.measureOldest_slots b
    obtain ⟨c1, c2⟩ := (P.measureOldest b).closeIfFull_slots
    exact ih _ (h.of_slots (c1.trans m1) (c2.trans m2))

/-- The boundary work of a programme on two lines that look alike to it (R43, R129). -/
theorem boundaryWork_congr {a b : List Stage} (P : Prog) (h : P.entry.SeesAlike a b) :
    (boundaryWork a P).2 = (boundaryWork b P).2 ∧ P.entry.SeesAlike (boundaryWork a P).1 (boundaryWork b P).1 := by
  obtain ⟨h1, h2⟩ := fixMany_congr P.gain.window.length h P.gain
  unfold boundaryWork fixAll
  refine ⟨?_, h2⟩
  simp only [h1]
  unfold Prog.boundaryMeasure
  obtain ⟨c1, c2⟩ := (P.setGain (fixMany P.entry P.gain.window.length b P.gain).2).closeIfFull_slots
  rw [Prog.flush_congr _ _ (h2.of_slots c1 c2)]

/-- The boundary work of one programme leaves what a programme with other slots sees. -/
theorem boundaryWork_other {f : Entry} (line : List Stage) (P : Prog)
    (hs : ∀ st ∈ line, st.raw.length = 16 ∧ st.cor.length = 16) (h : f.overlaps P.entry = false) :
    f.SeesAlike line (boundaryWork line P).1 := fixMany_other h _ _ _ hs

/-! ### The delay line through takes -/

/-- The delay line has its shape, and the slots of the active programmes lie apart (R12, R17). -/
structure State.Apart (s : State) : Prop where
  shaped : s.lineShaped
  disjoint : s.slotsDisjoint

theorem Prog.active_of_acts {P : Prog} (h : P.takeActs = true) : P.isActive = true := by
  unfold Prog.takeActs at h
  have : P.entry.state = .running := by simpa using (Bool.and_eq_true _ _ |>.mp h).1
  simp [Prog.isActive, this]

theorem State.takeStages_line (s : State) (p : Index) (cause : TakeCause) :
    (s.takeStages p cause).audio.line = (boundaryWork s.audio.line (s.prog p)).1 := by
  unfold State.takeStages
  show ((s.boundary p).closeSegment p .takeNext).audio.line = _
  rw [(State.closeSegment_facts _ p _).2.1]
  rfl

/-- What the stages of a take leave of slots and activity. -/
theorem State.takeStages_slots (s : State) (p q : Index) (cause : TakeCause) (h : (s.prog p).takeActs = true) :
    ((s.takeStages p cause).prog q).entry.base = (s.prog q).entry.base
      ∧ ((s.takeStages p cause).prog q).entry.width = (s.prog q).entry.width
      ∧ ((s.takeStages p cause).prog q).isActive = (s.prog q).isActive := by
  by_cases hq : q = p
  · subst hq
    obtain ⟨n, st, he, hst⟩ := s.takeStages_entry q cause
    have hr : (s.prog q).entry.state = .running := by
      unfold Prog.takeActs at h
      simpa using (Bool.and_eq_true _ _ |>.mp h).1
    unfold Prog.isActive
    rw [he, hst (by rw [hr]; decide)]
    exact ⟨rfl, rfl, rfl⟩
  · rw [State.takeStages_prog_other _ _ _ _ hq]
    exact ⟨rfl, rfl, rfl⟩

theorem State.performTake_slots (s : State) (p q : Index) (cause : TakeCause) :
    ((s.performTake p cause).1.prog q).entry.base = (s.prog q).entry.base
      ∧ ((s.performTake p cause).1.prog q).entry.width = (s.prog q).entry.width
      ∧ ((s.performTake p cause).1.prog q).isActive = (s.prog q).isActive := by
  unfold State.performTake
  split
  · rename_i h
    have hn : ∀ closed, ((s.takeStages p cause).takeNotices p closed).prog q = (s.takeStages p cause).prog q := fun closed => by
      unfold State.takeNotices
      split <;> rfl
    simp only [hn]
    exact s.takeStages_slots p q cause h
  · exact ⟨rfl, rfl, rfl⟩

theorem takes_apart : Takes State.Apart where
  free := fun _ h => ⟨h.shaped, h.disjoint⟩
  raise := fun _ _ _ h => ⟨h.shaped, h.disjoint⟩
  stages := fun s p cause ha h => by
    obtain ⟨h1, h2⟩ := h
    refine ⟨?_, ?_⟩
    · unfold State.lineShaped at h1 ⊢
      rw [State.takeStages_line]
      obtain ⟨l1, _, l3, _⟩ := boundaryWork_facts s.audio.line (s.prog p)
      exact ⟨l1.trans h1.1, l3 h1.2⟩
    · intro a b hab ia ib
      obtain ⟨a1, a2, a3⟩ := s.takeStages_slots p a cause ha
      obtain ⟨b1, b2, b3⟩ := s.takeStages_slots p b cause ha
      have := h2 a b hab (a3 ▸ ia) (b3 ▸ ib)
      unfold Entry.overlaps at this ⊢
      rw [a1, a2, b1, b2]
      exact this

/-- A close depends on nothing but the programme whose segment ends. -/
theorem State.closeSegment_prog_congr (s u : State) (p : Index) (cause : EndCause) (h : u.prog p = s.prog p) :
    (u.closeSegment p cause).prog p = (s.closeSegment p cause).prog p := by
  unfold State.closeSegment
  rw [h]
  cases ho : (s.prog p).queue.onAir with
  | none => exact h
  | some o =>
    simp only [State.updProg_prog_same, State.post_prog_same _ ((s.prog p).resultRecord p o cause) p rfl, h]

/-- The stages of a take depend on nothing but the programme, what it sees of the line, and the position. -/
theorem State.takeStages_congr {s u : State} (p : Index) (cause : TakeCause) (h : u.prog p = s.prog p)
    (hp : u.position = s.position) (hl : (s.prog p).entry.SeesAlike s.audio.line u.audio.line) :
    (u.takeStages p cause).prog p = (s.takeStages p cause).prog p
      ∧ (s.prog p).entry.SeesAlike (s.takeStages p cause).audio.line (u.takeStages p cause).audio.line := by
  obtain ⟨b1, b2⟩ := boundaryWork_congr (s.prog p) hl
  rw [State.takeStages_line, State.takeStages_line, h]
  refine ⟨?_, b2⟩
  unfold State.takeStages
  simp only [State.updProg_prog_same, hp]
  rw [State.closeSegment_prog_congr (s.boundary p) (u.boundary p) p _ (by
    rw [State.boundary_prog_same, State.boundary_prog_same, h, b1])]

/-- A take leaves what every other active programme sees of the delay line, and a take that does not act the whole line. -/
theorem State.performTake_sees (s : State) (p q : Index) (cause : TakeCause) (hs : s.Apart)
    (h : q ≠ p ∨ (s.prog q).takeActs = false) (hq : (s.prog q).isActive = true) :
    (s.prog q).entry.SeesAlike s.audio.line (s.performTake p cause).1.audio.line := by
  unfold State.performTake
  split
  · rename_i ha
    have hn : ((s.takeStages p cause).takeNotices p (s.prog p).hasOnAir).audio = (s.takeStages p cause).audio := by
      unfold State.takeNotices
      split <;> rfl
    simp only [hn, State.takeStages_line]
    rcases h with h | h
    · exact boundaryWork_other _ _ hs.shaped.2 (hs.disjoint q p h hq (Prog.active_of_acts ha))
    · by_cases hqp : q = p
      · rw [hqp, ha] at h
        cases h
      · exact boundaryWork_other _ _ hs.shaped.2 (hs.disjoint q p hqp hq (Prog.active_of_acts ha))
  · exact .refl _ _

/-! ### The log through takes -/

theorem State.post_log (s : State) (r : ResultRecord) :
    ((s.post r).log, (s.post r).discards) = appendRecord (s.log, s.discards) r.judged := by
  unfold State.post
  obtain ⟨_, _, e3, e4, _⟩ := s.escalate_facts r.judged
  unfold State.appendLog appendRecord
  simp only [e3, e4]
  by_cases hl : s.log.length < 48
  · rw [if_neg (by unfold Config.logLimit; omega), if_pos hl]
    split <;> simp [State.raisePlain, State.mapPorts]
  · rw [if_pos (by unfold Config.logLimit; omega), if_neg hl]
    simp [Config.discardLimit, State.raisePlain, State.mapPorts]

/-- The record a take posts when it acts on a programme with a segment on air (R90, R105). -/
def State.takeRecord (s : State) (p : Index) : Option ResultRecord :=
  if (s.prog p).takeActs then (s.prog p).queue.onAir.map fun o =>
    ((boundaryWork s.audio.line (s.prog p)).2.resultRecord p o .takeNext).judged
  else none

theorem State.closeSegment_appends (s : State) (p : Index) (cause : EndCause) :
    ((s.closeSegment p cause).log, (s.closeSegment p cause).discards)
      = (((s.prog p).queue.onAir.map fun o => ((s.prog p).resultRecord p o cause).judged).toList).foldl appendRecord
        (s.log, s.discards) := by
  unfold State.closeSegment
  cases (s.prog p).queue.onAir with
  | none => rfl
  | some o => exact s.post_log _

theorem State.takeStages_log (s : State) (p : Index) (cause : TakeCause) (h : (s.prog p).takeActs = true) :
    ((s.takeStages p cause).log, (s.takeStages p cause).discards)
      = (s.takeRecord p).toList.foldl appendRecord (s.log, s.discards) := by
  have hc := (s.boundary p).closeSegment_appends p .takeNext
  rw [State.boundary_prog_same, (boundaryWork_facts s.audio.line (s.prog p)).2.2.2.1] at hc
  unfold State.takeRecord
  rw [if_pos h]
  exact hc

theorem State.performTake_log (s : State) (p : Index) (cause : TakeCause) :
    ((s.performTake p cause).1.log, (s.performTake p cause).1.discards)
      = (s.takeRecord p).toList.foldl appendRecord (s.log, s.discards) := by
  unfold State.performTake
  split
  · rename_i h
    rw [← s.takeStages_log p cause h]
    unfold State.takeNotices
    simp only
    split <;> rfl
  · rename_i h
    unfold State.takeRecord
    rw [if_neg h]
    rfl

theorem State.takeRecord_congr {s u : State} (p : Index) (h : u.prog p = s.prog p)
    (hl : (s.prog p).isActive = true → (s.prog p).entry.SeesAlike s.audio.line u.audio.line) :
    u.takeRecord p = s.takeRecord p := by
  unfold State.takeRecord
  rw [h]
  split
  · rename_i ha
    rw [(boundaryWork_congr (s.prog p) (hl (Prog.active_of_acts ha))).1]
  · rfl

end Sys2Proof.Machine
end

