-- ==== Sys2Proof/Laws/Notices.lean ====
section
/-! SUPPORT. Which notices a posting and a take raise, for which programmes, and how raisings add up (R97, R106, R139 to R143,
R186). -/

namespace Sys2Proof.Machine

/-! ### Raisings that add up -/

theorem bitOf_getLsbD_iff (p q : Index) : (bitOf p).getLsbD q.val = true ↔ q = p := by
  revert p q
  decide

theorem State.raisedBy.refl (s : State) : s.raisedBy s fun _ _ => False := fun _ _ _ _ _ => by simp

theorem State.raisedBy.trans {s t u : State} {a b : Kind → Index → Prop} (h : s.raisedBy t a) (g : t.raisedBy u b) :
    s.raisedBy u fun k q => a k q ∨ b k q := fun x k h1 h2 h3 => by
  obtain ⟨p1, q1⟩ := h x k h1 h2 h3
  obtain ⟨p2, q2⟩ := g x k h1 h2 h3
  refine ⟨?_, fun q => ?_⟩
  · rw [p2, p1, exists_or, or_assoc]
  · rw [q2, q1, or_assoc]

theorem State.raisedBy.congr {s t : State} {a b : Kind → Index → Prop} (h : s.raisedBy t a) (e : ∀ k q, a k q ↔ b k q) :
    s.raisedBy t b := by
  have : a = b := funext fun k => funext fun q => propext (e k q)
  exact this ▸ h

/-- A state with the same ports. -/
theorem State.raisedBy.of_ports {s t : State} (h : t.ports = s.ports) : s.raisedBy t fun _ _ => False := by
  unfold State.raisedBy State.port
  rw [h]
  exact State.raisedBy.refl s

/-- A notice raised at every port for one programme. -/
theorem State.raiseAll_raisedBy (s : State) (k : Kind) (p : Index) :
    s.raisedBy (s.raiseAll k p) fun j q => j = k ∧ q = p := fun x j _ _ _ => by
  rw [State.raiseAll_port]
  by_cases h : j = k
  · subst h
    rw [Port.raise_get_same]
    refine ⟨by simp, fun q => ?_⟩
    rw [BitVec.getLsbD_or, Bool.or_eq_true, bitOf_getLsbD_iff]
    simp
  · rw [Port.raise_get_other _ _ _ _ h]
    simp [h]

/-- A notice of the log, raised at every port. -/
theorem State.raisePlain_raisedBy (s : State) (k : Kind) (h : k = .logHalf ∨ k = .logDiscard) :
    s.raisedBy (s.raisePlain k) fun _ _ => False := fun x j _ h2 h3 => by
  rw [State.raisePlain_port, Port.raise_get_other _ _ _ _ (by rcases h with rfl | rfl <;> assumption)]
  simp

/-! ### A posting -/

/-- A posting raises, beside the notices of the log, ESCALATED of its programme when the counter goes from 2 to 3 (R139). -/
theorem State.post_raisedBy (s : State) (r : ResultRecord) : s.raisedBy (s.post r) fun k q => k = .escalated
    ∧ (s.prog q).entry.escalation = 2 ∧ ((s.post r).prog q).entry.escalation = 3 := by
  have hn := congrArg (fun P : Prog => P.entry.escalation) (State.post_prog_same s r r.programme rfl)
  have esc : s.raisedBy (s.escalate r.judged) fun k q => k = .escalated ∧ q = r.programme
      ∧ (s.prog r.programme).entry.escalation = 2 ∧ ((s.post r).prog r.programme).entry.escalation = 3 := by
    unfold State.escalate
    dsimp only at hn ⊢
    rw [hn]
    split
    · rename_i h
      refine ((State.raisedBy.of_ports (s := s) rfl).trans (State.raiseAll_raisedBy _ .escalated r.programme)).congr fun k q => ?_
      rw [false_or]
      constructor
      · rintro ⟨rfl, rfl⟩
        exact ⟨rfl, rfl, h⟩
      · rintro ⟨rfl, rfl, _⟩
        exact ⟨rfl, rfl⟩
    · rename_i h
      refine (State.raisedBy.of_ports (s := s) rfl).congr fun k q => ?_
      rw [false_iff]
      rintro ⟨_, _, h'⟩
      exact h h'
  have app : (s.escalate r.judged).raisedBy (s.post r) fun _ _ => False := by
    unfold State.post State.appendLog
    dsimp only
    split
    · exact ((State.raisedBy.of_ports (s := s.escalate r.judged) rfl).trans
        (State.raisePlain_raisedBy _ _ (.inr rfl))).congr (by simp)
    · split
      · exact ((State.raisedBy.of_ports (s := s.escalate r.judged) rfl).trans
          (State.raisePlain_raisedBy _ _ (.inl rfl))).congr (by simp)
      · exact .of_ports rfl
  refine (esc.trans app).congr fun k q => ?_
  rw [or_false]
  constructor
  · rintro ⟨rfl, rfl, h⟩
    exact ⟨rfl, h⟩
  · rintro ⟨rfl, h1, h2⟩
    by_cases hq : q = r.programme
    · subst hq
      exact ⟨rfl, rfl, h1, h2⟩
    · rw [State.post_prog_other s r q hq, h1] at h2
      exact absurd h2 (by decide)

theorem State.logNoticed.refl (s : State) : s.logNoticed s 0 := ⟨by omega, fun x => ⟨⟨.inl, fun h => h.elim id fun h => absurd h.2 (by omega)⟩,
  by simp, rfl, rfl⟩⟩

theorem State.logNoticed.trans {s t u : State} {n m : Nat} (h : s.logNoticed t n) (g : t.logNoticed u m) :
    s.logNoticed u (n + m) := by
  obtain ⟨h1, h2⟩ := h
  obtain ⟨g1, g2⟩ := g
  refine ⟨by omega, fun x => ?_⟩
  obtain ⟨a1, a2, a3, a4⟩ := h2 x
  obtain ⟨b1, b2, b3, b4⟩ := g2 x
  refine ⟨?_, ?_, b3.trans a3, b4.trans a4⟩
  · rw [b1, a1, or_assoc]
    refine or_congr Iff.rfl ⟨fun h => ?_, fun h => ?_⟩
    · omega
    · by_cases hc : 24 ≤ s.log.length + n
      · exact .inl ⟨h.1, hc⟩
      · exact .inr (by omega)
  · rw [b2, a2, or_assoc]
    refine or_congr Iff.rfl ⟨fun h => ?_, fun h => ?_⟩
    · omega
    · by_cases hc : 0 < n ∧ 48 < s.log.length + n
      · exact .inl hc
      · exact .inr (by omega)

/-- A state with the same log and the same notices of it. -/
theorem State.logNoticed.of_same {s t : State} (hl : t.log = s.log)
    (hp : ∀ x, (t.port x).notices.logHalf = (s.port x).notices.logHalf
      ∧ (t.port x).notices.logDiscard = (s.port x).notices.logDiscard) : s.logNoticed t 0 := by
  obtain ⟨h1, h2⟩ := State.logNoticed.refl s
  refine ⟨by rw [hl]; exact h1, fun x => ?_⟩
  rw [(hp x).1, (hp x).2]
  exact h2 x

theorem State.raiseAll_logNoticed (s : State) (k : Kind) (p : Index) (h1 : k ≠ .logHalf) (h2 : k ≠ .logDiscard) :
    s.logNoticed (s.raiseAll k p) 0 := .of_same rfl fun x => by
  rw [State.raiseAll_port]
  exact ⟨Port.raise_get_other .logHalf k _ _ h1.symm, Port.raise_get_other .logDiscard k _ _ h2.symm⟩

theorem discardOne_length (l : List ResultRecord) : (discardOne l).length = l.length - 1 := by
  unfold discardOne
  split
  · rename_i ha
    obtain ⟨a, ha, hp⟩ := List.any_eq_true.mp ha
    exact List.length_eraseP_of_mem ha hp
  · simp

/-- A posting and the log (R140, R142, R143). -/
theorem State.post_logNoticed (s : State) (r : ResultRecord) : s.logNoticed (s.post r) 1 := by
  have esc : s.logNoticed (s.escalate r.judged) 0 := by
    unfold State.escalate
    dsimp only
    split
    · exact (State.logNoticed.of_same (s := s) rfl fun x => ⟨rfl, rfl⟩).trans
        (State.raiseAll_logNoticed _ .escalated _ (by decide) (by decide))
    · exact .of_same rfl fun x => ⟨rfl, rfl⟩
  have app : (s.escalate r.judged).logNoticed (s.post r) 1 := by
    unfold State.post
    generalize s.escalate r.judged = u
    unfold State.appendLog
    by_cases hl : Config.logLimit ≤ u.log.length
    · rw [if_pos hl]
      unfold Config.logLimit at hl
      have := discardOne_length u.log
      refine ⟨by simp only [State.raisePlain_log, List.length_append, List.length_singleton]; omega, fun x => ?_⟩
      rw [State.raisePlain_port]
      refine ⟨?_, ?_, rfl, by simp [Port.raise, NoticeSet.set, NoticeSet.get]; rfl⟩
      · show (u.port x).notices.logHalf.pending = true ↔ _
        simp
        omega
      · simp [Port.raise, NoticeSet.set]
        omega
    · rw [if_neg hl]
      unfold Config.logLimit at hl
      dsimp only
      by_cases hh : (u.log ++ [{ r.judged with discardsBefore := 0 }]).length = Config.logHalf
      · rw [if_pos hh]
        unfold Config.logHalf at hh
        rw [List.length_append, List.length_singleton] at hh
        refine ⟨by simp only [State.raisePlain_log, List.length_append, List.length_singleton]; omega, fun x => ?_⟩
        rw [State.raisePlain_port]
        refine ⟨?_, ?_, by simp [Port.raise, NoticeSet.set, NoticeSet.get]; rfl, rfl⟩
        · simp [Port.raise, NoticeSet.set]
          omega
        · show (u.port x).notices.logDiscard.pending = true ↔ _
          simp
          omega
      · rw [if_neg hh]
        unfold Config.logHalf at hh
        rw [List.length_append, List.length_singleton] at hh
        refine ⟨by simp only [List.length_append, List.length_singleton]; omega, fun x => ?_⟩
        refine ⟨?_, ?_, rfl, rfl⟩
        · show (u.port x).notices.logHalf.pending = true ↔ _
          simp
          omega
        · show (u.port x).notices.logDiscard.pending = true ↔ _
          simp
          omega
  exact (show 0 + 1 = 1 from rfl) ▸ esc.trans app

/-! ### A close, and the stages of a take -/

theorem State.closeSegment_raisedBy (s : State) (p : Index) (cause : EndCause) :
    s.raisedBy (s.closeSegment p cause) fun k q => k = .escalated
      ∧ (s.prog q).entry.escalation = 2 ∧ ((s.closeSegment p cause).prog q).entry.escalation = 3 := by
  unfold State.closeSegment
  cases (s.prog p).queue.onAir with
  | none =>
    refine (State.raisedBy.refl s).congr fun k q => ?_
    rw [false_iff]
    rintro ⟨_, h1, h2⟩
    exact absurd (h1.symm.trans h2) (by decide)
  | some o =>
    refine ((s.post_raisedBy _).trans (.of_ports rfl)).congr fun k q => ?_
    rw [or_false]
    refine and_congr Iff.rfl (and_congr Iff.rfl ?_)
    by_cases hq : q = p
    · subst hq
      rw [State.updProg_prog_same]
    · rw [State.updProg_prog_other _ _ _ _ hq]

theorem State.closeSegment_logNoticed (s : State) (p : Index) (cause : EndCause) :
    s.logNoticed (s.closeSegment p cause) (s.prog p).queue.onAir.toList.length := by
  unfold State.closeSegment
  cases (s.prog p).queue.onAir with
  | none => exact .refl s
  | some o => exact (s.post_logNoticed _).trans (.of_same rfl fun _ => ⟨rfl, rfl⟩)

theorem boundaryWork_counter (line : List Stage) (P : Prog) :
    (boundaryWork line P).2.entry.escalation = P.entry.escalation := by
  rcases (boundaryWork_facts line P).2.2.2.2.1 with h | ⟨_, h⟩
  · exact congrArg (fun e : Entry => e.escalation) h
  · exact (congrArg (fun e : Entry => e.escalation) h).trans rfl

theorem State.boundary_counter (s : State) (p q : Index) :
    ((s.boundary p).prog q).entry.escalation = (s.prog q).entry.escalation := by
  by_cases hq : q = p
  · subst hq
    rw [State.boundary_prog_same, boundaryWork_counter]
  · rw [State.boundary_prog_other _ _ _ hq]

theorem State.takeStages_raisedBy (s : State) (p : Index) (cause : TakeCause) :
    s.raisedBy (s.takeStages p cause) fun k q => k = .escalated
      ∧ (s.prog q).entry.escalation = 2 ∧ ((s.takeStages p cause).prog q).entry.escalation = 3 := by
  refine (((State.raisedBy.of_ports (s := s) (t := s.boundary p) rfl).trans
    (State.closeSegment_raisedBy _ p .takeNext)).trans (.of_ports (t := s.takeStages p cause) rfl)).congr fun k q => ?_
  rw [false_or, or_false, State.boundary_counter]
  refine and_congr Iff.rfl (and_congr Iff.rfl ?_)
  by_cases hq : q = p
  · subst hq
    unfold State.takeStages
    simp only [State.updProg_prog_same, Prog.goOnAir_entry, Prog.applyPending_entry]
  · rw [State.takeStages_prog_other _ _ _ _ hq, State.closeSegment_prog_other _ _ _ _ hq, State.boundary_prog_other _ _ _ hq]

theorem State.takeStages_logNoticed (s : State) (p : Index) (cause : TakeCause) :
    s.logNoticed (s.takeStages p cause) (s.prog p).queue.onAir.toList.length := by
  have h := (State.logNoticed.of_same (s := s) (t := s.boundary p) rfl fun _ => ⟨rfl, rfl⟩).trans
    (State.closeSegment_logNoticed _ p .takeNext)
  rw [State.boundary_prog_same, (boundaryWork_facts s.audio.line (s.prog p)).2.2.2.1, Nat.zero_add] at h
  exact h.trans (.of_same rfl fun _ => ⟨rfl, rfl⟩)

/-! ### A take by itself -/

/-- What a take on `p`, by itself, raises: it is the notices of a cascade that reaches `p` alone. -/
theorem State.performTake_noticed (s : State) (p : Index) (cause : TakeCause) :
    s.takesNoticed (s.performTake p cause).1 fun q => q = p := by
  unfold State.takesNoticed State.performTake
  split
  · rename_i ha
    have hn : ∀ q, ((s.takeStages p cause).takeNotices p (s.prog p).hasOnAir).prog q = (s.takeStages p cause).prog q := fun q => by
      unfold State.takeNotices
      split <;> rfl
    have raised : (s.takeStages p cause).raisedBy ((s.takeStages p cause).takeNotices p (s.prog p).hasOnAir) fun k q =>
        (k = .segStarted ∧ q = p) ∨ (k = .segClosed ∧ q = p ∧ (s.prog p).hasOnAir = true) := by
      unfold State.takeNotices
      dsimp only
      split
      · rename_i hc
        refine ((State.raiseAll_raisedBy _ _ _).trans (State.raiseAll_raisedBy _ _ _)).congr fun k q => ?_
        simp only [hc, and_true]
        exact or_comm
      · rename_i hc
        refine (State.raiseAll_raisedBy _ _ _).congr fun k q => ?_
        simp [hc]
    refine ((s.takeStages_raisedBy p cause).trans raised).congr fun k q => ?_
    dsimp only
    rw [hn]
    cases k <;> simp (config := { contextual := true }) [ha]
  · rename_i ha
    refine (State.raiseAll_raisedBy s .takeMissed p).congr fun k q => ?_
    have ha' : (s.prog p).takeActs = false := by simpa using ha
    cases k <;> simp (config := { contextual := true }) [ha']

theorem State.performTake_logNoticed (s : State) (p : Index) (cause : TakeCause) :
    s.logNoticed (s.performTake p cause).1 (if (s.prog p).takeActs && (s.prog p).hasOnAir then 1 else 0) := by
  unfold State.performTake
  split
  · rename_i ha
    have h1 := s.takeStages_logNoticed p cause
    have h2 : (s.takeStages p cause).logNoticed ((s.takeStages p cause).takeNotices p (s.prog p).hasOnAir) 0 := by
      unfold State.takeNotices
      dsimp only
      split
      · exact (State.raiseAll_logNoticed _ _ _ (by decide) (by decide)).trans
          (State.raiseAll_logNoticed _ _ _ (by decide) (by decide))
      · exact State.raiseAll_logNoticed _ _ _ (by decide) (by decide)
    have h := h1.trans h2
    have e : (s.prog p).queue.onAir.toList.length + 0 = if (s.prog p).takeActs && (s.prog p).hasOnAir then 1 else 0 := by
      rw [ha]
      unfold Prog.hasOnAir
      cases (s.prog p).queue.onAir <;> rfl
    exact e ▸ h
  · rename_i ha
    have h := State.raiseAll_logNoticed s .takeMissed p (by decide) (by decide)
    simpa [ha] using h

/-- The notices of a take on `p` and of the takes after it on other programmes, which leave `p` alone. -/
theorem State.takesNoticed.next {s t u : State} {p : Index} {who : Index → Prop} (h : s.takesNoticed t fun q => q = p)
    (g : t.takesNoticed u who) (others : ∀ q, q ≠ p → t.prog q = s.prog q) (same : u.prog p = t.prog p) (hp : ¬who p) :
    s.takesNoticed u fun q => q = p ∨ who q := by
  refine (State.raisedBy.trans h g).congr fun k q => ?_
  by_cases hq : q = p
  · subst hq
    cases k <;> simp [hp, same]
    exact fun h1 h2 => absurd (h1.symm.trans h2) (by decide)
  · have := others q hq
    cases k <;> simp [hq, this]
    exact fun h1 h2 => absurd (h1.symm.trans h2) (by decide)

end Sys2Proof.Machine
end

