-- ==== Sys2Proof/Laws/Cascades.lean ====
section
/-! SUPPORT. What a cascade of takes leaves of each programme it reaches, in whatever order its pieces come (R94, R95). -/

namespace Sys2Proof.Machine

/-! ### Notices through a cascade -/

theorem State.raiseAll_noticed (s : State) (k : Kind) (i : Index) : (s.raiseAll k i).noticed k i := by
  intro x
  rw [State.raiseAll_port, Port.raise_get_same]
  refine ⟨rfl, ?_⟩
  simp [bitOf_getLsbD]

theorem State.noticed.mono {s t : State} {k : Kind} {i : Index} (h : s.noticed k i) (r : s.onlyRaised t) :
    t.noticed k i := fun x => ⟨((r x).2 k).1 (h x).1, ((r x).2 k).2 _ (h x).2⟩

theorem State.takeNotices_noticed (s : State) (p : Index) (closed : Bool) :
    (s.takeNotices p closed).noticed .segStarted p
      ∧ (closed = true → (s.takeNotices p closed).noticed .segClosed p) := by
  unfold State.takeNotices
  refine ⟨State.raiseAll_noticed _ _ _, fun h => ?_⟩
  subst h
  exact (State.raiseAll_noticed s _ _).mono (State.raiseAll_onlyRaised _ _ _)

/-! ### One take -/

/-- What a take with this cause, made of the programme `p` as it stands in `s`, has left by the state `t`: the record of its
stages with its notices, or TAKE_MISSED alone (R88, R97). -/
structure State.Taken (s t : State) (p : Index) (cause : TakeCause) : Prop where
  acts : (s.prog p).takeActs = true →
    (∃ u, s.SameAudio u ∧ u.prog p = s.prog p ∧ t.prog p = (u.takeStages p cause).prog p)
      ∧ t.noticed .segStarted p ∧ ((s.prog p).hasOnAir = true → t.noticed .segClosed p)
  missed : (s.prog p).takeActs = false → t.prog p = s.prog p ∧ t.noticed .takeMissed p
  apart : s.Apart → (s.prog p).takeActs = true → t.prog p = (s.takeStages p cause).prog p
    ∧ (s.prog p).entry.SeesAlike (s.takeStages p cause).audio.line t.audio.line

theorem State.takeNotices_prog (s : State) (p q : Index) (closed : Bool) : (s.takeNotices p closed).prog q = s.prog q := by
  unfold State.takeNotices
  split <;> rfl

/-- A take touches no other programme (R88). -/
theorem State.performTake_prog_other (s : State) (p q : Index) (cause : TakeCause) (h : q ≠ p) :
    (s.performTake p cause).1.prog q = s.prog q := by
  unfold State.performTake
  split
  · simp only [State.takeNotices_prog]
    exact State.takeStages_prog_other _ _ _ _ h
  · rfl

theorem State.performTake_taken (s : State) (p : Index) (cause : TakeCause) :
    s.Taken (s.performTake p cause).1 p cause := by
  unfold State.performTake
  constructor
  · intro ha
    rw [if_pos ha]
    have hn := (s.takeStages p cause).takeNotices_noticed p (s.prog p).hasOnAir
    exact ⟨⟨s, .refl s, rfl, State.takeNotices_prog _ _ _ _⟩, hn⟩
  · intro ha
    rw [if_neg (by simp [ha])]
    exact ⟨rfl, State.raiseAll_noticed _ _ _⟩
  · intro _ ha
    rw [if_pos ha]
    refine ⟨State.takeNotices_prog _ _ _ _, ?_⟩
    rw [show ((s.takeStages p cause).takeNotices p (s.prog p).hasOnAir).audio = (s.takeStages p cause).audio by
      unfold State.takeNotices; split <;> rfl]
    exact .refl _ _

/-- A take leaves no programme on which a take acts now but did not before. -/
theorem State.performTake_acts (s : State) (p q : Index) (cause : TakeCause)
    (h : (((s.performTake p cause).1).prog q).takeActs = true) : (s.prog q).takeActs = true := by
  by_cases hq : q = p
  · subst hq
    by_contra hn
    unfold State.performTake at h
    rw [if_neg hn] at h
    exact hn h
  · rwa [State.performTake_prog_other _ _ _ _ hq] at h

/-- What is reached once a take has been made was reached before. -/
theorem State.reaches_of_later {s t : State} (ha : ∀ q, (t.prog q).takeActs = true → (s.prog q).takeActs = true)
    (ht : s.SameTriggers t) {a b : Index} (h : t.reaches a b) : s.reaches a b :=
  fun R hR hc => h R hR fun l f hl hla hf => hc l f hl (ha l hla) (by rw [← ht f]; exact hf)

theorem State.reaches.trans {s : State} {a b c : Index} (h : s.reaches a b) (g : s.reaches b c) : s.reaches a c :=
  fun R hR hc => g R (h R hR hc) hc

/-- The work a take brings: the takes of its followers when it acts, and nothing when it is missed (R95). -/
theorem State.performTake_work (s : State) (p : Index) (cause : TakeCause) :
    (s.performTake p cause).2
      = if (s.prog p).takeActs then (s.followers p).map fun q => .take q (.follow p) else [] := by
  unfold State.performTake
  split
  · have : (s.takeStages p cause).followers p = s.followers p := by
      unfold State.followers
      exact List.filter_congr fun q _ => by rw [s.takeStages_triggers p cause q]
    simp only [this]
  · rfl

/-- What a later state has left of `p` does not depend on what was taken between, as long as it left `p`, and what `p` sees of
the delay line, alone. -/
theorem State.Taken.after {s u t : State} {p : Index} {cause : TakeCause} (a : s.SameAudio u) (hp : u.prog p = s.prog p)
    (hl : s.Apart → (s.prog p).isActive = true → u.Apart ∧ (s.prog p).entry.SeesAlike s.audio.line u.audio.line)
    (h : u.Taken t p cause) : s.Taken t p cause := by
  refine ⟨fun ha => ?_, fun ha => ?_, fun hs ha => ?_⟩
  · obtain ⟨⟨v, h1, h2, h3⟩, h4, h5⟩ := h.acts (by rw [hp]; exact ha)
    exact ⟨⟨v, a.trans h1, h2.trans hp, h3⟩, h4, fun hc => h5 (by rw [hp]; exact hc)⟩
  · obtain ⟨h1, h2⟩ := h.missed (by rw [hp]; exact ha)
    exact ⟨h1.trans hp, h2⟩
  · obtain ⟨hu, hv⟩ := hl hs (Prog.active_of_acts ha)
    obtain ⟨h1, h2⟩ := h.apart hu (by rw [hp]; exact ha)
    obtain ⟨c1, c2⟩ := State.takeStages_congr p cause hp a.position hv
    rw [hp] at h2
    exact ⟨h1.trans c1, c2.trans h2⟩

/-- What a take has left of a programme stays through work that leaves the programme, and what it sees of the delay line,
alone. -/
theorem State.Taken.before {s u t : State} {p : Index} {cause : TakeCause} (h : s.Taken u p cause)
    (hp : t.prog p = u.prog p) (r : u.onlyRaised t)
    (hl : s.Apart → (s.prog p).takeActs = true → (s.prog p).entry.SeesAlike u.audio.line t.audio.line) :
    s.Taken t p cause := by
  refine ⟨fun ha => ?_, fun ha => ?_, fun hs ha => ?_⟩
  · obtain ⟨⟨v, h1, h2, h3⟩, h4, h5⟩ := h.acts ha
    exact ⟨⟨v, h1, h2, hp.trans h3⟩, h4.mono r, fun hc => (h5 hc).mono r⟩
  · obtain ⟨h1, h2⟩ := h.missed ha
    exact ⟨hp.trans h1, h2.mono r⟩
  · obtain ⟨h1, h2⟩ := h.apart hs ha
    exact ⟨hp.trans h1, h2.trans (hl hs ha)⟩

/-! ### The cascade -/

/-- The programme a piece of work is about. -/
def Work.prog : Work → Index
  | .take p _ => p
  | .auto p => p

theorem Index.nodup_length (l : List Index) (h : l.Nodup) : l.length ≤ 8 := by
  have := h.length_le_card
  simpa [Index] using this

/-- The takes `made` of a cascade that started with `work` on `s` and ended in `t`: each leaves what its take leaves; the
followers of each that acts are among them, and nothing is that was neither waiting nor follows one that acts; every other
programme is left alone, and what a programme on which no take acts sees of the delay line stays. `made` is in the order of the
takes: no programme comes before its leader, and the records of the takes reach the log in this order (R95); each is reached from
one that was waiting. -/
structure State.Cascaded (s t : State) (work : List Work) (made : List (Index × TakeCause)) : Prop where
  starts : ∀ p cause, Work.take p cause ∈ work → (p, cause) ∈ made
  taken : ∀ m ∈ made, s.Taken t m.1 m.2
  followers : ∀ m ∈ made, (s.prog m.1).takeActs = true → ∀ q, (s.prog q).entry.trigger = .follow m.1 →
    (q, .follow m.1) ∈ made
  source : ∀ m ∈ made, Work.take m.1 m.2 ∈ work ∨ ∃ l ∈ made, (s.prog l.1).takeActs = true
    ∧ (s.prog m.1).entry.trigger = .follow l.1 ∧ m.2 = .follow l.1
  others : ∀ q, (∀ cause, (q, cause) ∉ made) → t.prog q = s.prog q
  sees : s.Apart → ∀ q, (∀ cause, (q, cause) ∈ made → (s.prog q).takeActs = false) → (s.prog q).isActive = true →
    (s.prog q).entry.SeesAlike s.audio.line t.audio.line
  reached : ∀ m ∈ made, ∃ w ∈ work, s.reaches w.prog m.1
  once : (made.map (·.1)).Nodup
  order : made.Pairwise fun a b => (s.prog a.1).entry.trigger ≠ .follow b.1
  log : s.Apart → (t.log, t.discards) = (made.filterMap fun m => s.takeRecord m.1).foldl appendRecord (s.log, s.discards)
  notices : s.takesNoticed t fun q => ∃ cause, (q, cause) ∈ made
  marks : s.logNoticed t (made.countP fun m => (s.prog m.1).takeActs && (s.prog m.1).hasOnAir)

theorem State.Cascaded.empty (s : State) : s.Cascaded s [] [] :=
  ⟨by simp, by simp, by simp, by simp, fun _ _ => rfl, fun _ _ _ _ => .refl _ _, by simp, List.nodup_nil, .nil, fun _ => rfl,
    (State.raisedBy.refl s).congr fun k q => by
      cases k <;> simp
      exact fun h1 h2 => absurd (h1.symm.trans h2) (by decide), .refl s⟩

/-- The one lemma about a cascade of takes. `R` holds of the programmes the cascade can reach and `starts` of those it starts
with, none of which follows one it can reach; `done` are the programmes already taken. -/
theorem State.cascade_made (tr : Index → Trigger) (R starts : Index → Prop)
    (closed : ∀ a b, R a → tr b = .follow a → R b) (free : ∀ r, starts r → ∀ a, R a → tr r ≠ .follow a) (fuel : Nat) :
    ∀ (s : State) (work : List Work) (done : List Index), (∀ q, (s.prog q).entry.trigger = tr q) →
      (∀ w ∈ work, w.isTake = true) → (done ++ work.map Work.prog).Nodup →
      (∀ q ∈ done ++ work.map Work.prog, R q ∧ (starts q ∨ ∃ l ∈ done, tr q = .follow l)) → 8 ≤ done.length + fuel →
      ∃ made, s.Cascaded (s.cascade fuel work) work made ∧ (∀ m ∈ made, m.1 ∉ done) ∧ ∀ m ∈ made, R m.1 := by
  induction fuel with
  | zero =>
    intro s work done _ _ nd _ hf
    have hl := Index.nodup_length _ nd
    rw [List.length_append, List.length_map] at hl
    obtain rfl : work = [] := List.length_eq_zero_iff.mp (by omega)
    exact ⟨[], State.Cascaded.empty s, by simp, by simp⟩
  | succ fuel ih =>
    intro s work done htr htake nd hreach hf
    have perm := arrangeBy_perm Work.number s.freeCount work
    rw [State.cascade]
    cases harr : arrangeBy Work.number s.freeCount work with
    | nil =>
      rw [harr] at perm
      obtain rfl : work = [] := perm.nil_eq.symm
      exact ⟨[], State.Cascaded.empty s, by simp, by simp⟩
    | cons w rest =>
      rw [harr] at perm
      cases w with
      | auto p => exact absurd (htake _ (perm.mem_iff.mp List.mem_cons_self)) (by simp [Work.isTake])
      | take p cause =>
        simp only [State.perform]
        -- the state the take is made of: at most the counter of the free order differs
        generalize hs0 : (if rest.isEmpty then s else s.useFree) = s0
        have hprog0 : ∀ q, s0.prog q = s.prog q := by intro q; rw [← hs0]; split <;> rfl
        have haud0 : s.SameAudio s0 := by rw [← hs0]; split <;> exact .of_eq rfl
        have hline0 : s0.audio = s.audio := by rw [← hs0]; split <;> rfl
        have hlog0 : (s0.log, s0.discards) = (s.log, s.discards) := by rw [← hs0]; split <;> rfl
        have hapart0 : s.Apart → s0.Apart := by
          intro h
          rw [← hs0]
          split
          · exact h
          · exact takes_apart.free _ h
        have htr0 : ∀ q, (s0.prog q).entry.trigger = tr q := fun q => by rw [hprog0]; exact htr q
        have pieces := s0.performTake_taken p cause
        have others := fun q hq => (s0.performTake_prog_other p q cause hq).trans (hprog0 q)
        have hwork := s0.performTake_work p cause
        have htrig1 : ∀ q, (((s0.performTake p cause).1).prog q).entry.trigger = tr q := fun q =>
          (((takes_triggers s0).performTake s0 p cause (fun _ => rfl)).1 q).trans (htr0 q)
        have haud1 : s0.SameAudio (s0.performTake p cause).1 := ((takes_audio s0).performTake s0 p cause (.refl s0)).1
        have hapart1 : s0.Apart → (s0.performTake p cause).1.Apart := fun h => (takes_apart.performTake s0 p cause h).1
        have hacts1 : ∀ q, (((s0.performTake p cause).1).prog q).takeActs = true → (s.prog q).takeActs = true := fun q h => by
          rw [← hprog0]
          exact s0.performTake_acts p q cause h
        have hslots1 := s0.performTake_slots p p cause
        have hsees1 : s.Apart → ∀ q, q ≠ p ∨ (s.prog q).takeActs = false → (s.prog q).isActive = true →
            (s.prog q).entry.SeesAlike s.audio.line (s0.performTake p cause).1.audio.line := fun h q hq ha => by
          have := s0.performTake_sees p q cause (hapart0 h) (by rw [hprog0]; exact hq) (by rw [hprog0]; exact ha)
          rw [hprog0, hline0] at this
          exact this
        have hlog1 : ((s0.performTake p cause).1.log, (s0.performTake p cause).1.discards)
            = (s.takeRecord p).toList.foldl appendRecord (s.log, s.discards) := by
          rw [s0.performTake_log p cause, hlog0, State.takeRecord_congr p (hprog0 p) fun _ => by rw [hline0]; exact .refl _ _]
        have hnot1 : s.takesNoticed (s0.performTake p cause).1 fun q => q = p := by
          have h := (State.raisedBy.of_ports (s := s) (t := s0) (by rw [← hs0]; split <;> rfl)).trans
            (s0.performTake_noticed p cause)
          refine h.congr fun k q => ?_
          rw [false_or, hprog0]
        have hmark1 : s.logNoticed (s0.performTake p cause).1
            (if (s.prog p).takeActs && (s.prog p).hasOnAir then 1 else 0) := by
          have h := s0.performTake_logNoticed p cause
          rw [hprog0] at h
          have h' := (State.logNoticed.of_same (s := s) (t := s0) (by rw [← hs0]; split <;> rfl)
            (fun _ => by rw [← hs0]; split <;> exact ⟨rfl, rfl⟩)).trans h
          rw [Nat.zero_add] at h'
          exact h'
        have htake1 := ((takes_audio s0).performTake s0 p cause (.refl s0)).2
        generalize hs1 : (s0.performTake p cause).1 = s1 at *
        generalize hnew : (s0.performTake p cause).2 = new at *
        -- what is in the new work
        have hnewmem : ∀ v ∈ new, ∃ q, tr q = .follow p ∧ v = .take q (.follow p) := by
          intro v hv
          rw [hwork] at hv
          split at hv
          · obtain ⟨q, hq, rfl⟩ := List.mem_map.mp hv
            rw [State.mem_followers, htr0] at hq
            exact ⟨q, hq, rfl⟩
          · exact absurd hv (List.not_mem_nil)
        have hnewnd : (new.map Work.prog).Nodup := by
          rw [hwork]
          split
          · rw [List.map_map]
            refine List.Nodup.map ?_ (List.Nodup.filter _ (by decide))
            intro a b h
            exact h
          · exact List.nodup_nil
        -- the programmes done and waiting, `p` first
        have permp : (done ++ work.map Work.prog).Perm (p :: (done ++ rest.map Work.prog)) := by
          refine (List.Perm.append_left done (perm.symm.map Work.prog)).trans ?_
          exact List.perm_middle
        have nd1 := permp.nodup_iff.mp nd
        rw [List.nodup_cons] at nd1
        have hp := hreach p (permp.mem_iff.mpr List.mem_cons_self)
        have hfresh : ∀ q, tr q = .follow p → q ∉ done ++ work.map Work.prog := by
          intro q hq hm
          rcases (hreach q hm).2 with hst | ⟨l, hl, hlq⟩
          · exact free q hst p hp.1 hq
          · rw [hq] at hlq
            injection hlq with hlq
            subst hlq
            exact nd1.1 (List.mem_append_left _ hl)
        obtain ⟨made, ihc, ihd, ihr⟩ := ih s1 (rest ++ new) (p :: done) htrig1
          (fun v hv => by
            rcases List.mem_append.mp hv with hv | hv
            · exact htake v (perm.mem_iff.mp (List.mem_cons_of_mem _ hv))
            · exact htake1 v hv)
          (by
            rw [List.map_append, List.cons_append, ← List.append_assoc, ← List.cons_append]
            refine List.nodup_append.mpr ⟨List.nodup_cons.mpr nd1, hnewnd, ?_⟩
            intro a ha b hb hab
            subst hab
            obtain ⟨v, hv, rfl⟩ := List.mem_map.mp hb
            obtain ⟨q, hq, rfl⟩ := hnewmem v hv
            exact hfresh q hq (permp.mem_iff.mpr ha))
          (fun q hq => by
            rw [List.map_append, List.cons_append, ← List.append_assoc, ← List.cons_append] at hq
            rcases List.mem_append.mp hq with hq | hq
            · obtain ⟨h1, h2⟩ := hreach q (permp.mem_iff.mpr hq)
              refine ⟨h1, h2.imp id ?_⟩
              rintro ⟨l, hl, hlq⟩
              exact ⟨l, List.mem_cons_of_mem _ hl, hlq⟩
            · obtain ⟨v, hv, rfl⟩ := List.mem_map.mp hq
              obtain ⟨f, hf, rfl⟩ := hnewmem v hv
              exact ⟨closed p f hp.1 hf, .inr ⟨p, List.mem_cons_self, hf⟩⟩)
          (by rw [List.length_cons]; omega)
        have hround : s1.onlyRaised (s1.cascade fuel (rest ++ new)) :=
          ((takes_around s1).cascade fuel s1 (rest ++ new) (fun v hv => by
            rcases List.mem_append.mp hv with hv | hv
            · exact htake v (perm.mem_iff.mp (List.mem_cons_of_mem _ hv))
            · exact htake1 v hv) (.refl s1)).raised
        generalize s1.cascade fuel (rest ++ new) = t at *
        have hne : ∀ m ∈ made, m.1 ≠ p := fun m hm he => ihd m hm (he ▸ List.mem_cons_self)
        have hacts : ∀ m ∈ made, (s1.prog m.1).takeActs = (s.prog m.1).takeActs := fun m hm => by
          rw [others _ (hne m hm)]
        have hpt : t.prog p = s1.prog p := ihc.others p fun c hc => hne _ hc rfl
        have hsame : ∀ m ∈ made, s.Apart → (s.prog m.1).isActive = true →
            s1.Apart ∧ (s.prog m.1).entry.SeesAlike s.audio.line s1.audio.line := fun m hm h ha =>
          ⟨hapart1 (hapart0 h), hsees1 h _ (.inl (hne m hm)) ha⟩
        refine ⟨(p, cause) :: made, ⟨fun q c hqc => ?_, fun m hm => ?_, fun m hm ha f hf => ?_, fun m hm => ?_,
          fun q hq => ?_, fun h q hq ha => ?_, fun m hm => ?_, ?_, ?_, fun h => ?_, ?_, ?_⟩, fun m hm => ?_, fun m hm => ?_⟩
        · rcases List.mem_cons.mp (perm.mem_iff.mpr hqc) with heq | hrest
          · injection heq with h1 h2
            rw [h1, h2]
            exact List.mem_cons_self
          · exact List.mem_cons_of_mem _ (ihc.starts q c (List.mem_append_left _ hrest))
        · rcases List.mem_cons.mp hm with rfl | hm
          · refine (pieces.before hpt hround fun h ha => ?_).after haud0 (hprog0 p) fun h _ =>
              ⟨hapart0 h, by rw [hline0]; exact .refl _ _⟩
            exact (ihc.sees (hapart1 h) p (fun c hc => absurd rfl (hne _ hc))
              (by rw [hslots1.2.2]; exact Prog.active_of_acts ha)).of_slots hslots1.1.symm hslots1.2.1.symm
          · exact (ihc.taken m hm).after (haud0.trans haud1) (others _ (hne m hm)) (hsame m hm)
        · rw [htr] at hf
          rcases List.mem_cons.mp hm with rfl | hm
          · refine List.mem_cons_of_mem _ (ihc.starts f (.follow p) (List.mem_append_right _ ?_))
            rw [hwork, if_pos (by rw [hprog0]; exact ha)]
            exact List.mem_map.mpr ⟨f, (State.mem_followers _ _ _).mpr (by rw [htr0]; exact hf), rfl⟩
          · exact List.mem_cons_of_mem _ (ihc.followers m hm (by rw [hacts m hm]; exact ha) f (by rw [htrig1]; exact hf))
        · rcases List.mem_cons.mp hm with rfl | hm
          · exact .inl (perm.mem_iff.mp List.mem_cons_self)
          · rcases ihc.source m hm with hw | ⟨l, hl, hla, hlt, hlc⟩
            · rcases List.mem_append.mp hw with hw | hw
              · exact .inl (perm.mem_iff.mp (List.mem_cons_of_mem _ hw))
              · right
                refine ⟨(p, cause), List.mem_cons_self, ?_⟩
                have hpa : (s0.prog p).takeActs = true := by
                  rw [hwork] at hw
                  by_contra hn
                  rw [if_neg hn] at hw
                  exact List.not_mem_nil hw
                obtain ⟨q, hq, hqe⟩ := hnewmem _ hw
                injection hqe with h1 h2
                refine ⟨by rw [← hprog0]; exact hpa, ?_, h2⟩
                rw [htr, h1]
                exact hq
            · rw [htrig1] at hlt
              exact .inr ⟨l, List.mem_cons_of_mem _ hl, by rw [← hacts l hl]; exact hla, by rw [htr]; exact hlt, hlc⟩
        · have hqp : q ≠ p := by
            rintro rfl
            exact hq cause List.mem_cons_self
          exact (ihc.others q fun c hc => hq c (List.mem_cons_of_mem _ hc)).trans (others q hqp)
        · by_cases hqp : q = p
          · subst hqp
            have hn := hq cause List.mem_cons_self
            have h1 := ihc.sees (hapart1 (hapart0 h)) q (fun c hc => absurd rfl (hne _ hc)) (by rw [hslots1.2.2, hprog0]; exact ha)
            have h2 := h1.of_slots (f := (s.prog q).entry) (by rw [hslots1.1, hprog0]) (by rw [hslots1.2.1, hprog0])
            exact (hsees1 h q (.inr hn) ha).trans h2
          · have h1 := ihc.sees (hapart1 (hapart0 h)) q
              (fun c hc => by rw [others q hqp]; exact hq c (List.mem_cons_of_mem _ hc)) (by rw [others q hqp]; exact ha)
            rw [others q hqp] at h1
            exact (hsees1 h q (.inl hqp) ha).trans h1
        · rcases List.mem_cons.mp hm with rfl | hm
          · exact ⟨_, perm.mem_iff.mp List.mem_cons_self, fun R hR _ => hR⟩
          · obtain ⟨w, hw, hr⟩ := ihc.reached m hm
            have hr' : s.reaches w.prog m.1 := State.reaches_of_later hacts1 (fun q => (htrig1 q).trans (htr q).symm) hr
            rcases List.mem_append.mp hw with hw | hw
            · exact ⟨w, perm.mem_iff.mp (List.mem_cons_of_mem _ hw), hr'⟩
            · refine ⟨_, perm.mem_iff.mp List.mem_cons_self, State.reaches.trans (fun R hR hc => ?_) hr'⟩
              have hpa : (s.prog p).takeActs = true := by
                rw [hwork, hprog0] at hw
                by_contra hn
                rw [if_neg hn] at hw
                exact List.not_mem_nil hw
              obtain ⟨q, hq, rfl⟩ := hnewmem w hw
              exact hc p q hR hpa ((htr q).trans hq)
        · rw [List.map_cons, List.nodup_cons]
          refine ⟨fun hm => ?_, ihc.once⟩
          obtain ⟨m, hm, he⟩ := List.mem_map.mp hm
          exact hne m hm he
        · refine List.pairwise_cons.mpr ⟨fun m hm hf => ?_, ihc.order.imp fun {a b} hab => ?_⟩
          · rw [htr] at hf
            rcases hp.2 with hst | ⟨l, hl, hlp⟩
            · exact free p hst m.1 (ihr m hm) hf
            · rw [hf] at hlp
              injection hlp with hlp
              exact ihd m hm (hlp ▸ List.mem_cons_of_mem _ hl)
          · rw [htrig1] at hab
            rwa [htr]
        · have hrec : (made.filterMap fun m => s1.takeRecord m.1) = made.filterMap fun m => s.takeRecord m.1 :=
            List.filterMap_congr fun m hm => State.takeRecord_congr m.1 (others _ (hne m hm)) fun ha => hsees1 h _ (.inl (hne m hm)) ha
          have hl := ihc.log (hapart1 (hapart0 h))
          rw [hrec, hlog1, ← List.foldl_append] at hl
          rw [hl, List.filterMap_cons]
          cases s.takeRecord p <;> rfl
        · refine (hnot1.next ihc.notices (fun q hq => others q hq) hpt fun ⟨c, hc⟩ => hne _ hc rfl).congr fun k q => ?_
          simp only [List.mem_cons, Prod.mk.injEq, exists_or, exists_and_left, exists_eq, and_true]
        · have h := hmark1.trans ihc.marks
          rw [List.countP_congr (q := fun m => (s.prog m.1).takeActs && (s.prog m.1).hasOnAir)
            fun m hm => by rw [others _ (hne m hm)]] at h
          rw [List.countP_cons, Nat.add_comm]
          exact h
        · rcases List.mem_cons.mp hm with rfl | hm
          · exact fun hd => nd1.1 (List.mem_append_left _ hd)
          · exact fun hd => ihd m hm (List.mem_cons_of_mem _ hd)
        · rcases List.mem_cons.mp hm with rfl | hm
          · exact hp.1
          · exact ihr m hm

/-- A take on `p` with its cascade (R88, R95). -/
theorem State.take_made (s : State) (p : Index) (cause : TakeCause) (h : s.followAcyclic) :
    ∃ made, s.Cascaded (s.take p cause) [.take p cause] made := by
  obtain ⟨rank, hr⟩ := h
  obtain ⟨made, hm, _⟩ := State.cascade_made (fun q => (s.prog q).entry.trigger) (fun a => rank p ≤ rank a) (· = p)
    (fun a b ha hb => ha.trans (hr b a hb).le)
    (fun r hp a ha hf => by
      subst hp
      have := hr r a hf
      omega)
    cascadeLimit s [.take p cause] [] (fun _ => rfl) (by simp [Work.isTake]) (by simp)
    (fun q hq => by
      obtain rfl : q = p := by simpa [Work.prog] using hq
      exact ⟨Nat.le_refl _, .inl rfl⟩)
    (by simp [cascadeLimit])
  exact ⟨made, hm⟩

/-- A take that acts leaves on its own programme what its stages leave, and a take that does not leaves TAKE_MISSED alone
(R88, R97). -/
theorem State.take_root (s : State) (p : Index) (cause : TakeCause) (h : s.followAcyclic) :
    ((s.prog p).takeActs = true → (s.take p cause).prog p = (s.takeStages p cause).prog p)
      ∧ ((s.prog p).takeActs = false → s.take p cause = s.raiseAll .takeMissed p) := by
  have unfold1 : s.take p cause = (s.performTake p cause).1.cascade 63 (s.performTake p cause).2 := by
    unfold State.take cascadeLimit
    rw [State.cascade]
    simp [arrangeBy, insertByKey, State.perform]
  have hwork := s.performTake_work p cause
  constructor
  · intro ha
    have hprog : ∀ q, ((s.performTake p cause).1.prog q) = (s.takeStages p cause).prog q := by
      intro q
      unfold State.performTake
      rw [if_pos ha]
      exact State.takeNotices_prog _ _ _ _
    rw [if_pos ha] at hwork
    have htr : ∀ q, ((s.performTake p cause).1.prog q).entry.trigger = (s.prog q).entry.trigger := fun q =>
      ((takes_triggers s).performTake s p cause (fun _ => rfl)).1 q
    have hfol : ∀ w ∈ (s.performTake p cause).2, ∃ q, (s.prog q).entry.trigger = .follow p ∧ w = .take q (.follow p) := by
      intro w hw
      rw [hwork] at hw
      obtain ⟨q, hq, rfl⟩ := List.mem_map.mp hw
      exact ⟨q, (State.mem_followers _ _ _).mp hq, rfl⟩
    obtain ⟨rank, hr⟩ := h
    obtain ⟨made, hm, hd, _⟩ := State.cascade_made (fun q => (s.prog q).entry.trigger) (fun a => rank p ≤ rank a) (· = p)
      (fun a b ha hb => ha.trans (hr b a hb).le)
      (fun r hp a ha hf => by
        subst hp
        have := hr r a hf
        omega)
      63 (s.performTake p cause).1 (s.performTake p cause).2 [p] htr
      (fun w hw => by obtain ⟨q, _, rfl⟩ := hfol w hw; rfl)
      (by
        rw [hwork, List.map_map, List.singleton_append, List.nodup_cons]
        refine ⟨fun hp => ?_, List.Nodup.map (fun a b h => h) (List.Nodup.filter _ (by decide))⟩
        obtain ⟨q, hq, he⟩ := List.mem_map.mp hp
        obtain rfl : q = p := he
        exact absurd (hr _ _ ((State.mem_followers _ _ _).mp hq)) (Nat.lt_irrefl _))
      (fun q hq => by
        rcases List.mem_append.mp hq with hq | hq
        · obtain rfl := List.mem_singleton.mp hq
          exact ⟨Nat.le_refl _, .inl rfl⟩
        · obtain ⟨w, hw, rfl⟩ := List.mem_map.mp hq
          obtain ⟨f, hf, rfl⟩ := hfol w hw
          exact ⟨(hr _ _ hf).le, .inr ⟨p, List.mem_singleton.mpr rfl, hf⟩⟩)
      (by simp)
    rw [unfold1, hm.others p fun c hc => hd _ hc (List.mem_singleton.mpr rfl)]
    exact hprog p
  · intro ha
    rw [unfold1]
    unfold State.performTake
    rw [if_neg (by simp [ha])]
    rfl

/-- The takes of an active-going edge with their cascade (R94, R95). -/
theorem State.edgeTakes_made (s : State) (k : Index) :
    ∃ made, s.Cascaded (s.edgeTakes k) ((s.triggered k).map fun q => .take q (.cue k)) made := by
  have hm : ∀ q, q ∈ s.triggered k ↔ (s.prog q).entry.trigger = .cue k := fun q => by
    simp [State.triggered, mem_allIndices]
  have hw : ((s.triggered k).map fun q => Work.take q (.cue k)).map Work.prog = s.triggered k := by
    rw [List.map_map]
    exact List.map_id _
  obtain ⟨made, h, _⟩ := State.cascade_made (fun q => (s.prog q).entry.trigger) (fun _ => True)
    (fun q => (s.prog q).entry.trigger = .cue k) (fun _ _ _ _ => trivial) (fun r hr a _ hf => by rw [hr] at hf; cases hf)
    cascadeLimit s ((s.triggered k).map fun q => .take q (.cue k)) [] (fun _ => rfl)
    (fun w hw => by obtain ⟨q, _, rfl⟩ := List.mem_map.mp hw; rfl)
    (by rw [hw]; exact List.Nodup.filter _ (by decide))
    (fun q hq => ⟨trivial, .inl ((hm q).mp (by rw [hw] at hq; exact hq))⟩)
    (by simp [cascadeLimit])
  exact ⟨made, h⟩

/-! ### What a cascade has made, said of the programmes it reaches -/

/-- A take is made of exactly the programmes reached from one that was waiting (R95). -/
theorem State.Cascaded.mem_iff {s t : State} {work : List Work} {made : List (Index × TakeCause)}
    (C : s.Cascaded t work made) (hw : ∀ w ∈ work, w.isTake = true) (q : Index) :
    (∃ c, (q, c) ∈ made) ↔ ∃ w ∈ work, s.reaches w.prog q := by
  constructor
  · rintro ⟨c, h⟩
    exact C.reached _ h
  · rintro ⟨w, hwm, hr⟩
    refine hr (fun q => ∃ c, (q, c) ∈ made) ?_ ?_
    · cases w with
      | take p c => exact ⟨c, C.starts p c hwm⟩
      | auto p => exact absurd (hw _ hwm) (by simp [Work.isTake])
    · rintro l f ⟨c, hl⟩ ha hf
      exact ⟨_, C.followers _ hl ha f hf⟩

/-- A follower that was not waiting is taken with the cause FOLLOW of its leader. -/
theorem State.Cascaded.cause_of {s t : State} {work : List Work} {made : List (Index × TakeCause)}
    (C : s.Cascaded t work made) {q l : Index} {c : TakeCause} (hm : (q, c) ∈ made)
    (hf : (s.prog q).entry.trigger = .follow l) (hw : ∀ c, Work.take q c ∉ work) : c = .follow l := by
  rcases C.source _ hm with h | ⟨m, _, _, h1, h2⟩
  · exact absurd h (hw _)
  · dsimp only at h1 h2
    rw [h1] at hf
    injection hf with hf
    rw [h2, hf]

/-- The record a take posts is the newest that its stages leave in the log. -/
theorem State.takeStages_last (s : State) (q : Index) (c : TakeCause) (r : ResultRecord) (h : s.takeRecord q = some r) :
    ∃ n, (s.takeStages q c).log.getLast? = some { r with discardsBefore := n } := by
  have ha : (s.prog q).takeActs = true := by
    unfold State.takeRecord at h
    by_contra hn
    rw [if_neg hn] at h
    cases h
  have := s.takeStages_log q c ha
  rw [h] at this
  simp only [Option.toList, List.foldl] at this
  unfold appendRecord at this
  split at this
  · exact ⟨0, by rw [(Prod.mk.inj this).1]; simp⟩
  · exact ⟨1, by rw [(Prod.mk.inj this).1]; simp⟩

theorem State.takeRecord_programme (s : State) (q : Index) (r : ResultRecord) (h : s.takeRecord q = some r) :
    r.programme = q := by
  unfold State.takeRecord at h
  split at h
  · obtain ⟨o, _, rfl⟩ := Option.map_eq_some_iff.mp h
    rfl
  · cases h

theorem State.takeRecord_isSome (s : State) (q : Index) :
    (s.takeRecord q).isSome = true ↔ (s.prog q).takeActs = true ∧ (s.prog q).hasOnAir = true := by
  unfold State.takeRecord Prog.hasOnAir
  split <;> simp_all

/-- A cascade posts one record for each programme it reaches on which a take acts with a segment on air, its leader's before it
(R90, R95, R140). -/
theorem State.Cascaded.posted {s t : State} {work : List Work} {made : List (Index × TakeCause)}
    (C : s.Cascaded t work made) (hw : ∀ w ∈ work, w.isTake = true) (hs : s.Apart) (who : Index → Prop)
    (hwho : ∀ q, who q ↔ ∃ w ∈ work, s.reaches w.prog q) : s.takesPosted t who := by
  refine ⟨made.filterMap fun m => s.takeRecord m.1, C.log hs, fun q => ?_, ?_, ?_, ?_, ?_⟩
  · rw [hwho, ← C.mem_iff hw]
    constructor
    · rintro ⟨r, hr, rfl⟩
      obtain ⟨m, hm, hrec⟩ := List.mem_filterMap.mp hr
      have hp := s.takeRecord_programme m.1 r hrec
      refine ⟨⟨m.2, hp ▸ hm⟩, (s.takeRecord_isSome r.programme).mp ?_⟩
      rw [hp, hrec]
      rfl
    · rintro ⟨⟨c, hc⟩, h⟩
      obtain ⟨r, hr⟩ := Option.isSome_iff_exists.mp ((s.takeRecord_isSome q).mpr h)
      exact ⟨r, List.mem_filterMap.mpr ⟨_, hc, hr⟩, s.takeRecord_programme q r hr⟩
  · have : ((made.filterMap fun m => s.takeRecord m.1).map (·.programme)).Sublist (made.map (·.1)) := by
      generalize made = l
      induction l with
      | nil => exact List.Sublist.slnil
      | cons m l ih =>
        rw [List.filterMap_cons]
        cases h : s.takeRecord m.1 with
        | none => exact ih.cons _
        | some r =>
          simp only [List.map_cons, s.takeRecord_programme m.1 r h]
          exact ih.cons_cons _
    exact this.nodup C.once
  · intro r hr c
    obtain ⟨m, _, hrec⟩ := List.mem_filterMap.mp hr
    have hp := s.takeRecord_programme m.1 r hrec
    exact s.takeStages_last _ c r (hp ▸ hrec)
  · refine List.Pairwise.filterMap _ ?_ C.order
    intro a b hab r hr r' hr'
    rw [s.takeRecord_programme _ _ hr, s.takeRecord_programme _ _ hr']
    exact hab
  · rw [List.length_filterMap_eq_countP, List.countP_congr (q := fun m => (s.prog m.1).takeActs && (s.prog m.1).hasOnAir)
      fun m _ => by rw [Bool.and_eq_true, s.takeRecord_isSome]]
    exact C.marks

/-- An active-going edge, but for its report in the line, the ports' flags and CUE_EDGE, is the takes it triggers (R94, R172,
R173). -/
theorem State.acceptEdge_takes (s : State) (k : Index) (h : ((s.line k).raw != (s.line k).inverted) = true) :
    ∃ u : State, s.acceptEdge k = u.edgeTakes k ∧ u.progs = s.progs ∧ u.audio = s.audio ∧ u.log = s.log
      ∧ u.discards = s.discards := by
  have hid : Prog.tallyChange k true = id := by
    funext P
    simp [Prog.tallyChange]
  have hm : ∀ o : Octet Prog, o.map id = o := fun o => rfl
  refine ⟨(s.setLine k { s.line k with accepted := (s.line k).raw, change := none }).edgeReport k true, ?_, ?_, rfl, rfl, rfl⟩
  · unfold State.acceptEdge
    simp only [CueLine.active, h, if_true]
  · unfold State.edgeReport
    rw [hid]
    exact hm _

theorem State.reaches_congr {s u : State} (h : u.progs = s.progs) (a b : Index) : u.reaches a b ↔ s.reaches a b := by
  unfold State.reaches State.prog
  rw [h]

end Sys2Proof.Machine
end

