-- ==== Sys2Proof/Laws/Postings.lean ====
section
/-! SUPPORT. What a posting does to the ports and the escalation counter, and what the close of a segment, the stages of a take
and a cascade make of it (R138 to R143). -/

namespace Sys2Proof.Machine

/-! ### Of the ports, only notices -/

theorem State.onlyNotices.refl (s : State) (ks : List Kind) : s.onlyNotices s ks := fun _ => ⟨rfl, fun _ _ => rfl⟩

theorem State.onlyNotices.trans {s t u : State} {ks : List Kind} (h : s.onlyNotices t ks) (g : t.onlyNotices u ks) :
    s.onlyNotices u ks :=
  fun x => ⟨by rw [(g x).1, (h x).1], fun k hk => ((g x).2 k hk).trans ((h x).2 k hk)⟩

theorem State.onlyNotices.mono {s t : State} {ks js : List Kind} (h : s.onlyNotices t ks) (hs : ∀ k ∈ ks, k ∈ js) :
    s.onlyNotices t js := fun x => ⟨(h x).1, fun k hk => (h x).2 k fun hm => hk (hs k hm)⟩

theorem State.onlyNotices.of_ports {s t : State} (ks : List Kind) (h : t.ports = s.ports) : s.onlyNotices t ks :=
  fun x => by
    unfold State.port
    rw [h]
    exact ⟨rfl, fun _ _ => rfl⟩

theorem State.raiseAll_onlyNotices (s : State) (k : Kind) (i : Index) (ks : List Kind) (h : k ∈ ks) :
    s.onlyNotices (s.raiseAll k i) ks :=
  fun x => by
    rw [State.raiseAll_port]
    exact ⟨rfl, fun j hj => Port.raise_get_other j k _ _ fun e => hj (e ▸ h)⟩

theorem State.raisePlain_onlyNotices (s : State) (k : Kind) (ks : List Kind) (h : k ∈ ks) :
    s.onlyNotices (s.raisePlain k) ks :=
  fun x => by
    rw [State.raisePlain_port]
    exact ⟨rfl, fun j hj => Port.raise_get_other j k _ _ fun e => hj (e ▸ h)⟩

/-! ### The posting -/

/-- A posting raises at most ESCALATED, LOG_HALF and LOG_DISCARD (R139, R142, R143). -/
theorem State.post_onlyNotices (s : State) (r : ResultRecord) :
    s.onlyNotices (s.post r) [.escalated, .logHalf, .logDiscard] := by
  have h1 : s.onlyNotices (s.escalate r.judged) [.escalated, .logHalf, .logDiscard] := by
    unfold State.escalate
    simp only
    split
    · exact (State.onlyNotices.of_ports (s := s) _ rfl).trans (State.raiseAll_onlyNotices _ _ _ _ (by simp))
    · exact .of_ports _ rfl
  refine h1.trans ?_
  unfold State.post State.appendLog
  simp only
  split
  · exact (State.onlyNotices.of_ports (s := s.escalate r.judged) _ rfl).trans
      (State.raisePlain_onlyNotices _ _ _ (by simp))
  · split
    · exact (State.onlyNotices.of_ports (s := s.escalate r.judged) _ rfl).trans
        (State.raisePlain_onlyNotices _ _ _ (by simp))
    · exact .of_ports _ rfl

/-- Of its programme a posting changes the escalation counter alone, and of the rest programmes, log, tally and ports. -/
theorem State.post_frame (s : State) (r : ResultRecord) : let t := s.post r
    t.prog r.programme = { s.prog r.programme with entry := { (s.prog r.programme).entry with
      escalation := (t.prog r.programme).entry.escalation } }
    ∧ t = { s with progs := t.progs, log := t.log, discards := t.discards, ports := t.ports } := by
  refine ⟨by rw [State.post_prog_same s r _ rfl], ?_⟩
  unfold State.post State.appendLog State.escalate
  simp only
  split <;> split <;> (try split) <;> rfl

/-- What a posting does to the ports and to the counter depends on the record up to its verdict and its discards-before, and on
the counter, the log and the ports it finds. -/
theorem State.post_congr {s u : State} {r r' : ResultRecord}
    (h : r' = { r.judged with discardsBefore := r'.discardsBefore })
    (he : (u.prog r.programme).entry.escalation = (s.prog r.programme).entry.escalation) (hl : u.log = s.log)
    (hp : u.ports = s.ports) :
    (u.post r).ports = (s.post r').ports
      ∧ ((u.post r).prog r.programme).entry.escalation = ((s.post r').prog r.programme).entry.escalation := by
  generalize r'.discardsBefore = n at h
  subst h
  constructor
  · have esc : (u.escalate r.judged).ports
        = (s.escalate ({ r.judged with discardsBefore := n } : ResultRecord).judged).ports := by
      unfold State.escalate ResultRecord.judged
      simp only [he]
      split <;> simp [State.raiseAll, State.mapPorts, State.updProg, State.setProg, hp]
    unfold State.post State.appendLog
    obtain ⟨_, _, l1, _⟩ := u.escalate_facts r.judged
    obtain ⟨_, _, l2, _⟩ := s.escalate_facts ({ r.judged with discardsBefore := n } : ResultRecord).judged
    simp only [l1, l2, hl]
    split
    · simp [State.raisePlain, State.mapPorts, esc]
    · simp only [List.length_append, List.length_singleton]
      split
      · simp [State.raisePlain, State.mapPorts, esc]
      · exact esc
  · have hu := congrArg (fun P : Prog => P.entry.escalation) (State.post_prog_same u r _ rfl)
    have hs := congrArg (fun P : Prog => P.entry.escalation)
      (State.post_prog_same s { r.judged with discardsBefore := n } r.programme rfl)
    rw [he] at hu
    exact hu.trans hs.symm

/-! ### A close -/

/-- The close of a segment on air is the posting of its record; the segment then leaves the programme. -/
theorem State.closeSegment_posts (s : State) (p : Index) (cause : EndCause) (o : OnAir)
    (h : (s.prog p).queue.onAir = some o) :
    s.closeSegment p cause = (s.post ((s.prog p).resultRecord p o cause)).updProg p fun P =>
      { P with
        queue := { P.queue with onAir := none }
        meas := { P.meas with segAccount := none } } := by
  unfold State.closeSegment
  rw [h]

/-- The record of a close is that of R105 and R137, with the verdict of R134. -/
theorem Prog.resultRecord_closes (P : Prog) (p : Index) (o : OnAir) (cause : EndCause) (n : Nat) :
    ResultRecord.closes { (P.resultRecord p o cause).judged with discardsBefore := n } p o cause P.gain.applied
      P.meas.segAccount := by
  refine ⟨rfl, rfl, rfl, rfl, rfl, rfl, rfl, rfl, rfl, rfl, rfl, rfl, rfl, rfl, rfl, rfl, rfl, rfl, fun b hb => ?_⟩
  unfold ResultRecord.judged Prog.resultRecord
  simp only [hb, Option.getD_some, and_self]

/-- The boundary work and the close of a segment on air: one record is appended to the log, that of the segment after its
boundary, and ports and counter are as its posting leaves them (R90, R99, R140). -/
theorem State.cut_posts (s : State) (p : Index) (cause : EndCause) (o : OnAir) (h : (s.prog p).queue.onAir = some o) :
    let t := (s.boundary p).closeSegment p cause
    let cut := (boundaryWork s.audio.line (s.prog p)).2
    ∃ rec, (t.log, t.discards) = appendRecord (s.log, s.discards) rec ∧ t.log.getLast? = some rec
      ∧ rec.closes p o cause cut.gain.applied cut.meas.segAccount
      ∧ t.ports = (s.post rec).ports ∧ (t.prog p).entry.escalation = ((s.post rec).prog p).entry.escalation := by
  intro t cut
  have hp : (s.boundary p).prog p = cut := State.boundary_prog_same s p
  obtain ⟨_, _, _, hq, he, _⟩ := boundaryWork_facts s.audio.line (s.prog p)
  have ho : ((s.boundary p).prog p).queue.onAir = some o := by rw [hp, hq, h]
  have hesc : ((s.boundary p).prog p).entry.escalation = (s.prog p).entry.escalation := by
    rw [hp]
    rcases he with he | ⟨_, he⟩
    · exact congrArg (fun e : Entry => e.escalation) he
    · exact (congrArg (fun e : Entry => e.escalation) he).trans rfl
  obtain ⟨n, hn⟩ := State.closeSegment_log (s.boundary p) p cause o ho
  have hl := (s.boundary p).closeSegment_appends p cause
  rw [ho, hp] at hl
  rw [hp] at hn
  have hc := (s.boundary p).closeSegment_posts p cause o ho
  rw [hp] at hc
  obtain ⟨c1, c2⟩ := State.post_congr (s := s) (u := s.boundary p) (r := cut.resultRecord p o cause)
    (r' := { (cut.resultRecord p o cause).judged with discardsBefore := n }) rfl hesc rfl rfl
  refine ⟨{ (cut.resultRecord p o cause).judged with discardsBefore := n }, ?_, hn, cut.resultRecord_closes p o cause n, ?_, ?_⟩
  · show (t.log, t.discards) = _
    rw [hl]
    rfl
  · show ((s.boundary p).closeSegment p cause).ports = _
    rw [hc]
    exact c1
  · show (((s.boundary p).closeSegment p cause).prog p).entry.escalation = _
    rw [hc, State.updProg_prog_same]
    exact c2

/-- A boundary and a close raise at most the notices of a posting. -/
theorem State.cut_onlyNotices (s : State) (p : Index) (cause : EndCause) :
    s.onlyNotices ((s.boundary p).closeSegment p cause) [.escalated, .logHalf, .logDiscard] := by
  have hb : s.onlyNotices (s.boundary p) [.escalated, .logHalf, .logDiscard] := .of_ports _ rfl
  cases h : ((s.boundary p).prog p).queue.onAir with
  | none =>
    unfold State.closeSegment
    rw [h]
    exact hb
  | some o =>
    rw [State.closeSegment_posts _ p cause o h]
    exact (hb.trans (State.post_onlyNotices _ _)).trans (.of_ports _ rfl)

/-! ### A take -/

theorem State.takeStages_onlyNotices (s : State) (p : Index) (cause : TakeCause) :
    s.onlyNotices (s.takeStages p cause) [.escalated, .logHalf, .logDiscard] :=
  (s.cut_onlyNotices p .takeNext).trans (.of_ports _ rfl)

/-- The kinds of the notices that takes raise, with missed takes and postings (R95, R97, R140). -/
abbrev takeKinds : List Kind := [.segStarted, .segClosed, .takeMissed, .escalated, .logHalf, .logDiscard]

theorem State.performTake_onlyNotices (s : State) (p : Index) (cause : TakeCause) :
    s.onlyNotices (s.performTake p cause).1 takeKinds := by
  unfold State.performTake
  split
  · refine ((s.takeStages_onlyNotices p cause).mono (by simp)).trans ?_
    unfold State.takeNotices
    dsimp only
    split
    · exact (State.raiseAll_onlyNotices _ _ _ _ (by simp)).trans (State.raiseAll_onlyNotices _ _ _ _ (by simp))
    · exact State.raiseAll_onlyNotices _ _ _ _ (by simp)
  · exact State.raiseAll_onlyNotices _ _ _ _ (by simp)

/-- A take with its cascade raises no notice of another kind. -/
theorem State.take_onlyNotices (s : State) (p : Index) (cause : TakeCause) : s.onlyNotices (s.take p cause) takeKinds := by
  refine State.cascade_keeps (M := fun t => s.onlyNotices t takeKinds) (fun w => w.isTake = true)
    (fun t h => h.trans (.of_ports _ rfl)) (fun t w hg h => ?_) cascadeLimit s _ (by simp [Work.isTake]) (.refl _ _)
  cases w with
  | take q c => exact ⟨h.trans (t.performTake_onlyNotices q c), ((takes_around t).performTake t q c (.refl t)).2⟩
  | auto q => simp [Work.isTake] at hg

/-! ### An end -/

/-- An end raises at most the notices of its posting, SEG_CLOSED and STATE (R99, R102). -/
theorem State.endSegment_onlyNotices (s : State) (p : Index) (cause : EndCause) :
    s.onlyNotices (s.endSegment p cause) [.escalated, .logHalf, .logDiscard, .segClosed, .state] := by
  have core : s.onlyNotices (s.endCore p cause) [.escalated, .logHalf, .logDiscard, .segClosed, .state] := by
    unfold State.endCore
    refine (((s.cut_onlyNotices p cause).mono (by simp)).trans ?_)
    exact (State.onlyNotices.of_ports (s := (s.boundary p).closeSegment p cause) _ rfl).trans
      (State.raiseAll_onlyNotices _ _ _ _ (by simp))
  unfold State.endSegment
  dsimp only
  split
  · refine core.trans ?_
    unfold State.deactivate
    exact (State.onlyNotices.of_ports (s := s.endCore p cause) _ rfl).trans
      (State.raiseAll_onlyNotices _ _ _ _ (by simp))
  · exact core.trans (.of_ports _ rfl)

/-! ### Withdrawals -/

/-- The records of one programme withdrawn: each owner gets WITHDRAWN of it, once or more, and nothing else is raised (R81). -/
theorem State.raiseOwners (p : Index) (l : List SegRecord) : ∀ s : State,
    let t := l.foldl (fun t r => t.raiseAt r.owner .withdrawn (bitOf p)) s
    s.onlyNotices t [.withdrawn] ∧ ∀ y, (t.port y).notices.get .withdrawn = if l.any (fun r => r.owner == y) then
      ⟨true, ((s.port y).notices.get .withdrawn).bitmap ||| bitOf p⟩ else (s.port y).notices.get .withdrawn := by
  induction l with
  | nil => exact fun s => ⟨.refl s _, fun y => rfl⟩
  | cons r l ih =>
    intro s
    obtain ⟨h1, h2⟩ := ih (s.raiseAt r.owner .withdrawn (bitOf p))
    rw [List.foldl_cons]
    generalize l.foldl (fun t r => t.raiseAt r.owner .withdrawn (bitOf p)) (s.raiseAt r.owner .withdrawn (bitOf p)) = t at *
    refine ⟨State.onlyNotices.trans (fun y => ?_) h1, fun y => ?_⟩
    · by_cases hy : y = r.owner
      · subst hy
        rw [State.raiseAt_port_same]
        exact ⟨rfl, fun k hk => Port.raise_get_other k .withdrawn _ _ (by simpa using hk)⟩
      · rw [State.raiseAt_port_other _ _ _ _ _ hy]
        exact ⟨rfl, fun _ _ => rfl⟩
    · rw [h2 y, List.any_cons]
      by_cases hy : y = r.owner
      · subst hy
        simp [State.raiseAt_port_same, Port.raise_get_same, BitVec.or_assoc]
      · rw [State.raiseAt_port_other _ _ _ _ _ hy, beq_false_of_ne (Ne.symm hy), Bool.false_or]

theorem State.withdrawAll_notices (s : State) (p : Index) : s.onlyNotices (s.withdrawAll p) [.withdrawn]
    ∧ ∀ y, ((s.withdrawAll p).port y).notices.get .withdrawn = if (s.prog p).queue.cued.any (fun r => r.owner == y) then
      ⟨true, ((s.port y).notices.get .withdrawn).bitmap ||| bitOf p⟩ else (s.port y).notices.get .withdrawn := by
  obtain ⟨h1, h2⟩ := State.raiseOwners p (s.prog p).queue.cued s
  exact ⟨h1.trans (.of_ports _ rfl), h2⟩

end Sys2Proof.Machine
end

