-- ==== Sys2Proof/Laws/Steps.lean ====
section
/-! SUPPORT. What a step is made of: a property of states that each piece of the machine's work keeps is kept by every
step. -/

namespace Sys2Proof.Machine

/-- Two ports that differ in reception, reply, mask and edge flags alone. -/
def Port.quiet (P Q : Port) : Prop :=
  Q = { P with rx := Q.rx, gap := Q.gap, reply := Q.reply, mask := Q.mask, rising := Q.rising, falling := Q.falling }

/-- A property of states that each piece of the machine's work keeps. -/
structure Kept (M : State → Prop) : Prop extends Settles M where
  powerOn : ∀ (s : State) straps levels, M (s.powerOn straps levels)
  queue : ∀ (s : State) l, M s → M { s with pending := l }
  armed : ∀ (s : State) b, M s → M { s with restartArmed := b }
  restart : ∀ (s : State), M s → M s.restart
  tick : ∀ (s : State), M s → M s.tick
  frameSync : ∀ (s : State), s.Calm → M s → M s.takeFrameSync
  missSync : ∀ (s : State), M s → M s.missSync
  expireWatch : ∀ (s : State), M s → M s.expireWatch
  frame : ∀ (s : State) slots, s.Calm → M s → M (s.completeFrame slots)
  line : ∀ (s : State) k v, M s → M (s.setLine k v)
  edges : ∀ (s : State) k active, M s → M (s.edgeReport k active)
  tally : ∀ (s : State) k active, M s → M (s.mapProgs (Prog.tallyChange k active))
  quiet : ∀ (s : State) x Q, (s.port x).quiet Q → M s → M (s.setPort x Q)
  arrived : ∀ (s : State) x, M s → M (s.updPort x Port.frameArrived)
  clear : ∀ (s : State) x kinds, M s → M (s.updPort x (Port.clearNotices kinds))
  timer : ∀ (s : State) x setting, setting ≤ 255 → (s.port x).present = true → M s → M (s.updPort x (Port.setTimer setting))
  lapse : ∀ (s : State) x, M s → M (s.lapse x)
  copy : ∀ (s : State) x p segment, M s → M (s.updPort x (Port.setSnapshot (some (Snapshot.ready
      (snapshotContent p segment s.position ((s.prog p).accountOf segment))))))
  read : ∀ (s : State) x v, (s.port x).snapshot = some v → M s → M (s.updPort x (Port.setSnapshot (some v.advance)))
  fetch : ∀ (s : State), M s → M { s with log := s.log.tail }
  configure : ∀ (s : State) p base width trig tally, slotsLegal base width = true → s.closesCycle p trig = false →
      (s.prog p).entry.state = .inactive → M s → M (s.updProg p fun P => P.configure base width trig tally)
  activate : ∀ (s : State) p, s.slotsTaken p = false → (s.prog p).entry.state = .inactive → M s → M (s.activate p)
  deactivation : ∀ (s : State) p force, (s.prog p).isActive = true → M s → M (s.deactivation p force)
  run : ∀ (s : State) p, (s.prog p).entry.state.runs = true → M s → M (s.run p)
  stop : ∀ (s : State) p, (s.prog p).entry.state = .running → (s.prog p).hasOnAir = false → M s →
      M ((s.updProg p fun P => P.setState .stopping).raiseAll .state p)
  tune : ∀ (s : State) p v, v.legal = true → M s → M (s.updProg p (Prog.tune v))
  claim : ∀ (s : State) p x, (s.port x).present = true → M s → M (s.setCustodian p (some x))
  release : ∀ (s : State) p, M s → M (s.setCustodian p none)
  rights : ∀ (s : State) p rights, M s → M (s.updProg p fun P => P.setEntry { P.entry with rights := rights })
  clearAccount : ∀ (s : State) p, M s → M (s.updProg p Prog.clearAccount)
  cue : ∀ (s : State) p r, (s.port r.owner).present = true → r.legal = true → (s.prog p).queue.hasId r.id = false →
      (s.prog p).entry.state.cues = true → (s.prog p).queue.count < Config.queueLimit → M s →
      M (s.updProg p fun P => P.setQueue (P.queue.append r))
  amend : ∀ (s : State) p a r, (s.prog p).queue.find a.id.toNat = some (r, false) → (AmendBody.amended a r).legal = true → M s →
      M (s.updProg p fun P => P.setQueue (P.queue.amend a))
  withdraw : ∀ (s : State) x p r id, (s.prog p).queue.find id = some (r, false) → M s → M (s.withdraw x p r)

section

variable {M : State → Prop} (K : Kept M)
include K

theorem Kept.updQuiet (s : State) (x : PortId) (f : Port → Port) (hf : ∀ P : Port, P.quiet (f P)) (h : M s) :
    M (s.updPort x f) := K.quiet s x _ (hf _) h

theorem Kept.discard (s : State) (x : PortId) (h : M s) : M (s.updPort x Port.discardFrame) :=
  K.updQuiet s x _ (fun _ => rfl) h

theorem Kept.sendReply (s : State) (x : PortId) (f : List Byte) (h : M s) : M (s.sendReply x f) :=
  K.updQuiet s x _ (fun _ => rfl) h

theorem Kept.settled (s : State) (h : M s) : M s.settle := K.toSettles.settle s h

theorem Kept.taken (s : State) (p : Index) (cause : TakeCause) (h : M s) : M (s.take p cause) :=
  K.toTakes.take s p cause h

theorem Kept.acceptEdge (s : State) (k : Index) (h : M s) : M (s.acceptEdge k) := by
  unfold State.acceptEdge
  simp only
  have h1 := K.edges _ k (CueLine.active { s.line k with accepted := (s.line k).raw, change := none })
    (K.line s k { s.line k with accepted := (s.line k).raw, change := none } h)
  split
  · exact K.toTakes.edgeTakes _ k h1
  · exact h1

theorem Kept.changeLine (s : State) (k : Index) (high : Bool) (h : M s) : M (s.changeLine k high) := by
  unfold State.changeLine
  simp only
  split
  · exact h
  · split
    · exact K.line _ _ _ (K.line _ _ _ h)
    · split
      · exact K.acceptEdge _ _ (K.line _ _ _ h)
      · exact K.line _ _ _ (K.line _ _ _ h)

theorem Kept.expireReject (s : State) (k : Index) (h : M s) : M (s.expireReject k) := by
  unfold State.expireReject
  split
  · exact K.acceptEdge s k h
  · exact h

theorem Kept.configLine (s : State) (k : Index) (inverted : Bool) (reject : RejectLength) (h : M s) :
    M ((s.setPolarity k inverted).setReject k reject) := by
  have h1 : M (s.setPolarity k inverted) := by
    unfold State.setPolarity
    simp only
    split
    · exact h
    · exact K.tally _ _ _ (K.line _ _ _ h)
  unfold State.setReject
  simp only
  split
  · exact h1
  · split
    · exact K.acceptEdge _ _ (K.line _ _ _ h1)
    · exact K.line _ _ _ h1

theorem Kept.expireGap (s : State) (x : PortId) (h : M s) : M (s.expireGap x) := by
  unfold State.expireGap
  split
  · exact K.discard s x h
  · exact h

theorem Kept.expireSilence (s : State) (x : PortId) (h : M s) : M (s.expireSilence x) := by
  unfold State.expireSilence
  split
  · exact K.lapse s x h
  · exact h

/-- A handler whose taken requests keep the property, on a port that is PRESENT. -/
def Handler.Keeps (h : Handler) (M : State → Prop) : Prop :=
  ∀ x ps s t d, (s.port x).present = true → M s → h x ps s = .ok (t, d) → M t

omit K in
theorem Handler.keeps_of_same {h : Handler} (hs : ∀ x ps s t d, h x ps s = .ok (t, d) → t = s) : h.Keeps M := by
  intro x ps s t d _ hm he
  rw [hs x ps s t d he]
  exact hm

omit K in
theorem refuseAll_keeps (r : Result) : (refuseAll r).Keeps M := by
  intro x ps s t d _ _ he
  simp [refuseAll] at he

theorem Kept.takeRequest (s : State) (code : Byte) (h : Handler) (x : PortId) (tag : Byte) (ps : List Byte)
    (hk : h.Keeps M) (hm : M s) : M (s.takeRequest code h x tag ps) := by
  rcases takeRequest_cases s code h x tag ps with e | ⟨f, e⟩ | ⟨t, d, f, ht, e⟩
  · rw [e]
    exact K.discard s x hm
  · rw [e]
    exact K.sendReply _ x f (K.arrived s x hm)
  · rw [e]
    exact K.sendReply t x f (hk x ps _ t d (by simp [Port.frameArrived]) (K.arrived s x hm) ht)

/-- Every handler keeps the property. -/
theorem Kept.handlers :
    devIdentRequest.Keeps M ∧ devRestartRequest.Keeps M ∧ portStatusRequest.Keeps M ∧ portMaskRequest.Keeps M
    ∧ portTimerRequest.Keeps M ∧ portLeaveRequest.Keeps M ∧ portKeepaliveRequest.Keeps M
    ∧ progQueryRequest.Keeps M ∧ progSetRequest.Keeps M ∧ progActivateRequest.Keeps M ∧ deactivateRequest.Keeps M
    ∧ progRunRequest.Keeps M ∧ progStopRequest.Keeps M ∧ progTuneRequest.Keeps M ∧ claimRequest.Keeps M
    ∧ progReleaseRequest.Keeps M ∧ progRightsRequest.Keeps M ∧ accountClearRequest.Keeps M
    ∧ segCueRequest.Keeps M ∧ segAmendRequest.Keeps M ∧ segWithdrawRequest.Keeps M ∧ segTakeRequest.Keeps M
    ∧ segEndRequest.Keeps M ∧ segListRequest.Keeps M ∧ logCountRequest.Keeps M ∧ logPeekRequest.Keeps M
    ∧ logFetchRequest.Keeps M ∧ snapTakeRequest.Keeps M ∧ snapReadRequest.Keeps M ∧ meterReadRequest.Keeps M
    ∧ cueConfigRequest.Keeps M ∧ cueReadRequest.Keeps M := by
  refine ⟨?_, ?_, ?_, ?_, ?_, ?_, ?_, ?_, ?_, ?_, ?_, ?_, ?_, ?_, ?_, ?_, ?_, ?_, ?_, ?_, ?_, ?_, ?_, ?_, ?_, ?_, ?_, ?_,
    ?_, ?_, ?_, ?_⟩
  · exact Handler.keeps_of_same fun _ _ _ _ _ h => (devIdent_taken h).2
  · intro x ps s t d _ hm h
    obtain ⟨_, _, rfl⟩ := devRestart_taken h
    exact K.restart s hm
  · intro x ps s t d _ hm h
    obtain ⟨k, rfl, _⟩ := portStatus_taken h
    exact K.clear s x k hm
  · intro x ps s t d _ hm h
    obtain ⟨k, rfl⟩ := portMask_taken h
    exact K.updQuiet s x _ (fun _ => rfl) hm
  · intro x ps s t d hp hm h
    obtain ⟨v, rfl⟩ := portTimer_taken h
    exact K.timer s x _ (by have := v.isLt; omega) hp hm
  · intro x ps s t d _ hm h
    rw [portLeave_taken h]
    exact K.lapse s x hm
  · exact Handler.keeps_of_same fun _ _ _ _ _ h => portKeepalive_taken h
  · exact Handler.keeps_of_same fun _ _ _ _ _ h => progQuery_taken h
  · intro x ps s t d _ hm h
    obtain ⟨p, b, w, tr, ta, h1, h2, _, h3, rfl⟩ := progSet_taken h
    exact K.configure s p b w tr ta h1 h2 h3 hm
  · intro x ps s t d _ hm h
    obtain ⟨p, h1, _, h2, rfl⟩ := progActivate_taken h
    exact K.activate s p h1 h2 hm
  · intro x ps s t d _ hm h
    obtain ⟨p, f, _, h1, rfl⟩ := deactivate_taken h
    exact K.deactivation s p f h1 hm
  · intro x ps s t d _ hm h
    obtain ⟨p, _, h1, rfl⟩ := progRun_taken h
    exact K.run s p h1 hm
  · intro x ps s t d _ hm h
    obtain ⟨p, _, h1, h2, rfl⟩ := progStop_taken h
    exact K.stop s p h1 h2 hm
  · intro x ps s t d _ hm h
    obtain ⟨p, v, h1, _, rfl⟩ := progTune_taken h
    exact K.tune s p v h1 hm
  · intro x ps s t d hp hm h
    obtain ⟨p, rfl | rfl⟩ := claim_taken h
    · exact hm
    · exact K.claim s p x hp hm
  · intro x ps s t d _ hm h
    obtain ⟨p, _, rfl⟩ := progRelease_taken h
    exact K.release s p hm
  · intro x ps s t d _ hm h
    obtain ⟨p, r, _, rfl⟩ := progRights_taken h
    exact K.rights s p r hm
  · intro x ps s t d _ hm h
    obtain ⟨p, _, rfl⟩ := accountClear_taken h
    exact K.clearAccount s p hm
  · intro x ps s t d hp hm h
    obtain ⟨p, r, rfl, h1, h2, _, h3, h4, rfl⟩ := segCue_taken h
    exact K.cue s p r hp h1 h2 h3 h4 hm
  · intro x ps s t d _ hm h
    obtain ⟨p, a, r, h1, h2, _, rfl⟩ := segAmend_taken h
    exact K.amend s p a r h1 h2 hm
  · intro x ps s t d _ hm h
    obtain ⟨p, id, r, h1, _, rfl⟩ := segWithdraw_taken h
    exact K.withdraw s x p r id h1 hm
  · intro x ps s t d _ hm h
    obtain ⟨p, _, _, rfl⟩ := segTake_taken h
    exact K.taken s p _ hm
  · intro x ps s t d _ hm h
    obtain ⟨p, c, _, h1, rfl⟩ := segEnd_taken h
    exact K.finish s p c h1 hm
  · exact Handler.keeps_of_same fun _ _ _ _ _ h => segList_taken h
  · exact Handler.keeps_of_same fun _ _ _ _ _ h => logCount_taken h
  · exact Handler.keeps_of_same fun _ _ _ _ _ h => logPeek_taken h
  · intro x ps s t d _ hm h
    rw [logFetch_taken h]
    exact K.fetch s hm
  · intro x ps s t d _ hm h
    obtain ⟨p, g, rfl⟩ := snapTake_taken h
    exact K.copy s x p g hm
  · intro x ps s t d _ hm h
    obtain ⟨v, h1, _, rfl⟩ := snapRead_taken h
    exact K.read s x v h1 hm
  · exact Handler.keeps_of_same fun _ _ _ _ _ h => meterRead_taken h
  · intro x ps s t d _ hm h
    obtain ⟨k, i, r, _, rfl⟩ := cueConfig_taken h
    exact K.configLine s k i r hm
  · intro x ps s t d _ hm h
    rw [cueRead_taken h]
    exact K.updQuiet s x _ (fun _ => rfl) hm

theorem Kept.handlerOf (code : Byte) (h : Handler) (hc : handlerOf code = some h) : h.Keeps M := by
  obtain ⟨a1, a2, a3, a4, a5, a6, a7, b1, b2, b3, b4, b5, b6, b7, b8, b9, b10, b11, c1, c2, c3, c4, c5, c6, d1, d2, d3, d4,
    d5, d6, e1, e2⟩ := K.handlers
  unfold Sys2Proof.Machine.handlerOf at hc
  split at hc <;> first
    | (injection hc with hc; subst hc; assumption)
    | simp at hc

theorem Kept.frameEnd (s : State) (x : PortId) (body : List Byte) (h : M s) : M (s.frameEnd x body) := by
  unfold State.frameEnd
  split
  · exact h
  · exact K.takeRequest s _ _ x _ _ (refuseAll_keeps _) h
  · rename_i code tag ps
    refine K.takeRequest s _ _ x _ _ ?_ h
    cases hc : Sys2Proof.Machine.handlerOf code with
    | none => exact refuseAll_keeps _
    | some g => exact K.handlerOf code g hc

theorem Kept.receive (s : State) (x : PortId) (b : Byte) (h : M s) : M (s.receive x b) := by
  have keep : ∀ rx, M (s.updPort x fun P => P.keep rx) := fun rx => K.updQuiet s x _ (fun _ => rfl) h
  unfold State.receive
  split
  · split
    · exact keep _
    · exact h
  · split
    · exact keep _
    · exact K.discard s x h
  · exact K.updQuiet s x _ (fun _ => rfl) h
  · exact keep _
  · unfold State.completeRx
    split
    · exact K.discard s x h
    · split
      · exact K.frameEnd s x _ h
      · exact K.discard s x h

theorem Kept.expire (s : State) (t : Timer) (h : M s) : M (s.expire t) := by
  cases t with
  | watch => exact K.expireWatch s h
  | gap x => exact K.expireGap s x h
  | silence x => exact K.expireSilence s x h
  | reject k => exact K.expireReject s k h

theorem Kept.idle (s : State) (h : M s) : M s.idle := by
  unfold State.idle
  simp only
  split
  · exact K.tick _ (K.settled s h)
  · exact K.expire _ _ (K.settled s h)
  · exact K.expire _ _ (K.free _ (K.settled s h))

theorem Kept.request (s : State) (code : Byte) (g : Handler) (x : PortId) (tag : Byte) (ps : List Byte)
    (hk : g.Keeps M) (h : M s) : M (s.request code g x tag ps) :=
  K.takeRequest _ _ _ _ _ _ hk (K.settled s h)

/-- Every command answers a next state, and keeps the property. -/
theorem Kept.exec (i : Instr) (s : State) (h : M s) : ∃ t, exec i s = .next t ∧ M t := by
  have hs := K.settled s h
  obtain ⟨a1, a2, a3, a4, a5, a6, a7, b1, b2, b3, b4, b5, b6, b7, b8, b9, b10, b11, c1, c2, c3, c4, c5, c6, d1, d2, d3, d4,
    d5, d6, e1, e2⟩ := K.handlers
  cases i with
  | powerOnReset straps levels => exact ⟨_, rfl, K.powerOn s straps levels⟩
  | frameSync => exact ⟨_, rfl, K.frameSync _ s.settle_calm hs⟩
  | goodFrameCount48 =>
    refine ⟨_, rfl, ?_⟩
    split
    · rename_i hd
      exact K.lock s hd h
    · exact h
  | missingFrameSync => exact ⟨_, rfl, K.missSync _ hs⟩
  | syncWatchExpiry => exact ⟨_, rfl, K.expireWatch _ hs⟩
  | processedFrame slots => exact ⟨_, rfl, K.frame _ slots s.settle_calm hs⟩
  | blockClose p => exact ⟨_, rfl, K.toSettles.settleClose s p h⟩
  | rampCompletion p => exact ⟨_, rfl, K.toSettles.settleRamp s p h⟩
  | durationReached p => exact ⟨_, rfl, K.toDurations.settleDuration s p h⟩
  | cueLineChange k high => exact ⟨_, rfl, K.changeLine _ k high hs⟩
  | rejectLengthExpiry k => exact ⟨_, rfl, K.expireReject _ k hs⟩
  | restartnArmed => exact ⟨_, rfl, K.armed s true h⟩
  | restartnLow =>
    refine ⟨_, rfl, ?_⟩
    unfold State.pinLow
    split
    · exact K.armed _ false (K.restart _ hs)
    · exact hs
  | frameCrcWrong x => exact ⟨_, rfl, K.discard s x h⟩
  | lengthInvalid x => exact ⟨_, rfl, K.discard s x h⟩
  | framingError x => exact ⟨_, rfl, K.discard s x h⟩
  | gapTimeout x => exact ⟨_, rfl, K.expireGap s x h⟩
  | frameDuringReply x =>
    refine ⟨_, rfl, ?_⟩
    split
    · exact K.discard s x h
    · exact h
  | replyEnd x => exact ⟨_, rfl, K.updQuiet s x _ (fun _ => rfl) h⟩
  | unknownRequest x body => exact ⟨_, rfl, K.frameEnd _ x body hs⟩
  | silenceTimerExpiry x => exact ⟨_, rfl, K.expireSilence _ x hs⟩
  | byteReceived x b => exact ⟨_, rfl, K.receive _ x b hs⟩
  | devIdent x tag ps => exact ⟨_, rfl, K.request s _ _ x tag ps a1 h⟩
  | devRestart x tag ps => exact ⟨_, rfl, K.request s _ _ x tag ps a2 h⟩
  | portStatus x tag ps => exact ⟨_, rfl, K.request s _ _ x tag ps a3 h⟩
  | portMask x tag ps => exact ⟨_, rfl, K.request s _ _ x tag ps a4 h⟩
  | portTimer x tag ps => exact ⟨_, rfl, K.request s _ _ x tag ps a5 h⟩
  | portLeave x tag ps => exact ⟨_, rfl, K.request s _ _ x tag ps a6 h⟩
  | portKeepalive x tag ps => exact ⟨_, rfl, K.request s _ _ x tag ps a7 h⟩
  | progQuery x tag ps => exact ⟨_, rfl, K.request s _ _ x tag ps b1 h⟩
  | progSet x tag ps => exact ⟨_, rfl, K.request s _ _ x tag ps b2 h⟩
  | progActivate x tag ps => exact ⟨_, rfl, K.request s _ _ x tag ps b3 h⟩
  | progDeactivate x tag ps => exact ⟨_, rfl, K.request s _ _ x tag ps b4 h⟩
  | progDeactivateForce x tag ps => exact ⟨_, rfl, K.request s _ _ x tag ps b4 h⟩
  | progRun x tag ps => exact ⟨_, rfl, K.request s _ _ x tag ps b5 h⟩
  | progStop x tag ps => exact ⟨_, rfl, K.request s _ _ x tag ps b6 h⟩
  | progTune x tag ps => exact ⟨_, rfl, K.request s _ _ x tag ps b7 h⟩
  | progClaim x tag ps => exact ⟨_, rfl, K.request s _ _ x tag ps b8 h⟩
  | progClaimForce x tag ps => exact ⟨_, rfl, K.request s _ _ x tag ps b8 h⟩
  | progRelease x tag ps => exact ⟨_, rfl, K.request s _ _ x tag ps b9 h⟩
  | progRights x tag ps => exact ⟨_, rfl, K.request s _ _ x tag ps b10 h⟩
  | accountClear x tag ps => exact ⟨_, rfl, K.request s _ _ x tag ps b11 h⟩
  | segCue x tag ps => exact ⟨_, rfl, K.request s _ _ x tag ps c1 h⟩
  | segAmend x tag ps => exact ⟨_, rfl, K.request s _ _ x tag ps c2 h⟩
  | segWithdraw x tag ps => exact ⟨_, rfl, K.request s _ _ x tag ps c3 h⟩
  | segTake x tag ps => exact ⟨_, rfl, K.request s _ _ x tag ps c4 h⟩
  | segEnd x tag ps => exact ⟨_, rfl, K.request s _ _ x tag ps c5 h⟩
  | segList x tag ps => exact ⟨_, rfl, K.request s _ _ x tag ps c6 h⟩
  | logCount x tag ps => exact ⟨_, rfl, K.request s _ _ x tag ps d1 h⟩
  | logPeek x tag ps => exact ⟨_, rfl, K.request s _ _ x tag ps d2 h⟩
  | logFetch x tag ps => exact ⟨_, rfl, K.request s _ _ x tag ps d3 h⟩
  | snapTake x tag ps => exact ⟨_, rfl, K.request s _ _ x tag ps d4 h⟩
  | snapRead x tag ps => exact ⟨_, rfl, K.request s _ _ x tag ps d5 h⟩
  | meterRead x tag ps => exact ⟨_, rfl, K.request s _ _ x tag ps d6 h⟩
  | cueConfig x tag ps => exact ⟨_, rfl, K.request s _ _ x tag ps e1 h⟩
  | cueRead x tag ps => exact ⟨_, rfl, K.request s _ _ x tag ps e2 h⟩

/-- Every step keeps the property. -/
theorem Kept.step (s t : State) (h : M s) (ht : step s = .next t) : M t := by
  unfold Sys2Proof.Machine.step at ht
  split at ht
  · injection ht with ht
    subst ht
    exact K.idle s h
  · rename_i c rest _
    obtain ⟨u, hu, hm⟩ := K.exec c _ (K.queue s rest h)
    rw [hu] at ht
    injection ht with ht
    subst ht
    exact hm

end

end Sys2Proof.Machine
end

