-- ==== Sys2Proof/Laws/Programmes.lean ====
section
/-! SUPPORT. What each operation on State leaves of each programme, and what a step is made of as one programme sees it: a
property of programmes that each piece of the machine's work keeps is kept of all eight by every step. -/

namespace Sys2Proof.Machine

/-! ### Ends -/

/-- A programme at an end (R99, steps 1 to 3). -/
def Prog.ended (line : List Stage) (n : Nat) (P : Prog) : Prog := ((boundaryWork line P).2.closed n).applyPending

theorem boundaryWork_escalation (line : List Stage) (P : Prog) :
    (boundaryWork line P).2.entry.escalation = P.entry.escalation := by
  obtain ⟨_, _, _, _, he, _⟩ := boundaryWork_facts line P
  rcases he with he | ⟨_, he⟩ <;> rw [he]

theorem State.endCore_prog_same (s : State) (p : Index) (cause : EndCause) :
    ∃ n, ((s.prog p).entry.escalation ≤ 3 → n ≤ 3) ∧ (s.endCore p cause).prog p
      = (s.prog p).ended s.audio.line n := by
  obtain ⟨n, hn, hc⟩ := State.closeSegment_prog_same (s.boundary p) p cause
  rw [State.boundary_prog_same] at hc hn
  refine ⟨n, fun h => hn (by rw [boundaryWork_escalation]; exact h), ?_⟩
  unfold State.endCore Prog.ended
  simp only [State.raiseAll_prog, State.updProg_prog_same, hc]

/-- What an end that is not forced leaves of its programme (R99, R102). -/
theorem State.endSegment_prog_same (s : State) (p : Index) (cause : EndCause) :
    ∃ n, ((s.prog p).entry.escalation ≤ 3 → n ≤ 3) ∧ (s.endSegment p cause).prog p
      = if ((s.prog p).ended s.audio.line n).entry.state = .draining then
          ((s.prog p).ended s.audio.line n).becomeInactive
        else ((s.prog p).ended s.audio.line n).toFreeRun := by
  obtain ⟨n, hn, hc⟩ := s.endCore_prog_same p cause
  refine ⟨n, hn, ?_⟩
  unfold State.endSegment State.deactivate
  simp only [hc]
  split <;> simp only [State.raiseAll_prog, State.updProg_prog_same, hc]

theorem Prog.ended_state (line : List Stage) (n : Nat) (P : Prog) (h : P.entry.state ≠ .stopping) :
    (P.ended line n).entry.state = P.entry.state := by
  obtain ⟨_, _, _, _, he, _⟩ := boundaryWork_facts line P
  unfold Prog.ended
  rw [Prog.applyPending_entry]
  rcases he with he | ⟨hs, _⟩
  · simp only [Prog.closed_state, he]
  · exact absurd hs h

/-! ### Withdrawals and deactivation -/

theorem foldl_raiseAt_prog {α : Type} (l : List α) (x : α → PortId) (k : Kind) (b : α → BitVec 8) :
    ∀ (s : State), (l.foldl (fun t r => t.raiseAt (x r) k (b r)) s).progs = s.progs := by
  induction l with
  | nil => intro s; rfl
  | cons a l ih => intro s; exact ih _

/-- Every CUED record gone (R81). -/
def Prog.withdrawn (P : Prog) : Prog := P.setQueue { P.queue with cued := [] }

theorem State.withdrawAll_progs (s : State) (p : Index) :
    (s.withdrawAll p).progs = s.progs.set p (s.prog p).withdrawn := by
  unfold State.withdrawAll
  simp only [State.updProg_progs, State.prog, foldl_raiseAt_prog]
  rfl

theorem State.withdrawAll_prog_same (s : State) (p : Index) : (s.withdrawAll p).prog p = (s.prog p).withdrawn := by
  rw [State.prog, State.withdrawAll_progs]
  exact Octet.get_set_same _ _ _

theorem State.withdrawAll_prog_other (s : State) (p q : Index) (h : q ≠ p) : (s.withdrawAll p).prog q = s.prog q := by
  rw [State.prog, State.withdrawAll_progs]
  exact Octet.get_set_other _ _ _ _ h

theorem State.deactivate_prog_same (s : State) (p : Index) : (s.deactivate p).prog p = (s.prog p).becomeInactive := by
  simp only [State.deactivate, State.raiseAll_prog, State.updProg_prog_same]

theorem State.deactivate_prog_other (s : State) (p q : Index) (h : q ≠ p) : (s.deactivate p).prog q = s.prog q := by
  simp only [State.deactivate, State.raiseAll_prog, State.updProg_prog_other _ _ _ _ h]

theorem State.deactivation_prog_other (s : State) (p q : Index) (force : Bool) (h : q ≠ p) :
    (s.deactivation p force).prog q = s.prog q := by
  unfold State.deactivation State.startDrain
  split
  · split
    · rw [State.deactivate_prog_other _ _ _ h, State.withdrawAll_prog_other _ _ _ h, State.endCore_prog_other _ _ _ _ h]
    · split
      · rfl
      · rw [State.raiseAll_prog, State.updProg_prog_other _ _ _ _ h, State.withdrawAll_prog_other _ _ _ h]
  · rw [State.deactivate_prog_other _ _ _ h, State.withdrawAll_prog_other _ _ _ h]

/-- What a deactivation leaves of its programme (R29, R30, R31). -/
theorem State.deactivation_prog_same (s : State) (p : Index) (force : Bool) :
    ∃ n, ((s.prog p).entry.escalation ≤ 3 → n ≤ 3) ∧ (s.deactivation p force).prog p =
      if (s.prog p).hasOnAir then
        if force then ((s.prog p).ended s.audio.line n).withdrawn.becomeInactive
        else if (s.prog p).entry.state = .draining then s.prog p
        else (s.prog p).withdrawn.setState .draining
      else (s.prog p).withdrawn.becomeInactive := by
  obtain ⟨n, hn, hc⟩ := s.endCore_prog_same p .forced
  refine ⟨n, hn, ?_⟩
  unfold State.deactivation State.startDrain
  split
  · split
    · rw [State.deactivate_prog_same, State.withdrawAll_prog_same, hc]
    · split
      · rfl
      · rw [State.raiseAll_prog, State.updProg_prog_same, State.withdrawAll_prog_same]
  · rw [State.deactivate_prog_same, State.withdrawAll_prog_same]

/-! ### Restart -/

theorem State.restartClose_prog_other (s : State) (p q : Index) (h : q ≠ p) : (s.restartClose p).prog q = s.prog q := by
  unfold State.restartClose
  rw [State.closeSegment_prog_other _ _ _ _ h, State.boundary_prog_other _ _ _ h]

theorem State.restartClose_prog_same (s : State) (p : Index) :
    ∃ n, ((s.prog p).entry.escalation ≤ 3 → n ≤ 3) ∧ (s.restartClose p).prog p
      = (boundaryWork s.audio.line (s.prog p)).2.closed n := by
  obtain ⟨n, hn, hc⟩ := State.closeSegment_prog_same (s.boundary p) p .restart
  rw [State.boundary_prog_same] at hc hn
  exact ⟨n, fun h => hn (by rw [boundaryWork_escalation]; exact h), hc⟩

theorem State.restartClose_around (s : State) (p : Index) : s.Around (s.restartClose p) :=
  (s.boundary_around p).trans (State.closeSegment_facts _ p _).1

/-- The closes of a restart: each programme on air is closed once, the others stay as they are. -/
theorem restartCloses_prog (l : List Index) : ∀ (s : State), l.Nodup → ∀ p,
    (p ∉ l → (l.foldl State.restartClose s).prog p = s.prog p)
    ∧ (p ∈ l → ∃ line n, ((s.prog p).entry.escalation ≤ 3 → n ≤ 3) ∧ (l.foldl State.restartClose s).prog p
        = (boundaryWork line (s.prog p)).2.closed n) := by
  induction l with
  | nil => intro s _ p; exact ⟨fun _ => rfl, fun h => absurd h List.not_mem_nil⟩
  | cons a l ih =>
    intro s nd p
    rw [List.nodup_cons] at nd
    obtain ⟨h1, h2⟩ := ih (s.restartClose a) nd.2 p
    constructor
    · intro h
      rw [List.mem_cons, not_or] at h
      rw [List.foldl_cons, h1 h.2, State.restartClose_prog_other _ _ _ h.1]
    · intro h
      by_cases hp : p = a
      · subst hp
        obtain ⟨n, hn, hc⟩ := s.restartClose_prog_same p
        exact ⟨_, n, hn, by rw [List.foldl_cons, h1 nd.1, hc]⟩
      · obtain ⟨line, n, hn, hc⟩ := h2 ((List.mem_cons.mp h).resolve_left hp)
        rw [State.restartClose_prog_other _ _ _ hp] at hn hc
        exact ⟨line, n, hn, hc⟩

theorem restartCloses_around (l : List Index) (s : State) : s.Around (l.foldl State.restartClose s) :=
  foldl_keeps (M := s.Around) _ (fun t p h => h.trans (t.restartClose_around p)) l s (.refl s)

/-- What a restart leaves of a programme (R40, R68, R87, R104, R133). -/
theorem State.restart_prog (s : State) (p : Index) :
    ∃ line n, ((s.prog p).entry.escalation ≤ 3 → n ≤ 3) ∧ s.restart.prog p = Prog.restarted s.lines
      (if (s.prog p).hasOnAir then (boundaryWork line (s.prog p)).2.closed n else s.prog p) := by
  have nd : (arrange s.freeCount (allIndices.filter fun q => (s.prog q).hasOnAir)).Nodup :=
    (arrange_perm _ _).nodup_iff.mpr (List.Nodup.filter _ (by decide))
  obtain ⟨h1, h2⟩ := restartCloses_prog _ s.useFree nd p
  have hl : ((arrange s.freeCount (allIndices.filter fun q => (s.prog q).hasOnAir)).foldl State.restartClose
      s.useFree).lines = s.lines := (restartCloses_around _ s.useFree).lines
  have hr : s.restart.prog p = Prog.restarted s.lines
      (((arrange s.freeCount (allIndices.filter fun q => (s.prog q).hasOnAir)).foldl State.restartClose
        s.useFree).prog p) := by
    rw [← hl]
    exact Octet.get_map _ _ _
  have hm : p ∈ arrange s.freeCount (allIndices.filter fun q => (s.prog q).hasOnAir) ↔ (s.prog p).hasOnAir = true := by
    rw [mem_arrange, List.mem_filter]
    exact ⟨fun h => h.2, fun h => ⟨mem_allIndices p, h⟩⟩
  by_cases h : (s.prog p).hasOnAir = true
  · obtain ⟨line, n, hn, hc⟩ := h2 (hm.mpr h)
    refine ⟨line, n, hn, ?_⟩
    rw [hr, hc, if_pos h]
    rfl
  · refine ⟨[], 3, fun _ => Nat.le_refl 3, ?_⟩
    rw [hr, h1 (fun hp => h (hm.mp hp)), if_neg h]
    rfl

/-! ### Frames -/

theorem State.handOver_prog_other (s : State) (raw : List Sample) (p q : Index) (h : q ≠ p) :
    (State.handOver raw s p).prog q = s.prog q := by
  unfold State.handOver
  simp only
  split
  · exact State.setProg_prog_other _ _ _ _ h
  · rfl

/-- The work of a frame on the programmes: each active one is handed it once. -/
theorem handOvers_prog (raw : List Sample) (l : List Index) : ∀ (s : State), l.Nodup → ∀ p,
    (p ∉ l ∨ (s.prog p).isActive = false → (l.foldl (State.handOver raw) s).prog p = s.prog p)
    ∧ (p ∈ l → (s.prog p).isActive = true → ∃ line, (l.foldl (State.handOver raw) s).prog p
        = ((s.prog p).handFrame line raw ((s.prog p).tallyInactive s.lines)).2) := by
  induction l with
  | nil => intro s _ p; exact ⟨fun _ => rfl, fun h => absurd h List.not_mem_nil⟩
  | cons a l ih =>
    intro s nd p
    rw [List.nodup_cons] at nd
    have hl : (State.handOver raw s a).lines = s.lines := by
      unfold State.handOver
      simp only
      split <;> rfl
    obtain ⟨h1, h2⟩ := ih (State.handOver raw s a) nd.2 p
    by_cases hp : p = a
    · subst hp
      have hs : (s.prog p).isActive = true → (State.handOver raw s p).prog p
          = ((s.prog p).handFrame s.audio.line raw ((s.prog p).tallyInactive s.lines)).2 := by
        intro ha
        unfold State.handOver
        simp only [ha, if_true, State.setProg_prog_same]
      constructor
      · intro h
        rcases h with h | h
        · exact absurd List.mem_cons_self h
        · rw [List.foldl_cons, h1 (.inl nd.1)]
          unfold State.handOver
          simp [h]
      · intro _ ha
        exact ⟨_, by rw [List.foldl_cons, h1 (.inl nd.1), hs ha]⟩
    · rw [State.handOver_prog_other _ _ _ _ hp, hl] at h2
      rw [State.handOver_prog_other _ _ _ _ hp] at h1
      constructor
      · intro h
        refine (h1 ?_)
        rcases h with h | h
        · exact .inl fun hm => h (List.mem_cons_of_mem _ hm)
        · exact .inr h
      · intro hm ha
        exact h2 ((List.mem_cons.mp hm).resolve_left hp) ha

/-- What a processed frame leaves of a programme (R11). -/
theorem State.processFrame_prog (s : State) (raw : List Sample) (p : Index) :
    ((s.prog p).isActive = false → (s.processFrame raw).prog p = s.prog p)
    ∧ ((s.prog p).isActive = true → ∃ line, (s.processFrame raw).prog p
        = ((s.prog p).handFrame line raw ((s.prog p).tallyInactive s.lines)).2) := by
  obtain ⟨h1, h2⟩ := handOvers_prog raw allIndices s (by decide) p
  have hp : (s.processFrame raw).prog p = (allIndices.foldl (State.handOver raw) s).prog p := by
    unfold State.processFrame
    generalize allIndices.foldl (State.handOver raw) s = t
    rfl
  rw [hp]
  exact ⟨fun h => h1 (.inr h), fun h => h2 (mem_allIndices p) h⟩

/-! ### A property of every programme -/

/-- A programme whose on-air record is marked as overrun (R96). -/
def Prog.overran (P : Prog) : Prog :=
  P.setQueue { P.queue with onAir := P.queue.onAir.map fun o => { o with overrun := true } }

/-- A programme just activated (R28, R72). -/
def Prog.activated (line : List Stage) (b : Bool) (P : Prog) : Prog :=
  { entry := { P.entry with state := .running, escalation := 0 }, queue := P.queue, meas := P.meas.activated b,
    gain := (activationFix { P.entry with state := .running, escalation := 0 } line P.gain.activated).2 }

/-- A programme under another custodian (R25). -/
def Prog.withCustodian (c : Option PortId) (P : Prog) : Prog := P.setEntry { P.entry with custodian := c }

/-- A programme whose rights are replaced (R26). -/
def Prog.withRights (v : BitVec 3) (P : Prog) : Prog := P.setEntry { P.entry with rights := v }

/-- A property of programmes that each piece of the machine's work keeps. -/
structure ProgKept (good : Prog → Prop) : Prop where
  reset : ∀ p : Index, good (Prog.reset p.val)
  stages : ∀ (P : Prog) (line : List Stage) (n : Nat) pos cause, P.takeActs = true → (P.entry.escalation ≤ 3 → n ≤ 3) → good P →
      good ((P.ended line n).goOnAir pos cause)
  goOn : ∀ (P : Prog) (line : List Stage) (n : Nat), P.hasOnAir = true → (P.entry.escalation ≤ 3 → n ≤ 3) →
      (P.ended line n).entry.state ≠ .draining → good P → good (P.ended line n).toFreeRun
  drained : ∀ (P : Prog) (line : List Stage) (n : Nat), P.hasOnAir = true → (P.entry.escalation ≤ 3 → n ≤ 3) →
      (P.ended line n).entry.state = .draining → good P → good (P.ended line n).becomeInactive
  forced : ∀ (P : Prog) (line : List Stage) (n : Nat), P.hasOnAir = true → (P.entry.escalation ≤ 3 → n ≤ 3) → good P →
      good (P.ended line n).withdrawn.becomeInactive
  restarted : ∀ (P : Prog) (lines : Octet CueLine) (line : List Stage) (n : Nat), (P.entry.escalation ≤ 3 → n ≤ 3) → good P →
      good (Prog.restarted lines (if P.hasOnAir then (boundaryWork line P).2.closed n else P))
  close : ∀ P : Prog, P.closeDue = true → good P → good P.closeBlock
  ramp : ∀ P : Prog, P.rampDue = true → good P → good (P.setGain P.gain.completeRamp)
  overrun : ∀ P : Prog, good P → good P.overran
  frame : ∀ (P : Prog) line raw inactiveNow, P.isActive = true → P.closeDue = false → P.rampDue = false → good P →
      good (P.handFrame line raw inactiveNow).2
  tally : ∀ (P : Prog) k active, good P → good (P.tallyChange k active)
  lapse : ∀ (P : Prog) x, good P → good (P.lapse x)
  configure : ∀ (P : Prog) base width trig tally, slotsLegal base width = true → P.entry.state = .inactive → good P →
      good (P.configure base width trig tally)
  activate : ∀ (P : Prog) (line : List Stage) (b : Bool), P.entry.state = .inactive → good P →
      good (P.activated line b)
  deactivate : ∀ P : Prog, P.isActive = true → P.hasOnAir = false → good P → good P.withdrawn.becomeInactive
  drain : ∀ P : Prog, P.isActive = true → P.hasOnAir = true → good P → good (P.withdrawn.setState .draining)
  runOn : ∀ P : Prog, P.entry.state = .stopping → good P → good (P.setState .running)
  resume : ∀ (P : Prog) b, P.entry.state = .stopped → good P → good (P.resume b)
  stop : ∀ P : Prog, P.entry.state = .running → P.hasOnAir = false → good P → good (P.setState .stopping)
  tune : ∀ (P : Prog) v, v.legal = true → good P → good (P.tune v)
  custodian : ∀ (P : Prog) c, good P → good (P.withCustodian c)
  rights : ∀ (P : Prog) v, good P → good (P.withRights v)
  clearAccount : ∀ P : Prog, good P → good P.clearAccount
  cue : ∀ (P : Prog) r, r.legal = true → P.queue.hasId r.id = false → P.entry.state.cues = true →
      P.queue.count < Config.queueLimit → good P → good (P.setQueue (P.queue.append r))
  amend : ∀ (P : Prog) (a : AmendBody) r, P.queue.find a.id.toNat = some (r, false) → (a.amended r).legal = true → good P →
      good (P.setQueue (P.queue.amend a))
  withdraw : ∀ (P : Prog) id, good P → good (P.setQueue (P.queue.remove id))

theorem updProg_all {good : Prog → Prop} {s : State} (p : Index) (f : Prog → Prog) (hf : good (f (s.prog p)))
    (h : ∀ q, good (s.prog q)) : ∀ q, good ((s.updProg p f).prog q) := by
  intro q
  by_cases hq : q = p
  · subst hq
    rw [State.updProg_prog_same]
    exact hf
  · rw [State.updProg_prog_other _ _ _ _ hq]
    exact h q

/-- A property kept of one programme is kept of all eight. -/
theorem ProgKept.kept {good : Prog → Prop} (K : ProgKept good) : Kept fun s => ∀ p, good (s.prog p) where
  free := fun _ h => h
  raise := fun _ _ _ h => h
  stages := fun s p cause ha h q => by
    by_cases hq : q = p
    · subst hq
      obtain ⟨n, hn, hp⟩ := s.takeStages_prog_same q cause
      rw [hp]
      exact K.stages _ _ _ _ _ ha hn (h q)
    · rw [State.takeStages_prog_other _ _ _ _ hq]
      exact h q
  overrun := fun s p h => by
    unfold State.markOverrun
    exact updProg_all p Prog.overran (K.overrun _ (h p)) h
  finish := fun s p cause ha h q => by
    by_cases hq : q = p
    · subst hq
      obtain ⟨n, hn, hp⟩ := s.endSegment_prog_same q cause
      rw [hp]
      split
      · exact K.drained _ _ _ ha hn (by assumption) (h q)
      · exact K.goOn _ _ _ ha hn (by assumption) (h q)
    · rw [State.endSegment_prog_other _ _ _ _ hq]
      exact h q
  lock := fun _ _ h => h
  close := fun s p hd h => by
    unfold State.closeBlock
    simp only
    split
    · exact updProg_all p _ (K.close _ hd (h p)) h
    · exact updProg_all p _ (K.close _ hd (h p)) h
  ramp := fun s p hd h => updProg_all p _ (K.ramp _ hd (h p)) h
  powerOn := fun s straps levels p => by
    have hp : (s.powerOn straps levels).prog p = Prog.reset p.val := by
      unfold State.powerOn State.prog
      fin_cases p <;> rfl
    rw [hp]
    exact K.reset p
  queue := fun _ _ h => h
  armed := fun _ _ h => h
  restart := fun s h p => by
    obtain ⟨line, n, hn, hp⟩ := s.restart_prog p
    rw [hp]
    exact K.restarted _ _ _ _ hn (h p)
  tick := fun _ h => h
  frameSync := fun s _ h p => by
    have : s.takeFrameSync.progs = s.progs := by
      unfold State.takeFrameSync
      simp only
      split
      · rfl
      · rfl
      · split <;> rfl
    rw [State.prog, this]
    exact h p
  missSync := fun s h p => by
    have : s.missSync.progs = s.progs := by
      unfold State.missSync
      split
      · split <;> rfl
      · rfl
    rw [State.prog, this]
    exact h p
  expireWatch := fun s h p => by
    have : s.expireWatch.progs = s.progs := by
      unfold State.expireWatch
      split
      · simp only
        split <;> rfl
      · rfl
    rw [State.prog, this]
    exact h p
  frame := fun s slots hc h p => by
    unfold State.completeFrame
    split
    · split
      · obtain ⟨h1, h2⟩ := s.processFrame_prog (frameSamples slots) p
        by_cases ha : (s.prog p).isActive = true
        · obtain ⟨line, hp⟩ := h2 ha
          rw [hp]
          exact K.frame _ _ _ _ ha (hc.progs p).1 (hc.progs p).2 (h p)
        · rw [h1 (by simpa using ha)]
          exact h p
      · exact h p
      · exact h p
    · exact h p
  line := fun _ _ _ h => h
  edges := fun s k a h p => by
    unfold State.edgeReport
    rw [State.mapProgs_prog]
    exact K.tally _ _ _ (h p)
  tally := fun s k a h p => by
    rw [State.mapProgs_prog]
    exact K.tally _ _ _ (h p)
  quiet := fun _ _ _ _ h => h
  arrived := fun _ _ h => h
  clear := fun _ _ _ h => h
  timer := fun _ _ _ _ _ h => h
  lapse := fun s x h p => by
    have : (s.lapse x).prog p = (s.prog p).lapse x := by
      unfold State.lapse
      simp only
      split <;> split <;>
        simp only [State.raiseAt_prog, State.mapPorts_prog, State.mapProgs_prog, State.updPort_prog]
    rw [this]
    exact K.lapse _ _ (h p)
  copy := fun _ _ _ _ h => h
  read := fun _ _ _ _ h => h
  fetch := fun _ h => h
  configure := fun s p b w tr ta h1 _ h2 h => updProg_all p _ (K.configure _ _ _ _ _ h1 h2 (h p)) h
  activate := fun s p _ h1 h q => by
    unfold State.activate
    simp only [State.raiseAll_prog]
    by_cases hq : q = p
    · subst hq
      rw [State.setProg_prog_same]
      exact K.activate _ _ _ h1 (h q)
    · rw [State.setProg_prog_other _ _ _ _ hq]
      exact h q
  deactivation := fun s p f ha h q => by
    by_cases hq : q = p
    · subst hq
      obtain ⟨n, hn, hp⟩ := s.deactivation_prog_same q f
      rw [hp]
      split
      · split
        · exact K.forced _ _ _ (by assumption) hn (h q)
        · split
          · exact h q
          · exact K.drain _ ha (by assumption) (h q)
      · rename_i ho
        exact K.deactivate _ ha (by simpa using ho) (h q)
    · rw [State.deactivation_prog_other _ _ _ _ hq]
      exact h q
  run := fun s p _ h => by
    unfold State.run
    split
    · rename_i hs
      exact updProg_all p (fun P => P.setState .running) (K.runOn _ hs (h p)) h
    · rename_i hs
      exact updProg_all p (fun P => P.resume _) (K.resume _ _ hs (h p)) h
    · exact h
    · exact h
    · exact h
  stop := fun s p h1 h2 h => updProg_all p (fun P => P.setState .stopping) (K.stop _ h1 h2 (h p)) h
  tune := fun s p v hv h => updProg_all p _ (K.tune _ _ hv (h p)) h
  claim := fun s p x _ h => updProg_all p (Prog.withCustodian _) (K.custodian _ _ (h p)) h
  release := fun s p h => updProg_all p (Prog.withCustodian _) (K.custodian _ _ (h p)) h
  rights := fun s p v h => updProg_all p (Prog.withRights v) (K.rights _ _ (h p)) h
  clearAccount := fun s p h => updProg_all p _ (K.clearAccount _ (h p)) h
  cue := fun s p r _ h1 h2 h3 h4 h => updProg_all p _ (K.cue _ _ h1 h2 h3 h4 (h p)) h
  amend := fun s p a r h1 h2 h => updProg_all p _ (K.amend _ _ _ h1 h2 (h p)) h
  withdraw := fun s x p r id _ h => by
    unfold State.withdraw
    simp only
    split
    · exact updProg_all p (fun P => P.setQueue (P.queue.remove _)) (K.withdraw _ _ (h p)) h
    · exact updProg_all p (fun P => P.setQueue (P.queue.remove _)) (K.withdraw _ _ (h p)) h

/-! ### Follow chains -/

/-- A chain that misses the target stays in a set that misses it; `seen` are the programmes it has left behind. -/
theorem State.chainReaches_misses (s : State) (target : Index) (n : Nat) : ∀ (seen : List Index) (q : Index),
    seen.Nodup → target ∉ seen → (∀ a ∈ seen, ∀ b, (s.prog a).entry.trigger = .follow b → b ∈ seen ∨ b = q) →
    8 ≤ seen.length + n → s.chainReaches target n q = false →
    ∃ R : Index → Prop, R q ∧ (∀ a b, R a → (s.prog a).entry.trigger = .follow b → R b) ∧ ¬R target := by
  induction n with
  | zero =>
    intro seen q nd hp _ hl _
    have h := Index.nodup_length (target :: seen) (List.nodup_cons.mpr ⟨hp, nd⟩)
    rw [List.length_cons] at h
    omega
  | succ n ih =>
    intro seen q nd hp hc hl hq
    by_cases hm : q ∈ seen
    · refine ⟨(· ∈ seen), hm, fun a b ha hab => ?_, hp⟩
      rcases hc a ha b hab with h | rfl
      · exact h
      · exact hm
    · rw [State.chainReaches] at hq
      split at hq
      · exact absurd hq (by simp)
      · rename_i hne
        have hp' : target ∉ q :: seen := by
          rw [List.mem_cons, not_or]
          exact ⟨fun h => hne h.symm, hp⟩
        have closed : ∀ (i : Index), (∀ b, (s.prog q).entry.trigger = .follow b → b = i) →
            ∀ a ∈ q :: seen, ∀ b, (s.prog a).entry.trigger = .follow b → b ∈ q :: seen ∨ b = i := by
          intro i hi a ha b hab
          rcases List.mem_cons.mp ha with rfl | ha
          · exact .inr (hi b hab)
          · rcases hc a ha b hab with h | h
            · exact .inl (List.mem_cons_of_mem _ h)
            · exact .inl (h ▸ List.mem_cons_self)
        have stops : (∀ b, (s.prog q).entry.trigger ≠ .follow b) → ∃ R : Index → Prop, R q
            ∧ (∀ a b, R a → (s.prog a).entry.trigger = .follow b → R b) ∧ ¬R target := fun h =>
          ⟨(· ∈ q :: seen), List.mem_cons_self, fun a b ha hab => by
            rcases closed q (fun b hb => absurd hb (h b)) a ha b hab with h | rfl
            · exact h
            · exact List.mem_cons_self, hp'⟩
        cases ht : (s.prog q).entry.trigger with
        | follow i =>
          rw [ht] at hq
          obtain ⟨R, h1, h2, h3⟩ := ih (q :: seen) i (List.nodup_cons.mpr ⟨hm, nd⟩) hp'
            (closed i fun b hb => by rw [ht] at hb; injection hb with hb; exact hb.symm)
            (by rw [List.length_cons]; omega) hq
          refine ⟨fun a => a = q ∨ R a, .inl rfl, fun a b ha hab => ?_, ?_⟩
          · rcases ha with rfl | ha
            · rw [ht] at hab
              injection hab with hab
              exact .inr (hab ▸ h1)
            · exact .inr (h2 a b ha hab)
          · rintro (h | h)
            · exact hne h.symm
            · exact h3 h
        | cue k => exact stops fun b hb => by rw [ht] at hb; cases hb
        | off => exact stops fun b hb => by rw [ht] at hb; cases hb

/-- A chain that reaches the target lies in every set that holds its start and the leader of each follower in it. -/
theorem State.chainReaches_within (s : State) (target : Index) (R : Index → Prop)
    (closed : ∀ a b, R a → (s.prog a).entry.trigger = .follow b → R b) (n : Nat) :
    ∀ q, R q → s.chainReaches target n q = true → R target := by
  induction n with
  | zero => intro q _ h; exact absurd h (by simp [State.chainReaches])
  | succ n ih =>
    intro q hq h
    rw [State.chainReaches] at h
    split at h
    · rename_i he
      exact he ▸ hq
    · split at h
      · rename_i i hi
        exact ih i (closed q i hq hi) h
      · cases h
      · cases h

/-- R27: a trigger FOLLOW closes a cycle exactly when the chain of triggers reaches the programme. -/
theorem State.closesCycle_iff (s : State) (p i : Index) : s.closesCycle p (.follow i) = true ↔
    ∀ R : Index → Prop, R i → (∀ a b, R a → (s.prog a).entry.trigger = .follow b → R b) → R p := by
  constructor
  · intro h R hR closed
    exact s.chainReaches_within p R closed 8 i hR h
  · intro h
    by_contra hn
    obtain ⟨R, h1, h2, h3⟩ := s.chainReaches_misses p 8 [] i List.nodup_nil (by simp) (by simp) (by simp)
      (by simpa [State.closesCycle] using hn)
    exact h3 (h R h1 h2)

end Sys2Proof.Machine
end

