-- ==== Sys2Proof/Laws/Durations.lean ====
section
/-! SUPPORT. What the overrun marks of a frame do, and which events a duration reached is (R96). -/

namespace Sys2Proof.Machine

/-! ### Which event is due -/

/-- A duration reached is an overrun mark or an AUTO event, by its record's auto-advance, and not both. -/
theorem Prog.durationDue_split (P : Prog) : P.durationDue = (P.overrunDue || P.autoDue) ∧ (P.overrunDue && P.autoDue) = false := by
  unfold Prog.overrunDue Prog.autoDue
  cases h : P.queue.onAir with
  | none => exact ⟨by simp [Prog.durationDue, h], rfl⟩
  | some r => cases P.durationDue <;> cases r.record.autoAdvance <;> simp

/-- A record whose overrun mark has been set has no duration left to reach. -/
theorem Prog.overran_calm (P : Prog) (h : P.overrunDue = true) : P.overran.overrunDue = false ∧ P.overran.autoDue = false := by
  unfold Prog.overrunDue at h
  cases ho : P.queue.onAir with
  | none => simp [ho] at h
  | some r =>
    have ha : r.record.autoAdvance = false := by
      rw [ho] at h
      simpa using (Bool.and_eq_true _ _ |>.mp h).2
    unfold Prog.overrunDue Prog.autoDue Prog.durationDue Prog.overran Prog.setQueue
    simp only [ho, Option.map_some, ha]
    cases r.record.duration <;> simp

theorem Prog.overrunDue_iff (P : Prog) : P.overrunDue = true ↔ ∃ r d, P.queue.onAir = some r ∧ r.record.duration = some d
    ∧ 1 ≤ d ∧ r.framesOnAir = d * 4800 ∧ r.record.autoAdvance = false ∧ r.overrun = false := by
  unfold Prog.overrunDue Prog.durationDue
  cases ho : P.queue.onAir with
  | none => simp
  | some r =>
    cases hd : r.record.duration with
    | none => simp [hd]
    | some d =>
      simp only [Option.some.injEq, exists_and_left, exists_eq_left', hd, Config.blockFrames, Bool.and_eq_true,
        decide_eq_true_eq, Bool.or_eq_true, Bool.not_eq_true']
      constructor
      · rintro ⟨⟨⟨a, b⟩, c⟩, e⟩
        exact ⟨a, of_decide_eq_true b, e, by simpa [e] using c⟩
      · rintro ⟨a, b, e, c⟩
        exact ⟨⟨⟨a, decide_eq_true b⟩, .inr c⟩, e⟩

/-- A cascade of one piece of work takes that piece, and goes on with what it brings. -/
theorem State.cascade_one (s : State) (w : Work) (n : Nat) :
    s.cascade (n + 1) [w] = (s.perform w).1.cascade n (s.perform w).2 := by
  rw [State.cascade]
  rfl

/-! ### The overrun marks of a frame -/

theorem State.settleOverrun_prog (s : State) (p q : Index) :
    (s.settleOverrun p).prog q = if q = p ∧ (s.prog p).overrunDue = true then (s.prog q).overran else s.prog q := by
  unfold State.settleOverrun State.markOverrun
  by_cases hd : (s.prog p).overrunDue = true
  · rw [if_pos hd, State.raiseAll_prog]
    by_cases hq : q = p
    · subst hq
      rw [State.updProg_prog_same, if_pos ⟨rfl, hd⟩]
      rfl
    · rw [State.updProg_prog_other _ _ _ _ hq, if_neg fun h => hq h.1]
  · rw [if_neg hd, if_neg fun h => hd h.2]

theorem State.settleOverrun_frame (s : State) (p : Index) :
    s.settleOverrun p = { s with progs := (s.settleOverrun p).progs, ports := (s.settleOverrun p).ports } := by
  unfold State.settleOverrun
  split <;> rfl

theorem State.settleOverrun_onlyNotices (s : State) (p : Index) : s.onlyNotices (s.settleOverrun p) [.overrun] := by
  unfold State.settleOverrun State.markOverrun
  split
  · exact (State.onlyNotices.of_ports (s := s) _ rfl).trans (State.raiseAll_onlyNotices _ _ _ _ (by simp))
  · exact .refl s _

theorem State.settleOverrun_raisedBy (s : State) (p : Index) : s.raisedBy (s.settleOverrun p) fun k q =>
    k = .overrun ∧ q = p ∧ (s.prog q).overrunDue = true := by
  unfold State.settleOverrun State.markOverrun
  split
  · rename_i hd
    refine ((State.raisedBy.of_ports (s := s) rfl).trans (State.raiseAll_raisedBy _ .overrun p)).congr fun k q => ?_
    rw [false_or]
    exact ⟨fun ⟨h1, h2⟩ => ⟨h1, h2, h2 ▸ hd⟩, fun ⟨h1, h2, _⟩ => ⟨h1, h2⟩⟩
  · rename_i hd
    exact (State.raisedBy.refl s).congr fun k q => ⟨False.elim, fun ⟨_, h1, h2⟩ => hd (h1 ▸ h2)⟩

theorem overruns_prog (l : List Index) : ∀ (s : State) (q : Index), (l.foldl State.settleOverrun s).prog q
    = if q ∈ l ∧ (s.prog q).overrunDue = true then (s.prog q).overran else s.prog q := by
  induction l with
  | nil => intro s q; rw [if_neg fun h => absurd h.1 List.not_mem_nil]; rfl
  | cons a l ih =>
    intro s q
    rw [List.foldl_cons, ih, State.settleOverrun_prog]
    by_cases hq : q = a
    · subst hq
      by_cases hd : (s.prog q).overrunDue = true
      · have := (Prog.overran_calm _ hd).1
        simp [hd, this]
      · simp [hd]
    · simp [hq]

theorem overruns_raisedBy (l : List Index) : ∀ s : State, s.raisedBy (l.foldl State.settleOverrun s) fun k q =>
    k = .overrun ∧ q ∈ l ∧ (s.prog q).overrunDue = true := by
  induction l with
  | nil => exact fun s => (State.raisedBy.refl s).congr fun k q => by simp
  | cons a l ih =>
    intro s
    refine ((s.settleOverrun_raisedBy a).trans (ih (s.settleOverrun a))).congr fun k q => ?_
    rw [State.settleOverrun_prog]
    by_cases hq : q = a
    · subst hq
      by_cases hd : (s.prog q).overrunDue = true
      · simp [hd, (Prog.overran_calm _ hd).1]
      · simp [hd]
    · simp [hq]

/-- R96: the overrun marks of a frame: each programme whose mark is due gets it, with OVERRUN at every port, and nothing else
changes. -/
theorem State.settleOverruns_facts (s : State) : let t := s.settleOverruns
    (∀ q, t.prog q = if (s.prog q).overrunDue then (s.prog q).overran else s.prog q)
    ∧ s.onlyNotices t [.overrun] ∧ (s.raisedBy t fun k q => k = .overrun ∧ (s.prog q).overrunDue = true)
    ∧ t = { s with progs := t.progs, ports := t.ports } := by
  refine ⟨fun q => ?_, ?_, ?_, ?_⟩
  · rw [State.settleOverruns, overruns_prog]
    simp [mem_allIndices]
  · exact foldl_keeps (M := fun t => s.onlyNotices t [.overrun]) _ (fun t p h => h.trans (t.settleOverrun_onlyNotices p))
      allIndices s (.refl s _)
  · exact (overruns_raisedBy allIndices s).congr fun k q => by simp [mem_allIndices]
  · refine foldl_keeps (M := fun t => t = { s with progs := t.progs, ports := t.ports }) _ (fun t p h => ?_) allIndices s rfl
    rw [t.settleOverrun_frame p]
    generalize (t.settleOverrun p).progs = a
    generalize (t.settleOverrun p).ports = b
    rw [h]

/-- After the overrun marks of a frame only its AUTO events are due, and all of them are. -/
theorem State.settleOverruns_due (s : State) (q : Index) : (s.settleOverruns.prog q).overrunDue = false
    ∧ (s.settleOverruns.prog q).autoDue = (s.prog q).autoDue := by
  rw [s.settleOverruns_facts.1 q]
  by_cases h : (s.prog q).overrunDue = true
  · rw [if_pos h]
    obtain ⟨h1, h2⟩ := Prog.overran_calm _ h
    refine ⟨h1, h2.trans ?_⟩
    simpa [h] using (s.prog q).durationDue_split.2.symm
  · rw [if_neg h]
    exact ⟨by simpa using h, rfl⟩

end Sys2Proof.Machine
end

