-- ==== Sys2Proof/Laws/Estimates.lean ====
section
/-! SUPPORT. What the true-peak estimate, its ceiling, the continuation condition and the estimate foreseen are (R126 to R128). -/

namespace Sys2Proof.Machine

theorem foldl_max_greatest {α : Type} [LinearOrder α] (l : List α) : ∀ m : α,
    m ≤ l.foldl max m ∧ (∀ v ∈ l, v ≤ l.foldl max m) ∧ (l.foldl max m = m ∨ l.foldl max m ∈ l) := by
  induction l with
  | nil => intro m; exact ⟨le_refl _, by simp, .inl rfl⟩
  | cons a l ih =>
    intro m
    obtain ⟨h1, h2, h3⟩ := ih (max m a)
    rw [List.foldl_cons]
    refine ⟨(le_max_left _ _).trans h1, fun v hv => ?_, ?_⟩
    · rcases List.mem_cons.mp hv with rfl | hv
      · exact (le_max_right _ _).trans h1
      · exact h2 v hv
    · rcases h3 with h | h
      · rcases max_choice m a with hm | hm
        · exact .inl (h.trans hm)
        · exact .inr (List.mem_cons.mpr (.inl (h.trans hm)))
      · exact .inr (List.mem_cons_of_mem _ h)

/-- A point of R126 of some channel. -/
abbrev peakPoint {α : Type} [Mul α] [Add α] [IntCast α] (s3 s2 s1 s0 : List α) (v : α) : Prop :=
  ∃ (i : Nat) (a b c d : α), s3[i]? = some a ∧ s2[i]? = some b ∧ s1[i]? = some c ∧ s0[i]? = some d ∧ v ∈ peakPoints a b c d

/-- The points of lists with a first channel are those of that channel and those of the rest. -/
theorem peakPoint_cons {α : Type} [Mul α] [Add α] [IntCast α] (a b c d : α) (as bs cs ds : List α) (v : α) :
    peakPoint (a :: as) (b :: bs) (c :: cs) (d :: ds) v ↔ v ∈ peakPoints a b c d ∨ peakPoint as bs cs ds v := by
  constructor
  · rintro ⟨i, w, x, y, z, h1, h2, h3, h4, hv⟩
    cases i with
    | zero =>
      obtain rfl := Option.some.inj h1
      obtain rfl := Option.some.inj h2
      obtain rfl := Option.some.inj h3
      obtain rfl := Option.some.inj h4
      exact .inl hv
    | succ i => exact .inr ⟨i, w, x, y, z, h1, h2, h3, h4, hv⟩
  · rintro (hv | ⟨i, w, x, y, z, h1, h2, h3, h4, hv⟩)
    · exact ⟨0, a, b, c, d, rfl, rfl, rfl, rfl, hv⟩
    · exact ⟨i + 1, w, x, y, z, h1, h2, h3, h4, hv⟩

/-- R126: the magnitude of the estimate is the greatest of the points over all channels. -/
theorem peakMagnitude_greatest (s3 s2 s1 s0 : List Int) : let m := peakMagnitude s3 s2 s1 s0
    (∀ v, peakPoint s3 s2 s1 s0 v → v.natAbs ≤ m) ∧ (m = 0 ∨ ∃ v, peakPoint s3 s2 s1 s0 v ∧ v.natAbs = m) := by
  induction s3, s2, s1, s0 using peakMagnitude.induct with
  | case1 a as b bs c cs d ds ih =>
    obtain ⟨i1, i2⟩ := ih
    simp only [peakMagnitude, peakPoint_cons]
    obtain ⟨_, f2, f3⟩ := foldl_max_greatest ((peakPoints a b c d).map Int.natAbs) 0
    generalize ((peakPoints a b c d).map Int.natAbs).foldl max 0 = x at *
    generalize peakMagnitude as bs cs ds = y at *
    refine ⟨fun v hv => ?_, ?_⟩
    · rcases hv with hv | hv
      · exact (f2 _ (List.mem_map_of_mem hv)).trans (le_max_left _ _)
      · exact (i1 v hv).trans (le_max_right _ _)
    · rcases max_choice x y with h | h <;> rw [h]
      · rcases f3 with f3 | f3
        · exact .inl f3
        · obtain ⟨v, hv, he⟩ := List.mem_map.mp f3
          exact .inr ⟨v, .inl hv, he⟩
      · exact i2.imp id fun ⟨v, hv, he⟩ => ⟨v, .inr hv, he⟩
  | case2 s3 s2 s1 s0 hn =>
    have h0 : peakMagnitude s3 s2 s1 s0 = 0 := by
      unfold peakMagnitude
      split
      · exact (hn _ _ _ _ _ _ _ _ rfl rfl rfl rfl).elim
      · rfl
    refine ⟨?_, .inl h0⟩
    rintro v ⟨i, a, b, c, d, h1, h2, h3, h4, _⟩
    cases s3 <;> cases s2 <;> cases s1 <;> cases s0 <;> 
      first | exact (hn _ _ _ _ _ _ _ _ rfl rfl rfl rfl).elim | simp at h1 h2 h3 h4

theorem ratAbs_eq (q : Rat) : ratAbs q = |q| := by
  unfold ratAbs
  split
  · rename_i h
    rw [abs_of_neg h]
  · rename_i h
    rw [abs_of_nonneg (not_lt.mp h)]

/-- R128: the magnitude foreseen is the greatest of the points of the gain-applied samples over all channels. -/
theorem foreseenMagnitude_greatest (s3 s2 s1 s0 : List Rat) : let m := foreseenMagnitude s3 s2 s1 s0
    (∀ v, peakPoint s3 s2 s1 s0 v → |v| ≤ m) ∧ (m = 0 ∨ ∃ v, peakPoint s3 s2 s1 s0 v ∧ |v| = m) := by
  induction s3, s2, s1, s0 using foreseenMagnitude.induct with
  | case1 a as b bs c cs d ds ih =>
    obtain ⟨i1, i2⟩ := ih
    simp only [foreseenMagnitude, peakPoint_cons]
    obtain ⟨_, f2, f3⟩ := foldl_max_greatest ((peakPoints a b c d).map ratAbs) 0
    generalize ((peakPoints a b c d).map ratAbs).foldl max 0 = x at *
    generalize foreseenMagnitude as bs cs ds = y at *
    refine ⟨fun v hv => ?_, ?_⟩
    · rcases hv with hv | hv
      · exact (ratAbs_eq v ▸ f2 _ (List.mem_map_of_mem hv)).trans (le_max_left _ _)
      · exact (i1 v hv).trans (le_max_right _ _)
    · rcases max_choice x y with h | h <;> rw [h]
      · rcases f3 with f3 | f3
        · exact .inl f3
        · obtain ⟨v, hv, he⟩ := List.mem_map.mp f3
          exact .inr ⟨v, .inl hv, (ratAbs_eq v).symm.trans he⟩
      · exact i2.imp id fun ⟨v, hv, he⟩ => ⟨v, .inr hv, he⟩
  | case2 s3 s2 s1 s0 hn =>
    have h0 : foreseenMagnitude s3 s2 s1 s0 = 0 := by
      unfold foreseenMagnitude
      split
      · exact (hn _ _ _ _ _ _ _ _ rfl rfl rfl rfl).elim
      · rfl
    refine ⟨?_, .inl h0⟩
    rintro v ⟨i, a, b, c, d, h1, h2, h3, h4, _⟩
    cases s3 <;> cases s2 <;> cases s1 <;> cases s0 <;> 
      first | exact (hn _ _ _ _ _ _ _ _ rfl rfl rfl rfl).elim | simp at h1 h2 h3 h4

/-- The estimate of magnitude `m` is no greater than the ceiling, in tenths of a dBTP. -/
theorem withinCeiling_iff (m : Nat) (ceiling : Int) :
    withinCeiling m ceiling = true ↔ ((m : Rat) / 2 ^ 31) ^ 200 ≤ (10 : Rat) ^ ceiling := by
  rw [div_pow, ← pow_mul, div_le_iff₀ (by positivity)]
  unfold withinCeiling
  split
  · rename_i h
    obtain ⟨n, rfl⟩ : ∃ n : Nat, ceiling = -(n : Int) := ⟨(-ceiling).toNat, by omega⟩
    rw [show (-(-(n : Int))).toNat = n by omega, decide_eq_true_iff, zpow_neg, zpow_natCast, inv_mul_eq_div,
      le_div_iff₀ (by positivity)]
    exact_mod_cast Iff.rfl
  · rename_i h
    obtain ⟨n, rfl⟩ : ∃ n : Nat, ceiling = (n : Int) := ⟨ceiling.toNat, by omega⟩
    rw [Int.toNat_natCast, decide_eq_true_iff, zpow_natCast, mul_comm]
    exact_mod_cast Iff.rfl

/-- R127: the four estimates of the continuation condition. -/
theorem continuation_estimates (ceiling : Int) (s3 s2 s1 s0 : List Int) : let zero := List.replicate s0.length 0
    continuation ceiling s3 s2 s1 s0 = true ↔ withinCeiling (peakMagnitude s3 s2 s1 s0) ceiling = true
      ∧ withinCeiling (peakMagnitude s2 s1 s0 zero) ceiling = true
      ∧ withinCeiling (peakMagnitude s1 s0 zero zero) ceiling = true
      ∧ withinCeiling (peakMagnitude s0 zero zero zero) ceiling = true := by
  unfold continuation
  simp only [List.map_const', Bool.and_eq_true, and_assoc]

end Sys2Proof.Machine
end

