-- ==== Sys2Proof/Laws/Limiter.lean ====
section
/-! SUPPORT. What the limiter's choice of a reduction can be relied on for (R127, R128): a greater reduction brings every
corrected sample nearer to zero, the reduction chosen meets the continuation condition if any does, and the attack is the greatest
of the shares of the positions behind. -/

namespace Sys2Proof.Machine

/-! ### 10^x grows with x -/

theorem expSeries_mono {x x' : Nat} (h : x ≤ x') (fuel : Nat) : ∀ (i : Nat) {t t' : Nat}, t ≤ t' →
    expSeries x fuel i t ≤ expSeries x' fuel i t' := by
  induction fuel with
  | zero => intro i t t' _; exact Nat.le_refl _
  | succ n ih =>
    intro i t t' ht
    exact Nat.add_le_add ht (ih (i + 1) (Nat.div_le_div_right (Nat.mul_le_mul ht h)))

theorem expFixed_mono {x x' : Nat} (h : x ≤ x') : expFixed x ≤ expFixed x' := expSeries_mono h 64 1 (Nat.le_refl _)

theorem expFixed_one_le (x : Nat) : fixedOne ≤ expFixed x := Nat.le_add_right _ _

theorem expFixed_ln10 : expFixed ln10Fixed ≤ 10 * fixedOne := by decide +kernel

/-- The part of 10^q that the fraction of q gives. -/
def fractionFactor (f : Rat) : Rat :=
  if f = 0 then 1 else mkRat (expFixed (f * (ln10Fixed : Rat)).floor.toNat) fixedOne

theorem mkRat_fixed (n : Nat) : mkRat n fixedOne = (n : Rat) / (fixedOne : Rat) := by
  rw [Rat.mkRat_eq_div]
  simp

theorem fixedOne_pos : (0 : Rat) < (fixedOne : Rat) := by unfold fixedOne; positivity

theorem fractionFactor_bounds {f : Rat} (h1 : f < 1) : 1 ≤ fractionFactor f ∧ fractionFactor f ≤ 10 := by
  unfold fractionFactor
  split
  · norm_num
  · rw [mkRat_fixed, le_div_iff₀ fixedOne_pos, div_le_iff₀ fixedOne_pos, one_mul]
    refine ⟨by exact_mod_cast expFixed_one_le _, ?_⟩
    have hx : (f * (ln10Fixed : Rat)).floor.toNat ≤ ln10Fixed := by
      have : (f * (ln10Fixed : Rat)).floor ≤ (ln10Fixed : Int) := by
        have hle : f * (ln10Fixed : Rat) ≤ ((ln10Fixed : Int) : Rat) := by
          have : (0 : Rat) ≤ (ln10Fixed : Rat) := by positivity
          push_cast
          nlinarith
        exact_mod_cast (Int.floor_le (f * (ln10Fixed : Rat))).trans hle
      omega
    exact_mod_cast (expFixed_mono hx).trans expFixed_ln10

theorem fractionFactor_mono {f f' : Rat} (h0 : 0 ≤ f) (h : f ≤ f') (h1 : f' < 1) :
    fractionFactor f ≤ fractionFactor f' := by
  by_cases hf : f = 0
  · rw [fractionFactor, if_pos hf]
    exact (fractionFactor_bounds h1).1
  · have hf' : f' ≠ 0 := fun e => hf (le_antisymm (e ▸ h) h0)
    rw [fractionFactor, fractionFactor, if_neg hf, if_neg hf', mkRat_fixed, mkRat_fixed]
    refine div_le_div_of_nonneg_right ?_ fixedOne_pos.le
    have hm : (f * (ln10Fixed : Rat)).floor ≤ (f' * (ln10Fixed : Rat)).floor :=
      Int.floor_le_floor (mul_le_mul_of_nonneg_right h (by positivity))
    exact_mod_cast expFixed_mono (Int.toNat_le_toNat hm)

theorem pow10Whole_eq (n : Int) : pow10Whole n = (10 : Rat) ^ n := by
  unfold pow10Whole
  split
  · rename_i h
    obtain ⟨k, rfl⟩ := Int.eq_ofNat_of_zero_le h
    simp
  · rename_i h
    obtain ⟨k, hk⟩ := Int.eq_ofNat_of_zero_le (by omega : 0 ≤ -n)
    obtain rfl : n = -(k : Int) := by omega
    simp

theorem pow10_eq (q : Rat) : pow10 q = (10 : Rat) ^ q.floor * fractionFactor (q - q.floor) := by
  rw [pow10, fractionFactor, ← pow10Whole_eq]
  by_cases h : q - q.floor = 0
  · rw [if_pos h, if_pos h, mul_one]
  · rw [if_neg h, if_neg h]

theorem floor_bounds (q : Rat) : 0 ≤ q - q.floor ∧ q - q.floor < 1 := by
  have h1 : (q.floor : Rat) ≤ q := Int.floor_le q
  have h2 : q < (q.floor : Rat) + 1 := Int.lt_floor_add_one q
  exact ⟨by linarith, by linarith⟩

theorem pow10_pos (q : Rat) : 0 < pow10 q := by
  rw [pow10_eq]
  have := (fractionFactor_bounds (floor_bounds q).2).1
  positivity

theorem pow10_mono {q q' : Rat} (h : q ≤ q') : pow10 q ≤ pow10 q' := by
  rw [pow10_eq, pow10_eq]
  have hf : q.floor ≤ q'.floor := Int.floor_le_floor h
  rcases hf.eq_or_lt with e | l
  · rw [← e]
    refine mul_le_mul_of_nonneg_left (fractionFactor_mono (floor_bounds q).1 ?_ ?_) (by positivity)
    · linarith
    · rw [e]; exact (floor_bounds q').2
  · have h1 := (fractionFactor_bounds (floor_bounds q).2).2
    have h2 := (fractionFactor_bounds (floor_bounds q').2).1
    have h3 : (10 : Rat) ^ (q.floor + 1) ≤ 10 ^ q'.floor := zpow_le_zpow_right₀ (by norm_num) (by omega)
    rw [zpow_add₀ (by norm_num), zpow_one] at h3
    calc (10 : Rat) ^ q.floor * fractionFactor (q - q.floor) ≤ 10 ^ q.floor * 10 :=
          mul_le_mul_of_nonneg_left h1 (by positivity)
      _ ≤ 10 ^ q'.floor := h3
      _ ≤ 10 ^ q'.floor * fractionFactor (q' - q'.floor) := le_mul_of_one_le_right (by positivity) h2

/-! ### A greater reduction brings a corrected sample nearer to zero -/

/-- `d'` lies between 0 and `d`. -/
def nearer (d d' : Int) : Prop := (0 ≤ d' ∧ d' ≤ d) ∨ (d ≤ d' ∧ d' ≤ 0)

theorem roundAway_mono {a b : Rat} (h : a ≤ b) : roundAway a ≤ roundAway b := by
  have fm : ∀ {x y : Rat}, x ≤ y → x.floor ≤ y.floor := fun h => Int.floor_le_floor h
  have hn : ∀ x : Rat, 0 ≤ x → 0 ≤ (x + 1 / 2).floor := fun x hx =>
    Int.floor_nonneg.mpr (by linarith : (0 : Rat) ≤ x + 1 / 2)
  unfold roundAway
  by_cases ha : 0 ≤ a
  · rw [if_pos ha, if_pos (ha.trans h)]
    exact fm (by linarith)
  · rw [if_neg ha]
    by_cases hb : 0 ≤ b
    · rw [if_pos hb]
      have h1 := hn (-a) (by linarith)
      have h2 := hn b hb
      omega
    · rw [if_neg hb]
      have := fm (x := -b + 1 / 2) (y := -a + 1 / 2) (by linarith)
      omega

theorem roundAway_zero : roundAway 0 = 0 := by decide +kernel

theorem clamp_sample (v : Int) : (BitVec.ofInt 24 (clampInt (-8388608) 8388607 v)).toInt = clampInt (-8388608) 8388607 v := by
  have h : -8388608 ≤ clampInt (-8388608) 8388607 v ∧ clampInt (-8388608) 8388607 v ≤ 8388607 := by
    unfold clampInt
    split
    · omega
    · split <;> omega
  rw [BitVec.toInt_ofInt]
  exact Int.bmod_eq_of_le (by norm_num; omega) (by norm_num; omega)

theorem clampInt_mono {lo hi a b : Int} (hl : lo ≤ hi) (h : a ≤ b) : clampInt lo hi a ≤ clampInt lo hi b := by
  unfold clampInt
  repeat' split
  all_goals omega

/-- R125: a greater reduction brings the corrected sample nearer to zero. -/
theorem correctedValue_nearer (gain : Rat) {r r' : Nat} (h : r ≤ r') (v : Sample) :
    nearer (correctedValue gain r v).toInt (correctedValue gain r' v).toInt := by
  by_cases hr' : Config.muteReduction ≤ r'
  · have : correctedValue gain r' v = 0 := by unfold correctedValue; rw [if_pos hr']
    rw [this]
    unfold nearer
    simp
    omega
  · have hr : ¬Config.muteReduction ≤ r := fun e => hr' (e.trans h)
    unfold correctedValue
    rw [if_neg hr, if_neg hr']
    simp only [clamp_sample]
    have hq : gain - mkRat r' Config.reductionSteps ≤ gain - mkRat r Config.reductionSteps := by
      have : mkRat (r : Int) Config.reductionSteps ≤ mkRat (r' : Int) Config.reductionSteps := by
        rw [Rat.mkRat_eq_div, Rat.mkRat_eq_div]
        refine div_le_div_of_nonneg_right ?_ (by positivity)
        exact_mod_cast h
      linarith
    have hf : gainFactor (gain - mkRat r' Config.reductionSteps) ≤ gainFactor (gain - mkRat r Config.reductionSteps) := by
      unfold gainFactor
      exact pow10_mono (by linarith)
    have h0 : 0 < gainFactor (gain - mkRat r' Config.reductionSteps) := pow10_pos _
    have z : clampInt (-8388608) 8388607 (roundAway 0) = 0 := by rw [roundAway_zero]; decide
    rcases le_total 0 v.toInt with hv | hv
    · left
      have hv' : (0 : Rat) ≤ (v.toInt : Rat) := by exact_mod_cast hv
      refine ⟨z ▸ clampInt_mono (by decide) (roundAway_mono (by positivity)),
        clampInt_mono (by decide) (roundAway_mono (mul_le_mul_of_nonneg_left hf hv'))⟩
    · right
      have hv' : (v.toInt : Rat) ≤ 0 := by exact_mod_cast hv
      refine ⟨clampInt_mono (by decide) (roundAway_mono (mul_le_mul_of_nonpos_left hf hv')),
        z ▸ clampInt_mono (by decide) (roundAway_mono (mul_nonpos_of_nonpos_of_nonneg hv' h0.le))⟩

/-- The corrected samples of a position under a greater reduction, channel by channel. -/
theorem corrected_nearer (w : GainApplied) {r r' : Nat} (h : r ≤ r') :
    List.Forall₂ nearer (sampleInts (w.corrected r)) (sampleInts (w.corrected r')) := by
  unfold sampleInts GainApplied.corrected
  induction w.input with
  | nil => exact .nil
  | cons v vs ih => exact .cons (correctedValue_nearer w.gain h v) ih

/-! ### The continuation condition, point by point -/

theorem withinCeiling_mono {m n : Nat} (h : m ≤ n) (c : Int) (hn : withinCeiling n c = true) : withinCeiling m c = true := by
  have hp : m ^ 200 ≤ n ^ 200 := Nat.pow_le_pow_left h 200
  unfold withinCeiling at hn ⊢
  split at hn
  · rename_i hc
    rw [if_pos hc]
    exact decide_eq_true ((Nat.mul_le_mul_right _ hp).trans (of_decide_eq_true hn))
  · rename_i hc
    rw [if_neg hc]
    exact decide_eq_true (hp.trans (of_decide_eq_true hn))

theorem withinCeiling_zero (c : Int) : withinCeiling 0 c = true := by
  unfold withinCeiling
  split <;> simp

theorem withinCeiling_max (m n : Nat) (c : Int) :
    withinCeiling (max m n) c = true ↔ withinCeiling m c = true ∧ withinCeiling n c = true := by
  refine ⟨fun h => ⟨withinCeiling_mono (Nat.le_max_left _ _) c h, withinCeiling_mono (Nat.le_max_right _ _) c h⟩, ?_⟩
  rintro ⟨h1, h2⟩
  rcases Nat.le_total m n with h | h
  · rw [Nat.max_eq_right h]; exact h2
  · rw [Nat.max_eq_left h]; exact h1

theorem withinCeiling_foldl (c : Int) (l : List Nat) : ∀ m, withinCeiling (l.foldl max m) c = true
    ↔ withinCeiling m c = true ∧ ∀ v ∈ l, withinCeiling v c = true := by
  induction l with
  | nil => intro m; simp
  | cons a l ih =>
    intro m
    rw [List.foldl_cons, ih, withinCeiling_max]
    simp only [List.mem_cons, forall_eq_or_imp]
    tauto

/-- All the points of one channel lie within the ceiling. -/
def channelWithin (c a b e d : Int) : Prop := ∀ v ∈ continuationPoints a b e d, withinCeiling v.natAbs c = true

/-- All the points of all channels lie within the ceiling. -/
def pointsWithin (ceiling : Int) : (s3 s2 s1 s0 : List Int) → Prop
  | a :: as, b :: bs, c :: cs, d :: ds => channelWithin ceiling a b c d ∧ pointsWithin ceiling as bs cs ds
  | _, _, _, _ => True

theorem withinCeiling_points (c : Int) (l : List Int) (m : Nat) :
    withinCeiling (max ((l.map Int.natAbs).foldl max 0) m) c = true
      ↔ (∀ v ∈ l, withinCeiling v.natAbs c = true) ∧ withinCeiling m c = true := by
  rw [withinCeiling_max, withinCeiling_foldl]
  simp [withinCeiling_zero]

/-- R127: the continuation condition holds exactly when every point lies within the ceiling. -/
theorem continuation_iff (c : Int) : ∀ s3 s2 s1 s0 : List Int, s3.length = s0.length → s2.length = s0.length →
    s1.length = s0.length → (continuation c s3 s2 s1 s0 = true ↔ pointsWithin c s3 s2 s1 s0) := by
  intro s3 s2 s1 s0
  induction s0 generalizing s3 s2 s1 with
  | nil =>
    intro h3 h2 h1
    obtain rfl := List.length_eq_zero_iff.mp h3
    obtain rfl := List.length_eq_zero_iff.mp h2
    obtain rfl := List.length_eq_zero_iff.mp h1
    simp [continuation, peakMagnitude, pointsWithin, withinCeiling_zero]
  | cons d ds ih =>
    intro h3 h2 h1
    cases s3 with
    | nil => simp at h3
    | cons a as =>
      cases s2 with
      | nil => simp at h2
      | cons b bs =>
        cases s1 with
        | nil => simp at h1
        | cons e es =>
          have ih' := ih as bs es (by simpa using h3) (by simpa using h2) (by simpa using h1)
          simp only [continuation, Bool.and_eq_true] at ih'
          simp only [continuation, List.map_cons, peakMagnitude, Bool.and_eq_true, withinCeiling_points, pointsWithin, ← ih',
            channelWithin, continuationPoints, List.mem_append]
          constructor
          · rintro ⟨⟨⟨⟨p1, q1⟩, p2, q2⟩, p3, q3⟩, p4, q4⟩
            refine ⟨?_, ⟨⟨q1, q2⟩, q3⟩, q4⟩
            rintro v (((h | h) | h) | h)
            exacts [p1 v h, p2 v h, p3 v h, p4 v h]
          · rintro ⟨p, ⟨⟨q1, q2⟩, q3⟩, q4⟩
            exact ⟨⟨⟨⟨fun v h => p v (.inl (.inl (.inl h))), q1⟩, fun v h => p v (.inl (.inl (.inr h))), q2⟩,
              fun v h => p v (.inl (.inr h)), q3⟩, fun v h => p v (.inr h), q4⟩

/-! ### One channel: a point moves straight toward its place with the sample at zero -/

/-- Each point is its place with the sample of p at zero, and a multiple of the sample. -/
theorem continuationPoints_affine (a b e : Int) : ∃ ks : List (Int × Int), ∀ d,
    continuationPoints a b e d = ks.map (fun k => k.1 + k.2 * d) := by
  refine ⟨(continuationPoints a b e 0).zip [256, 30, 80, 154, 0, 270, 240, 154, 0, -54, -80, -66, 0, 10, 16, 14], fun d => ?_⟩
  simp only [continuationPoints, peakPoints, List.cons_append, List.nil_append, List.zip_cons_cons, List.zip_nil_right,
    List.map_cons, List.map_nil, Int.cast_id]
  norm_num

/-- Some point of one channel lies too far out. -/
def channelFar (c a b e d : Int) : Bool :=
  ((continuationPoints a b e d).zip (continuationPoints a b e 0)).any fun t => tooFar c t.1 t.2

theorem channelFar_iff (c a b e d : Int) (ks : List (Int × Int))
    (h : ∀ d, continuationPoints a b e d = ks.map (fun k => k.1 + k.2 * d)) :
    channelFar c a b e d = true ↔ ∃ k ∈ ks, tooFar c (k.1 + k.2 * d) k.1 = true := by
  unfold channelFar
  rw [h d, h 0, List.zip_map', List.any_map]
  simp [List.any_eq_true]

theorem mul_nearer {k d d' : Int} (h : nearer d d') : (0 ≤ k * d' ∧ k * d' ≤ k * d) ∨ (k * d ≤ k * d' ∧ k * d' ≤ 0) := by
  rcases h with ⟨h1, h2⟩ | ⟨h1, h2⟩ <;> rcases le_total 0 k with hk | hk
  · exact .inl ⟨by positivity, mul_le_mul_of_nonneg_left h2 hk⟩
  · exact .inr ⟨mul_le_mul_of_nonpos_left h2 hk, mul_nonpos_of_nonpos_of_nonneg hk h1⟩
  · exact .inr ⟨mul_le_mul_of_nonneg_left h1 hk, mul_nonpos_of_nonneg_of_nonpos hk h2⟩
  · exact .inl ⟨mul_nonneg_of_nonpos_of_nonpos hk h2, mul_le_mul_of_nonpos_left h1 hk⟩

theorem tooFar_iff (c v a : Int) :
    tooFar c v a = true ↔ ((0 < v ∧ a < v) ∨ (v < 0 ∧ v < a)) ∧ withinCeiling v.natAbs c = false := by
  simp [tooFar]

/-- A point too far out with the nearer sample is too far out with the farther one. -/
theorem tooFar_of_nearer {c a k d d' : Int} (h : nearer d d') (ht : tooFar c (a + k * d') a = true) :
    tooFar c (a + k * d) a = true := by
  rw [tooFar_iff] at ht ⊢
  obtain ⟨hs, hw⟩ := ht
  have hm := mul_nearer (k := k) h
  refine ⟨by omega, ?_⟩
  by_contra hn
  have := withinCeiling_mono (m := (a + k * d').natAbs) (n := (a + k * d).natAbs) (by omega) c (by simpa using hn)
  rw [this] at hw
  exact Bool.noConfusion hw

/-- A point that is not too far out with the farther sample, and within the ceiling with the nearer one, is within it with
the farther one. -/
theorem within_of_nearer {c a k d d' : Int} (h : nearer d d') (hf : tooFar c (a + k * d) a = false)
    (hw : withinCeiling (a + k * d').natAbs c = true) : withinCeiling (a + k * d).natAbs c = true := by
  by_contra hn
  have hn' : withinCeiling (a + k * d).natAbs c = false := by simpa using hn
  have hm := mul_nearer (k := k) h
  have hs : ¬((0 < a + k * d ∧ a < a + k * d) ∨ (a + k * d < 0 ∧ a + k * d < a)) := fun hs => by
    have := (tooFar_iff c (a + k * d) a).mpr ⟨hs, hn'⟩
    rw [this] at hf
    exact Bool.noConfusion hf
  exact hn (withinCeiling_mono (by omega) c hw)

/-! ### All channels -/

theorem tooLoud_cons (c a b e d : Int) (as bs es ds : List Int) :
    tooLoud c (a :: as) (b :: bs) (e :: es) (d :: ds) = (channelFar c a b e d || tooLoud c as bs es ds) := rfl

/-- A position not too loud at a reduction is not too loud at a greater one. -/
theorem tooLoud_of_nearer (c : Int) (s3 s2 s1 : List Int) {s0 s0' : List Int} (h : List.Forall₂ nearer s0 s0')
    (ht : tooLoud c s3 s2 s1 s0' = true) : tooLoud c s3 s2 s1 s0 = true := by
  induction h generalizing s3 s2 s1 with
  | nil => cases s3 <;> cases s2 <;> cases s1 <;> simp [tooLoud] at ht
  | cons hd _ ih =>
    cases s3 with
    | nil => simp [tooLoud] at ht
    | cons a as =>
      cases s2 with
      | nil => simp [tooLoud] at ht
      | cons b bs =>
        cases s1 with
        | nil => simp [tooLoud] at ht
        | cons e es =>
          rw [tooLoud_cons, Bool.or_eq_true] at ht ⊢
          refine ht.imp (fun hc => ?_) (ih as bs es)
          obtain ⟨ks, hk⟩ := continuationPoints_affine a b e
          rw [channelFar_iff _ _ _ _ _ ks hk] at hc ⊢
          obtain ⟨k, hmem, hkt⟩ := hc
          exact ⟨k, hmem, tooFar_of_nearer hd hkt⟩

/-- A position whose points all lie within the ceiling is not too loud. -/
theorem tooLoud_of_within (c : Int) : ∀ s3 s2 s1 s0 : List Int, pointsWithin c s3 s2 s1 s0 → tooLoud c s3 s2 s1 s0 = false := by
  intro s3 s2 s1 s0
  induction s0 generalizing s3 s2 s1 with
  | nil => intro _; cases s3 <;> cases s2 <;> cases s1 <;> rfl
  | cons d ds ih =>
    intro h
    cases s3 with
    | nil => rfl
    | cons a as =>
      cases s2 with
      | nil => rfl
      | cons b bs =>
        cases s1 with
        | nil => rfl
        | cons e es =>
          rw [tooLoud_cons, Bool.or_eq_false_iff]
          refine ⟨?_, ih as bs es h.2⟩
          by_contra hn
          obtain ⟨ks, hk⟩ := continuationPoints_affine a b e
          have hn' := (channelFar_iff c a b e d ks hk).mp (by simpa using hn)
          obtain ⟨k, hmem, hkt⟩ := hn'
          have hw := h.1 (k.1 + k.2 * d) (by rw [hk d]; exact List.mem_map.mpr ⟨k, hmem, rfl⟩)
          rw [((tooFar_iff _ _ _).mp hkt).2] at hw
          exact Bool.noConfusion hw

/-- A position that is not too loud, and meets the condition at a greater reduction, meets it. -/
theorem within_of_not_tooLoud (c : Int) (s3 s2 s1 : List Int) {s0 s0' : List Int} (h : List.Forall₂ nearer s0 s0')
    (hl : tooLoud c s3 s2 s1 s0 = false) (hw : pointsWithin c s3 s2 s1 s0') : pointsWithin c s3 s2 s1 s0 := by
  induction h generalizing s3 s2 s1 with
  | nil => cases s3 <;> cases s2 <;> cases s1 <;> trivial
  | cons hd _ ih =>
    cases s3 with
    | nil => trivial
    | cons a as =>
      cases s2 with
      | nil => trivial
      | cons b bs =>
        cases s1 with
        | nil => trivial
        | cons e es =>
          rw [tooLoud_cons, Bool.or_eq_false_iff] at hl
          refine ⟨fun v hv => ?_, ih as bs es hl.2 hw.2⟩
          obtain ⟨ks, hk⟩ := continuationPoints_affine a b e
          rw [hk, List.mem_map] at hv
          obtain ⟨k, hmem, rfl⟩ := hv
          refine within_of_nearer hd ?_ (hw.1 _ (by rw [hk]; exact List.mem_map.mpr ⟨k, hmem, rfl⟩))
          by_contra hn
          have := (channelFar_iff c a b e _ ks hk).mpr ⟨k, hmem, by simpa using hn⟩
          rw [hl.1] at this
          exact Bool.noConfusion this

/-! ### The search, and the choice -/

/-- A search over a test that stays passed once it is passed answers no more than any number that passes. -/
theorem leastBetween_le (ok : Nat → Bool) (up : ∀ a b, a ≤ b → ok a = true → ok b = true) (fuel : Nat) :
    ∀ lo hi r, hi < lo + 2 ^ fuel → ok r = true → lo ≤ r → r ≤ hi → leastBetween ok fuel lo hi ≤ r := by
  induction fuel with
  | zero =>
    intro lo hi r hf _ hl _
    rw [leastBetween]
    simp at hf
    omega
  | succ n ih =>
    intro lo hi r hf hr hl hh
    rw [leastBetween]
    rw [pow_succ] at hf
    split
    · omega
    · split
      · by_cases hm : r ≤ (lo + hi) / 2
        · exact ih _ _ _ (by omega) hr hl hm
        · have hle : ∀ f a b, a ≤ b → leastBetween ok f a b ≤ b := by
            intro f
            induction f with
            | zero => intro a b _; exact Nat.le_refl _
            | succ f ihf =>
              intro a b hab
              rw [leastBetween]
              split
              · exact Nat.le_refl _
              · split
                · exact (ihf _ _ (by omega)).trans (by omega)
                · exact ihf _ _ (by omega)
          exact (hle n lo _ (by omega)).trans (by omega)
      · rename_i hm
        have hlt : (lo + hi) / 2 < r := by
          by_contra hn
          exact hm (up r _ (by omega) hr)
        exact ih _ _ _ (by omega) hr (by omega) hh

/-- A search among numbers none of which passes answers the last. -/
theorem leastBetween_none (ok : Nat → Bool) (fuel : Nat) : ∀ lo hi, (∀ r, r < hi → ok r = false) →
    leastBetween ok fuel lo hi = hi := by
  induction fuel with
  | zero => intro lo hi _; rfl
  | succ n ih =>
    intro lo hi h
    rw [leastBetween]
    split
    · rfl
    · rw [if_neg (by rw [h _ (by omega)]; decide), ih _ _ h]

/-- The samples before a position, one a channel. -/
def GainApplied.matched (w : GainApplied) (s3 s2 s1 : List Int) : Prop :=
  s3.length = w.input.length ∧ s2.length = w.input.length ∧ s1.length = w.input.length

theorem corrected_length (w : GainApplied) (r : Nat) : (sampleInts (w.corrected r)).length = w.input.length := by
  simp [sampleInts, GainApplied.corrected]

theorem GainApplied.meets_iff (w : GainApplied) (c : Int) (s3 s2 s1 : List Int) (h : w.matched s3 s2 s1) (r : Nat) :
    w.meets c s3 s2 s1 r = true ↔ pointsWithin c s3 s2 s1 (sampleInts (w.corrected r)) := by
  unfold GainApplied.meets
  exact continuation_iff c s3 s2 s1 _ (by rw [corrected_length]; exact h.1) (by rw [corrected_length]; exact h.2.1)
    (by rw [corrected_length]; exact h.2.2)

/-- R128: the requirement meets the condition if any reduction does, and is the least that does. -/
theorem GainApplied.requirement_least (w : GainApplied) (c : Int) (s3 s2 s1 : List Int) (h : w.matched s3 s2 s1) (r : Nat)
    (hr : w.meets c s3 s2 s1 r = true) :
    w.meets c s3 s2 s1 (w.requirement c s3 s2 s1) = true ∧ w.requirement c s3 s2 s1 ≤ r := by
  -- a reduction beyond a mute is a mute
  have hmute : w.meets c s3 s2 s1 (min r Config.muteReduction) = true := by
    rcases Nat.le_total r Config.muteReduction with hle | hle
    · rw [Nat.min_eq_left hle]
      exact hr
    · rw [Nat.min_eq_right hle]
      unfold GainApplied.meets at hr ⊢
      rw [corrected_muted w _ (Nat.le_refl _), ← corrected_muted w r hle]
      exact hr
  have hp := (w.meets_iff c s3 s2 s1 h _).mp hmute
  generalize hok : (fun r => !tooLoud c s3 s2 s1 (sampleInts (w.corrected r))) = ok
  have up : ∀ a b, a ≤ b → ok a = true → ok b = true := by
    intro a b hab ha
    subst hok
    simp only [Bool.not_eq_true'] at ha ⊢
    by_contra hn
    have := tooLoud_of_nearer c s3 s2 s1 (corrected_nearer w hab) (by simpa using hn)
    rw [ha] at this
    exact Bool.noConfusion this
  have hokr : ok (min r Config.muteReduction) = true := by
    subst hok
    simp [tooLoud_of_within c s3 s2 s1 _ hp]
  have hle : leastBetween ok 64 0 Config.muteReduction ≤ min r Config.muteReduction :=
    leastBetween_le ok up 64 0 Config.muteReduction _ (by unfold Config.muteReduction Config.reductionSteps; norm_num)
      hokr (Nat.zero_le _) (Nat.min_le_right _ _)
  have hleast : ok (leastBetween ok 64 0 Config.muteReduction) = true :=
    leastBetween_ok ok 64 0 _ (up _ _ (Nat.min_le_right _ _) hokr)
  have hmeets : w.meets c s3 s2 s1 (leastBetween ok 64 0 Config.muteReduction) = true := by
    rw [w.meets_iff c s3 s2 s1 h]
    refine within_of_not_tooLoud c s3 s2 s1 (corrected_nearer w hle) ?_ hp
    subst hok
    simpa using hleast
  have hreq : w.requirement c s3 s2 s1 = leastBetween ok 64 0 Config.muteReduction := by
    unfold GainApplied.requirement
    rw [hok]
    simp only
    rw [if_pos hmeets]
  rw [hreq]
  exact ⟨hmeets, hle.trans (Nat.min_le_left _ _)⟩

/-- R127, R128: the reduction chosen meets the condition if any does; it is release or attack when the greater of them meets it,
and otherwise the least that does. -/
theorem Gain.chooseReduction_facts (g : Gain) (e : Entry) (w : GainApplied) (rest : List GainApplied) (s3 s2 s1 : List Int)
    (h : w.matched s3 s2 s1) (r : Nat) (hr : w.meets (g.governing e.active.ceiling) s3 s2 s1 r = true) :
    w.meets (g.governing e.active.ceiling) s3 s2 s1 (g.chooseReduction e w rest s3 s2 s1) = true
      ∧ (w.meets (g.governing e.active.ceiling) s3 s2 s1 (max (g.release e) (g.attack e w rest)) = true →
        g.chooseReduction e w rest s3 s2 s1 = max (g.release e) (g.attack e w rest))
      ∧ (w.meets (g.governing e.active.ceiling) s3 s2 s1 (max (g.release e) (g.attack e w rest)) = false →
        g.chooseReduction e w rest s3 s2 s1 ≤ r) := by
  obtain ⟨h1, h2⟩ := w.requirement_least _ s3 s2 s1 h r hr
  unfold Gain.chooseReduction
  simp only
  split
  · rename_i hm
    exact ⟨hm, fun _ => rfl, fun hf => by rw [hm] at hf; cases hf⟩
  · rename_i hm
    exact ⟨h1, fun ht => absurd ht hm, fun _ => h2⟩

theorem peakMagnitude_silent (n : Nat) :
    peakMagnitude (List.replicate n 0) (List.replicate n 0) (List.replicate n 0) (List.replicate n 0) = 0 := by
  induction n with
  | zero => rfl
  | succ n ih =>
    simp only [List.replicate_succ, peakMagnitude, ih]
    decide

/-- R127: when the position before met the condition, a mute of this one meets it. -/
theorem GainApplied.meets_mute (w : GainApplied) (c : Int) (s4 s3 s2 s1 : List Int) (h : s1.length = w.input.length)
    (hp : continuation c s4 s3 s2 s1 = true) (r : Nat) (hr : Config.muteReduction ≤ r) : w.meets c s3 s2 s1 r = true := by
  unfold continuation at hp
  simp only [Bool.and_eq_true, List.map_const', h] at hp
  unfold GainApplied.meets continuation
  simp only [corrected_muted w r hr, Bool.and_eq_true, List.map_const', List.length_replicate]
  exact ⟨⟨⟨hp.1.1.2, hp.1.2⟩, hp.2⟩, by rw [peakMagnitude_silent]; exact withinCeiling_zero c⟩

/-- R127, R128: when the position before met the condition and the greater of release and attack does not, the reduction chosen is
greater than both. -/
theorem Gain.chooseReduction_greater (g : Gain) (e : Entry) (w : GainApplied) (rest : List GainApplied)
    (s4 s3 s2 s1 : List Int) (h : w.matched s3 s2 s1) (hp : continuation (g.governing e.active.ceiling) s4 s3 s2 s1 = true)
    (hn : w.meets (g.governing e.active.ceiling) s3 s2 s1 (max (g.release e) (g.attack e w rest)) = false) :
    max (g.release e) (g.attack e w rest) < g.chooseReduction e w rest s3 s2 s1 := by
  by_contra hle
  have hle := Nat.le_of_not_lt hle
  generalize hl : max (g.release e) (g.attack e w rest) = least at hle hn
  have hmute := w.meets_mute _ s4 s3 s2 s1 h.2.2 hp (max least Config.muteReduction) (Nat.le_max_right _ _)
  have hc := ((g.chooseReduction_facts e w rest s3 s2 s1 h _ hmute)).1
  rw [w.meets_iff _ s3 s2 s1 h] at hmute hc
  have quiet : tooLoud (g.governing e.active.ceiling) s3 s2 s1 (sampleInts (w.corrected least)) = false := by
    by_contra hf
    have := tooLoud_of_nearer _ s3 s2 s1 (corrected_nearer w hle) (by simpa using hf)
    rw [tooLoud_of_within _ s3 s2 s1 _ hc] at this
    exact Bool.noConfusion this
  have := (w.meets_iff _ s3 s2 s1 h least).mpr
    (within_of_not_tooLoud _ s3 s2 s1 (corrected_nearer w (Nat.le_max_left _ _)) quiet hmute)
  rw [hn] at this
  exact Bool.noConfusion this

/-! ### What is foreseen (R128) -/

/-- A reduction brings the magnitude `m` to the ceiling or below it. -/
def enoughFor (ceiling : Int) (m : Rat) (r : Nat) : Prop :=
  m ≤ 2 ^ 31 * pow10 ((ceiling : Rat) / 200 + (r : Rat) / (2000 * 2 ^ 32))

theorem enoughFor_mono {ceiling : Int} {m : Rat} {a b : Nat} (h : a ≤ b) (ha : enoughFor ceiling m a) :
    enoughFor ceiling m b := by
  refine ha.trans ?_
  have hab : (a : Rat) ≤ b := by exact_mod_cast h
  have : pow10 ((ceiling : Rat) / 200 + (a : Rat) / (2000 * 2 ^ 32)) ≤ pow10 ((ceiling : Rat) / 200 + (b : Rat) / (2000 * 2 ^ 32)) :=
    pow10_mono (by gcongr)
  linarith

/-- R128: the need foreseen is the least reduction that brings the magnitude to the ceiling, or a mute. -/
theorem foreseenNeed_law (ceiling : Int) (m : Rat) :
    (enoughFor ceiling m (foreseenNeed ceiling m) ∨ foreseenNeed ceiling m = Config.muteReduction)
      ∧ ∀ r, r < foreseenNeed ceiling m → ¬enoughFor ceiling m r := by
  have key : ∀ r : Nat, decide (m ≤ 2147483648 * pow10 (mkRat ceiling 200 + mkRat r (2000 * Config.reductionSteps))) = true
      ↔ enoughFor ceiling m r := by
    intro r
    rw [decide_eq_true_iff, Rat.mkRat_eq_div, Rat.mkRat_eq_div, enoughFor]
    norm_num [Config.reductionSteps]
  unfold foreseenNeed
  dsimp only
  split
  · rename_i h0
    refine ⟨.inl ?_, by simp⟩
    rcases h0 with h | h
    · have := pow10_pos ((ceiling : Rat) / 200 + ((0 : Nat) : Rat) / (2000 * 2 ^ 32))
      show m ≤ _
      linarith
    · exact (key 0).mp h
  · have up : ∀ a b : Nat, a ≤ b →
        decide (m ≤ 2147483648 * pow10 (mkRat ceiling 200 + mkRat a (2000 * Config.reductionSteps))) = true →
        decide (m ≤ 2147483648 * pow10 (mkRat ceiling 200 + mkRat b (2000 * Config.reductionSteps))) = true :=
      fun a b hab ha => (key b).mpr (enoughFor_mono hab ((key a).mp ha))
    have hle := leastBetween_le _ up 64 0 Config.muteReduction
    have hok := leastBetween_ok (fun r => decide (m ≤ 2147483648 * pow10 (mkRat ceiling 200 + mkRat r (2000 * Config.reductionSteps))))
      64 0 Config.muteReduction
    by_cases hm : enoughFor ceiling m Config.muteReduction
    · refine ⟨.inl ((key _).mp (hok ((key _).mpr hm))), fun r hr hen => ?_⟩
      have h1 := hle Config.muteReduction (by decide +kernel) ((key _).mpr hm) (Nat.zero_le _) (Nat.le_refl _)
      have h2 := hle r (by decide +kernel) ((key r).mpr hen) (Nat.zero_le _) (by omega)
      omega
    · have hn : ∀ r, r ≤ Config.muteReduction → ¬enoughFor ceiling m r := fun r hr he => hm (enoughFor_mono hr he)
      have he := leastBetween_none (fun r => decide (m ≤ 2147483648 * pow10 (mkRat ceiling 200 + mkRat r (2000 * Config.reductionSteps))))
        64 0 Config.muteReduction (fun r hr => by
          by_contra hc
          exact hn r hr.le ((key r).mp (by simpa using hc)))
      rw [he]
      exact ⟨.inr rfl, fun r hr => hn r hr.le⟩

/-- R128: what the `k`-th of the positions `qs` calls for, `j` being the number of the first: `seq` holds the gain-applied samples
of the three positions before them, and theirs. -/
def attackShare (ceiling : Int) (j : Nat) (seq : List (List Rat)) (k : Nat) : Nat :=
  foreseenNeed ceiling
    (foreseenMagnitude (seq.getD k []) (seq.getD (k + 1) []) (seq.getD (k + 2) []) (seq.getD (k + 3) [])) * (72 - (j + k)) / 72

theorem attackShare_succ (ceiling : Int) (j k : Nat) (a : List Rat) (seq : List (List Rat)) :
    attackShare ceiling j (a :: seq) (k + 1) = attackShare ceiling (j + 1) seq k := by
  unfold attackShare
  rw [show j + (k + 1) = j + 1 + k by omega]
  rfl

/-- R128, attack: the greatest share of the positions nearer than 72, or 0. -/
theorem attackFrom_law (ceiling : Int) : ∀ (qs : List (List Rat)) (j : Nat) (p1 p2 p3 : List Rat),
    (∀ k, k < qs.length → j + k < 72 → attackShare ceiling j (p3 :: p2 :: p1 :: qs) k ≤ attackFrom ceiling j p1 p2 p3 qs)
      ∧ (attackFrom ceiling j p1 p2 p3 qs = 0 ∨ ∃ k, k < qs.length ∧ j + k < 72
        ∧ attackFrom ceiling j p1 p2 p3 qs = attackShare ceiling j (p3 :: p2 :: p1 :: qs) k) := by
  intro qs
  induction qs with
  | nil => intro j p1 p2 p3; exact ⟨fun k h => absurd h (Nat.not_lt_zero k), .inl rfl⟩
  | cons q qs ih =>
    intro j p1 p2 p3
    obtain ⟨h1, h2⟩ := ih (j + 1) q p1 p2
    have first : foreseenNeed ceiling (foreseenMagnitude p3 p2 p1 q) * (Config.lookAhead - j) / Config.lookAhead
        = attackShare ceiling j (p3 :: p2 :: p1 :: q :: qs) 0 := rfl
    have hk : Config.lookAhead = 72 := rfl
    rw [attackFrom, first, hk]
    constructor
    · intro k hkl hj
      cases k with
      | zero => rw [if_pos (by omega)]; exact le_max_left _ _
      | succ k =>
        rw [attackShare_succ]
        exact (h1 k (by simpa using hkl) (by omega)).trans (le_max_right _ _)
    · rcases max_choice (if j < 72 then attackShare ceiling j (p3 :: p2 :: p1 :: q :: qs) 0 else 0)
        (attackFrom ceiling (j + 1) q p1 p2 qs) with h | h
      · rw [h]
        by_cases hj : j < 72
        · exact .inr ⟨0, by simp, by omega, by rw [if_pos hj]⟩
        · exact .inl (by rw [if_neg hj])
      · rw [h]
        rcases h2 with h2 | ⟨k, a, b, e⟩
        · exact .inl h2
        · exact .inr ⟨k + 1, by simpa using a, by omega, by rw [e, attackShare_succ]⟩

end Sys2Proof.Machine
end

