-- ==== Sys2Proof/Laws/Loudness.lean ====
section
/-! SUPPORT. The loudness of an energy (R50): between the edge of its value and the next. -/

namespace Sys2Proof.Machine

theorem loudnessEdge_mono {j k : Int} (h : j ≤ k) : loudnessEdge j ≤ loudnessEdge k := by
  refine pow10_mono ?_
  have : ((10 * j + 686 : Int) : Rat) ≤ ((10 * k + 686 : Int) : Rat) := by exact_mod_cast (by omega : 10 * j + 686 ≤ 10 * k + 686)
  linarith

theorem floor_lt_succ (e : Rat) : e < ((e.floor : Int) : Rat) + 1 := Int.lt_floor_add_one e

/-- The search for a loudness ends above the energy. -/
theorem below_topEdge (e : Rat) :
    e < loudnessEdge ((9999 + 1000 * (Nat.log2 (e.floor.toNat + 1) + 1) : Nat) - 9998) := by
  set n := e.floor.toNat + 1 with hn
  have h1 : e < (n : Rat) := by
    refine (floor_lt_succ e).trans_le ?_
    rw [hn]
    have : e.floor ≤ (e.floor.toNat : Int) := Int.self_le_toNat _
    have : ((e.floor : Int) : Rat) ≤ ((e.floor.toNat : Int) : Rat) := by exact_mod_cast this
    push_cast at this ⊢
    linarith
  have h2 : (n : Rat) ≤ (10 : Rat) ^ (Nat.log2 n + 1) := by
    have a : n < 2 ^ (n.log2 + 1) := Nat.lt_log2_self
    have b : 2 ^ (n.log2 + 1) ≤ 10 ^ (n.log2 + 1) := Nat.pow_le_pow_left (by norm_num) _
    exact_mod_cast (a.le.trans b)
  have h3 : (10 : Rat) ^ (Nat.log2 n + 1) = pow10 ((Nat.log2 n + 1 : Nat) : Rat) := by
    have hf : (((n.log2 + 1 : Nat) : Rat)).floor = ((n.log2 + 1 : Nat) : Int) := Int.floor_natCast (R := Rat) _
    rw [pow10_eq, hf]
    rw [show (((n.log2 + 1 : Nat) : Rat)) - (((n.log2 + 1 : Nat) : Int) : Rat) = 0 by push_cast; ring, fractionFactor, if_pos rfl,
      mul_one, zpow_natCast]
  refine h1.trans_le (h2.trans (h3.le.trans (pow10_mono ?_)))
  push_cast
  linarith

/-- R50: the loudness of an energy above 0 is the value whose edges it lies between, and -99.99 LUFS below the lowest. -/
theorem loudnessOf_law (e : Rat) (h : 0 < e) :
    -9999 ≤ loudnessOf e ∧ e < loudnessEdge (loudnessOf e + 1) ∧ (-9999 < loudnessOf e → loudnessEdge (loudnessOf e) ≤ e) := by
  unfold loudnessOf
  rw [if_neg (by linarith)]
  dsimp only
  set top := 9999 + 1000 * (Nat.log2 (e.floor.toNat + 1) + 1) with htop
  set ok := fun n : Nat => decide (e < loudnessEdge ((n : Int) - 9998)) with hok
  have up : ∀ a b, a ≤ b → ok a = true → ok b = true := fun a b hab ha =>
    decide_eq_true ((of_decide_eq_true ha).trans_le (loudnessEdge_mono (by omega)))
  have hr := leastBetween_ok ok (top.log2 + 1) 0 top (decide_eq_true (below_topEdge e))
  have hl := leastBetween_le ok up (top.log2 + 1) 0 top
  set r := leastBetween ok (top.log2 + 1) 0 top with hrdef
  refine ⟨by omega, ?_, fun hpos => ?_⟩
  · have := of_decide_eq_true hr
    rwa [show (r : Int) - 9999 + 1 = (r : Int) - 9998 by ring]
  · by_contra hn
    have hlt : e < loudnessEdge ((r : Int) - 9999) := not_le.mp hn
    have hr1 : 1 ≤ r := by omega
    have := hl (r - 1) (by have : top < 2 ^ (top.log2 + 1) := Nat.lt_log2_self; omega)
      (decide_eq_true (by rw [show ((r - 1 : Nat) : Int) - 9998 = (r : Int) - 9999 by omega]; exact hlt)) (Nat.zero_le _)
      (by
        have hle : r ≤ top := by
          have := hl top (by have : top < 2 ^ (top.log2 + 1) := Nat.lt_log2_self; omega) (decide_eq_true (below_topEdge e)) (Nat.zero_le _) (Nat.le_refl _)
          exact this
        omega)
    omega
end Sys2Proof.Machine
end

