-- ==== Sys2Proof/Laws/Powers.lean ====
section
/-! SUPPORT. How near the model's 10^q is to 10^q (log 11): the exponential series in whole parts of 2^96, the constant ln 10, and
the two together. -/

namespace Sys2Proof.Machine

/-- `fuel` terms of the exponential series from term i, of which term i - 1 is 1. -/
noncomputable def seriesFrom (x : ℝ) : (fuel i : Nat) → ℝ
  | 0, _ => 0
  | fuel + 1, i => 1 + x / i * seriesFrom x fuel (i + 1)

theorem seriesFrom_nonneg {x : ℝ} (hx : 0 ≤ x) (fuel : Nat) : ∀ i, 0 ≤ seriesFrom x fuel i := by
  induction fuel with
  | zero => intro i; exact le_refl _
  | succ n ih => intro i; have := ih (i + 1); unfold seriesFrom; positivity

theorem seriesFrom_anti {x : ℝ} (hx : 0 ≤ x) (fuel : Nat) : ∀ i j, 1 ≤ i → i ≤ j → seriesFrom x fuel j ≤ seriesFrom x fuel i := by
  induction fuel with
  | zero => intro i j _ _; exact le_refl _
  | succ n ih =>
    intro i j hi hij
    unfold seriesFrom
    have h1 := ih (i + 1) (j + 1) (by omega) (by omega)
    have h2 : x / (j : ℝ) ≤ x / (i : ℝ) := div_le_div_of_nonneg_left hx (by exact_mod_cast hi) (by exact_mod_cast hij)
    have h3 := seriesFrom_nonneg hx n (j + 1)
    have h4 := seriesFrom_nonneg hx n (i + 1)
    have : 0 ≤ x / (i : ℝ) := by positivity
    nlinarith [mul_le_mul h2 h1 h3 this]

theorem seriesFrom_sum (x : ℝ) (fuel : Nat) : ∀ i, x ^ i / (Nat.factorial i : ℝ) * seriesFrom x fuel (i + 1)
    = ∑ j ∈ Finset.range fuel, x ^ (i + j) / (Nat.factorial (i + j) : ℝ) := by
  induction fuel with
  | zero => intro i; simp [seriesFrom]
  | succ n ih =>
    intro i
    rw [Finset.sum_range_succ', seriesFrom]
    have h := ih (i + 1)
    have hf : (Nat.factorial (i + 1) : ℝ) = (i + 1 : ℕ) * Nat.factorial i := by rw [Nat.factorial_succ]; push_cast; ring
    have hne : (Nat.factorial i : ℝ) ≠ 0 := by positivity
    have hne2 : ((i + 1 : ℕ) : ℝ) ≠ 0 := by positivity
    have h2 : ∑ j ∈ Finset.range n, x ^ (i + (j + 1)) / (Nat.factorial (i + (j + 1)) : ℝ)
        = ∑ j ∈ Finset.range n, x ^ (i + 1 + j) / (Nat.factorial (i + 1 + j) : ℝ) :=
      Finset.sum_congr rfl fun j _ => by rw [show i + (j + 1) = i + 1 + j by ring]
    rw [h2, ← h, hf]
    simp only [Nat.add_zero]
    field_simp
    ring

theorem seriesFrom_one (x : ℝ) (fuel : Nat) :
    seriesFrom x fuel 1 = ∑ j ∈ Finset.range fuel, x ^ j / (Nat.factorial j : ℝ) := by
  have := seriesFrom_sum x fuel 0
  simpa using this

theorem seriesFrom_le_exp {x : ℝ} (hx : 0 ≤ x) (fuel i : Nat) (hi : 1 ≤ i) : seriesFrom x fuel i ≤ Real.exp x := by
  refine (seriesFrom_anti hx fuel 1 i (Nat.le_refl _) hi).trans ?_
  rw [seriesFrom_one]
  exact Real.sum_le_exp_of_nonneg hx fuel

/-- The series in whole parts is short of the series by at most the parts its divisions drop. -/
theorem expSeries_near (X : Nat) (fuel : Nat) : ∀ i t : Nat, 1 ≤ i →
    (expSeries X fuel i t : ℝ) ≤ t * seriesFrom ((X : ℝ) / 2 ^ 96) fuel i
      ∧ t * seriesFrom ((X : ℝ) / 2 ^ 96) fuel i ≤ expSeries X fuel i t + fuel * Real.exp ((X : ℝ) / 2 ^ 96) := by
  have hx : (0 : ℝ) ≤ (X : ℝ) / 2 ^ 96 := by positivity
  induction fuel with
  | zero => intro i t _; simp [expSeries, seriesFrom]
  | succ n ih =>
    intro i t hi
    obtain ⟨h1, h2⟩ := ih (i + 1) (t * X / (i * fixedOne)) (by omega)
    have hR := seriesFrom_nonneg hx n (i + 1)
    have hB := seriesFrom_le_exp hx n (i + 1) (by omega)
    have hpos : 0 < i * fixedOne := by unfold fixedOne; positivity
    have hd : ((i * fixedOne : Nat) : ℝ) = i * 2 ^ 96 := by unfold fixedOne; push_cast; ring
    have hi0 : (0 : ℝ) < i := by exact_mod_cast hi
    have ht : (t : ℝ) * ((X : ℝ) / 2 ^ 96 / i) = ((t * X : Nat) : ℝ) / ((i * fixedOne : Nat) : ℝ) := by
      rw [hd]; push_cast; field_simp
    have hlo : ((t * X / (i * fixedOne) : Nat) : ℝ) ≤ t * ((X : ℝ) / 2 ^ 96 / i) := by
      rw [ht]; exact Nat.cast_div_le
    have hhi : t * ((X : ℝ) / 2 ^ 96 / i) ≤ ((t * X / (i * fixedOne) : Nat) : ℝ) + 1 := by
      rw [ht, div_le_iff₀ (by exact_mod_cast hpos)]
      have := Nat.lt_div_mul_add (a := t * X) hpos
      have : t * X ≤ (t * X / (i * fixedOne) + 1) * (i * fixedOne) := by
        rw [Nat.add_mul, Nat.one_mul]; exact this.le
      exact_mod_cast this
    rw [expSeries, seriesFrom]
    push_cast
    have e1 := mul_le_mul_of_nonneg_right hlo hR
    have e2 := mul_le_mul_of_nonneg_right hhi hR
    constructor
    · nlinarith
    · nlinarith

/-- What 64 terms leave of the exponential, up to 2.31. -/
theorem exp_near_series {x : ℝ} (h0 : 0 ≤ x) (h1 : x ≤ 2.31) : Real.exp x ≤ seriesFrom x 64 1 + 1 / 2 ^ 96 := by
  rw [seriesFrom_one]
  have hc := Complex.exp_bound' (x := (x : ℂ)) (n := 64) (by
    rw [Complex.norm_real, Real.norm_eq_abs, abs_of_nonneg h0, div_le_iff₀ (by positivity)]
    norm_num
    linarith)
  rw [Complex.norm_real, Real.norm_eq_abs, abs_of_nonneg h0] at hc
  have hr : Complex.exp (x : ℂ) - ∑ m ∈ Finset.range 64, (x : ℂ) ^ m / (m.factorial : ℂ)
      = ((Real.exp x - ∑ m ∈ Finset.range 64, x ^ m / (m.factorial : ℝ) : ℝ) : ℂ) := by push_cast; rfl
  rw [hr, Complex.norm_real, Real.norm_eq_abs] at hc
  have h2 := (abs_le.mp hc).2
  have h3 : x ^ 64 / (Nat.factorial 64 : ℝ) * 2 ≤ 1 / 2 ^ 96 := by
    have : x ^ 64 ≤ 4 ^ 64 := pow_le_pow_left₀ h0 (by linarith) 64
    have hn : 4 ^ 64 * 2 * 2 ^ 96 ≤ Nat.factorial 64 := by decide +kernel
    have hf : (4 : ℝ) ^ 64 / (Nat.factorial 64 : ℝ) * 2 ≤ 1 / 2 ^ 96 := by
      rw [div_mul_eq_mul_div, div_le_div_iff₀ (by positivity) (by positivity), one_mul]
      exact_mod_cast hn
    refine le_trans ?_ hf
    gcongr
  linarith

/-- e^x in parts of 2^96, for x up to 2.31: never above it, and short of it by at most 2^-85 of its value. -/
theorem expFixed_near (X : Nat) (h : (X : ℝ) / 2 ^ 96 ≤ 2.31) :
    (expFixed X : ℝ) / 2 ^ 96 ≤ Real.exp ((X : ℝ) / 2 ^ 96)
      ∧ Real.exp ((X : ℝ) / 2 ^ 96) * (1 - 1 / 2 ^ 85) ≤ (expFixed X : ℝ) / 2 ^ 96 := by
  have hx : (0 : ℝ) ≤ (X : ℝ) / 2 ^ 96 := by positivity
  obtain ⟨h1, h2⟩ := expSeries_near X 64 1 fixedOne (Nat.le_refl _)
  have h3 := exp_near_series hx h
  have h4 := seriesFrom_le_exp hx 64 1 (Nat.le_refl _)
  have h5 : (1 : ℝ) ≤ Real.exp ((X : ℝ) / 2 ^ 96) := Real.one_le_exp hx
  have hf : ((fixedOne : Nat) : ℝ) = 2 ^ 96 := by unfold fixedOne; push_cast; ring
  rw [hf] at h1 h2
  unfold expFixed
  constructor
  · rw [div_le_iff₀ (by positivity)]
    nlinarith
  · rw [le_div_iff₀ (by positivity), mul_assoc, show ((1 : ℝ) - 1 / 2 ^ 85) * 2 ^ 96 = 2 ^ 96 - 2048 by norm_num]
    have h6 : (2 : ℝ) ^ 96 * Real.exp ((X : ℝ) / 2 ^ 96) ≤ 2 ^ 96 * seriesFrom ((X : ℝ) / 2 ^ 96) 64 1 + 1 := by
      have := mul_le_mul_of_nonneg_left h3 (show (0 : ℝ) ≤ 2 ^ 96 by positivity)
      rwa [mul_add, show (2 : ℝ) ^ 96 * (1 / 2 ^ 96) = 1 by norm_num] at this
    push_cast at h2
    linarith

theorem expFixed_ln10_above : 10 * fixedOne ≤ expFixed ln10Fixed + 2048 := by decide +kernel

theorem ln10_near : |(ln10Fixed : ℝ) / 2 ^ 96 - Real.log 10| ≤ 1 / 2 ^ 84 := by
  obtain ⟨h1, h2⟩ := expFixed_near ln10Fixed (by unfold ln10Fixed; norm_num)
  have a : (expFixed ln10Fixed : ℝ) ≤ 10 * 2 ^ 96 := by
    have := expFixed_ln10; unfold fixedOne at this; exact_mod_cast this
  have b : (10 : ℝ) * 2 ^ 96 ≤ expFixed ln10Fixed + 2048 := by
    have := expFixed_ln10_above; unfold fixedOne at this; exact_mod_cast this
  set l := (ln10Fixed : ℝ) / 2 ^ 96
  have u : Real.exp l ≤ 10 * (1 + 1 / 2 ^ 84) := by
    have : (expFixed ln10Fixed : ℝ) / 2 ^ 96 ≤ 10 := by rw [div_le_iff₀ (by positivity)]; exact a
    norm_num at *
    nlinarith
  have v : 10 * (1 - 1 / 2 ^ 85) ≤ Real.exp l := by
    have : 10 - 2048 / 2 ^ 96 ≤ (expFixed ln10Fixed : ℝ) / 2 ^ 96 := by
      rw [le_div_iff₀ (by positivity), show ((10 : ℝ) - 2048 / 2 ^ 96) * 2 ^ 96 = 10 * 2 ^ 96 - 2048 by norm_num]
      linarith
    norm_num at *
    linarith
  have hl : Real.log 10 ≤ l + 1 / 2 ^ 84 := by
    have := Real.log_le_log (by norm_num) v
    rw [Real.log_mul (by norm_num) (by norm_num), Real.log_exp] at this
    have h := Real.one_sub_inv_le_log_of_pos (show (0 : ℝ) < 1 - 1 / 2 ^ 85 by norm_num)
    have : -(1 / 2 ^ 84 : ℝ) ≤ 1 - (1 - 1 / 2 ^ 85 : ℝ)⁻¹ := by norm_num
    linarith
  have hu : l ≤ Real.log 10 + 1 / 2 ^ 84 := by
    have := Real.log_le_log (Real.exp_pos l) u
    rw [Real.log_mul (by norm_num) (by norm_num), Real.log_exp] at this
    have h := Real.log_le_sub_one_of_pos (show (0 : ℝ) < 1 + 1 / 2 ^ 84 by norm_num)
    linarith
  rw [abs_le]
  constructor <;> linarith

/-- 10^q of the model lies within 2^-80 of its value of 10^q (log 11). -/
theorem pow10_near (q : Rat) :
    (1 - 1 / 2 ^ 80) * (10 : ℝ) ^ (q : ℝ) ≤ (pow10 q : ℝ) ∧ (pow10 q : ℝ) ≤ (1 + 1 / 2 ^ 80) * (10 : ℝ) ^ (q : ℝ) := by
  obtain ⟨f0, f1⟩ := floor_bounds q
  have hsplit : (10 : ℝ) ^ (q : ℝ) = (10 : ℝ) ^ q.floor * Real.exp (((q - q.floor : Rat) : ℝ) * Real.log 10) := by
    rw [mul_comm _ (Real.log 10), ← Real.rpow_def_of_pos (by norm_num), ← Real.rpow_intCast, ← Real.rpow_add (by norm_num)]
    congr 1
    push_cast
    ring
  have hp : (0 : ℝ) < (10 : ℝ) ^ q.floor := by positivity
  rw [pow10_eq, hsplit]
  push_cast [-Rat.cast_sub]
  generalize hf : q - (q.floor : Rat) = f at *
  have key : (1 - 1 / 2 ^ 80) * Real.exp ((f : ℝ) * Real.log 10) ≤ (fractionFactor f : ℝ)
      ∧ (fractionFactor f : ℝ) ≤ (1 + 1 / 2 ^ 80) * Real.exp ((f : ℝ) * Real.log 10) := by
    have r0 : (0 : ℝ) ≤ (f : ℝ) := by exact_mod_cast f0
    have r1 : (f : ℝ) < 1 := by exact_mod_cast f1
    unfold fractionFactor
    split
    · rename_i hz
      subst hz
      norm_num
    · rw [mkRat_fixed]
      set X := (f * (ln10Fixed : Rat)).floor.toNat with hX
      have hfl : (((f * (ln10Fixed : Rat)).floor : Int) : Rat) = (X : Rat) := by
        have h0 : (0 : Rat) ≤ f * (ln10Fixed : Rat) := by positivity
        have : 0 ≤ (f * (ln10Fixed : Rat)).floor := Rat.le_floor_iff.mpr (by exact_mod_cast h0)
        rw [hX]
        exact_mod_cast (Int.toNat_of_nonneg this).symm
      have x1 : (X : ℝ) ≤ f * ln10Fixed := by
        have : ((X : Rat)) ≤ f * (ln10Fixed : Rat) := by rw [← hfl]; exact Int.floor_le _
        exact_mod_cast this
      have x2 : (f : ℝ) * ln10Fixed < X + 1 := by
        have : f * (ln10Fixed : Rat) < (X : Rat) + 1 := by rw [← hfl]; exact Int.lt_floor_add_one _
        exact_mod_cast this
      have hL : (ln10Fixed : ℝ) / 2 ^ 96 ≤ 2.31 := by unfold ln10Fixed; norm_num
      have hL0 : (0 : ℝ) ≤ ln10Fixed := by positivity
      have hx : (X : ℝ) / 2 ^ 96 ≤ 2.31 := by
        exact (div_le_div_of_nonneg_right (x1.trans (mul_le_of_le_one_left hL0 r1.le)) (by positivity)).trans hL
      obtain ⟨e1, e2⟩ := expFixed_near X hx
      have hl := abs_le.mp ln10_near
      have d1 : (X : ℝ) / 2 ^ 96 ≤ f * Real.log 10 + 1 / 2 ^ 84 := by
        have : (X : ℝ) / 2 ^ 96 ≤ f * ((ln10Fixed : ℝ) / 2 ^ 96) := by rw [← mul_div_assoc]; gcongr
        nlinarith
      have d2 : f * Real.log 10 - 1 / 2 ^ 83 ≤ (X : ℝ) / 2 ^ 96 := by
        have : f * ((ln10Fixed : ℝ) / 2 ^ 96) ≤ (X : ℝ) / 2 ^ 96 + 1 / 2 ^ 96 := by
          rw [← mul_div_assoc, ← add_div]; gcongr
        have : (1 : ℝ) / 2 ^ 96 + 1 / 2 ^ 84 ≤ 1 / 2 ^ 83 := by norm_num
        nlinarith
      set y := (f : ℝ) * Real.log 10
      have u1 : Real.exp ((X : ℝ) / 2 ^ 96) ≤ Real.exp y * (1 + 1 / 2 ^ 83) := by
        refine (Real.exp_le_exp.mpr d1).trans ?_
        rw [Real.exp_add]
        refine mul_le_mul_of_nonneg_left ?_ (Real.exp_pos y).le
        have := Real.exp_bound_div_one_sub_of_interval (x := 1 / 2 ^ 84) (by norm_num) (by norm_num)
        refine this.trans (by norm_num)
      have u2 : Real.exp y * (1 - 1 / 2 ^ 83) ≤ Real.exp ((X : ℝ) / 2 ^ 96) := by
        refine le_trans ?_ (Real.exp_le_exp.mpr d2)
        rw [sub_eq_add_neg y, Real.exp_add]
        refine mul_le_mul_of_nonneg_left ?_ (Real.exp_pos y).le
        have := Real.add_one_le_exp (-(1 / 2 ^ 83 : ℝ))
        linarith
      have hy := Real.exp_pos y
      have hc : (((expFixed X : Rat) / (fixedOne : Rat) : Rat) : ℝ) = (expFixed X : ℝ) / 2 ^ 96 := by
        unfold fixedOne; push_cast; ring
      rw [hc]
      constructor
      · refine le_trans ?_ e2
        have : Real.exp y * (1 - 1 / 2 ^ 83) * (1 - 1 / 2 ^ 85) ≤ Real.exp ((X : ℝ) / 2 ^ 96) * (1 - 1 / 2 ^ 85) :=
          mul_le_mul_of_nonneg_right u2 (by norm_num)
        refine le_trans ?_ this
        rw [mul_comm, mul_assoc]
        exact mul_le_mul_of_nonneg_left (by norm_num) hy.le
      · refine e1.trans (u1.trans ?_)
        rw [mul_comm]
        exact mul_le_mul_of_nonneg_right (by norm_num) hy.le
  constructor
  · have := mul_le_mul_of_nonneg_left key.1 hp.le
    linarith
  · have := mul_le_mul_of_nonneg_left key.2 hp.le
    linarith

/-- The power of a root: the n-th power of the model's 10^(k/n) lies within the n-th power of 2^-80 of 10^k (log 11). -/
theorem pow10_root_near (k : Int) (n : Nat) (h : 0 < n) :
    (1 - 1 / 2 ^ 80) ^ n * (10 : Rat) ^ k ≤ pow10 ((k : Rat) / (n : Rat)) ^ n
      ∧ pow10 ((k : Rat) / (n : Rat)) ^ n ≤ (1 + 1 / 2 ^ 80) ^ n * (10 : Rat) ^ k := by
  obtain ⟨h1, h2⟩ := pow10_near ((k : Rat) / (n : Rat))
  have hx : ((10 : ℝ) ^ ((((k : Rat) / (n : Rat) : Rat)) : ℝ)) ^ n = (10 : ℝ) ^ k := by
    rw [← Real.rpow_natCast, ← Real.rpow_mul (by norm_num), ← Real.rpow_intCast]
    congr 1
    have hn : (n : ℝ) ≠ 0 := by positivity
    push_cast
    field_simp
  have hpos : (0 : ℝ) < (10 : ℝ) ^ ((((k : Rat) / (n : Rat) : Rat)) : ℝ) := by positivity
  have a1 := pow_le_pow_left₀ (mul_nonneg (by norm_num) hpos.le) h1 n
  have a2 := pow_le_pow_left₀ (by exact_mod_cast (pow10_pos _).le) h2 n
  rw [mul_pow, hx] at a1 a2
  generalize pow10 ((k : Rat) / (n : Rat)) = r at a1 a2 ⊢
  constructor
  · rw [← Rat.cast_le (K := ℝ)]
    push_cast
    exact a1
  · rw [← Rat.cast_le (K := ℝ)]
    push_cast
    exact a2

end Sys2Proof.Machine
end

