-- ==== Sys2Proof/Laws/Readers.lean ====
section
/-! SUPPORT. Each reader of a field reads exactly the bytes of the field (R195, R196, R198). -/

namespace Sys2Proof.Machine

/-- The two bytes of a field, high byte first (R195). -/
def wordBytes (v : BitVec 16) : List Byte := [v.extractLsb' 8 8, v.extractLsb' 0 8]

/-- The bytes of an optional field of two bytes. -/
def optBytes : Option (BitVec 16) → List Byte
  | some v => wordBytes v
  | none => []

/-- The bytes of an optional number of two bytes. -/
def numberBytes : Option Int → List Byte
  | some n => wordBytes (BitVec.ofInt 16 n)
  | none => []

/-- The byte of an optional number of one byte. -/
def singleBytes : Option Int → List Byte
  | some n => [BitVec.ofInt 8 n]
  | none => []

def optWithin (lo hi : Int) (v : Option Int) : Prop := ∀ n, v = some n → lo ≤ n ∧ n ≤ hi

theorem word_append (hi lo : Byte) : wordBytes (hi ++ lo) = [hi, lo] := by
  simp only [wordBytes, List.cons.injEq, and_true]
  have h : ∀ i, (hi ++ lo : BitVec (8 + 8)).getLsbD i = if i < 8 then lo.getLsbD i else hi.getLsbD (i - 8) := fun i => by
    rw [BitVec.getLsbD_append]
  constructor <;> refine BitVec.eq_of_getLsbD_eq fun i hi => ?_
  · rw [BitVec.getLsbD_extractLsb', h]
    simp [hi]
  · rw [BitVec.getLsbD_extractLsb', h]
    simp [hi]

theorem append_word (v : BitVec 16) : (v.extractLsb' 8 8 ++ v.extractLsb' 0 8 : BitVec 16) = v := by
  ext i hi
  simp
  try grind

theorem readWord_iff (bs rest : List Byte) (v : BitVec 16) :
    readWord bs = some (v, rest) ↔ bs = wordBytes v ++ rest := by
  constructor
  · intro h
    match bs, h with
    | hi :: lo :: r, h =>
      simp only [readWord, Option.some.injEq, Prod.mk.injEq] at h
      obtain ⟨rfl, rfl⟩ := h
      rw [word_append]; rfl
  · rintro rfl
    simp [wordBytes, readWord, append_word]

theorem readOptWord_iff (b : Bool) (bs rest : List Byte) (v : Option (BitVec 16)) :
    readOptWord b bs = some (v, rest) ↔ v.isSome = b ∧ bs = optBytes v ++ rest := by
  cases b <;> cases v <;> simp only [readOptWord, optBytes]
  · simp
  · simp
  · cases readWord bs <;> simp
  · rename_i v
    rw [if_pos trivial, Option.map_eq_some_iff]
    constructor
    · rintro ⟨⟨w, r⟩, hr, he⟩
      simp only [Prod.mk.injEq, Option.some.injEq] at he
      obtain ⟨rfl, rfl⟩ := he
      exact ⟨rfl, (readWord_iff _ _ _).mp hr⟩
    · rintro ⟨_, hb⟩
      exact ⟨(v, rest), (readWord_iff _ _ _).mpr hb, rfl⟩

theorem readLabel_iff (bs l : List Byte) :
    readLabel bs = some l ↔ l.length ≤ 255 ∧ bs = BitVec.ofNat 8 l.length :: l := by
  constructor
  · intro h
    match bs, h with
    | n :: rest, h =>
      simp only [readLabel] at h
      split at h
      · rename_i hl
        obtain rfl := Option.some.inj h
        refine ⟨by omega, ?_⟩
        rw [hl]; simp
      · cases h
  · rintro ⟨hl, rfl⟩
    simp only [readLabel, BitVec.toNat_ofNat]
    rw [if_pos (by omega)]

theorem readTunable_signed (b : Bool) (bs rest : List Byte) (v : Option Int) :
    readTunable b readWord true bs = some (v, rest) ↔ v.isSome = b ∧ optWithin (-32768) 32767 v ∧ bs = numberBytes v ++ rest := by
  cases b with
  | false => cases v <;> simp [readTunable, numberBytes, optWithin]
  | true =>
    simp only [readTunable, if_true, Option.map_eq_some_iff, Prod.exists, Prod.mk.injEq, readWord_iff]
    constructor
    · rintro ⟨w, r, rfl, rfl, rfl⟩
      refine ⟨rfl, ?_, ?_⟩
      · rintro n h; obtain rfl := Option.some.inj h
        have := BitVec.toInt_lt (x := w); have := BitVec.le_toInt (x := w); omega
      · simp [numberBytes]
    · rintro ⟨h, hw, rfl⟩
      obtain ⟨n, rfl⟩ := Option.isSome_iff_exists.mp h
      refine ⟨BitVec.ofInt 16 n, rest, rfl, ?_, rfl⟩
      have := hw n rfl
      rw [BitVec.toInt_ofInt_eq_self (by decide) (by simpa using this.1) (by norm_num; omega)]

theorem readTunable_unsigned (b : Bool) (bs rest : List Byte) (v : Option Int) :
    readTunable b readWord false bs = some (v, rest) ↔ v.isSome = b ∧ optWithin 0 65535 v ∧ bs = numberBytes v ++ rest := by
  cases b with
  | false => cases v <;> simp [readTunable, numberBytes, optWithin]
  | true =>
    simp only [readTunable, if_true, Option.map_eq_some_iff, Prod.exists, Prod.mk.injEq, readWord_iff]
    constructor
    · rintro ⟨w, r, rfl, rfl, rfl⟩
      refine ⟨rfl, ?_, ?_⟩
      · rintro n h; obtain rfl := Option.some.inj h
        have := w.isLt; simp; omega
      · simp [numberBytes]
    · rintro ⟨h, hw, rfl⟩
      obtain ⟨n, rfl⟩ := Option.isSome_iff_exists.mp h
      refine ⟨BitVec.ofInt 16 n, rest, rfl, ?_, rfl⟩
      have := hw n rfl
      simp [BitVec.toNat_ofInt]; omega

theorem readTunable_byte (b : Bool) (bs rest : List Byte) (v : Option Int) :
    readTunable b (readByte false) false bs = some (v, rest) ↔ v.isSome = b ∧ optWithin 0 255 v ∧ bs = singleBytes v ++ rest := by
  cases b with
  | false => cases v <;> simp [readTunable, singleBytes, optWithin]
  | true =>
    cases bs with
    | nil => cases v <;> simp [readTunable, singleBytes, readByte]
    | cons w r =>
      cases v with
      | none => simp [readTunable, readByte]
      | some n =>
        simp only [readTunable, readByte, if_true, Option.map_some, Option.some.injEq, Prod.mk.injEq, singleBytes,
          List.cons_append, List.nil_append, List.cons.injEq, optWithin]
        have := w.isLt
        constructor
        · rintro ⟨rfl, rfl⟩
          refine ⟨rfl, fun n h => by subst h; simp; omega, ?_, rfl⟩
          apply BitVec.eq_of_toNat_eq
          simp
          omega
        · rintro ⟨_, h, rfl, rfl⟩
          have := h n rfl
          simp [BitVec.toNat_ofInt]; omega

theorem readTunable_signedByte (b : Bool) (bs rest : List Byte) (v : Option Int) :
    readTunable b (readByte true) true bs = some (v, rest) ↔ v.isSome = b ∧ optWithin (-128) 127 v ∧ bs = singleBytes v ++ rest := by
  cases b with
  | false => cases v <;> simp [readTunable, singleBytes, optWithin]
  | true =>
    cases bs with
    | nil => cases v <;> simp [readTunable, singleBytes, readByte]
    | cons w r =>
      cases v with
      | none => simp [readTunable, readByte]
      | some n =>
        simp only [readTunable, readByte, if_true, Option.map_some, Option.some.injEq, Prod.mk.injEq, singleBytes,
          List.cons_append, List.nil_append, List.cons.injEq, optWithin]
        rw [BitVec.toInt_signExtend_of_le (by decide)]
        have := BitVec.toInt_lt (x := w); have := BitVec.le_toInt (x := w)
        constructor
        · rintro ⟨rfl, rfl⟩
          refine ⟨rfl, fun n h => by subst h; omega, by simp, rfl⟩
        · rintro ⟨_, h, rfl, rfl⟩
          have := h n rfl
          refine ⟨?_, rfl⟩
          rw [BitVec.toInt_ofInt_eq_self (by decide) (by simpa using this.1) (by norm_num; omega)]

/-- The bytes of the value a Set carries. -/
def Amend.bytes {α : Type} (write : α → List Byte) : Amend α → List Byte
  | .put v => write v
  | .keep => []
  | .clear => []

/-- The code of an instruction (R198). -/
def Amend.code {α : Type} : Amend α → Nat
  | .keep => 0
  | .put _ => 1
  | .clear => 2

theorem readAmendByte_iff (code : Nat) (bs rest : List Byte) (i : Amend Byte) :
    readAmendByte code bs = some (i, rest) ↔ i.code = code ∧ i ≠ .clear ∧ bs = i.bytes (fun b => [b]) ++ rest := by
  match code with
  | 0 => cases i <;> simp [readAmendByte, Amend.code, Amend.bytes]
  | 1 => cases i <;> cases bs <;> simp [readAmendByte, Amend.code, Amend.bytes]
  | n + 2 => cases i <;> simp [readAmendByte, Amend.code]

theorem readAmendWord_iff (code : Nat) (bs rest : List Byte) (i : Amend (BitVec 16)) :
    readAmendWord code bs = some (i, rest) ↔ i.code = code ∧ bs = i.bytes wordBytes ++ rest := by
  match code with
  | 0 => cases i <;> simp [readAmendWord, Amend.code, Amend.bytes]
  | 1 => cases i <;> simp [readAmendWord, Amend.code, Amend.bytes, readWord_iff]
  | 2 => cases i <;> simp [readAmendWord, Amend.code, Amend.bytes]
  | n + 3 => cases i <;> simp [readAmendWord, Amend.code]

theorem readAmendLabel_iff (code : Nat) (bs : List Byte) (i : Amend (List Byte)) :
    readAmendLabel code bs = some i ↔ i.code = code ∧ i ≠ .clear ∧ (∀ l, i = .put l → l.length ≤ 255)
      ∧ bs = i.bytes (fun l => BitVec.ofNat 8 l.length :: l) := by
  match code with
  | 0 => cases i <;> simp [readAmendLabel, Amend.code, Amend.bytes]
  | 1 => cases i <;> simp [readAmendLabel, Amend.code, Amend.bytes, readLabel_iff]
  | n + 2 => cases i <;> simp [readAmendLabel, Amend.code]

/-- R198: the body of tunables is the presence word, with only its low ten bits in use, and then the fields it carries, in
order, to the last byte. -/
theorem readTunables_key (ps : List Byte) (v : TunableSet) : readTunables ps = some v ↔ ∃ w r0, ps = wordBytes w ++ r0 ∧ w.toNat < 1024 ∧
     (∃ r1, readTunable (w.getLsbD 0) readWord true r0 = some (v.target, r1) ∧
     ∃ r2, readTunable (w.getLsbD 1) readWord false r1 = some (v.tolerance, r2) ∧
     ∃ r3, readTunable (w.getLsbD 2) readWord true r2 = some (v.maxBoost, r3) ∧
     ∃ r4, readTunable (w.getLsbD 3) readWord true r3 = some (v.maxCut, r4) ∧
     ∃ r5, readTunable (w.getLsbD 4) (readByte false) false r4 = some (v.riseRate, r5) ∧
     ∃ r6, readTunable (w.getLsbD 5) (readByte false) false r5 = some (v.fallRate, r6) ∧
     ∃ r7, readTunable (w.getLsbD 6) readWord true r6 = some (v.holdThreshold, r7) ∧
     ∃ r8, readTunable (w.getLsbD 7) readWord false r7 = some (v.defaultRamp, r8) ∧
     ∃ r9, readTunable (w.getLsbD 8) (readByte true) true r8 = some (v.ceiling, r9) ∧
     readTunable (w.getLsbD 9) readWord false r9 = some (v.release, [])) := by
  constructor
  · intro h
    unfold readTunables at h
    obtain ⟨⟨w, r0⟩, hw, h⟩ := Option.bind_eq_some_iff.mp h
    dsimp only at h
    split at h
    · cases h
    rename_i hlt
    refine ⟨w, r0, (readWord_iff _ _ _).mp hw, by omega, ?_⟩
    obtain ⟨⟨a1, r1⟩, h1, h⟩ := Option.bind_eq_some_iff.mp h
    obtain ⟨⟨a2, r2⟩, h2, h⟩ := Option.bind_eq_some_iff.mp h
    obtain ⟨⟨a3, r3⟩, h3, h⟩ := Option.bind_eq_some_iff.mp h
    obtain ⟨⟨a4, r4⟩, h4, h⟩ := Option.bind_eq_some_iff.mp h
    obtain ⟨⟨a5, r5⟩, h5, h⟩ := Option.bind_eq_some_iff.mp h
    obtain ⟨⟨a6, r6⟩, h6, h⟩ := Option.bind_eq_some_iff.mp h
    obtain ⟨⟨a7, r7⟩, h7, h⟩ := Option.bind_eq_some_iff.mp h
    obtain ⟨⟨a8, r8⟩, h8, h⟩ := Option.bind_eq_some_iff.mp h
    obtain ⟨⟨a9, r9⟩, h9, h⟩ := Option.bind_eq_some_iff.mp h
    obtain ⟨⟨a10, r10⟩, h10, h⟩ := Option.bind_eq_some_iff.mp h
    dsimp only at h
    split at h
    · rename_i he
      obtain rfl := Option.some.inj h
      rw [List.isEmpty_iff] at he
      subst he
      exact ⟨r1, h1, r2, h2, r3, h3, r4, h4, r5, h5, r6, h6, r7, h7, r8, h8, r9, h9, h10⟩
    · cases h
  · rintro ⟨w, r0, hw, hlt, r1, h1, r2, h2, r3, h3, r4, h4, r5, h5, r6, h6, r7, h7, r8, h8, r9, h9, h10⟩
    unfold readTunables
    refine Option.bind_eq_some_iff.mpr ⟨_, (readWord_iff _ _ _).mpr hw, ?_⟩
    dsimp only
    rw [if_neg (by omega)]
    refine Option.bind_eq_some_iff.mpr ⟨_, h1, Option.bind_eq_some_iff.mpr ⟨_, h2, Option.bind_eq_some_iff.mpr ⟨_, h3,
      Option.bind_eq_some_iff.mpr ⟨_, h4, Option.bind_eq_some_iff.mpr ⟨_, h5, Option.bind_eq_some_iff.mpr ⟨_, h6,
      Option.bind_eq_some_iff.mpr ⟨_, h7, Option.bind_eq_some_iff.mpr ⟨_, h8, Option.bind_eq_some_iff.mpr ⟨_, h9,
      Option.bind_eq_some_iff.mpr ⟨_, h10, rfl⟩⟩⟩⟩⟩⟩⟩⟩⟩⟩

end Sys2Proof.Machine
end

