-- ==== Sys2Proof/Laws/Restarts.lean ====
section
/-! SUPPORT. The closes of a restart: with the delay line in its shape and the slots of the active programmes apart, each segment
on air is closed as if it were the only one, whatever the order (R104, R105, R140, R149). -/

namespace Sys2Proof.Machine

/-- The record a restart posts of the segment on air of a programme (R104, R105). -/
def State.restartRecord (s : State) (p : Index) : Option ResultRecord :=
  (s.prog p).queue.onAir.map fun o => ((boundaryWork s.audio.line (s.prog p)).2.resultRecord p o .restart).judged

theorem State.restartClose_line (s : State) (p : Index) :
    (s.restartClose p).audio.line = (boundaryWork s.audio.line (s.prog p)).1 :=
  congrArg (fun a : AudioPort => a.line) (State.closeSegment_facts (s.boundary p) p .restart).2.1

theorem State.restartClose_log (s : State) (p : Index) :
    ((s.restartClose p).log, (s.restartClose p).discards) = (s.restartRecord p).toList.foldl appendRecord (s.log, s.discards) := by
  have h := (s.boundary p).closeSegment_appends p .restart
  rw [State.boundary_prog_same, (boundaryWork_facts s.audio.line (s.prog p)).2.2.2.1] at h
  exact h

theorem State.restartClose_slots (s : State) (p q : Index) :
    ((s.restartClose p).prog q).entry.base = (s.prog q).entry.base
      ∧ ((s.restartClose p).prog q).entry.width = (s.prog q).entry.width
      ∧ ((s.restartClose p).prog q).isActive = (s.prog q).isActive := by
  by_cases hq : q = p
  · subst hq
    obtain ⟨n, _, hc⟩ := s.restartClose_prog_same q
    obtain ⟨_, _, _, _, he, _⟩ := boundaryWork_facts s.audio.line (s.prog q)
    unfold Prog.isActive
    rw [hc, Prog.closed_entry]
    rcases he with he | ⟨hs, he⟩ <;> rw [he]
    · exact ⟨rfl, rfl, rfl⟩
    · exact ⟨rfl, rfl, by rw [hs]; rfl⟩
  · rw [State.restartClose_prog_other _ _ _ hq]
    exact ⟨rfl, rfl, rfl⟩

theorem State.restartClose_apart (s : State) (p : Index) (h : s.Apart) : (s.restartClose p).Apart := by
  obtain ⟨h1, h2⟩ := h
  refine ⟨?_, fun a b hab ia ib => ?_⟩
  · unfold State.lineShaped at h1 ⊢
    rw [State.restartClose_line]
    obtain ⟨l1, _, l3, _⟩ := boundaryWork_facts s.audio.line (s.prog p)
    exact ⟨l1.trans h1.1, l3 h1.2⟩
  · obtain ⟨a1, a2, a3⟩ := s.restartClose_slots p a
    obtain ⟨b1, b2, b3⟩ := s.restartClose_slots p b
    have := h2 a b hab (a3 ▸ ia) (b3 ▸ ib)
    unfold Entry.overlaps at this ⊢
    rw [a1, a2, b1, b2]
    exact this

/-- The closes of a restart, in any order: each posts the record, and leaves of its programme what it would from the state before
the restart. -/
theorem restartCloses_alone (l : List Index) : ∀ (s : State), s.Apart → l.Nodup → (∀ q ∈ l, (s.prog q).isActive = true) →
    ((l.foldl State.restartClose s).log, (l.foldl State.restartClose s).discards)
      = (l.filterMap s.restartRecord).foldl appendRecord (s.log, s.discards)
    ∧ ∀ p ∈ l, ∃ n, (l.foldl State.restartClose s).prog p = (boundaryWork s.audio.line (s.prog p)).2.closed n := by
  induction l with
  | nil => exact fun s _ _ _ => ⟨rfl, fun p h => absurd h List.not_mem_nil⟩
  | cons a l ih =>
    intro s hs nd ha
    rw [List.nodup_cons] at nd
    have same : ∀ q ∈ l, (s.restartClose a).prog q = (s.prog q)
        ∧ (boundaryWork (s.restartClose a).audio.line (s.prog q)).2 = (boundaryWork s.audio.line (s.prog q)).2 := by
      intro q hq
      have hne : q ≠ a := fun e => nd.1 (e ▸ hq)
      refine ⟨State.restartClose_prog_other _ _ _ hne, ?_⟩
      rw [State.restartClose_line]
      exact ((boundaryWork_congr (s.prog q) (boundaryWork_other _ _ hs.shaped.2
        (hs.disjoint q a hne (ha q (List.mem_cons_of_mem _ hq)) (ha a List.mem_cons_self)))).1).symm
    obtain ⟨h1, h2⟩ := ih (s.restartClose a) (s.restartClose_apart a hs) nd.2 fun q hq => by
      rw [(same q hq).1]
      exact ha q (List.mem_cons_of_mem _ hq)
    rw [List.foldl_cons]
    constructor
    · have records : l.filterMap (s.restartClose a).restartRecord = l.filterMap s.restartRecord :=
        List.filterMap_congr fun q hq => by
          unfold State.restartRecord
          rw [(same q hq).1, (same q hq).2]
      rw [h1, records, State.restartClose_log, List.filterMap_cons]
      cases s.restartRecord a <;> rfl
    · intro p hp
      by_cases hpa : p = a
      · subst hpa
        obtain ⟨n, _, hc⟩ := s.restartClose_prog_same p
        exact ⟨n, by rw [(restartCloses_prog l _ nd.2 p).1 nd.1, hc]⟩
      · have hp := (List.mem_cons.mp hp).resolve_left hpa
        obtain ⟨n, hn⟩ := h2 p hp
        exact ⟨n, by rw [hn, (same p hp).1, (same p hp).2]⟩

/-- The records a restart posts, and what it leaves of a programme with a segment on air (R104, R105, R133, R140). -/
theorem State.restart_closes (s : State) (hs : s.Apart) (ha : ∀ p, (s.prog p).hasOnAir = true → (s.prog p).isActive = true) :
    (∃ order : List Index, order.Nodup ∧ (∀ p, p ∈ order ↔ (s.prog p).hasOnAir = true)
      ∧ (s.restart.log, s.restart.discards) = (order.filterMap s.restartRecord).foldl appendRecord (s.log, s.discards))
    ∧ ∀ p, (s.prog p).hasOnAir = true → ∃ n,
      s.restart.prog p = Prog.restarted s.lines ((boundaryWork s.audio.line (s.prog p)).2.closed n) := by
  generalize hl : arrange s.freeCount (allIndices.filter fun q => (s.prog q).hasOnAir) = order
  have nd : order.Nodup := hl ▸ (arrange_perm _ _).nodup_iff.mpr (List.Nodup.filter _ (by decide))
  have hm : ∀ p, p ∈ order ↔ (s.prog p).hasOnAir = true := fun p => by
    rw [← hl, mem_arrange, List.mem_filter]
    exact ⟨fun h => h.2, fun h => ⟨mem_allIndices p, h⟩⟩
  obtain ⟨h1, h2⟩ := restartCloses_alone order s.useFree ⟨hs.shaped, hs.disjoint⟩ nd fun q hq => ha q ((hm q).mp hq)
  have hlines : (order.foldl State.restartClose s.useFree).lines = s.lines := (restartCloses_around _ s.useFree).lines
  refine ⟨⟨order, nd, hm, ?_⟩, fun p hp => ?_⟩
  · rw [← hl] at h1 ⊢
    exact h1
  · obtain ⟨n, hn⟩ := h2 p ((hm p).mpr hp)
    have hr : s.restart.prog p = Prog.restarted (order.foldl State.restartClose s.useFree).lines
        ((order.foldl State.restartClose s.useFree).prog p) := by
      rw [← hl]
      exact Octet.get_map _ _ _
    exact ⟨n, by rw [hr, hlines, hn]; rfl⟩

end Sys2Proof.Machine
end

