-- ==== Sys2Proof/Tests/Slice0.lean ====
section
/-! SUPPORT. Tests: the well-formedness check refuses; the manual's worked examples; and, for each statement with
hypotheses, a state and operands that meet them, clause by clause. -/

set_option Elab.async false

namespace Sys2Proof.Tests

open Sys2Proof Sys2Proof.Machine

/-! ### Well-formedness: an ill-formed term for each check -/

theorem test_wellFormed_slots :
    (Instr.processedFrame (List.replicate 16 0)).wellFormed = true
      ∧ (Instr.processedFrame (List.replicate 15 0)).wellFormed = false
      ∧ (Instr.processedFrame (List.replicate 17 0)).wellFormed = false := by decide

theorem test_wellFormed_unknown :
    (Instr.unknownRequest .a []).wellFormed = false ∧ (Instr.unknownRequest .a [0x10]).wellFormed = true
      ∧ (Instr.unknownRequest .a [0x10, 0, 0]).wellFormed = false
      ∧ (Instr.unknownRequest .a [0x33, 0]).wellFormed = true
      ∧ (Instr.unknownRequest .a (0x33 :: List.replicate 250 0)).wellFormed = false := by decide +kernel

theorem test_wellFormed_params :
    (Instr.logCount .a 0 (List.replicate 248 0)).wellFormed = true
      ∧ (Instr.logCount .a 0 (List.replicate 249 0)).wellFormed = false := by decide +kernel

theorem test_wellFormed_force :
    (Instr.progDeactivate .a 0 [0, 1]).wellFormed = false ∧ (Instr.progDeactivateForce .a 0 [0, 0]).wellFormed = false
      ∧ (Instr.progClaim .a 0 [0, 1]).wellFormed = false ∧ (Instr.progClaimForce .a 0 [0, 0]).wellFormed = false := by
  decide

/-! ### The bench: one state with a programme in each situation -/

/-- A record with this id and owner, ADAPTIVE, with no optional field. -/
def rec (id : Nat) (owner : PortId) : SegRecord :=
  ⟨id, owner, .programme, .adaptive, none, none, none, none, false, none, none, []⟩

/-- The record on air since position 5, after 48 000 frames. -/
def onAir (r : SegRecord) : OnAir := ⟨r, 5, .command .a, r.policy, false, -2300, 100, 0, 48000, false⟩

/-- A result record with this verdict. -/
def result (v : Verdict) : ResultRecord :=
  ⟨0, 9, .a, .spot, [], .auto, 3, 100, .finish, .adaptive, false, -2300, 100, none, none, none, none, -999, 0, 0, 0, false, v,
    0⟩

/-- A programme in this state and queue. -/
def prog (n : Nat) (st : ProgState) (t : Trigger) (q : Queue) : Prog :=
  let P := Prog.reset n
  { P with
    entry := { P.entry with state := st, trigger := t }
    queue := q
    meas := { P.meas with segAccount := q.onAir.map fun _ => SegAccount.fresh } }

/-- P0 on air with two records cued and A its custodian; P1 cued, on CL0; P2 STOPPED; P3 STOPPING; P4 DRAINING; P5
INACTIVE; P6 and P7 following P1, P6 alone with a record. -/
def bench : State :=
  let P0 := prog 0 .running .off ⟨some (onAir (rec 1 .a)), [rec 2 .b, rec 3 .a]⟩
  { State.reset with
    audio := { AudioPort.reset with detector := .locked, phase := .receiving, airClock := 10000000 }
    progs := ⟨{ P0 with entry := { P0.entry with custodian := some .a } }, prog 1 .running (.cue 0) ⟨none, [rec 5 .c]⟩,
      prog 2 .stopped .off .reset, prog 3 .stopping .off .reset,
      prog 4 .draining .off ⟨some (onAir (rec 6 .b)), []⟩, prog 5 .inactive .off .reset,
      prog 6 .running (.follow 1) ⟨none, [rec 7 .a]⟩, prog 7 .running (.follow 1) .reset⟩ }

/-- The bench with B as the override port. -/
def benchB : State := { bench with override := some .b }

/-- The same programme with other fields. -/
def withGain (g : Gain) (P : Prog) : Prog := { P with gain := g }
def withMeas (m : Measure) (P : Prog) : Prog := { P with meas := m }

/-- The reply that an outcome leaves being sent on a port. -/
def replyOn (x : PortId) : Host.Outcome State Fault Refusal → Option (List Byte)
  | .next t => (t.port x).reply
  | .fault _ => none
  | .refused _ => none

/-- The state an outcome leaves. -/
def after : Host.Outcome State Fault Refusal → State
  | .next t => t
  | .fault _ => State.reset
  | .refused _ => State.reset

theorem bench_calm : bench.settle = bench ∧ benchB.settle = benchB := by decide +kernel

theorem bench_receptive : bench.receptive .a ∧ bench.receptive .b ∧ benchB.receptive .a ∧ benchB.receptive .b := by
  unfold State.receptive
  decide +kernel

/-! ### Worked examples of the manual -/

/-- The catalogue check value of the CRC of R180, on the bytes of "123456789". -/
theorem test_crc : crc16 [0x31, 0x32, 0x33, 0x34, 0x35, 0x36, 0x37, 0x38, 0x39] = 0x29B1 := by decide +kernel

/-- 11, one SEG.TAKE exchange: the request and the reply, byte by byte, with the id 12 expected on P0. -/
def exchange : State :=
  { bench with progs := { bench.progs with e0 := prog 0 .running .off ⟨none, [rec 12 .a]⟩ } }

theorem test_segTake_exchange :
    replyOn .a (exec (.segTake .a 0x3C [0x00, 0x01, 0x00, 0x0C]) exchange) = some
      (frameOf [0xA3, 0x3C, 0x00, 0x00, 0x0C, 0x00, 0x00, 0x00, 0x98, 0x96, 0x80]) := by decide +kernel

theorem test_segTake_length :
    (frameOf [0xA3, 0x3C, 0x00, 0x00, 0x0C, 0x00, 0x00, 0x00, 0x98, 0x96, 0x80]).length = 15
      ∧ (frameOf [0x23, 0x3C, 0x00, 0x01, 0x00, 0x0C]).length = 10 := by decide +kernel

theorem test_segTake_refused :
    replyOn .a (exec (.segTake .a 0x3C [0x00, 0x01]) exchange) = some (frameOf [0xA3, 0x3C, 0x08])
      ∧ replyOn .a (exec (.segTake .a 0x3C [0x00, 0x01, 0x00, 0x00]) exchange) = some (frameOf [0xA3, 0x3C, 0x04]) := by
  decide +kernel

/-- 03, gating a small account: before and after the five quiet windows. -/
def gating (n74 : Nat) (e74 : Rat) : Account :=
  let b0 := (Account.empty.bins.set 40 ⟨10, 1172 / 10000000⟩).set 74 ⟨n74, e74⟩
  ⟨(b0.set 94 ⟨60, 3525762 / 10000000⟩).set 100 ⟨30, 3517410 / 10000000⟩, false⟩

theorem test_gating_before : (gating 20 (117525 / 10000000)).integrated = some (-2176) := by decide +kernel
theorem test_gating_after : (gating 25 (148291 / 10000000)).integrated = some (-2273) := by decide +kernel
theorem test_bins : binIndex (-3280) = 74 ∧ binIndex (-7000) = 0 ∧ binIndex (-9999) = 0 ∧ binIndex 0 = 139
    ∧ binIndex (-51) = 138 := by decide

/-- 06, a ramp: record 31 on the gain -3.00 dB, to +1.50 dB over 500 ms, half-way at frame 12 000. -/
def ramping : Gain := Gain.startRamp { Gain.reset with applied := -300, desired := -300 } .adaptive 150 500

theorem test_ramp_starts : ramping.ramp = some ⟨-300, 150, 24000, 0⟩ ∧ ramping.desired = 150 ∧ ramping.applied = -300 := by
  decide +kernel

theorem test_ramp_steps :
    ramping.rampStep.applied = -300 + 450 / 24000
      ∧ ({ ramping with ramp := some ⟨-300, 150, 24000, 11999⟩ } : Gain).rampStep.applied = -75
      ∧ ({ ramping with ramp := some ⟨-300, 150, 24000, 24000⟩ } : Gain).completeRamp.applied = 150 := by decide +kernel

/-- 06, the ramp overtaken: a new ramp from -0.75 dB to -3.00 dB over 9600 frames. -/
theorem test_ramp_overtaken :
    ({ ramping with applied := -75 } : Gain).startRamp .fixed (declaredGain (-2300) (some (-2000))) 200
      = { ramping with applied := -75, policy := .fixed, desired := -300, ramp := some ⟨-75, -300, 9600, 0⟩ } := by
  decide +kernel

/-- 07, the verdict table. -/
theorem test_verdicts :
    verdictOf .takeNext (some (-2200)) (-2300) 100 = .pass ∧ verdictOf .takeNext (some (-2199)) (-2300) 100 = .high
      ∧ verdictOf .finish (some (-2400)) (-2300) 100 = .pass ∧ verdictOf .durationEnd (some (-2401)) (-2300) 100 = .low
      ∧ verdictOf .takeNext (some (-2250)) (-2400) 100 = .high ∧ verdictOf .takeNext none (-2300) 100 = .silent
      ∧ verdictOf .abort (some (-2310)) (-2300) 100 = .aborted
      ∧ verdictOf .restart (some (-3040)) (-2300) 100 = .interrupted := by decide

/-- 02, a national programme and its regions: step 4 would close the cycle P0, P2, P1. -/
theorem test_cycle :
    let s := { State.reset with progs := { State.reset.progs with
      e1 := prog 1 .inactive (.follow 0) .reset, e2 := prog 2 .inactive (.follow 1) .reset } }
    s.closesCycle 0 (.follow 2) = true ∧ s.closesCycle 0 (.cue 0) = false ∧ s.closesCycle 3 (.follow 2) = false := by
  decide +kernel

/-- R50: full scale, silence and the rounding of -23.00 LUFS. -/
theorem test_loudness : loudnessOf 1 = -69 ∧ loudnessOf 0 = -9999 ∧ loudnessOf (5876 / 1000000) = -2300 := by decide +kernel

/-- R126: a full-scale sample alone is an estimate of 0 dBTP, and of -99.9 at zero. -/
theorem test_true_peak : truePeakTenths (peakMagnitude [0] [0] [0] [-8388608]) = 0
    ∧ truePeakTenths (peakMagnitude [0] [0] [0] [0]) = -999 := by decide +kernel

/-- 02, a stop, a run and a drain: steps 10 and 11 on P0 of the bench, with B's record withdrawn. -/
theorem test_drain :
    let s := after (exec (.progDeactivate .a 1 [0, 0]) bench)
    (s.prog 0).entry.state = .draining ∧ (s.prog 0).queue.cued = [] ∧ (s.port .b).notices.withdrawn = ⟨true, 1⟩
      ∧ ((s.endSegment 0 .finish).prog 0).entry.state = .inactive ∧ (s.endSegment 0 .finish).log.length = 1 := by
  decide +kernel

/-- A frame received byte by byte: the second CRC byte takes PORT.KEEPALIVE. -/
theorem test_reception :
    let feed := fun (s : State) (b : Byte) => after (exec (.byteReceived .c b) s)
    ((frameOf [0x07, 0x55]).foldl feed bench).port .c
      = { Port.reset with reply := some (frameOf [0x87, 0x55, 0x00]) } := by decide +kernel

/-- No word of the table's bits spells a command: it gives none. -/
theorem test_no_table_word (n w : Nat) : decodeTableWord n w = none := rfl

/-! ### Witnesses: the machine and the Audio Port -/

theorem test_meets_StepRunsTheFrontCommand :
    ({ bench with pending := [.restartnArmed, .frameSync] } : State).pending = .restartnArmed :: [.frameSync]
      ∧ after (step { bench with pending := [.restartnArmed] }) = { bench with restartArmed := true } := by decide +kernel

/-- No timer, one timer and two timers that have run their time. -/
def watched (n : Nat) : State := { bench with audio := { bench.audio with watch := some n } }
def watchedChange (n m : Nat) : State := (watched n).setLine 3 { CueLine.reset false with raw := true, change := some m }

theorem test_meets_EmptyQueueTicks :
    bench.pending = [] ∧ allTimers.filter (watched 249).settle.expired = []
      ∧ allTimers.filter (watched 250).settle.expired = [.watch]
      ∧ allTimers.filter (watchedChange 249 24000).settle.expired = [.reject 3]
      ∧ allTimers.filter (watchedChange 250 24000).settle.expired = [.watch, .reject 3] := by decide +kernel

/-- Each timer at the moment it has run its time and just before; the silence timer of an ABSENT port never has. -/
theorem test_meets_EmptyQueueTicks_expired :
    let s := fun (n : Nat) => bench.setPort .b { Port.reset with gap := some n, timerSetting := 1, timerCount := some 0 }
    (s 30001).expired (.gap .b) = true ∧ (s 30000).expired (.gap .b) = false ∧ (s 0).expired (.silence .b) = true
      ∧ (bench.setPort .b { Port.reset with present := false, timerCount := some 0 }).expired (.silence .b) = false
      ∧ (watchedChange 0 24000).expired (.reject 3) = true ∧ (watchedChange 0 23999).expired (.reject 3) = false
      ∧ ((s 5).tick.port .b).gap = some 6 ∧ (watched 7).tick.audio.watch = some 8 := by decide +kernel

theorem test_meets_StrapsHoldUntilPowerOn :
    (∃ t, exec (.powerOnReset ⟨true, true, true, true⟩ 0xFF) bench = .next t) ∧ (∃ t, step bench = .next t) :=
  ⟨⟨_, rfl⟩, ⟨_, rfl⟩⟩

/-- The bench with the detector in this state, phase and count. -/
def hearing (d : Detector) (ph : FramePhase) (n : Nat) : State :=
  { bench with audio := { bench.audio with detector := d, phase := ph, goodFrames := n, watch := some 7 } }

theorem test_meets_FrameSync :
    (hearing .lost .absent 0).settle.audio.detector = .lost
      ∧ (hearing .recovering .complete 47).settle.audio.detector = .recovering
      ∧ (hearing .recovering .complete 48).settle.audio.detector = .locked
      ∧ (hearing .locked .complete 0).settle.audio.phase = .complete := by decide +kernel

/-- Slots 0 and 1 lie within P0 and slots 8 and 9 within P4; slot 10 lies within P5, which is INACTIVE. -/
theorem test_meets_FrameSync_slots :
    ((bench.prog 0).isActive = true ∧ (bench.prog 0).entry.base ≤ 0 ∧ 0 < (bench.prog 0).entry.base + (bench.prog 0).entry.width)
      ∧ (∀ p, (bench.prog p).isActive = true →
          ¬((bench.prog p).entry.base ≤ 10 ∧ 10 < (bench.prog p).entry.base + (bench.prog p).entry.width)) := by
  decide +kernel

/-- The programmes of the bench are active but for P5, and measuring but for P2 and P5. -/
theorem test_meets_FrameSync_states :
    (allIndices.map fun p => (bench.prog p).isActive) = [true, true, true, true, true, false, true, true]
      ∧ (allIndices.map fun p => (bench.prog p).isMeasuring) = [true, true, false, true, true, false, true, true]
      ∧ (bench.outputSample ⟨List.replicate 16 1, List.replicate 16 2⟩ 0 = 2)
      ∧ (bench.outputSample ⟨List.replicate 16 1, List.replicate 16 2⟩ 10 = 1) := by decide +kernel

theorem test_meets_DetectorEvents :
    ((hearing .recovering .complete 48).audio.detector = .recovering ∧ 48 ≤ (hearing .recovering .complete 48).audio.goodFrames)
      ∧ ¬(48 ≤ (hearing .recovering .complete 47).audio.goodFrames)
      ∧ (hearing .locked .complete 0).settle.audio.phase = .complete
      ∧ (hearing .recovering .complete 3).settle.audio.detector = .recovering
      ∧ (hearing .recovering .complete 3).settle.audio.phase = .complete
      ∧ (hearing .locked .receiving 0).settle.audio.phase ≠ .complete
      ∧ (hearing .lost .absent 0).settle.audio.detector = .lost := by decide +kernel

/-- The watch has run its time in each detector state; at 249 ticks, and stopped, it has not. -/
theorem test_meets_DetectorEvents_watch :
    (let u := (watched 250).settle; u.audio.watch = some 250 ∧ u.audio.detector = .locked)
      ∧ (let s := hearing .recovering .receiving 3
         let u := { s with audio := { s.audio with watch := some 250 } }.settle
         u.audio.watch = some 250 ∧ u.audio.detector = .recovering)
      ∧ (let s := hearing .lost .absent 0
         let u := { s with audio := { s.audio with watch := some 250 } }.settle
         u.audio.watch = some 250 ∧ u.audio.detector = .lost)
      ∧ (watched 249).settle.audio.watch = some 249 ∧ bench.settle.audio.watch = none := by decide +kernel

/-- R4, R163: a frame sync, or a well-formed frame, that is taken first leaves no expiry behind it. -/
theorem test_expiry_comes_too_late :
    (let s := after (exec .syncWatchExpiry (after (exec .frameSync (watched 250))))
     s.audio.detector = .locked ∧ s.audio.watch = some 0)
    ∧ (after (exec .syncWatchExpiry (watched 250))).audio.detector = .lost := by decide +kernel

theorem test_meets_ProcessedFrame :
    bench.settle.audio.detector = .locked ∧ bench.settle.audio.phase = .receiving ∧ (bench.settle.prog 5).isActive = false
      ∧ (bench.settle.prog 0).isActive = true
      ∧ ((hearing .recovering .receiving 2).settle.audio.detector = .recovering
        ∧ (hearing .recovering .receiving 2).settle.audio.phase = .receiving)
      ∧ (hearing .lost .absent 0).settle.audio.detector = .lost
      ∧ (hearing .locked .complete 0).settle.audio.phase ≠ .receiving := by
  decide +kernel

theorem test_meets_ProcessedFrame_bench :
    bench.settle.lineShaped ∧ bench.settle.slotsWithin ∧ bench.settle.slotsDisjoint := by
  unfold State.lineShaped State.slotsWithin State.slotsDisjoint
  decide +kernel

/-- Outside LOCKED, with zero samples on SDOUT, no row makes it carry others; and a lock makes it carry the delay line. -/
theorem test_meets_StepKeepsTheAudioPort_silent :
    (hearing .recovering .complete 3).silentUnlessLocked ∧ (hearing .lost .absent 0).silentUnlessLocked
      ∧ (after (exec .frameSync (hearing .recovering .complete 3))).silentUnlessLocked
      ∧ ¬({ hearing .lost .absent 0 with audio := { AudioPort.reset with sdout := List.replicate 16 1 } } : State).silentUnlessLocked := by
  unfold State.silentUnlessLocked
  decide +kernel

/-- One frame of the bench: the Air Clock advances, and the frames on air of P0 rise by one. -/
theorem test_processedFrame :
    let s := after (exec (.processedFrame (List.replicate 16 0x12345678)) bench)
    s.audio.airClock = 10000001 ∧ (s.audio.line.getLast?.map (·.raw)) = some (List.replicate 16 0x123456)
      ∧ (s.prog 0).queue.onAir.map (·.framesOnAir) = some 48001
      ∧ (s.prog 0).gain.window = [⟨[0x123456, 0x123456], 0⟩]
      ∧ (s.prog 0).meas.inFlight = [⟨[0x123456, 0x123456], false⟩] := by decide +kernel

/-! ### Witnesses: measurement and gain -/

/-- A block of this energy, measured while record 1 of the bench is on air. -/
def block (e : Rat) : BlockRecord := ⟨e, 4800, false, some ⟨1, 5⟩⟩

/-- The engine of P0 with this many such blocks behind it and a full block of this energy to close. -/
def full (n : Nat) (e : Rat) : Prog :=
  let P := bench.prog 0
  withMeas
    { P.meas with
      inHist := List.replicate n (block e)
      outHist := List.replicate n (block e)
      clock := 4800
      inSum := e * 4800
      outSum := e * 4800 } P

theorem test_meets_BlockClose :
    (bench.prog 0).closeDue = false ∧ (full 3 1).closeDue = true ∧ (full 3 1).entry.state ≠ .stopping
      ∧ ((full 3 1).setState .stopping).closeDue = true
      ∧ (List.replicate 29 (block 1)).length ≤ 30 ∧ (List.replicate 30 (block 1)).length ≤ 30 := by decide +kernel

theorem test_meets_AccountsAcceptWindows :
    (let P := full 3 1
     let h := appendHistory P.meas.outHist (P.blockRecord P.meas.outSum)
     4 ≤ h.length ∧ (∀ b ∈ windowOf h, b.held = false) ∧ -7000 ≤ setLoudness (windowOf h)
      ∧ ∀ b ∈ windowOf h, b.segment = some ⟨1, 5⟩)
    ∧ (let P := full 2 1
       ¬(4 ≤ (appendHistory P.meas.outHist (P.blockRecord P.meas.outSum)).length))
    ∧ (let P := full 29 1
       let h := appendHistory P.meas.outHist (P.blockRecord P.meas.outSum)
       h.length = 30 ∧ ∀ b ∈ h, b.segment = some ⟨1, 5⟩ ∧ b.held = false)
    ∧ (full 3 1).queue.onAir = some (onAir (rec 1 .a)) ∧ (full 3 1).meas.segAccount = some .fresh
    ∧ (bench.prog 1).queue.onAir = none
    ∧ (full 3 1).closedMeasure.account.windowCount = 1 ∧ (full 2 1).closedMeasure.account.windowCount = 0
    ∧ (full 3 1).closedMeasure.segAccount.map (fun a => (a.maxMomentary, a.maxShortTerm)) = some (some (-69), none)
    ∧ (full 29 1).closedMeasure.segAccount.map (fun a => (a.maxMomentary, a.maxShortTerm))
        = some (some (-69), some (-69)) := by
  decide +kernel

theorem test_meets_AccountsAcceptWindows_bins :
    Account.empty.bins.length = 140 ∧ (Account.empty.bins.getD 0 Bin.empty).count < 16777215
      ∧ ((Account.empty.bins.set 139 ⟨16777214, 1⟩).getD 139 Bin.empty).count < 16777215
      ∧ 16777215 ≤ ((Account.empty.bins.set 139 ⟨16777215, 1⟩).getD 139 Bin.empty).count := by decide +kernel

theorem test_meets_LoudnessAndGating :
    (0 : Rat) ≤ 0 ∧ (0 : Rat) < 1 ∧ -9999 < loudnessOf 1 ∧ loudnessOf (1 / 10 ^ 40) = -9999
      ∧ (full 3 1).meas.inHist.length < 4 ∧ 4 ≤ (full 4 1).meas.inHist.length
      ∧ momentary (full 4 1).meas.inHist = some (-69)
      ∧ Account.empty.integrated = none ∧ (Account.empty.bins.map (·.count)).sum = 0
      ∧ ((⟨[⟨1, 1⟩], false⟩ : Account).bins.map (·.count)).sum ≠ 0 ∧ (⟨[⟨1, 1⟩], false⟩ : Account).integrated = none
      ∧ (⟨[⟨1, 1 / 10000000⟩], false⟩ : Account).integrated = some (-7069) := by decide +kernel

/-- 10^(1/2) of the model is within 2^-80 of the root, and 10^3 is 1000. -/
theorem test_meets_LoudnessAndGating_powers :
    pow10 3 = 1000 ∧ pow10 (-2) = 1 / 100 ∧ (0 : Nat) < 2 ∧ pow10 (1 / 2) ^ 2 ≠ 10
      ∧ (1 - 1 / 2 ^ 80) ^ 2 * 10 ≤ pow10 (1 / 2) ^ 2 ∧ pow10 (1 / 2) ^ 2 ≤ (1 + 1 / 2 ^ 80) ^ 2 * 10 := by decide +kernel

/-- P0 with one position in flight, its tally mark INACTIVE, and CL2 as its tally. -/
def inFlight : Prog :=
  let P := bench.prog 0
  { withMeas { P.meas with inFlight := [⟨[0x400000, 0], true⟩] } P with entry := { P.entry with tally := some 2 } }

theorem test_meets_MeasuredPosition :
    inFlight.meas.inFlight = ⟨[0x400000, 0], true⟩ :: [] ∧ (0 < inFlight.entry.width ∧ channelWeight 2 0 ≠ 0)
      ∧ ¬(2 < inFlight.entry.width) ∧ inFlight.entry.tally = some 2 ∧ inFlight.entry.tally ≠ some 3
      ∧ inFlight.tallyInactive bench.lines = true ∧ (bench.prog 0).tallyInactive bench.lines = false
      ∧ (let m := (inFlight.measureOldest bench.audio.line).meas
         m.clock = 1 ∧ m.held = true ∧ m.inFlight = [] ∧ m.outSum = 0
          ∧ m.inSum = (153512485958697 / 200000000000000) * (153512485958697 / 200000000000000)) := by decide +kernel

/-- Thirty blocks make a short-term value; the law holds below -45.00 LUFS and answers above. -/
theorem test_meets_GainMotion_law :
    (full 3 1).gain.policy = .adaptive ∧ shortTerm (full 2 1).closedMeasure.inHist = none
      ∧ shortTerm (full 29 1).closedMeasure.inHist = some (-69) ∧ (full 29 1).meas.held = false
      ∧ (full 29 1).entry.active.holdThreshold ≤ -69
      ∧ shortTerm (full 29 (1 / 1000000)).closedMeasure.inHist = some (-6069)
      ∧ (full 29 1).closeBlock.gain.desired = -2000
      ∧ (withGain { (full 3 1).gain with policy := .bypass } (full 3 1)).gain.policy ≠ .adaptive
      ∧ (withMeas { (full 3 1).meas with held := true } (full 3 1)).meas.held = true := by decide +kernel

/-- P0 with the adaptive gain moving between these values. -/
def moving (applied desired : Rat) : Prog :=
  withGain { Gain.reset with applied := applied, desired := desired, holding := false } (bench.prog 0)

theorem test_meets_GainMotion_mode :
    (withGain ramping (bench.prog 0)).gain.ramp.isSome = true
      ∧ ((bench.prog 5).gain.ramp = none ∧ (bench.prog 5).entry.state = .inactive) ∧ (bench.prog 2).entry.state = .stopped
      ∧ (withGain { Gain.reset with policy := .bypass } (bench.prog 0)).gain.policy = .bypass
      ∧ (bench.prog 0).gain.holding = true ∧ (bench.prog 0).gain.policy = .adaptive
      ∧ ((moving 0 0).gain.holding = false ∧ (moving 0 0).mode = .following) := by decide +kernel

theorem test_meets_GainMotion :
    (bench.prog 0).mode = .frozen ∧ (moving 0 0).mode = .following ∧ (moving 0 100).mode = .following
      ∧ (moving 0 100).moveGain.applied = 10 / 4800 ∧ (moving 0 (-100)).moveGain.applied = -30 / 4800
      ∧ (moving 0 (1 / 4800)).moveGain.applied = 1 / 4800 := by decide +kernel

theorem test_meets_GainMotion_ramp :
    ((bench.setProg 0 (withGain { ramping with ramp := some ⟨-300, 150, 24000, 24000⟩ } (bench.prog 0))).prog 0).rampDue = true
      ∧ (withGain { ramping with ramp := some ⟨-300, 150, 24000, 23999⟩ } (bench.prog 0)).rampDue = false := by decide +kernel

/-! ### Witnesses: takes, ends, verdicts and the log -/

/-- The bench with the record on air of P0 at its duration of ten times 4800 frames. -/
def timed (auto : Bool) (st : ProgState) (cued : List SegRecord) : State :=
  bench.setProg 0 (prog 0 st .off
    ⟨some (onAir { rec 1 .a with duration := some 10, autoAdvance := auto }), cued⟩)

theorem test_meets_DurationReached :
    (bench.prog 0).durationDue = false ∧ ((timed false .running []).prog 0).durationDue = true
      ∧ ((timed true .running [rec 2 .b]).prog 0).durationDue = true
      ∧ ((timed true .draining []).prog 0).durationDue = true ∧ 48000 = 10 * 4800
      ∧ ((after (exec (.durationReached 0) (timed true .running [rec 2 .b]))).prog 0).queue.onAir.map (·.record.id) = some 2
      ∧ (after (exec (.durationReached 0) (timed true .running []))).log.map (·.endCause) = [.durationEnd] := by
  decide +kernel

/-- A record at its duration whose overrun mark is SET, and one a frame short of it, reach no duration. -/
theorem test_meets_DurationReached_none :
    let aired := fun (o : OnAir) => bench.setProg 0 (prog 0 .running .off ⟨some o, []⟩)
    let o := onAir { rec 1 .a with duration := some 10 }
    o.record.duration = some 10 ∧ (aired o |>.prog 0).durationDue = true
      ∧ ∀ n ∈ [{ o with overrun := true }, { o with framesOnAir := 47999 }],
        after (exec (.durationReached 0) (aired n)) = aired n := by decide +kernel

/-- P0 at its duration with auto-advance SET; P1, which follows it, at its duration with auto-advance CLEAR. -/
def leadAndOverrun : State :=
  { bench with progs := { bench.progs with
      e0 := prog 0 .running .off ⟨some (onAir { rec 1 .a with duration := some 10, autoAdvance := true }), [rec 2 .b]⟩
      e1 := prog 1 .running (.follow 0) ⟨some (onAir { rec 5 .c with duration := some 10 }), [rec 8 .c]⟩
      e6 := prog 6 .inactive .off .reset
      e7 := prog 7 .inactive .off .reset } }

/-- The overrun of P1 comes with the frame, before the AUTO take on P0 whose follow take ends its segment (R96). -/
theorem test_overrun_before_auto :
    ((leadAndOverrun.prog 0).autoDue = true ∧ (leadAndOverrun.prog 1).overrunDue = true)
      ∧ ∀ t ∈ [leadAndOverrun.settle, after (exec (.durationReached 0) leadAndOverrun)],
        t.log.map (fun r => (r.id, r.endCause, r.overrun)) = [(1, .takeNext, false), (5, .takeNext, true)]
          ∧ (t.port .a).notices.overrun = ⟨true, 0b10⟩ ∧ (t.prog 1).queue.onAir.map (·.record.id) = some 8 := by decide +kernel

/-- With nothing due the events taken are none; with one AUTO event due, once the overrun marks are set, they are that one. -/
theorem test_meets_EmptyQueueTicks_settle :
    let run := fun (t : State) (c : Instr) => match exec c t with
      | .next u => u
      | .fault _ => t
      | .refused _ => t
    let due := .goodFrameCount48 :: (allIndices.map Instr.blockClose ++ allIndices.map Instr.rampCompletion)
    let settled := fun (s : State) =>
      let v := due.foldl run s
      let overrun := fun p => (v.prog p).durationDue && (match (v.prog p).queue.onAir with
        | some o => !o.record.autoAdvance
        | none => false)
      ((allIndices.filter overrun).map Instr.durationReached).foldl run v
    (∀ s ∈ [bench, timed false .running []], ∀ p, ((settled s).prog p).durationDue = false)
      ∧ ((settled leadAndOverrun).prog 0).durationDue = true
      ∧ (∀ q, q ≠ 0 → ((settled leadAndOverrun).prog q).durationDue = false) := by decide +kernel

theorem test_meets_TakeStages :
    (bench.prog 0).queue.cued = rec 2 .b :: [rec 3 .a] ∧ (bench.prog 0).queue.onAir = some (onAir (rec 1 .a))
      ∧ (bench.prog 1).queue.cued = rec 5 .c :: [] ∧ (bench.prog 1).queue.onAir = none
      ∧ (boundaryWork bench.audio.line (bench.prog 0)).2.meas.segAccount = some .fresh := by decide +kernel

/-- A boundary closes a block of one frame into both histories, and a full one before the positions in flight. -/
theorem test_boundaryWork :
    let cut := fun (P : Prog) => (boundaryWork bench.audio.line P).2
    ((cut inFlight).meas.inHist.map fun b => (b.frames, b.held)) = [(1, true)] ∧ (cut inFlight).meas.outHist.length = 1
      ∧ (cut inFlight).meas.inFlight = [] ∧ (cut inFlight).meas.clock = 0
      ∧ (cut (full 0 1)).meas.inHist.map (·.frames) = [4800]
      ∧ (cut (withMeas { (full 0 1).meas with inFlight := [⟨[0, 0], false⟩] } (full 0 1))).meas.inHist.map (·.frames) = [4800, 1]
      ∧ (cut (bench.prog 0)).meas.inHist = [] := by decide +kernel

/-- A take of P1 of a record with an entry gain of 1.50 dB, over 500 ms and over 0 ms. -/
theorem test_take_starts_ramp :
    let s := fun (ms : Int) => bench.setProg 1 (prog 1 .running (.cue 0)
      ⟨none, [{ rec 5 .c with entryGain := some 150, rampLength := some ms }]⟩)
    (((s 500).takeStages 1 (.cue 0)).prog 1).gain.ramp = some ⟨0, 150, 24000, 0⟩
      ∧ (((s 500).takeStages 1 (.cue 0)).prog 1).gain.applied = 0
      ∧ (((s 0).takeStages 1 (.cue 0)).prog 1).gain.ramp = none
      ∧ (((s 0).takeStages 1 (.cue 0)).prog 1).gain.applied = 150
      ∧ ((bench.takeStages 0 (.command .a)).log.map fun r => (r.endCause, r.id, r.framesOnAir))
          = [(.takeNext, 1, 48000)] := by decide +kernel

theorem test_meets_TransitionRamp :
    ({ rec 1 .a with declared := some (-2000) } : SegRecord).declared = some (-2000) ∧ (0 : Int) ≤ 0 ∧ (0 : Int) ≤ 2000
      ∧ (150 : Rat) ≠ Gain.reset.applied ∧ effectivePolicy .fixed 3 = (.adaptive, true)
      ∧ effectivePolicy .fixed 2 = (.fixed, false) ∧ declaredGain (-1400) (some (-7000)) = 1500 := by decide +kernel

theorem test_meets_SegmentEnd :
    (bench.prog 0).queue.onAir = some (onAir (rec 1 .a)) ∧ (bench.prog 0).entry.state = .running
      ∧ (bench.prog 4).queue.onAir = some (onAir (rec 6 .b)) ∧ (bench.prog 4).entry.state = .draining := by decide +kernel

theorem test_meets_SegmentEnd_account :
    (boundaryWork bench.audio.line (bench.prog 4)).2.meas.segAccount = some .fresh := by decide +kernel

/-- A log of `n` records. -/
def logged (n : Nat) : State := { bench with log := List.replicate n (result .high) }

/-- The log after an end, and after a take, behind 47 records and behind 48: the new record is the last, and at most one goes. -/
theorem test_posted_log :
    let ends := fun (n : Nat) => ((logged n).endSegment 0 .finish).log
    let takes := fun (n : Nat) => ((logged n).takeStages 0 (.command .a)).log
    (ends 47).length = 48 ∧ (ends 48).length = 48 ∧ (takes 48).length = 48
      ∧ (ends 47).getLast?.map (fun r => (r.endCause, r.discardsBefore)) = some (.finish, 0)
      ∧ (ends 48).getLast?.map (fun r => (r.endCause, r.discardsBefore)) = some (.finish, 1)
      ∧ (takes 48).getLast?.map (fun r => (r.endCause, r.discardsBefore)) = some (.takeNext, 1)
      ∧ ((logged 48).endSegment 0 .finish).discards = 1
      ∧ (((logged 48).endSegment 0 .finish).port .a).notices.logDiscard.pending = true := by decide +kernel

theorem test_bench_followAcyclic : bench.followAcyclic :=
  ⟨fun q => if q = 6 ∨ q = 7 then 1 else 0, by decide +kernel⟩

theorem test_meets_TakeAndItsCascade :
    (bench.prog 1).takeActs = true ∧ (bench.prog 6).entry.trigger = .follow 1 ∧ (bench.prog 6).takeActs = true
      ∧ (bench.prog 7).entry.trigger = .follow 1 ∧ (bench.prog 7).takeActs = false ∧ (bench.prog 1).hasOnAir = false
      ∧ (bench.prog 0).takeActs = true ∧ (bench.prog 0).hasOnAir = true ∧ (bench.prog 2).takeActs = false := by
  decide +kernel

/-- P6 and P7 follow P1; nothing follows P0. -/
theorem test_meets_TakeAndItsCascade_reaches :
    bench.reaches 1 6 ∧ bench.reaches 1 7 ∧ ¬bench.reaches 0 1 := by
  refine ⟨fun R h c => c 1 6 h (by decide +kernel) (by decide +kernel),
    fun R h c => c 1 7 h (by decide +kernel) (by decide +kernel), fun h => ?_⟩
  have h0 : ∀ f, (bench.prog f).entry.trigger ≠ .follow 0 := by decide +kernel
  exact absurd (h (· = 0) rfl fun l f hl _ hf => absurd (hl ▸ hf) (h0 f)) (by decide)

/-- The bench with a segment on air in P1 and in P6, which follows it, and with P7 behind P6. -/
def chained : State :=
  ((bench.setProg 1 (prog 1 .running (.cue 0) ⟨some (onAir (rec 4 .c)), [rec 5 .c]⟩)).setProg 6
    (prog 6 .running (.follow 1) ⟨some (onAir (rec 8 .a)), [rec 7 .a]⟩)).setProg 7 (prog 7 .running (.follow 6) .reset)

/-- A take on P1, by command or by its line: P6 takes behind it, with its own stages and its record behind its leader's; P7 misses
it; SEG_STARTED and SEG_CLOSED are of P1 and P6, TAKE_MISSED of P7, and no more. -/
theorem test_meets_TakeAndItsCascade_follower :
    let edge := chained.setLine 0 ⟨false, .ms8, true, false, some 24000⟩
    chained.lineShaped ∧ chained.slotsDisjoint ∧ edge.lineShaped ∧ edge.slotsDisjoint
      ∧ (chained.prog 6).takeActs = true ∧ ((edge.line 0).raw != (edge.line 0).inverted) = true
      ∧ ∀ t ∈ [chained.take 1 (.command .a), edge.acceptEdge 0],
        t.prog 6 = (chained.takeStages 6 (.follow 1)).prog 6 ∧ t.log.map (·.programme) = [1, 6]
        ∧ (t.port .b).notices.segStarted = ⟨true, 0b01000010⟩ ∧ (t.port .b).notices.segClosed = ⟨true, 0b01000010⟩
        ∧ (t.port .b).notices.takeMissed = ⟨true, 0b10000000⟩ ∧ (t.port .b).notices.escalated = ⟨false, 0⟩ := by
  unfold State.lineShaped State.slotsDisjoint
  decide +kernel

theorem test_meets_Posting_escalation :
    let r := fun (c : SegClass) (l : Option Int) => { result .silent with cls := c, integrated := l }
    let s := bench.setProg 0 ((bench.prog 0).setEntry { (bench.prog 0).entry with escalation := 2 })
    verdictOf .finish (some (-2199)) (-2300) 100 = .high ∧ verdictOf .finish none (-2300) 100 = .silent
      ∧ ((s.post (r .spot (some (-2199)))).prog 0).entry.escalation = 3
      ∧ ((s.post (r .promo (some (-2300)))).prog 0).entry.escalation = 0
      ∧ ((s.post (r .live (some (-2199)))).prog 0).entry.escalation = 2
      ∧ ((s.post (r .spot none)).prog 0).entry.escalation = 2 := by decide +kernel

theorem test_meets_Posting :
    (logged 0).log.length < 48 ∧ (logged 23).log.length = 23 ∧ (logged 22).log.length ≠ 23 ∧ (logged 47).log.length < 48
      ∧ 48 ≤ (logged 48).log.length ∧ ((logged 48).post (result .silent)).discards = 1
      ∧ ((logged 23).post (result .silent)).noticedPlain .logHalf := by
  refine ⟨by decide +kernel, by decide +kernel, by decide +kernel, by decide +kernel, by decide +kernel, by decide +kernel, ?_⟩
  intro x
  cases x <;> decide +kernel

theorem test_meets_Posting_discard :
    (∀ q ∈ [result .high], q.verdict ≠ .pass) ∧ (result .pass).verdict = .pass
      ∧ discardOne [result .high, result .pass, result .low, result .pass] = [result .high, result .low, result .pass] := by
  decide

/-- One channel at this sample and gain 0.00 dB. -/
def position (v : Sample) : GainApplied := ⟨[v], 0⟩

/-- P0's entry, which has a ceiling of -1.0 dBTP, and a limiter that has left this reduction. -/
def limited (reduction : Nat) : Gain := { Gain.reset with reduction := reduction }

theorem test_meets_LimiterKeepsTheCeiling :
    continuation (Gain.reset.governing (-10)) [0, 0] [0, 0] [0, 0] [0, 0] = true
      ∧ continuation (Gain.reset.governing (-10)) [0] [0] [4000000] [4000000] = true
      ∧ continuation (-10) [0] [0] [0] [8388607] = false
      ∧ [(0 : Int)].length = (position 5).input.length
      ∧ continuation (Gain.reset.governing (-10)) [0] [0] [0] (sampleInts ((position 5).corrected 0)) = true := by
  decide +kernel

/-- Three positions within an old ceiling of 0 dBTP, at which -1.0 dBTP is met by the fourth as it is and not by a mute: the
points between it and them cancel (log 28). -/
theorem test_mute_fails :
    let meets := fun r => (position (BitVec.ofInt 24 (-1495200))).meets (-10) [0] [-2242800] [6728400] r
    continuation 0 [0] [0] [-2242800] [6728400] = true ∧ meets 0 = true ∧ meets Config.muteReduction = false := by
  decide +kernel

/-- The release from a mute would be no help; the requirement is chosen: no reduction at all, and for a louder sample a few dB. -/
theorem test_requirement_below_release :
    let e := (bench.prog 0).entry
    let choose := fun v => (limited Config.muteReduction).chooseReduction e (position (BitVec.ofInt 24 v)) [] [0] [-2242800] [6728400]
    choose (-1495200) = 0 ∧ 0 < choose (-8000000) ∧ choose (-8000000) < 3000 * 2 ^ 32
      ∧ (position (BitVec.ofInt 24 (-8000000))).meets (-10) [0] [-2242800] [6728400] (choose (-8000000)) = true := by
  decide +kernel

/-- R131: while the old ceiling of 0 dBTP governs, the attack has no warning of the new one of -1.0 dBTP, which a later position
at -0.5 dB of full scale exceeds; from the fourth position on it has. -/
theorem test_attack_without_warning :
    let P := bench.prog 0
    let w : GainApplied := ⟨[0, 0], 0⟩
    let later := fun (v : Sample) => [w, w, w, ⟨[v, v], 0⟩]
    ({ Gain.reset with oldCeiling := some ⟨0, 3⟩ } : Gain).attack P.entry w (later 7900000) = 0
      ∧ 0 < Gain.reset.attack P.entry w (later 7900000) := by decide +kernel

theorem test_meets_LimiterFixing :
    ({ Gain.reset with window := [position 5] } : Gain).window = position 5 :: [] ∧ 80 - 1 < bench.audio.line.length
      ∧ (position 5).input[0]? = some 5 ∧ 16000 * 2 ^ 32 ≤ Config.muteReduction ∧ 0 < 16000 * 2 ^ 32
      ∧ Gain.reset.oldCeiling = none ∧ ({ Gain.reset with oldCeiling := some ⟨0, 3⟩ } : Gain).oldCeiling = some ⟨0, 3⟩
      ∧ ceilingChange 0 (-10) none = some ⟨0, 3⟩ ∧ ceilingChange (-10) 0 (some ⟨0, 3⟩) = none
      ∧ truePeakTenths (2 ^ 31) = 0 ∧ -999 < truePeakTenths (2 ^ 31) ∧ truePeakTenths 0 = -999 ∧ truePeakTenths (2 ^ 32) = 60 := by
  decide +kernel

/-- At 0 dBTP a ceiling takes a full-scale sample and nothing more; a foreseen estimate counts the points between. -/
theorem test_meets_LimiterFixing_estimate :
    withinCeiling (2 ^ 31) 0 = true ∧ withinCeiling (2 ^ 31 + 1) 0 = false ∧ withinCeiling (2 ^ 31 + 1) 1 = true
      ∧ peakMagnitude [0, 0] [0, 0] [0, 4] [1, -2] = 1020 ∧ foreseenMagnitude [0] [0] [4] [0] = 1080
      ∧ gainAppliedValues 2 none = [0, 0] ∧ gainAppliedValues 1 (some (position 5)) = [5] := by decide +kernel

/-- A silent position meets the condition after silence, at whatever reduction, and after a full-scale sample at none. -/
theorem test_meets_LimiterReduction :
    let meets := fun s1 r => continuation (Gain.reset.governing (-10)) [0] [0] [s1] (sampleInts ((position 0).corrected r)) = true
    meets 0 0 ∧ (∀ r, ¬meets 8388607 r)
      ∧ (let loud := fun r => continuation (Gain.reset.governing (-10)) [0] [0] [0] (sampleInts ((position 0x7FFFFF).corrected r))
         loud 0 = false ∧ loud Config.muteReduction = true)
      ∧ (bench.prog 0).entry.active.release = ((200 : Nat) : Int) := by
  have h : ∀ r, sampleInts ((position 0).corrected r) = [0] := by
    intro r
    show [(correctedValue 0 r 0).toInt] = [0]
    have : correctedValue 0 r 0 = 0 := by
      unfold correctedValue
      split
      · rfl
      · dsimp only
        rw [show ((0 : Sample).toInt : Rat) = 0 from rfl, zero_mul]
        decide +kernel
    rw [this]
    rfl
  refine ⟨by decide +kernel, fun r => ?_, by decide +kernel, rfl⟩
  dsimp only
  rw [h]
  decide +kernel

/-- After silence a full-scale sample, which neither release nor attack reduces, is given a reduction greater than both. -/
theorem test_meets_LimiterReduction_greater :
    let e := (bench.prog 0).entry
    let w := position 0x7FFFFF
    let least := max (Gain.reset.release e) (Gain.reset.attack e w [])
    continuation (Gain.reset.governing e.active.ceiling) [0] [0] [0] [0] = true
      ∧ continuation (Gain.reset.governing e.active.ceiling) [0] [0] [0] (sampleInts (w.corrected least)) = false
      ∧ least < Gain.reset.chooseReduction e w [] [0] [0] [0] := by decide +kernel

/-! ### Witnesses: cue lines, restart and reception -/

/-- The bench with CL0 as given. -/
def lined (l : CueLine) : State := bench.setLine 0 l

theorem test_meets_CueLineQualification :
    (false = (bench.settle.line 0).raw ∧ (bench.settle.line 0).change = none)
      ∧ (true ≠ (bench.settle.line 0).raw ∧ true ≠ (bench.settle.line 0).accepted ∧ (bench.settle.line 0).reject ≠ .ms0)
      ∧ (let l := (lined ⟨false, .ms8, true, false, some 5⟩).settle.line 0
         false ≠ l.raw ∧ false = l.accepted ∧ l.change.isSome = true)
      ∧ (let l := (lined ⟨false, .ms0, false, false, none⟩).settle.line 0
         true ≠ l.raw ∧ true ≠ l.accepted ∧ l.reject = .ms0)
      ∧ ((lined ⟨false, .ms8, true, false, some 24000⟩).settle.line 0).change = some 24000
      ∧ ((lined ⟨false, .ms8, true, false, some 23999⟩).settle.line 0).change = some 23999 := by decide +kernel

theorem test_meets_AcceptedEdge :
    let s := lined ⟨false, .ms8, true, false, some 24000⟩
    ((s.line 0).raw != (s.line 0).inverted) = true ∧ (s.prog 1).entry.trigger = .cue 0 ∧ (s.prog 1).takeActs = true
      ∧ (let r := lined ⟨true, .ms8, true, false, some 24000⟩
         ((r.line 0).raw != (r.line 0).inverted) = false)
      ∧ (let m := s.setProg 3 (prog 3 .stopped (.cue 0) .reset)
         (m.prog 3).entry.trigger = .cue 0 ∧ (m.prog 3).takeActs = false) := by decide +kernel

/-- The programmes whose tally is CL2 remember its change to inactive, and no other does; one to active leaves the moment. -/
theorem test_meets_AcceptedEdge_tally :
    let P := (bench.prog 0).setEntry { (bench.prog 0).entry with tally := some 2 }
    let fall := (bench.setProg 0 P).setLine 2 ⟨false, .ms8, false, true, some 24000⟩
    let rise := (bench.setProg 0 (withMeas { P.meas with tallyLatch := true } P)).setLine 2 ⟨false, .ms8, true, false, some 24000⟩
    ((fall.line 2).raw != (fall.line 2).inverted) = false ∧ (fall.prog 0).entry.tally = some 2
      ∧ ((fall.acceptEdge 2).prog 0).meas.tallyLatch = true ∧ ((fall.acceptEdge 2).prog 1).meas.tallyLatch = false
      ∧ ((rise.line 2).raw != (rise.line 2).inverted) = true ∧ ((rise.acceptEdge 2).prog 0).meas.tallyLatch = true := by
  decide +kernel

theorem test_meets_CueRequests :
    indexOf 8 = none ∧ flagOf 2 = none ∧ rejectOf 3 = none
      ∧ indexOf 7 = some 7 ∧ flagOf 1 = some true ∧ rejectOf 32 = some .ms32 ∧ rejectOf 0 = some .ms0
      ∧ (bench.judged .a).override = none ∧ (benchB.judged .b).override = some .b
      ∧ ¬((benchB.judged .a).override = none ∨ (benchB.judged .a).override = some .a)
      ∧ RejectLength.ms8 = ((bench.judged .a).line 0).reject ∧ ((bench.judged .a).line 0).change = none
      ∧ (((lined ⟨false, .ms8, true, false, some 5⟩).judged .a).line 0).change.isSome = true
      ∧ (((lined ⟨false, .ms8, true, false, some 5⟩).judged .a).line 0).reject ≠ .ms2 := by decide +kernel

/-- A polarity change is no edge: nothing is triggered, although the level of CL0 becomes active (R175). -/
theorem test_polarity_is_no_edge :
    let s := after (exec (.cueConfig .a 1 [0, 1, 8]) bench)
    (s.line 0).active = true ∧ (s.prog 1).queue = (bench.prog 1).queue ∧ (s.port .b).notices = .clear := by decide +kernel

/-- A polarity change that makes CL2 INACTIVE is remembered by the programme whose tally it is. -/
theorem test_meets_CueRequests_tally :
    let P := (bench.prog 0).setEntry { (bench.prog 0).entry with tally := some 2 }
    let s := (bench.setProg 0 P).setLine 2 ⟨false, .ms8, true, true, none⟩
    let v := s.judged .a
    (v.prog 0).entry.tally = some 2 ∧ true ≠ (v.line 2).inverted ∧ (v.line 2).accepted = true
      ∧ ((after (exec (.cueConfig .a 1 [2, 1, 8]) s)).prog 0).meas.tallyLatch = true
      ∧ ((after (exec (.cueConfig .a 1 [2, 0, 8]) s)).prog 0).meas.tallyLatch = false := by decide +kernel

theorem test_meets_Restart :
    ({ bench with restartArmed := true } : State).settle.restartArmed = true ∧ bench.settle.restartArmed = false
      ∧ (benchB.judged .b).override = some .b ∧ (benchB.judged .a).override ≠ some .a
      ∧ (bench.prog 5).entry.state = .inactive ∧ (bench.prog 2).entry.state = .stopped
      ∧ (bench.prog 0).entry.state = .running ∧ ((bench.prog 3).entry.state = .stopping ∧ (bench.prog 3).queue.onAir = none)
      ∧ (bench.prog 4).entry.state = .draining := by decide +kernel

/-- Two programmes of the bench are on air: with 46 records behind them the log just holds all. -/
theorem test_meets_Restart_posts :
    (logged 46).log.length + (allIndices.filter fun p => ((logged 46).prog p).hasOnAir).length ≤ 48
      ∧ ((logged 46).prog 4).queue.onAir = some (onAir (rec 6 .b)) := by decide +kernel

/-- The bench has P0 and P4 on air, its line in shape and its slots apart. -/
theorem test_meets_Restart_closes :
    bench.lineShaped ∧ bench.slotsDisjoint ∧ bench.statesFit ∧ (bench.prog 0).queue.onAir = some (onAir (rec 1 .a)) := by
  unfold State.lineShaped State.slotsDisjoint State.statesFit Prog.fitsState
  decide +kernel

/-- With P0 alone on air and a full log: one record is given up for its own, and the arming stays. -/
theorem test_restart_full_log :
    let s := { (logged 48).setProg 4 (prog 4 .inactive .off .reset) with restartArmed := true }
    s.restart.log.length = 48 ∧ s.restart.discards = s.discards + 1 ∧ s.restart.restartArmed = true
      ∧ s.restart.log.getLast?.map (fun r => (r.id, r.endCause, r.verdict, r.discardsBefore))
        = some (1, .restart, .interrupted, 1) := by decide +kernel

/-- The bench with the receiver of A as given, and REPLYING or not. -/
def receiving (rx : Receiver) (reply : Option (List Byte)) : State :=
  bench.setPort .a { Port.reset with rx := rx, gap := some 9, reply := reply }

theorem test_meets_Reception :
    (bench.settle.port .a).rx = .idle ∧ ((receiving .awaitLength none).settle.port .a).rx = .awaitLength
      ∧ (1 ≤ (1 : Byte).toNat ∧ (250 : Byte).toNat ≤ 250 ∧ (0 : Byte).toNat = 0 ∧ 251 ≤ (251 : Byte).toNat)
      ∧ ((receiving (.body 2 []) none).settle.port .a).rx = .body 2 [] ∧ (([] : List Byte).length + 1 < 2)
      ∧ ((receiving (.body 2 [7]) none).settle.port .a).rx = .body 2 [7]
      ∧ ((receiving (.crc 2 [7, 0x55] []) none).settle.port .a).rx = .crc 2 [7, 0x55] []
      ∧ ((receiving (.crc 2 [7, 0x55] [0]) (some [])).settle.port .a).reply.isSome = true
      ∧ ([0, 0] : List Byte) ≠ crcBytes [7, 0x55] := by decide +kernel

theorem test_meets_Reception_gap :
    (let s := bench.setPort .a { Port.reset with rx := .awaitLength, gap := some 30001 }
     (s.port .a).gap = some 30001 ∧ ((after (exec (.gapTimeout .a) s)).port .a).rx = .idle)
    ∧ (let s := bench.setPort .a { Port.reset with rx := .awaitLength, gap := some 30000 }
       (s.port .a).gap = some 30000 ∧ ((after (exec (.gapTimeout .a) s)).port .a).rx = .awaitLength)
    ∧ (bench.port .a).gap = none ∧ ((receiving .idle (some [])).port .a).reply.isSome = true := by decide +kernel

theorem test_meets_Reception_request :
    ∃ c b, ((receiving (.crc 2 [7, 0x55] [c]) none).settle.port .a).rx = .crc 2 [7, 0x55] [c]
      ∧ ((receiving (.crc 2 [7, 0x55] [c]) none).settle.port .a).reply = none ∧ [c, b] = crcBytes [7, 0x55]
      ∧ ((7 : Byte), Instr.portKeepalive .a 0x55 []) ∈ requestRows .a 0x55 [] :=
  ⟨(crc16 (covered [7, 0x55])).extractLsb' 8 8, (crc16 (covered [7, 0x55])).setWidth 8, by decide +kernel⟩

/-- A body with no tag and a body with a code that is not in the list, each at its right second CRC byte. -/
theorem test_meets_Reception_unknown :
    ∀ body ∈ [[0x10], [0x08, 0x55]], ∃ c b, ((receiving (.crc 2 body [c]) none).settle.port .a).rx = .crc 2 body [c]
      ∧ ((receiving (.crc 2 body [c]) none).settle.port .a).reply = none ∧ [c, b] = crcBytes body
      ∧ after (exec (.byteReceived .a b) (receiving (.crc 2 body [c]) none))
        = after (exec (.unknownRequest .a body) (receiving (.crc 2 body [c]) none)) := by
  intro body hb
  refine ⟨(crc16 (covered body)).extractLsb' 8 8, (crc16 (covered body)).setWidth 8, ?_⟩
  fin_cases hb <;> decide +kernel

/-! ### Witnesses: requests -/

theorem test_meets_BadRequests :
    recognised 0x08 = false ∧ recognised 0x00 = false ∧ recognised 0x41 = true ∧ ([0] : List Byte) ≠ []
      ∧ readTunables [] = none ∧ readTunables [4, 0] = none ∧ readTunables [0, 0, 0] = none
      ∧ readCueBody [0, 0, 1, 0, 0, 0, 64, 0] = none ∧ readAmendBody [0, 0, 1, 0, 0, 3] = none
      ∧ readTakeBody [0, 1] = none ∧ readEndBody [0, 0] = none
      ∧ 8 ≤ (8 : Byte).toNat ∧ readTunables [0, 0] = some .empty
      ∧ (readCueBody [8, 0, 1, 0, 0, 0, 0, 0]).map (·.prog) = some 8
      ∧ (readAmendBody [8, 0, 1, 0, 0, 0]).map (·.prog) = some 8
      ∧ readTakeBody [8, 0] = some (8, none) ∧ readEndBody [8, 0, 0] = some (8, 0, none) := by decide +kernel

theorem test_meets_EveryRequestIsAnswered :
    ((receiving .idle (some [0xA5])).settle.port .a).reply.isSome = true ∧ (requestRows .a 1 []).length = 34 := by
  decide +kernel

/-- The worked reply of DEV.IDENT for the bench's straps, and a KEEPALIVE. -/
theorem test_devIdent :
    replyOn .a (exec (.devIdent .a 9 []) benchB)
      = some (frameOf [0x81, 9, 0, 0x0C, 0x71, 0x28, 0x16, 0x01, 2, 0]) := by decide +kernel

theorem test_meets_LogRequests :
    ((logged 48).judged .a).log[(47 : Byte).toNat]? = some (result .high)
      ∧ ((logged 48).judged .a).log.length ≤ (48 : Byte).toNat
      ∧ ((logged 1).judged .a).log = result .high :: [] ∧ (bench.judged .a).log = [] := by decide +kernel

/-- A snapshot buffer at this cursor. -/
def copied (cursor : Nat) : State :=
  bench.setPort .a { Port.reset with snapshot := some ⟨snapshotContent 3 false 7 .empty, cursor, 436 - cursor⟩ }

theorem test_meets_ReadingRequests_snapshots :
    (bench.judged .a).prog 5 = bench.prog 5 ∧ ((bench.judged .a).prog 5).hasOnAir = false
      ∧ ((bench.judged .a).prog 0).hasOnAir = true ∧ ((bench.judged .a).prog 0).meas.segAccount = some .fresh
      ∧ 1 < (2 : Byte).toNat ∧ ((bench.judged .a).port .a).snapshot = none
      ∧ (((copied 436).judged .a).port .a).snapshot = some ⟨snapshotContent 3 false 7 .empty, 436, 0⟩
      ∧ (((copied 384).judged .a).port .a).snapshot = some ⟨snapshotContent 3 false 7 .empty, 384, 52⟩
      ∧ (snapshotContent 3 false 7 .empty).length = 436 := by decide +kernel

theorem test_meets_ReplyLayouts :
    Account.empty.bins.length = 140 ∧ 0 < 2 ∧ bytesOfNat 2 0x1234 = [0x12, 0x34] ∧ wordOfInt (-2300) = [0xF7, 0x04]
      ∧ (entryBlock (bench.prog 5)).length = 29
      ∧ meterBlock (bench.prog 5) = [0, 0, 0, 0, 0, 0, 0, 0, 1] := by decide +kernel

/-- A tie goes away from zero; a reduction is reported to the nearest 0.01 dB, and a mute as 99.99 dB. -/
theorem test_meets_ReplyLayouts_rounding :
    [(1 : Rat) / 2, -1 / 2, 1 / 4, -1 / 4, -3 / 2].map roundAway = [1, -1, 0, 0, -2]
      ∧ [2 ^ 31 - 1, 2 ^ 31, 9998 * 2 ^ 32 + 2 ^ 31, Config.muteReduction].map reportedReduction = [0, 1, 9999, 9999] := by
  decide +kernel

/-- The status block of a port with AUDIO pending, and the byte of a line that is active, accepted high, with 8 ms. -/
theorem test_statusBlock :
    let s := bench.raisePlain .audio
    statusBlock { s.port .a with timerSetting := 3, timerCount := some 6000001 } s.audio s.presenceByte
        = [0x04, 0, 0, 0, 0, 0, 0, 0, 0, 0, 0, 0x0F, 0xFF, 0, 0, 0, 0, 0x98, 0x96, 0x80, 7, 3, 3]
      ∧ lineByte { Port.reset with rising := 0b100 } 2 ⟨false, .ms8, true, true, none⟩ = 0x5C := by decide +kernel

/-- 10, reading a snapshot: the fourth read returns the last 52 bytes from the cursor 384. -/
theorem test_snapRead :
    let s := after (exec (.snapRead .a 1 []) (copied 384))
    (s.port .a).snapshot.map (fun v => (v.cursor, v.remaining)) = some (436, 0)
      ∧ (s.port .a).reply.map (fun f => (f.length, f.take 7)) = some (61, [0xA5, 57, 0xB9, 1, 0, 1, 128]) := by decide +kernel

theorem test_meets_NoticesStatusAndMask :
    4096 ≤ ((0x10 : Byte) ++ (0 : Byte)).toNat ∧ ((0x0F : Byte) ++ (0xFF : Byte)).toNat < 4096
      ∧ ((after (exec (.portStatus .a 1 [0x0F, 0xFF]) (bench.raiseAll .overrun 3))).port .a).notices = .clear
      ∧ (bench.raiseAll .overrun 3).ports.ea.attn = true ∧ bench.ports.ea.attn = false
      ∧ ((bench.raisePlain .audio).port .c).notices.audio = ⟨true, 0⟩ := by decide +kernel

/-- WITHDRAWN at one port, beside what stood there. -/
theorem test_meets_NoticesStatusAndMask_withdrawn :
    let t := (bench.raiseAt .b .withdrawn 0b10).raiseAt .b .withdrawn 0b1
    Kind.overrun ≠ .withdrawn ∧ (t.port .b).notices.withdrawn = ⟨true, 0b11⟩ ∧ t.port .a = bench.port .a := by decide +kernel

/-- The bench with the silence timer of B running. -/
def timedPort : State := bench.setPort .b { Port.reset with timerSetting := 2, timerCount := some 0 }

theorem test_meets_SilenceTimerAndLapse :
    (timedPort.settle.port .b).present = true ∧ (timedPort.settle.port .b).timerCount = some 0
      ∧ (bench.settle.port .b).timerCount = none ∧ timedPort.receptive .b
      ∧ (bench.prog 0).entry.custodian = some .a ∧ (∃ r ∈ (bench.prog 0).queue.cued, r.owner = .b) := by
  unfold State.receptive
  decide +kernel

/-- A lapse of A, which holds P0 and owns records of P0 and P6; of C, which only owns one of P1; and of A again, which then holds
and owns nothing. A notice of another kind stays. -/
theorem test_lapse_notices :
    let s := bench.raiseAll .overrun 3
    let a := s.lapse .a
    let c := s.lapse .c
    (s.custodyBitmap .a, s.ownedBitmap .a, s.custodyBitmap .c, s.ownedBitmap .c) = (0b1, 0b01000001, 0, 0b10)
      ∧ (a.port .b).notices.custody = ⟨true, 1⟩ ∧ (a.port .a).notices.withdrawn = ⟨true, 0b01000001⟩
      ∧ (a.port .b).notices.withdrawn = ⟨false, 0⟩ ∧ (c.port .b).notices.custody = ⟨false, 0⟩
      ∧ (c.port .c).notices.withdrawn = ⟨true, 0b10⟩ ∧ (a.port .c).notices.overrun = ⟨true, 0b1000⟩
      ∧ ((a.lapse .a).custodyBitmap .a, (a.lapse .a).ownedBitmap .a) = (0, 0)
      ∧ ((a.lapse .a).port .b).notices = (a.port .b).notices := by decide +kernel

/-- R163: the frame that completes first reloads the count, and no lapse takes place; the expiry first makes one. -/
theorem test_keepalive_before_expiry :
    ((after (exec (.silenceTimerExpiry .b) (after (exec (.portKeepalive .b 1 []) timedPort)))).port .b).present = true
      ∧ ((after (exec (.silenceTimerExpiry .b) timedPort)).port .b).present = false := by decide +kernel

theorem test_portTimer :
    let s := after (exec (.portTimer .a 1 [3]) bench)
    (s.port .a).timerSetting = 3 ∧ (s.port .a).timerCount = some 9000000
      ∧ (after (exec (.portTimer .a 1 [0]) s)).ports.ea.reply = (s.port .a).reply := by decide +kernel

theorem test_meets_ProgSet :
    ¬((3 : Byte).toNat = 1 ∨ (3 : Byte).toNat = 2 ∨ (3 : Byte).toNat = 6) ∧ triggerOf 0x30 = none ∧ tallyOf 0x21 = none
      ∧ ((6 : Byte).toNat = 6 ∧ (10 : Byte).toNat + (6 : Byte).toNat ≤ 16) ∧ triggerOf 0x27 = some (.follow 7)
      ∧ tallyOf 0x15 = some (some 5) ∧ (benchB.judged .b).closesCycle 1 (.follow 6) = true
      ∧ (benchB.judged .b).closesCycle 5 (.follow 6) = false ∧ (benchB.judged .a).governs .a 5 = false
      ∧ (benchB.judged .b).governs .b 5 = true ∧ ((benchB.judged .b).prog 5).entry.state = .inactive
      ∧ ((benchB.judged .b).prog 0).entry.state ≠ .inactive := by decide +kernel

/-- P1 follows P0 and P2 follows P1: FOLLOW(2) at P0 closes a cycle, and at P3 it closes none; the rights of a port. -/
theorem test_meets_ProgSet_rights :
    let s := (bench.updProg 1 fun P => P.configure 2 2 (.follow 0) none).updProg 2 fun P => P.configure 4 2 (.follow 1) none
    s.closesCycle 0 (.follow 2) = true ∧ s.closesCycle 3 (.follow 2) = false ∧ s.closesCycle 0 (.cue 2) = false
      ∧ bench.governs .a 0 = true ∧ bench.governs .b 0 = false ∧ benchB.governs .b 0 = true ∧ bench.mayCue .c 0 = true := by
  decide +kernel

/-- P5 moved onto the slots of P0 overlaps it; as it stands it overlaps none. -/
theorem test_meets_ProgActivate :
    (let s := benchB.setPort .b Port.reset
     let v := (s.updProg 5 fun P => P.configure 1 1 .off none).judged .b
     (v.prog 0).isActive = true ∧ (v.prog 5).entry.overlaps (v.prog 0).entry = true)
    ∧ (∀ q, q ≠ 5 → ¬(((benchB.judged .b).prog q).isActive = true
        ∧ ((benchB.judged .b).prog 5).entry.overlaps ((benchB.judged .b).prog q).entry = true))
    ∧ (benchB.judged .a).governs .a 5 = false ∧ (benchB.judged .b).governs .b 5 = true
    ∧ ((benchB.judged .b).prog 5).entry.state = .inactive ∧ ((benchB.judged .b).prog 2).entry.state ≠ .inactive
    ∧ ((after (exec (.progActivate .b 1 [5]) benchB)).prog 5).entry.state = .running := by decide +kernel

/-- STATE of P5 at every port beside the STATE of P0 that stood there, and no other notice. -/
theorem test_progActivate_notices :
    let t := after (exec (.progActivate .b 1 [5]) (benchB.raiseAll .state 0))
    ∀ x ∈ allPorts, (t.port x).notices = { NoticeSet.clear with state := ⟨true, 0b100001⟩ } := by decide +kernel

/-- A block in progress goes with a deactivation, and with a PROG.RUN from STOPPED; the gains and an old ceiling stay. -/
theorem test_fresh_engine :
    let busy := fun P : Prog => withGain { P.gain with applied := 30, desired := 40, oldCeiling := some ⟨0, 2⟩ }
      (withMeas { P.meas with inSum := 5, outSum := 6, held := true, clock := 9 } P)
    let idle := fun P : Prog => (P.meas.inSum, P.meas.outSum, P.meas.held, P.meas.clock) = (0, 0, false, 0)
      ∧ P.gain.applied = 30 ∧ P.gain.oldCeiling = some ⟨0, 2⟩
    let out := (after (exec (.progDeactivate .b 1 [1, 0]) (benchB.updProg 1 busy))).prog 1
    idle out ∧ out.gain.desired = 40 ∧ idle ((after (exec (.progRun .b 1 [2]) (benchB.updProg 2 busy))).prog 2) := by
  decide +kernel

theorem test_meets_ProgDeactivate :
    (benchB.judged .a).governs .a 5 = false ∧ (benchB.judged .b).governs .b 5 = true
      ∧ ((benchB.judged .b).prog 5).entry.state = .inactive
      ∧ (((benchB.judged .b).prog 1).entry.state ≠ .inactive ∧ ((benchB.judged .b).prog 1).queue.onAir = none)
      ∧ (((benchB.judged .b).prog 4).hasOnAir = true ∧ ((benchB.judged .b).prog 4).entry.state = .draining)
      ∧ (((benchB.judged .b).prog 0).queue.onAir = some (onAir (rec 1 .a))
          ∧ ((benchB.judged .b).prog 0).entry.state ≠ .draining)
      ∧ (after (exec (.progDeactivateForce .b 1 [0, 1]) benchB)).log.map (·.verdict) = [.aborted] := by decide +kernel

/-- A force byte of 2 is BAD_VALUE. -/
theorem test_force_byte :
    1 < (2 : Byte).toNat
      ∧ replyOn .b (exec (.progDeactivate .b 1 [1, 2]) benchB) = some (frameOf [0x93, 1, 4])
      ∧ replyOn .b (exec (.progClaim .b 1 [1, 2]) benchB) = some (frameOf [0x97, 1, 4]) := by decide +kernel

theorem test_meets_ProgStopAndRun :
    (benchB.judged .a).governs .a 1 = false ∧ (benchB.judged .b).governs .b 1 = true
      ∧ (((benchB.judged .b).prog 1).entry.state = .running ∧ ((benchB.judged .b).prog 1).queue.onAir = none)
      ∧ ((benchB.judged .b).prog 0).queue.onAir ≠ none ∧ ((benchB.judged .b).prog 3).entry.state = .stopping
      ∧ ((benchB.judged .b).prog 5).entry.state = .inactive ∧ ((benchB.judged .b).prog 4).entry.state = .draining
      ∧ ((benchB.judged .b).prog 2).entry.state = .stopped := by decide +kernel

/-- A target of -24.00 LUFS is legal; one of -31.01 LUFS, and a ramp of 5 ms, are not. -/
theorem test_meets_ProgTune :
    readTunables [0, 1, 0xF6, 0xA0] = some { TunableSet.empty with target := some (-2400) }
      ∧ ({ TunableSet.empty with target := some (-2400) } : TunableSet).legal = true
      ∧ ({ TunableSet.empty with target := some (-3101) } : TunableSet).legal = false
      ∧ ({ TunableSet.empty with defaultRamp := some 5 } : TunableSet).legal = false
      ∧ (benchB.judged .b).governs .b 1 = true ∧ ((benchB.judged .b).prog 1).queue.onAir = none
      ∧ ((benchB.judged .b).prog 0).hasOnAir = true ∧ (benchB.judged .a).governs .a 1 = false
      ∧ ((after (exec (.progTune .b 1 [0, 0, 1, 0xF6, 0xA0]) benchB)).prog 0).entry.pending.target = some (-2400) := by
  decide +kernel

/-- A ceiling lowered to -2.0 dBTP with nothing on air leaves the old one of -1.0 dBTP for three positions. -/
theorem test_meets_ProgTune_ceiling :
    let s := after (exec (.progTune .b 1 [1, 1, 0, 0xEC]) benchB)
    readTunables [1, 0, 0xEC] = some { TunableSet.empty with ceiling := some (-20) }
      ∧ (s.prog 1).entry.active.ceiling = -20 ∧ (s.prog 1).gain.oldCeiling = some ⟨-10, 3⟩
      ∧ (s.prog 1).entry.active.target = -2300 := by decide +kernel

theorem test_meets_RequestLayouts :
    readCueBody [0, 0, 40, 1, 1, 0, 1, 0xF8, 0x30, 2, 0x41, 0x42]
        = some ⟨0, 40, 1, 1, 0, some 0xF830, none, none, none, none, none, [0x41, 0x42]⟩
      ∧ ((readCueBody [0, 0, 40, 1, 1, 0, 1, 0xF8, 0x30, 0]).bind fun c => c.record .b).map (·.owner) = some .b
      ∧ readTakeBody [7, 1, 0x12, 0x34] = some (7, some 0x1234) ∧ readEndBody [7, 1, 0] = some (7, 1, none)
      ∧ readTunables [1, 0x10, 60, 0xA6] = some { TunableSet.empty with riseRate := some 60, ceiling := some (-90) } := by
  decide +kernel

theorem test_meets_CustodyRightsAndAccount :
    ((bench.judged .a).prog 1).entry.custodian = none ∧ ((bench.judged .a).prog 0).entry.custodian = some .a
      ∧ (((bench.judged .b).prog 0).entry.custodian = some .a ∧ PortId.a ≠ .b) ∧ (bench.judged .b).override ≠ some .b
      ∧ (benchB.judged .b).override = some .b
      ∧ (((benchB.setCustodian 0 (some .b)).judged .b).prog 0).entry.custodian = some .b
      ∧ 8 ≤ (8 : Byte).toNat ∧ ((7 : Index).val = (7 : Byte).toNat) := by decide +kernel

theorem test_meets_CustodyRightsAndAccount_rights :
    8 ≤ (8 : Byte).toNat ∧ (7 : Byte).toNat < 8 ∧ (bench.judged .b).governs .b 0 = false
      ∧ (bench.judged .a).governs .a 0 = true
      ∧ ((after (exec (.progRights .a 1 [0, 5]) bench)).prog 0).entry.rights = 0b101 := by decide +kernel

/-- A cue body: id 40, SPOT, FIXED, declared -20.00 LUFS, label "AB"; the same with class 4; one of id 2, which P0 has. -/
def cueBytes (p id cls : Byte) : List Byte := [p, 0, id, cls, 1, 0, 1, 0xF8, 0x30, 2, 0x41, 0x42]

theorem test_meets_SegCue :
    (readCueBody (cueBytes 0 40 1)).isSome = true
      ∧ ((readCueBody (cueBytes 0 40 4)).bind fun c => c.record .a) = none
      ∧ ((readCueBody (cueBytes 0 40 1)).bind fun c => c.record .a).map (fun r => (r.legal, r.declared))
          = some (true, some (-2000))
      ∧ ((readCueBody (cueBytes 0 40 0)).bind fun c => c.record .a).map (·.legal) = some false
      ∧ (∃ o ∈ ((bench.judged .a).prog 0).queue.records, o.id = 2)
      ∧ (bench.judged .a).mayCue .a 0 = true ∧ ((bench.judged .a).prog 5).entry.state = .inactive
      ∧ ((bench.judged .a).prog 0).queue.count < 6
      ∧ ((after (exec (.segCue .a 1 (cueBytes 0 40 1)) bench)).prog 0).queue.count = 4 := by decide +kernel

theorem test_meets_SegCue_queue :
    (bench.prog 0).queue.records.map (·.id) = [1, 2, 3] ∧ (bench.prog 1).queue.records.map (·.id) = [5] := by decide +kernel

/-- A full queue, and a programme that A may not cue. -/
theorem test_meets_SegCue_limits :
    (prog 2 .stopped .off ⟨none, [rec 1 .a, rec 2 .a, rec 3 .a, rec 4 .a, rec 5 .a, rec 6 .a]⟩).queue.count = 6
      ∧ ((bench.updProg 0 fun P => P.setEntry { P.entry with rights := 0b110 }).judged .a).mayCue .a 0 = false := by
  decide +kernel

/-- An amend body that gives this record the policy BYPASS and clears its declared loudness. -/
def amendBytes (id policy : Byte) : List Byte := [0, 0, id, 0, 0, 0x84, policy]

theorem test_meets_SegAmend :
    ((readAmendBody (amendBytes 3 2)).map fun a => (a.id, a.policy, a.declared, a.valuesLegal))
        = some (3, .put 2, .clear, true)
      ∧ ((readAmendBody (amendBytes 3 3)).map (·.valuesLegal)) = some false
      ∧ ((bench.judged .a).prog 0).queue.records.find? (fun o => o.id == 3) = some (rec 3 .a)
      ∧ ((bench.judged .a).prog 0).queue.records.find? (fun o => o.id == 1) = some (rec 1 .a)
      ∧ (∀ r ∈ ((bench.judged .a).prog 0).queue.records, r.id ≠ 9)
      ∧ ((readAmendBody (amendBytes 3 2)).map fun a => (a.amended (rec 3 .a)).legal) = some true
      ∧ ((readAmendBody (amendBytes 3 1)).map fun a => (a.amended (rec 3 .a)).legal) = some false
      ∧ ((after (exec (.segAmend .a 1 (amendBytes 3 2)) bench)).prog 0).queue.cued
          = [rec 2 .b, { rec 3 .a with policy := .bypass }] := by decide +kernel

/-- A body that Sets the class to SPOT, the auto-advance to SET and the label, Clears the duration and Keeps the rest. -/
theorem test_meets_AmendLayout :
    let body := readAmendBody [0, 0, 3, 0x04, 0x20, 0x11, 1, 1, 2, 0x41, 0x42]
    body.map (fun a => (a.cls, a.policy, a.autoAdvance)) = some (.put (classCode .spot), .keep, .put 1)
      ∧ body.map (fun a => (a.duration, a.label, a.valuesLegal)) = some (.clear, .put [0x41, 0x42], true)
      ∧ readAmendBody [0, 0, 3, 0, 0, 0x02] = none
      ∧ (((readAmendBody (amendBytes 3 2)).map fun a => a.amended { rec 3 .a with declared := some (-2000) })
          = some { rec 3 .a with policy := .bypass }) := by decide +kernel

theorem test_meets_SegWithdraw :
    ((0 : Byte) ++ (0 : Byte)).toNat = 0 ∧ 1 ≤ ((0 : Byte) ++ (2 : Byte)).toNat
      ∧ ((bench.judged .a).prog 0).queue.records.find? (fun o => o.id == 2) = some (rec 2 .b) ∧ (rec 2 .b).owner ≠ .a
      ∧ (bench.judged .a).override ≠ some .a ∧ (benchB.judged .b).override = some .b ∧ (rec 3 .a).owner ≠ .b
      ∧ ((after (exec (.segWithdraw .b 1 [0, 0, 3]) benchB)).port .a).notices.withdrawn = ⟨true, 1⟩ := by decide +kernel

theorem test_meets_SegTake :
    readTakeBody [0, 0] = some (indexByte 0, none) ∧ readTakeBody [0, 1, 0, 2] = some (indexByte 0, some 2)
      ∧ ((bench.judged .a).prog 2).entry.state ≠ .running ∧ ((bench.judged .a).prog 7).queue.cued = []
      ∧ ((bench.judged .a).prog 7).entry.state = .running
      ∧ ((bench.judged .a).prog 0).queue.cued = rec 2 .b :: [rec 3 .a] ∧ (2 : BitVec 16).toNat = (rec 2 .b).id
      ∧ (3 : BitVec 16).toNat ≠ (rec 2 .b).id := by decide +kernel

theorem test_meets_SegEnd :
    readEndBody [0, 1, 1, 0, 1] = some (indexByte 0, 1, some 1) ∧ 1 < (2 : Byte).toNat
      ∧ ((bench.judged .a).prog 1).queue.onAir = none ∧ ((bench.judged .a).prog 0).queue.onAir = some (onAir (rec 1 .a))
      ∧ (1 : BitVec 16).toNat = (onAir (rec 1 .a)).record.id
      ∧ (after (exec (.segEnd .a 1 [0, 1, 0]) bench)).log.map (·.verdict) = [.aborted]
      ∧ (after (exec (.segEnd .a 1 [0, 0, 0]) bench)).log.map (·.verdict) = [.silent] := by decide +kernel

/-! ### Witnesses: what every step keeps, away from reset -/

theorem bench_steps : ∃ t, step bench = .next t := ⟨_, rfl⟩

theorem test_meets_StepKeeps_audio : bench.lineShaped ∧ bench.detectorFits := by
  unfold State.lineShaped State.detectorFits
  decide +kernel

theorem test_meets_StepKeeps_slots : bench.slotsWithin ∧ bench.slotsDisjoint := by
  unfold State.slotsWithin State.slotsDisjoint
  decide +kernel

theorem test_meets_StepKeeps_queues : bench.queuesSound := by
  unfold State.queuesSound Queue.sound
  decide +kernel

theorem test_meets_StepKeeps_states : bench.statesFit := by
  unfold State.statesFit Prog.fitsState
  decide +kernel

theorem test_meets_StepKeeps_absent : (bench.lapse .b).absentHoldNothing := by
  intro x
  cases x <;> decide +kernel

theorem test_meets_StepKeeps_engines : bench.enginesBounded := by
  unfold State.enginesBounded Prog.bounded Measure.bounded Account.bounded
  decide +kernel

theorem test_meets_StepKeeps_gains : bench.gainsSound := by
  unfold State.gainsSound Prog.gainSound Ramp.sound gainInRange Tunables.legal Queue.sound
  decide +kernel

theorem test_meets_StepKeeps_log : (logged 48).logBounded := by
  unfold State.logBounded
  decide +kernel

theorem test_meets_StepKeeps_ports : (copied 384).portsSound := by
  refine ⟨fun x => ⟨fun k => ?_, ?_, ?_⟩, ?_⟩
  · cases x <;> cases k <;> decide +kernel
  · unfold Snapshot.sound
    cases x <;> decide +kernel
  · unfold Port.timerSound
    cases x <;> decide +kernel
  · unfold Account.bounded
    decide +kernel

end Sys2Proof.Tests
end

section
/-! The audio path (01_the_audio_path.md): what every step keeps of the Audio Port (R5, R6, R12). A step touches the Audio
Port in few ways; `AudioKept` lists them, and a property that each keeps is kept by every step. -/

namespace Sys2Proof.Machine

/-! ### What takes, ends and activations leave of the Audio Port -/

/-- Every stage holds 16 raw and 16 corrected samples (R12). -/
def wellStaged (line : List Stage) : Prop := ∀ st ∈ line, st.raw.length = 16 ∧ st.cor.length = 16

/-- Of the Audio Port at most the delay line has changed, and it has kept its shape (R12). -/
structure State.Relined (s t : State) : Prop where
  audio : t.audio = { s.audio with line := t.audio.line }
  length : t.audio.line.length = s.audio.line.length
  staged : wellStaged s.audio.line → wellStaged t.audio.line

/-- A programme's boundary work keeps the shape of the line (R43, R129). -/
theorem State.Relined.of_boundary {s t : State} (p : Index) (ha : s.SameAudio t)
    (hl : t.audio.line = (boundaryWork s.audio.line (s.prog p)).1) : s.Relined t := by
  obtain ⟨length, _, staged, _⟩ := boundaryWork_facts s.audio.line (s.prog p)
  exact ⟨ha.audio, hl ▸ length, hl ▸ staged⟩

theorem State.takeStages_relined (s : State) (p : Index) (cause : TakeCause) : s.Relined (s.takeStages p cause) :=
  .of_boundary p (s.takeStages_audio p cause) (s.takeStages_line p cause)

theorem State.endCore_line (s : State) (p : Index) (cause : EndCause) :
    (s.endCore p cause).audio.line = (boundaryWork s.audio.line (s.prog p)).1 :=
  congrArg AudioPort.line (State.closeSegment_facts (s.boundary p) p cause).2.1

theorem State.endCore_relined (s : State) (p : Index) (cause : EndCause) : s.Relined (s.endCore p cause) :=
  .of_boundary p (s.endCore_audio p cause) (s.endCore_line p cause)

theorem State.endSegment_relined (s : State) (p : Index) (cause : EndCause) : s.Relined (s.endSegment p cause) := by
  have core := s.endCore_relined p cause
  unfold State.endSegment
  simp only
  split
  · exact ⟨core.audio, core.length, core.staged⟩
  · exact ⟨core.audio, core.length, core.staged⟩

theorem foldl_raiseAt_audio {α : Type} (l : List α) (x : α → PortId) (k : Kind) (b : α → BitVec 8) :
    ∀ s : State, (l.foldl (fun t r => t.raiseAt (x r) k (b r)) s).audio = s.audio := by
  induction l with
  | nil => exact fun _ => rfl
  | cons a l ih => exact fun s => ih _

theorem State.withdrawAll_audio (s : State) (p : Index) : (s.withdrawAll p).audio = s.audio := by
  unfold State.withdrawAll
  simp only [State.updProg_audio, foldl_raiseAt_audio]

theorem State.deactivate_audio (s : State) (p : Index) : (s.deactivate p).audio = s.audio := rfl

theorem State.deactivation_relined (s : State) (p : Index) (force : Bool) : s.Relined (s.deactivation p force) := by
  have same : ∀ {t : State}, t.audio = s.audio → s.Relined t := fun h => ⟨by rw [h], by rw [h], by rw [h]; exact id⟩
  unfold State.deactivation State.startDrain
  split
  · split
    · have core := s.endCore_relined p .forced
      have ha : (((s.endCore p .forced).withdrawAll p).deactivate p).audio = (s.endCore p .forced).audio := by
        rw [State.deactivate_audio, State.withdrawAll_audio]
      exact ⟨by rw [ha]; exact core.audio, by rw [ha]; exact core.length, by rw [ha]; exact core.staged⟩
    · split
      · exact same rfl
      · exact same (s.withdrawAll_audio p)
  · exact same (s.withdrawAll_audio p)

theorem State.activate_relined (s : State) (p : Index) : s.Relined (s.activate p) := by
  obtain ⟨_, _, length, _, staged⟩ := fixAll_facts { (s.prog p).entry with state := .running, escalation := 0 }
    s.audio.line { (s.prog p).gain.activated with
      window := s.audio.line.map fun st =>
        ⟨channels { (s.prog p).entry with state := .running, escalation := 0 } st.raw, 0⟩
      reduction := 0
      passed := [] }
  exact ⟨rfl, length, staged⟩

/-- A frame handed to a programme keeps the shape of the line (R112). -/
theorem State.handOver_relined (raw : List Sample) (s : State) (p : Index) : s.Relined (State.handOver raw s p) := by
  unfold State.handOver
  split
  · refine ⟨rfl, ?_, ?_⟩ <;> simp only [Prog.handFrame, State.setProg_audio, State.setDelayLine_audio] <;> split
    · exact fixOldest_length _ _ _
    · rfl
    · exact fixOldest_shape _ _ _
    · exact id
  · exact ⟨rfl, rfl, id⟩

/-! ### The other pieces leave the Audio Port alone -/

theorem State.closeBlock_audio (s : State) (p : Index) : (s.closeBlock p).audio = s.audio := by
  unfold State.closeBlock
  simp only
  split <;> rfl

theorem State.lapse_audio (s : State) (x : PortId) : (s.lapse x).audio = s.audio := by
  unfold State.lapse
  simp only
  split <;> split <;> rfl

theorem State.run_audio (s : State) (p : Index) : (s.run p).audio = s.audio := by
  unfold State.run
  split <;> rfl

theorem State.withdraw_audio (s : State) (x : PortId) (p : Index) (r : SegRecord) : (s.withdraw x p r).audio = s.audio := by
  unfold State.withdraw
  simp only
  split <;> rfl

theorem State.restart_audio (s : State) : s.restart.audio = s.audio.restarted := by
  have closes : ∀ (l : List Index) (t : State), t.SameAudio (l.foldl State.restartClose t) := fun l t =>
    foldl_keeps (M := t.SameAudio) _ (fun u p h => h.trans
      ((u.boundary_audio p).trans (.of_eq (State.closeSegment_facts _ p _).2.1))) l t (.refl t)
  have h := closes (arrange s.freeCount (allIndices.filter fun p => (s.prog p).hasOnAir)) s.useFree
  exact congrArg (fun n => { AudioPort.reset with airClock := n }) h.position

/-! ### A property of the Audio Port -/

/-- A property of the Audio Port that each of the ways a step can touch it keeps. -/
structure AudioKept (good : AudioPort → Prop) : Prop where
  reset : ∀ n, good { AudioPort.reset with airClock := n }
  watch : ∀ a w, good a → good { a with watch := w }
  relined : ∀ a (line : List Stage), line.length = a.line.length → (wellStaged a.line → wellStaged line) → good a →
      good { a with line := line }
  lock : ∀ a (out : List Sample), a.detector = .recovering → out.length = 16 → good a →
      good { a with detector := .locked, sdout := out }
  output : ∀ a (out : List Sample), a.detector = .locked → out.length = 16 → good a → good { a with sdout := out }
  startRecovery : ∀ a, good a → good a.startRecovery
  recover : ∀ a, a.detector = .recovering → a.goodFrames < Config.goodFramesToLock → good a → good a.recover
  beginFrame : ∀ a, a.detector = .locked → good a → good a.beginFrame
  lose : ∀ a, good a → good a.lose
  complete : ∀ a, a.phase = .receiving → good a → good { a with phase := .complete }
  enterFrame : ∀ a raw, a.phase = .receiving → raw.length = 16 → good a → good (a.enterFrame raw)

section

variable {good : AudioPort → Prop} (K : AudioKept good)
include K

theorem AudioKept.of_relined {s t : State} (r : s.Relined t) (h : good s.audio) : good t.audio := by
  rw [r.audio]
  exact K.relined _ _ r.length r.staged h

omit K in
theorem good_of_audio {s t : State} (e : t.audio = s.audio) (h : good s.audio) : good t.audio := e ▸ h

theorem AudioKept.frameSync (s : State) (hc : s.Calm) (h : good s.audio) : good s.takeFrameSync.audio := by
  have hw : good s.audio.startWatch := K.watch s.audio (some 0) h
  unfold State.takeFrameSync
  cases hd : s.audio.detector with
  | lost => exact K.startRecovery _ hw
  | recovering =>
    have few : s.audio.goodFrames < Config.goodFramesToLock := by
      have := hc.lock
      simpa [State.lockDue, hd] using this
    exact K.recover _ hd few hw
  | locked =>
    simp only
    split
    · exact K.beginFrame _ hd (K.output _ _ hd (by simp) hw)
    · exact K.beginFrame _ hd hw

theorem AudioKept.missSync (s : State) (h : good s.audio) : good s.missSync.audio := by
  unfold State.missSync
  split
  · cases hd : s.audio.detector with
    | locked => exact K.beginFrame _ hd (K.output _ _ hd (by simp) h)
    | recovering => exact K.lose _ h
    | lost => exact h
  · exact h

theorem AudioKept.expireWatch (s : State) (h : good s.audio) : good s.expireWatch.audio := by
  have hw : good s.audio.stopWatch := K.watch s.audio none h
  unfold State.expireWatch
  split
  · cases s.audio.detector with
    | locked => exact K.lose _ hw
    | recovering => exact K.lose _ hw
    | lost => exact hw
  · exact h

/-- The frame is handed to the programmes, which keep the shape of the line, and then enters it (R11, R12). -/
theorem AudioKept.processFrame (s : State) (raw : List Sample) (hp : s.audio.phase = .receiving) (hr : raw.length = 16)
    (h : good s.audio) : good (s.processFrame raw).audio := by
  obtain ⟨phase, hg⟩ : (allIndices.foldl (State.handOver raw) s).audio.phase = .receiving
      ∧ good (allIndices.foldl (State.handOver raw) s).audio := by
    refine foldl_keeps (M := fun t => t.audio.phase = .receiving ∧ good t.audio) _ (fun t p ⟨hp, hg⟩ => ?_) allIndices s
      ⟨hp, h⟩
    have r := State.handOver_relined raw t p
    exact ⟨by rw [r.audio]; exact hp, K.of_relined r hg⟩
  exact K.enterFrame _ raw phase hr hg

theorem AudioKept.frame (s : State) (slots : List (BitVec 32)) (h : good s.audio) : good (s.completeFrame slots).audio := by
  unfold State.completeFrame
  split
  · rename_i hp
    cases s.audio.detector with
    | locked => exact K.processFrame s _ hp (by simp [frameSamples]) h
    | recovering => exact K.complete _ hp h
    | lost => exact h
  · exact h

/-- A property of the Audio Port that is kept in each of those ways is kept by every step. -/
theorem AudioKept.kept : Kept fun s => good s.audio where
  free := fun _ h => h
  raise := fun _ _ _ h => h
  stages := fun s p cause _ => K.of_relined (s.takeStages_relined p cause)
  overrun := fun _ _ h => h
  finish := fun s p cause _ => K.of_relined (s.endSegment_relined p cause)
  lock := fun s hd h => K.lock s.audio _ (by simpa using (Bool.and_eq_true _ _ |>.mp hd).1) (by simp) h
  close := fun s p _ => good_of_audio (s.closeBlock_audio p)
  ramp := fun _ _ _ h => h
  powerOn := fun _ _ _ => K.reset 0
  queue := fun _ _ h => h
  armed := fun _ _ h => h
  restart := fun s _ => by
    rw [s.restart_audio]
    exact K.reset _
  tick := fun s h => K.watch s.audio _ h
  frameSync := K.frameSync
  missSync := K.missSync
  expireWatch := K.expireWatch
  frame := fun s slots _ => K.frame s slots
  line := fun _ _ _ h => h
  edges := fun _ _ _ h => h
  tally := fun _ _ _ h => h
  quiet := fun _ _ _ _ h => h
  arrived := fun _ _ h => h
  clear := fun _ _ _ h => h
  timer := fun _ _ _ _ _ h => h
  lapse := fun s x => good_of_audio (s.lapse_audio x)
  copy := fun _ _ _ _ h => h
  read := fun _ _ _ _ h => h
  fetch := fun _ h => h
  configure := fun _ _ _ _ _ _ _ _ _ h => h
  activate := fun s p _ _ => K.of_relined (s.activate_relined p)
  deactivation := fun s p force _ => K.of_relined (s.deactivation_relined p force)
  run := fun s p _ => good_of_audio (s.run_audio p)
  stop := fun _ _ _ _ h => h
  tune := fun _ _ _ _ h => h
  claim := fun _ _ _ _ h => h
  release := fun _ _ h => h
  rights := fun _ _ _ h => h
  clearAccount := fun _ _ h => h
  cue := fun _ _ _ _ _ _ _ _ h => h
  amend := fun _ _ _ _ _ _ h => h
  withdraw := fun s x p r _ _ => good_of_audio (s.withdraw_audio x p r)

end

/-! ### The three laws -/

/-- R12, as a property of the Audio Port. -/
def AudioPort.lineShaped (a : AudioPort) : Prop := a.line.length = Config.delayFrames ∧ wellStaged a.line

/-- R5, R6, as a property of the Audio Port. -/
def AudioPort.detectorFits (a : AudioPort) : Prop :=
  (a.detector = .lost ↔ a.phase = .absent) ∧ a.goodFrames ≤ Config.goodFramesToLock ∧ a.sdout.length = 16

/-- R5, R6, as a property of the Audio Port. -/
def AudioPort.silentUnlessLocked (a : AudioPort) : Prop := a.detector ≠ .locked → a.sdout = silentOutput

theorem State.lineShaped_iff (s : State) : s.lineShaped ↔ s.audio.lineShaped := Iff.rfl
theorem State.detectorFits_iff (s : State) : s.detectorFits ↔ s.audio.detectorFits := Iff.rfl
theorem State.silentUnlessLocked_iff (s : State) : s.silentUnlessLocked ↔ s.audio.silentUnlessLocked := Iff.rfl

theorem silentOutput_length : silentOutput.length = 16 := List.length_replicate

theorem wellStaged_reset (n : Nat) : wellStaged (List.replicate n Stage.zero) := by
  intro st h
  rw [List.eq_of_mem_replicate h]
  exact ⟨List.length_replicate, List.length_replicate⟩

/-- The stage of a frame is added and the oldest leaves, so 80 stages stay. -/
theorem AudioPort.enterFrame_lineShaped (a : AudioPort) (raw : List Sample) (hr : raw.length = 16) (h : a.lineShaped) :
    (a.enterFrame raw).lineShaped := by
  obtain ⟨length, staged⟩ := h
  constructor
  · simp only [AudioPort.enterFrame, List.length_append, List.length_drop, length, List.length_singleton]
    rfl
  · intro st hst
    rcases List.mem_append.mp hst with old | new
    · exact staged st (List.mem_of_mem_drop old)
    · rw [List.mem_singleton.mp new]
      exact ⟨hr, silentOutput_length⟩

theorem lineShaped_kept : AudioKept AudioPort.lineShaped where
  reset := fun _ => ⟨List.length_replicate, wellStaged_reset _⟩
  watch := fun _ _ h => h
  relined := fun _ _ length staged h => ⟨length.trans h.1, staged h.2⟩
  lock := fun _ _ _ _ h => h
  output := fun _ _ _ _ h => h
  startRecovery := fun _ h => h
  recover := fun _ _ _ h => h
  beginFrame := fun _ _ h => h
  lose := fun _ h => h
  complete := fun _ _ h => h
  enterFrame := fun a raw _ => a.enterFrame_lineShaped raw

/-- A port that is not LOST has a frame in progress, and every way to enter LOST drops it. -/
theorem detectorFits_kept : AudioKept AudioPort.detectorFits where
  reset := fun _ => ⟨⟨fun _ => rfl, fun _ => rfl⟩, Nat.zero_le _, silentOutput_length⟩
  watch := fun _ _ h => h
  relined := fun _ _ _ _ h => h
  lock := fun a out hd ho ⟨fits, frames, _⟩ => ⟨by simpa [hd] using fits, frames, ho⟩
  output := fun _ _ _ ho ⟨fits, frames, _⟩ => ⟨fits, frames, ho⟩
  startRecovery := fun _ _ => ⟨by simp [AudioPort.startRecovery], Nat.zero_le _, silentOutput_length⟩
  recover := fun a hd few ⟨_, _, out⟩ => by
    refine ⟨by simp [AudioPort.recover, hd], ?_, out⟩
    simp only [AudioPort.recover]
    split <;> omega
  beginFrame := fun a hd ⟨_, frames, out⟩ => ⟨by simp [AudioPort.beginFrame, hd], frames, out⟩
  lose := fun _ ⟨_, frames, _⟩ => ⟨by simp [AudioPort.lose], frames, silentOutput_length⟩
  complete := fun _ hp ⟨fits, frames, out⟩ => ⟨by simpa [hp] using fits, frames, out⟩
  enterFrame := fun a _ hp _ ⟨fits, frames, out⟩ => ⟨by simpa [AudioPort.enterFrame, hp] using fits, frames, out⟩

/-- SDOUT is given other samples in LOCKED alone, and every way out of LOCKED silences it. -/
theorem silentUnlessLocked_kept : AudioKept AudioPort.silentUnlessLocked where
  reset := fun _ _ => rfl
  watch := fun _ _ h => h
  relined := fun _ _ _ _ h => h
  lock := fun _ _ _ _ _ unlocked => absurd rfl unlocked
  output := fun _ _ hd _ _ unlocked => absurd hd unlocked
  startRecovery := fun _ _ _ => rfl
  recover := fun _ _ _ h => h
  beginFrame := fun _ _ h => h
  lose := fun _ _ _ => rfl
  complete := fun _ _ h => h
  enterFrame := fun _ _ _ _ h => h

/-- Settles O50: of each law it is enough that each way in which a step touches the Audio Port keeps it. -/
theorem stepKeepsTheAudioPort : Obligations.StepKeepsTheAudioPort := by
  refine ⟨fun s t line fits ht => ⟨?_, ?_⟩, fun s t silent ht => ?_⟩
  · exact t.lineShaped_iff.mpr (lineShaped_kept.kept.step s t (s.lineShaped_iff.mp line) ht)
  · exact t.detectorFits_iff.mpr (detectorFits_kept.kept.step s t (s.detectorFits_iff.mp fits) ht)
  · exact t.silentUnlessLocked_iff.mpr (silentUnlessLocked_kept.kept.step s t (s.silentUnlessLocked_iff.mp silent) ht)

end Sys2Proof.Machine
end

section
/-! The detector and the reset values: POWER_ON_RESET, FRAME_SYNC, and the detector's other events (R2 to R6, R13, R15). -/

namespace Sys2Proof.Machine

/-! ### Power-on and reset -/

theorem State.powerOn_prog (s : State) (straps : Straps) (levels : BitVec 8) (p : Index) :
    (s.powerOn straps levels).prog p = Prog.reset p.val := by
  unfold State.powerOn State.prog
  fin_cases p <;> rfl

theorem State.powerOn_port (s : State) (straps : Straps) (levels : BitVec 8) (x : PortId) :
    (s.powerOn straps levels).port x = Port.reset := by
  cases x <;> rfl

theorem linesOf_get (levels : BitVec 8) (k : Index) : (linesOf levels).get k = CueLine.reset (levels.getLsbD k.val) := by
  fin_cases k <;> rfl

theorem overrideOf_eq (t : Straps) : overrideOf t
    = if t.ovr1 then (if t.ovr0 then some .c else some .b) else if t.ovr0 then some .a else none := by
  unfold overrideOf
  cases t.ovr1 <;> cases t.ovr0 <;> rfl

theorem baudOf_eq (t : Straps) : baudOf t
    = if t.baud1 then (if t.baud0 then .b230400 else .b115200) else if t.baud0 then .b57600 else .b38400 := by
  unfold baudOf
  cases t.baud1 <;> cases t.baud0 <;> rfl

/-- R186, R187: with every notice CLEAR the port asserts no ATTN. -/
theorem Port.attn_clear {P : Port} (h : P.notices = .clear) : P.attn = false := by
  simp [Port.attn, h, Notice.clear]

/-- Settles O3, block by block. -/
theorem powerOnReset : Obligations.PowerOnReset := by
  intro straps levels s
  refine ⟨s.powerOn straps levels, rfl, overrideOf_eq straps, baudOf_eq straps, linesOf_get levels, fun p => ?_, rfl, rfl,
    rfl, fun x => ?_, rfl, rfl⟩
  · rw [State.powerOn_prog]
    exact ⟨rfl, rfl, rfl, rfl, rfl⟩
  · rw [State.powerOn_port]
    exact ⟨rfl, rfl, rfl, rfl, rfl, rfl, NoticeSet.get_clear, rfl, Port.attn_clear rfl, rfl, rfl, rfl⟩

theorem State.reset_prog (p : Index) : State.reset.prog p = Prog.reset p.val := by
  fin_cases p <;> rfl

theorem State.reset_port (x : PortId) : State.reset.port x = Port.reset := by
  cases x <;> rfl

theorem Account.empty_bounded : Account.empty.bounded := by
  refine ⟨List.length_replicate, fun b hb => ?_⟩
  rw [List.eq_of_mem_replicate hb]
  exact Nat.zero_le _

theorem Queue.reset_sound : Queue.reset.sound :=
  ⟨Nat.zero_le _, List.nodup_nil, fun _ h => absurd h List.not_mem_nil⟩

/-- R39: programme p has slots 2p and 2p + 1. -/
theorem Entry.reset_slots (p : Index) : slotsLegal (Entry.reset p.val).base (Entry.reset p.val).width = true := by
  revert p
  decide

theorem Prog.reset_fitsState (p : Nat) : (Prog.reset p).fitsState := by
  refine ⟨fun _ => rfl, fun _ => rfl, fun draining => ?_, fun _ => ⟨rfl, rfl, rfl⟩, fun onAir => ?_⟩
  · cases draining
  · cases onAir

theorem Prog.reset_bounded (p : Nat) : (Prog.reset p).bounded :=
  ⟨⟨Nat.zero_le _, Nat.zero_le _, rfl, Nat.zero_le _, Account.empty_bounded, fun _ h => absurd h (Option.not_mem_none _)⟩,
    Nat.zero_le _, Nat.zero_le _⟩

/-- R22, R111: the gains stand at 0.00 dB and the tunables at their power-on values. -/
theorem Prog.reset_gainSound (p : Nat) : (Prog.reset p).gainSound := by
  have zero : gainInRange 0 := by unfold gainInRange; norm_num
  refine ⟨zero, zero, fun _ h => absurd h (Option.not_mem_none _), ?_, rfl⟩
  show Tunables.reset.legal
  unfold Tunables.legal
  decide

theorem Port.reset_sound : Port.reset.sound :=
  ⟨fun k _ => by rw [show Port.reset.notices = .clear from rfl, NoticeSet.get_clear]; rfl,
    fun _ h => absurd h (Option.not_mem_none _), Nat.zero_le _, fun _ => rfl, fun _ h => absurd h (Option.not_mem_none _)⟩

/-- Settles O60: each property, of the reset values of its block. -/
theorem resetIsSound : Obligations.ResetIsSound := by
  refine ⟨rfl, lineShaped_kept.reset 0, detectorFits_kept.reset 0, silentUnlessLocked_kept.reset 0, ?_, ?_, ?_, ?_, ?_, ?_,
    ?_, ?_, ?_, ?_⟩
  case refine_1 => exact ⟨fun _ => 0, fun q i h => by rw [State.reset_prog] at h; nomatch h⟩
  case refine_2 => exact fun p => by rw [State.reset_prog]; exact Entry.reset_slots p
  case refine_3 => exact fun p q _ h => by rw [State.reset_prog] at h; nomatch h
  case refine_4 => exact fun p => by rw [State.reset_prog]; exact Queue.reset_sound
  case refine_5 => exact fun p => by rw [State.reset_prog]; exact Prog.reset_fitsState p
  case refine_6 => exact fun x h => by rw [State.reset_port] at h; nomatch h
  case refine_7 => exact fun p => by rw [State.reset_prog]; exact Prog.reset_bounded p
  case refine_8 => exact fun p => by rw [State.reset_prog]; exact ⟨Prog.reset_gainSound p, Queue.reset_sound⟩
  case refine_9 => exact ⟨Nat.zero_le _, Nat.zero_le _, fun _ h => absurd h List.not_mem_nil⟩
  case refine_10 =>
    refine ⟨fun x => by rw [State.reset_port]; exact Port.reset_sound, fun p => ?_⟩
    rw [State.reset_prog]
    exact ⟨Account.empty_bounded, fun _ h => absurd h (Option.not_mem_none _)⟩

/-! ### Output frames and frame syncs -/

theorem Entry.covers_iff (e : Entry) (i : Nat) : e.covers i = true ↔ e.base ≤ i ∧ i < e.base + e.width := by
  simp [Entry.covers]

/-- R13: a programme is active in every state but INACTIVE. -/
theorem Prog.isActive_iff (P : Prog) : P.isActive = true ↔ P.entry.state ≠ .inactive := by
  simp [Prog.isActive]

/-- R13: slot `i` is a slot of an active programme. -/
def State.correctedSlot (s : State) (i : Nat) : Prop :=
  ∃ p, (s.prog p).isActive = true ∧ (s.prog p).entry.base ≤ i ∧ i < (s.prog p).entry.base + (s.prog p).entry.width

theorem State.correctedSlot_iff_any (s : State) (i : Nat) : s.correctedSlot i
    ↔ (allIndices.any fun p => (s.prog p).isActive && (s.prog p).entry.covers i) = true := by
  simp only [State.correctedSlot, List.any_eq_true, Bool.and_eq_true, Entry.covers_iff, mem_allIndices, true_and]

theorem State.outputSample_corrected {s : State} {i : Nat} (st : Stage) (h : s.correctedSlot i) :
    s.outputSample st i = st.cor.getD i 0 := if_pos ((s.correctedSlot_iff_any i).mp h)

theorem State.outputSample_raw {s : State} {i : Nat} (st : Stage) (h : ¬s.correctedSlot i) :
    s.outputSample st i = st.raw.getD i 0 := if_neg fun ha => h ((s.correctedSlot_iff_any i).mpr ha)

/-- The output frame carries the output samples of the oldest stage, slot by slot (R12, R13). -/
theorem State.formOutput_slot (s : State) {i : Nat} (h : i < 16) :
    s.formOutput.audio.sdout[i]? = some (s.outputSample (s.audio.line.headD Stage.zero) i) := by
  show ((List.range 16).map fun i => s.outputSample (s.audio.line.headD Stage.zero) i)[i]? = _
  rw [List.getElem?_map, List.getElem?_range h, Option.map_some]

/-- Settles O5: FRAME_SYNC by the detector's state, and an output frame slot by slot. -/
theorem frameSync : Obligations.FrameSync := by
  refine ⟨fun s => ?_, rfl, Prog.isActive_iff, fun s st i => ?_, fun s i hi => ?_⟩
  · show ∃ a, Host.Outcome.next s.settle.takeFrameSync = _ ∧ _
    generalize s.settle = u
    unfold State.takeFrameSync
    cases hd : u.audio.detector with
    | lost => exact ⟨_, rfl, rfl, rfl, rfl, rfl, fun _ => ⟨rfl, rfl, rfl⟩, nofun, nofun⟩
    | recovering => exact ⟨_, rfl, rfl, rfl, rfl, rfl, nofun, fun _ => ⟨hd, rfl, rfl⟩, nofun⟩
    | locked =>
      by_cases hp : u.audio.phase = .complete
      · simp only [hp, if_true]
        exact ⟨_, rfl, rfl, rfl, rfl, rfl, nofun, nofun, fun _ => ⟨hd, rfl⟩⟩
      · simp only [hp, if_false]
        exact ⟨_, rfl, rfl, rfl, rfl, rfl, nofun, nofun, fun _ => ⟨hd, rfl⟩⟩
  · simp only [← Prog.isActive_iff]
    exact ⟨State.outputSample_corrected st, State.outputSample_raw st⟩
  · rw [s.formOutput_slot hi]
    refine ⟨fun h => congrArg some (State.outputSample_corrected _ h), fun h => ?_⟩
    exact congrArg some (State.outputSample_raw _ fun ⟨p, ha, hs⟩ => h p ha hs)

/-! ### The detector's other events -/

theorem State.lockDue_iff (s : State) : s.lockDue = true ↔ s.audio.detector = .recovering ∧ 48 ≤ s.audio.goodFrames := by
  rw [State.lockDue, Bool.and_eq_true, beq_iff_eq]
  exact and_congr_right fun _ => decide_eq_true_iff

theorem reached_iff (limit : Nat) (elapsed : Option Nat) :
    reached limit elapsed = true ↔ ∃ n, elapsed = some n ∧ limit ≤ n := by
  cases elapsed <;> simp [reached]

/-- R2: the sync watch has run its time at 250 ticks. -/
theorem State.expired_watch_iff (s : State) : s.expired .watch = true ↔ ∃ n, s.audio.watch = some n ∧ 250 ≤ n :=
  reached_iff _ _

/-- R3: at the sync position of a frame in LOCKED the port flywheels. -/
theorem State.missSync_locked {s : State} (hp : s.audio.phase = .complete) (hd : s.audio.detector = .locked) :
    s.missSync = s.formOutput.setAudio s.formOutput.audio.beginFrame := by
  unfold State.missSync
  rw [if_pos hp, hd]

/-- R6: at the sync position of a frame in RECOVERING the detector enters LOST. -/
theorem State.missSync_recovering {s : State} (hp : s.audio.phase = .complete) (hd : s.audio.detector = .recovering) :
    s.missSync = s.setAudio s.audio.lose := by
  unfold State.missSync
  rw [if_pos hp, hd]

theorem State.missSync_none {s : State} (h : s.audio.phase ≠ .complete ∨ s.audio.detector = .lost) : s.missSync = s := by
  unfold State.missSync
  rcases h with hp | hd
  · rw [if_neg hp]
  · simp only [hd, ite_self]

theorem State.expireWatch_locked {s : State} (due : s.expired .watch = true) (hd : s.audio.detector = .locked) :
    s.expireWatch = (s.setAudio s.audio.stopWatch.lose).raisePlain .audio := by
  unfold State.expireWatch
  rw [if_pos due, hd]
  rfl

theorem State.expireWatch_recovering {s : State} (due : s.expired .watch = true) (hd : s.audio.detector = .recovering) :
    s.expireWatch = s.setAudio s.audio.stopWatch.lose := by
  unfold State.expireWatch
  rw [if_pos due, hd]
  rfl

theorem State.expireWatch_lost {s : State} (due : s.expired .watch = true) (hd : s.audio.detector = .lost) :
    s.expireWatch = s.setAudio s.audio.stopWatch := by
  unfold State.expireWatch
  rw [if_pos due, hd]

theorem State.expireWatch_none {s : State} (undue : ¬s.expired .watch = true) : s.expireWatch = s := if_neg undue

/-- Settles O6, event by event. -/
theorem detectorEvents : Obligations.DetectorEvents := by
  refine ⟨fun s => ⟨fun h => ?_, fun h => ?_⟩, fun s => ?_, fun s => ?_⟩
  · show ∃ a, Host.Outcome.next (if s.lockDue then s.enterLocked else s) = _ ∧ _
    rw [if_pos (s.lockDue_iff.mpr h)]
    exact ⟨_, rfl, rfl, rfl, rfl, rfl, rfl, rfl⟩
  · show Host.Outcome.next (if s.lockDue then s.enterLocked else s) = _
    rw [if_neg fun due => h (s.lockDue_iff.mp due)]
  · intro u
    have run : exec .missingFrameSync s = .next u.missSync := rfl
    clear_value u
    rw [run]
    exact ⟨fun hp hd => congrArg Host.Outcome.next (State.missSync_locked hp hd),
      fun hp hd => congrArg Host.Outcome.next (State.missSync_recovering hp hd),
      fun h => congrArg Host.Outcome.next (State.missSync_none h)⟩
  · intro u lost isDue
    have run : exec .syncWatchExpiry s = .next u.expireWatch := rfl
    clear_value u
    rw [run]
    have due : u.expired .watch = true ↔ isDue := u.expired_watch_iff
    exact ⟨fun h hd => congrArg Host.Outcome.next (State.expireWatch_locked (due.mpr h) hd),
      fun h hd => congrArg Host.Outcome.next (State.expireWatch_recovering (due.mpr h) hd),
      fun h hd => congrArg Host.Outcome.next (State.expireWatch_lost (due.mpr h) hd),
      fun h => congrArg Host.Outcome.next (State.expireWatch_none fun he => h (due.mp he))⟩

end Sys2Proof.Machine
end

section
/-! The passing of time: the tick, the expiries, and the events that are due, each as its own command takes it (logs 2, 5
and 6). -/

namespace Sys2Proof.Machine

/-! ### The clock -/

theorem allTimers_nodup : allTimers.Nodup := by decide

theorem Timer.mem_allTimers (t : Timer) : t ∈ allTimers := by
  unfold allTimers
  cases t with
  | watch => exact List.mem_cons_self
  | gap x => simp [mem_allPorts]
  | silence x => simp [mem_allPorts]
  | reject k => simp [mem_allIndices]

/-- The choice among expired timers falls on one of them (log 6). -/
theorem firstTimer_mem (n : Nat) (ts : List Timer) : ∀ t, firstTimer n t ts ∈ t :: ts := by
  induction ts with
  | nil => exact fun t => List.mem_cons_self
  | cons u us ih =>
    intro t
    rw [firstTimer]
    split
    · exact List.mem_cons_of_mem _ (ih u)
    · rcases List.mem_cons.mp (ih t) with h | h
      · exact List.mem_cons.mpr (.inl h)
      · exact List.mem_cons_of_mem _ (List.mem_cons_of_mem _ h)

theorem State.expired_gap_iff (s : State) (x : PortId) :
    s.expired (.gap x) = true ↔ ∃ n, (s.port x).gap = some n ∧ 10 * 3000 < n := reached_iff _ _

theorem State.expired_silence_iff (s : State) (x : PortId) :
    s.expired (.silence x) = true ↔ (s.port x).present = true ∧ (s.port x).timerCount = some 0 := by
  simp [State.expired]

theorem State.expired_reject_iff (s : State) (k : Index) : s.expired (.reject k) = true ↔
    ∃ n, (s.line k).change = some n ∧ (s.line k).reject.ticks ≤ n := reached_iff _ _

theorem State.tick_port (s : State) (x : PortId) : s.tick.port x = (s.port x).tick := Trio.get_map _ _ _

theorem State.tick_line (s : State) (k : Index) : s.tick.line k = (s.line k).tick := Octet.get_map _ _ _

/-! ### The empty queue -/

theorem step_empty {s : State} (h : s.pending = []) : step s = .next s.idle := by
  unfold step
  rw [h]

theorem State.idle_none {s : State} (h : allTimers.filter s.settle.expired = []) : s.idle = s.settle.tick := by
  unfold State.idle
  simp only [h]

theorem State.idle_one {s : State} {t : Timer} (h : allTimers.filter s.settle.expired = [t]) :
    s.idle = s.settle.expire t := by
  unfold State.idle
  simp only [h]

/-- Of several expired timers one expires (log 6). -/
theorem State.idle_several {s : State} {t₁ t₂ : Timer} {ts : List Timer}
    (h : allTimers.filter s.settle.expired = t₁ :: t₂ :: ts) :
    ∃ t, s.settle.expired t = true ∧ s.idle = s.settle.useFree.expire t := by
  refine ⟨firstTimer s.settle.freeCount t₁ (t₂ :: ts), ?_, ?_⟩
  · have hm := firstTimer_mem s.settle.freeCount (t₂ :: ts) t₁
    rw [← h] at hm
    exact (List.mem_filter.mp hm).2
  · unfold State.idle
    simp only [h]

/-! ### The events due, one command after another -/

/-- A command that answers a next state, run after others. -/
def State.runOn (s : State) (c : Instr) : State :=
  match exec c s with
  | .next u => u
  | .fault _ => s
  | .refused _ => s

/-- The marks due when the walk starts are those it sets: a mark set makes none due and none of another programme undue. -/
theorem foldl_settleOverrun_filter (l : List Index) : ∀ s : State, l.Nodup →
    l.foldl State.settleOverrun s = (l.filter fun p => (s.prog p).overrunDue).foldl State.settleOverrun s := by
  induction l with
  | nil => exact fun _ _ => rfl
  | cons a l ih =>
    intro s nd
    rw [List.nodup_cons] at nd
    rw [List.foldl_cons, List.filter_cons]
    split
    · have same : ∀ q ∈ l, ((s.settleOverrun a).prog q).overrunDue = (s.prog q).overrunDue := fun q hq => by
        rw [State.settleOverrun_prog, if_neg fun h : q = a ∧ _ => nd.1 (h.1 ▸ hq)]
      rw [List.foldl_cons, ih _ nd.2, List.filter_congr same]
    · rename_i h
      rw [show s.settleOverrun a = s from if_neg h]
      exact ih s nd.2

/-- DURATION_REACHED of a programme whose overrun mark is due sets the mark (R96). -/
theorem State.settleDuration_overrun {s : State} {p : Index} (h : (s.prog p).overrunDue = true) :
    s.settleDuration p = s.settleOverrun p := by
  have undue : (s.prog p).autoDue = false := by simpa [h] using (s.prog p).durationDue_split.2
  unfold State.settleDuration
  rw [undue]
  rfl

/-- The marks due, each by its own DURATION_REACHED. -/
theorem foldl_settleDuration_overruns (l : List Index) : ∀ s : State, l.Nodup → (∀ p ∈ l, (s.prog p).overrunDue = true) →
    l.foldl State.settleDuration s = l.foldl State.settleOverrun s := by
  induction l with
  | nil => exact fun _ _ _ => rfl
  | cons a l ih =>
    intro s nd due
    rw [List.nodup_cons] at nd
    rw [List.foldl_cons, List.foldl_cons, State.settleDuration_overrun (due a List.mem_cons_self)]
    refine ih _ nd.2 fun q hq => ?_
    rw [State.settleOverrun_prog, if_neg fun h : q = a ∧ _ => nd.1 (h.1 ▸ hq)]
    exact due q (List.mem_cons_of_mem _ hq)

/-- The overrun marks of a frame are what DURATION_REACHED does of each programme whose mark is due (R96). -/
theorem State.settleOverruns_eq (s : State) :
    s.settleOverruns = (allIndices.filter fun p => (s.prog p).overrunDue).foldl State.settleDuration s := by
  rw [foldl_settleDuration_overruns _ _ (List.Nodup.filter _ (by decide)) fun p hp => (List.mem_filter.mp hp).2]
  exact foldl_settleOverrun_filter allIndices s (by decide)

/-- The lock, the block closes and the ramp completions that are due (log 5). -/
def State.settledFrame (s : State) : State :=
  allIndices.foldl State.settleRamp (allIndices.foldl State.settleClose (if s.lockDue then s.enterLocked else s))

theorem State.settle_eq (s : State) : s.settle = s.settledFrame.settleOverruns.cascade cascadeLimit
    ((allIndices.filter fun p => (s.settledFrame.settleOverruns.prog p).autoDue).map .auto) := rfl

theorem State.settledFrame_run (s : State) : (.goodFrameCount48 ::
    (allIndices.map Instr.blockClose ++ allIndices.map Instr.rampCompletion)).foldl State.runOn s = s.settledFrame := by
  rw [List.foldl_cons, List.foldl_append, List.foldl_map, List.foldl_map]
  rfl

theorem State.settleOverruns_run (s : State) :
    ((allIndices.filter fun p => (s.prog p).overrunDue).map Instr.durationReached).foldl State.runOn s
      = s.settleOverruns := by
  rw [List.foldl_map, State.settleOverruns_eq]
  rfl

/-- After the overrun marks a duration reached is an AUTO event. -/
theorem State.settleOverruns_durationDue (s : State) (p : Index) :
    (s.settleOverruns.prog p).durationDue = (s.settleOverruns.prog p).autoDue := by
  rw [(Prog.durationDue_split _).1, (s.settleOverruns_due p).1, Bool.false_or]

theorem Prog.overrunDue_eq (P : Prog) : P.overrunDue = (P.durationDue && match P.queue.onAir with
    | some o => !o.record.autoAdvance
    | none => false) := by
  unfold Prog.overrunDue
  cases P.queue.onAir <;> simp

theorem State.cascade_nothing (s : State) : s.cascade cascadeLimit [] = s := rfl

/-- With the overrun marks of a frame set, no mark is left to set. -/
theorem State.settleOverruns_again (s : State) : s.settleOverruns.settleOverruns = s.settleOverruns := by
  have noMark : (allIndices.filter fun p => (s.settleOverruns.prog p).overrunDue) = [] :=
    List.filter_eq_nil_iff.mpr fun p _ => by simp [(s.settleOverruns_due p).1]
  generalize s.settleOverruns = t at noMark ⊢
  rw [t.settleOverruns_eq, noMark, List.foldl_nil]

theorem State.settle_noAuto {s : State} (h : ∀ p, (s.settledFrame.settleOverruns.prog p).durationDue = false) :
    s.settle = s.settledFrame.settleOverruns := by
  have noAuto : (allIndices.filter fun p => (s.settledFrame.settleOverruns.prog p).autoDue) = [] :=
    List.filter_eq_nil_iff.mpr fun p _ => by simp [← State.settleOverruns_durationDue, h]
  rw [State.settle_eq, noAuto, List.map_nil, State.cascade_nothing]

theorem filter_allIndices_eq : ∀ p : Index, (allIndices.filter fun q => decide (q = p)) = [p] := by decide

/-- The list of the programmes, cut down to one of them. -/
theorem filter_allIndices_one (f : Index → Bool) (p : Index) (hp : f p = true) (others : ∀ q, q ≠ p → f q = false) :
    allIndices.filter f = [p] := by
  have only : ∀ q ∈ allIndices, f q = decide (q = p) := fun q _ => by
    by_cases h : q = p
    · rw [h, hp, decide_eq_true rfl]
    · rw [others q h, decide_eq_false h]
  rw [List.filter_congr only, filter_allIndices_eq]

/-- A single AUTO event is what DURATION_REACHED of its programme does (R96). -/
theorem State.settle_oneAuto {s : State} (p : Index) (hp : (s.settledFrame.settleOverruns.prog p).durationDue = true)
    (others : ∀ q, q ≠ p → (s.settledFrame.settleOverruns.prog q).durationDue = false) :
    s.settledFrame.settleOverruns.settleDuration p = s.settle := by
  simp only [State.settleOverruns_durationDue] at hp others
  rw [State.settle_eq, filter_allIndices_one _ p hp others]
  unfold State.settleDuration
  rw [if_pos hp, State.settleOverruns_again]
  rfl

/-- Settles O2, clause by clause; the events due are settled as their commands, run one after another, take them. -/
theorem emptyQueueTicks : Obligations.EmptyQueueTicks := by
  refine ⟨fun s hs => ?_, ⟨allTimers_nodup, Timer.mem_allTimers⟩, fun s => ⟨rfl, rfl, s.tick_port, s.tick_line⟩,
    fun s => ⟨s.expired_watch_iff, fun x => ⟨s.expired_gap_iff x, s.expired_silence_iff x⟩, fun k => ?_⟩,
    fun s => ⟨rfl, fun x => ⟨rfl, rfl⟩, fun k => rfl⟩, fun s => ?_⟩
  · rw [step_empty hs]
    refine ⟨fun h => ?_, fun t h => ?_, fun t₁ t₂ ts h => ?_⟩
    · rw [State.idle_none h]
    · rw [State.idle_one h]
    · obtain ⟨t, expired, idle⟩ := State.idle_several h
      exact ⟨t, expired, by rw [idle]⟩
  · exact s.expired_reject_iff k
  · intro run v overrun w
    have hrun : run = State.runOn := rfl
    have ho : overrun = fun p => (v.prog p).overrunDue := funext fun p => (Prog.overrunDue_eq _).symm
    have hv : v = s.settledFrame := by
      rw [← s.settledFrame_run, ← hrun]
    have hw : w = s.settledFrame.settleOverruns := by
      rw [← hv, ← v.settleOverruns_run, ← hrun, ← ho]
    clear_value w
    rw [hw]
    refine ⟨State.settle_noAuto, fun p hp others => ?_⟩
    exact congrArg Host.Outcome.next (State.settle_oneAuto p hp others)

end Sys2Proof.Machine
end

section
/-! Two families of requests the audio path answers to: the notices with PORT.STATUS and PORT.MASK (R8, R186 to R188), and
PROG.ACTIVATE, which fixes the delay line (R14, R28, R130). -/

namespace Sys2Proof.Machine

/-! ### Notice-kind sets -/

theorem readKinds_two {β : Type} (hi lo : Byte) (f : BitVec 12 → Except (Result × List Byte) β) :
    (readKinds [hi, lo] >>= f) = (need (kindSetOf (hi ++ lo)) .badValue >>= f) := rfl

theorem kindSetOf_none {w : BitVec 16} (h : 4096 ≤ w.toNat) : kindSetOf w = none := if_neg (Nat.not_lt.mpr h)

theorem kindSetOf_some {w : BitVec 16} (h : w.toNat < 4096) : kindSetOf w = some (w.setWidth 12) := if_pos h

theorem Kind.index_lt (k : Kind) : k.index < 12 := by cases k <;> decide

/-- The kinds of a set of two bytes are the bits of the two bytes (R195). -/
theorem getLsbD_kindSet (w : BitVec 16) (k : Kind) : (w.setWidth 12).getLsbD k.index = w.getLsbD k.index := by
  rw [BitVec.getLsbD_setWidth, decide_eq_true k.index_lt, Bool.true_and]

/-! ### PORT.STATUS and PORT.MASK -/

section

variable {s : State} {x : PortId} (hs : s.receptive x) (tag hi lo : Byte)
include hs

theorem portStatus_badValue (h : 4096 ≤ (hi ++ lo : BitVec 16).toNat) :
    exec (.portStatus x tag [hi, lo]) s = answered (s.judged x) x 0x03 tag .badValue [] := by
  refine request_refused hs 0x03 portStatusRequest tag [hi, lo] ?_
  unfold portStatusRequest
  rw [readKinds_two, kindSetOf_none h, need_none]

theorem portMask_badValue (h : 4096 ≤ (hi ++ lo : BitVec 16).toNat) :
    exec (.portMask x tag [hi, lo]) s = answered (s.judged x) x 0x04 tag .badValue [] := by
  refine request_refused hs 0x04 portMaskRequest tag [hi, lo] ?_
  unfold portMaskRequest
  rw [readKinds_two, kindSetOf_none h, need_none]

theorem portStatus_ok (h : (hi ++ lo : BitVec 16).toNat < 4096) : exec (.portStatus x tag [hi, lo]) s
    = answered ((s.judged x).updPort x (Port.clearNotices ((hi ++ lo : BitVec 16).setWidth 12))) x 0x03 tag .ok
      (statusBlock ((s.judged x).port x) (s.judged x).audio (s.judged x).presenceByte) := by
  refine request_taken hs 0x03 portStatusRequest tag [hi, lo] ?_
  unfold portStatusRequest
  rw [readKinds_two, kindSetOf_some h, need_some]

theorem portMask_ok (h : (hi ++ lo : BitVec 16).toNat < 4096) : exec (.portMask x tag [hi, lo]) s
    = answered ((s.judged x).updPort x (Port.setMask ((hi ++ lo : BitVec 16).setWidth 12))) x 0x04 tag .ok
      (bytesOfNat 2 ((s.judged x).port x).mask.toNat) := by
  refine request_taken hs 0x04 portMaskRequest tag [hi, lo] ?_
  unfold portMaskRequest
  rw [readKinds_two, kindSetOf_some h, need_some]

end

/-! ### Raises -/

/-- R187: ATTN stands while some kind is PENDING and enabled. -/
theorem Port.attn_iff (P : Port) :
    P.attn = true ↔ ∃ k, (P.notices.get k).pending = true ∧ P.mask.getLsbD k.index = true := by
  simp only [Port.attn, List.any_eq_true, Bool.and_eq_true, Kind.mem_allKinds, true_and]

/-- Settles O37: the requests by the kinds their two bytes name, the raises kind by kind. -/
theorem noticesStatusAndMask : Obligations.NoticesStatusAndMask := by
  refine ⟨fun s x tag hi lo hs => ⟨fun h => ?_, fun h => ?_⟩, Port.attn_iff, fun s k i x => ?_,
    fun s owner bits => ?_⟩
  · exact ⟨portStatus_badValue hs tag hi lo h, portMask_badValue hs tag hi lo h⟩
  · refine ⟨portMask_ok hs tag hi lo h, _, portStatus_ok hs tag hi lo h, fun k => ?_⟩
    rw [NoticeSet.clearKinds_get, getLsbD_kindSet]
    rfl
  · intro plain _ t
    by_cases hp : plain
    · simp only [t, if_pos hp, State.raisePlain_port]
      refine ⟨fun h => absurd hp h, fun _ => ?_, fun j hj => Port.raise_get_other j k 0 _ hj, rfl, rfl⟩
      rw [Port.raise_get_same]
      exact congrArg (Notice.mk true) BitVec.or_zero
    · simp only [t, if_neg hp, State.raiseAll_port]
      exact ⟨fun _ => Port.raise_get_same k _ _, fun h => absurd h hp, fun j hj => Port.raise_get_other j k _ _ hj, rfl, rfl⟩
  · simp only [State.raiseAt_port_same]
    exact ⟨Port.raise_get_same .withdrawn bits _, fun j hj => Port.raise_get_other j .withdrawn bits _ hj, rfl,
      fun y hy => State.raiseAt_port_other s owner y .withdrawn bits hy, rfl, bitOf_getLsbD_iff⟩

/-! ### PROG.ACTIVATE -/

theorem Entry.overlaps_iff (a b : Entry) : a.overlaps b = true ↔ a.base < b.base + b.width ∧ b.base < a.base + a.width := by
  simp [Entry.overlaps]

theorem State.slotsTaken_iff (s : State) (p : Index) : s.slotsTaken p = true ↔
    ∃ q, q ≠ p ∧ (s.prog q).isActive = true ∧ (s.prog p).entry.overlaps (s.prog q).entry = true := by
  simp only [State.slotsTaken, List.any_eq_true, Bool.and_eq_true, bne_iff_ne, mem_allIndices, true_and, and_assoc]

section

variable {s : State} {x : PortId} (hs : s.receptive x) (tag : Byte) {p : Index}
include hs

theorem progActivate_overlap (taken : (s.judged x).slotsTaken p = true) :
    exec (.progActivate x tag [indexByte p]) s = answered (s.judged x) x 0x12 tag .badValue [] := by
  refine request_refused hs 0x12 progActivateRequest tag [indexByte p] ?_
  unfold progActivateRequest
  rw [readProg_one, indexOf_indexByte, need_some, taken]
  rfl

theorem progActivate_noRights (free : (s.judged x).slotsTaken p = false) (rights : (s.judged x).governs x p = false) :
    exec (.progActivate x tag [indexByte p]) s = answered (s.judged x) x 0x12 tag .noRights [] := by
  refine request_refused hs 0x12 progActivateRequest tag [indexByte p] ?_
  unfold progActivateRequest
  rw [readProg_one, indexOf_indexByte, need_some, free, rights]
  rfl

theorem progActivate_wrongState (free : (s.judged x).slotsTaken p = false) (rights : (s.judged x).governs x p = true)
    (state : ((s.judged x).prog p).entry.state ≠ .inactive) :
    exec (.progActivate x tag [indexByte p]) s = answered (s.judged x) x 0x12 tag .wrongState [] := by
  refine request_refused hs 0x12 progActivateRequest tag [indexByte p] ?_
  unfold progActivateRequest
  rw [readProg_one, indexOf_indexByte, need_some, free, rights, beq_false_of_ne state]
  rfl

theorem progActivate_ok (free : (s.judged x).slotsTaken p = false) (rights : (s.judged x).governs x p = true)
    (state : ((s.judged x).prog p).entry.state = .inactive) :
    exec (.progActivate x tag [indexByte p]) s = answered ((s.judged x).activate p) x 0x12 tag .ok [] := by
  refine request_taken hs 0x12 progActivateRequest tag [indexByte p] ?_
  unfold progActivateRequest
  rw [readProg_one, indexOf_indexByte, need_some, free, rights, state]
  rfl

end

/-- R130: the fixings of an activation, one after another, from the gain 0.00 dB at every position of the line. -/
theorem activationFix_iterate (e : Entry) (line : List Stage) (g : Gain) : activationFix e line g
    = (fun r : List Stage × Gain => fixOldest e r.1 r.2)^[line.length] (line, { g with
        window := line.map fun st => GainApplied.mk (channels e st.raw) 0
        reduction := 0
        passed := [] }) := by
  rw [activationFix, fixAll, fixMany_iterate, List.length_map]

/-- The entry of a programme that activates (R28). -/
def Prog.activatedEntry (P : Prog) : Entry := { P.entry with state := .running, escalation := 0 }

/-- The line and the limiter that the activation of a programme fixes (R130). -/
def Prog.activationFixed (P : Prog) (line : List Stage) : List Stage × Gain :=
  activationFix P.activatedEntry line P.gain.activated

theorem State.activate_prog_same (s : State) (p : Index) : (s.activate p).prog p =
    { entry := (s.prog p).activatedEntry, queue := (s.prog p).queue
      meas := (s.prog p).meas.activated ((s.prog p).tallyInactive s.lines)
      gain := ((s.prog p).activationFixed s.audio.line).2 } := Octet.get_set_same _ _ _

theorem State.activate_prog_other (s : State) (p q : Index) (h : q ≠ p) : (s.activate p).prog q = s.prog q :=
  Octet.get_set_other _ _ _ _ h

theorem State.activate_port (s : State) (p : Index) (y : PortId) :
    (s.activate p).port y = (s.port y).raise .state (bitOf p) := Trio.get_map _ _ _

theorem State.activate_onlyNotices (s : State) (p : Index) : s.onlyNotices (s.activate p) [.state] := by
  intro y
  rw [State.activate_port]
  exact ⟨rfl, fun k hk => Port.raise_get_other k .state _ _ fun e => hk (List.mem_singleton.mpr e)⟩

theorem State.activate_noticed (s : State) (p : Index) : (s.activate p).noticed .state p := by
  intro y
  rw [State.activate_port, Port.raise_get_same]
  refine ⟨rfl, ?_⟩
  rw [BitVec.getLsbD_or, (bitOf_getLsbD_iff p p).mpr rfl, Bool.or_true]

/-- Settles O40: the refusals in the order of the checks, and the state that `State.activate` leaves. -/
theorem progActivate : Obligations.ProgActivate := by
  refine ⟨Entry.overlaps_iff, fun s x tag p hs => ?_⟩
  intro v ask overlap
  have free : ¬overlap → v.slotsTaken p = false := fun h => by
    rw [← Bool.not_eq_true, v.slotsTaken_iff]
    exact h
  refine ⟨fun h => progActivate_overlap hs tag ((v.slotsTaken_iff p).mpr h),
    fun h => progActivate_noRights hs tag (free h), fun h => progActivate_wrongState hs tag (free h),
    fun h rights state => ?_⟩
  intro e start fixed
  have hask : ask = answered (v.activate p) x 0x12 tag .ok [] := progActivate_ok hs tag (free h) rights state
  clear_value ask v
  have hfix : (v.prog p).activationFixed v.audio.line = fixed := activationFix_iterate e v.audio.line (v.prog p).gain.activated
  have hprog := v.activate_prog_same p
  have hline : (v.activate p).audio = { v.audio with line := ((v.prog p).activationFixed v.audio.line).1 } := rfl
  obtain ⟨same, window, _, raw, _⟩ : (v.prog p).gain.activated.SameButFixed fixed.2 ∧ fixed.2.window = [] ∧ _ ∧
      fixed.1.map (·.raw) = v.audio.line.map (·.raw) ∧ _ := by
    rw [← hfix]
    obtain ⟨same, facts⟩ := fixAll_facts e v.audio.line start
    exact ⟨⟨same.applied, same.desired, same.policy, same.holding, same.ramp⟩, facts⟩
  rw [hfix] at hprog hline
  clear_value fixed
  refine ⟨v.activate p, hask, v.activate_noticed p, v.activate_onlyNotices p,
    fun y => ?_, rfl, hline, ?_, ?_, v.activate_prog_other p, ?_⟩
  · rw [State.activate_port, Port.raise_get_same]
  · rw [hprog]
  · rw [hline]
    exact raw
  · rw [hprog]
    exact ⟨rfl, rfl, rfl, rfl, rfl, rfl, rfl, rfl, rfl, rfl, rfl, rfl, rfl, rfl, same.applied, same.desired, same.policy,
      same.holding, same.ramp, window⟩

end Sys2Proof.Machine
end

section
/-! PROCESSED_FRAME: one frame through the Audio Port and the active programmes (R3, R10 to R12, R42, R74, R112). A programme
works on what it sees of the delay line, so with the slots apart each is handed the frame as if it were the only one. -/

namespace Sys2Proof.Machine

/-! ### A frame handed to one programme -/

/-- R112, steps 1 and 3: the gain moved, and the oldest position of a full limiter window fixed under it. -/
def Prog.frameFixed (P : Prog) (line : List Stage) : List Stage × Gain :=
  if 72 ≤ P.gain.window.length then fixOldest P.entry line P.moveGain else (line, P.moveGain)

/-- R42: the oldest of 72 positions in flight measured, on the line `line`. -/
def Prog.frameMeasured (P : Prog) (line : List Stage) : Measure :=
  if P.isMeasuring = true ∧ 72 ≤ P.meas.inFlight.length then (P.measureOldest line).meas else P.meas

theorem Prog.moveGain_window (P : Prog) : P.moveGain.window = P.gain.window := by
  obtain ⟨_, _, _, window, _⟩ := P.moveGain_facts
  exact window

theorem Prog.frameFixed_applied (P : Prog) (line : List Stage) : (P.frameFixed line).2.applied = P.moveGain.applied := by
  unfold Prog.frameFixed
  split
  · exact (fixOldest_gain _ _ _).applied
  · rfl

theorem Prog.measureOldest_tallyLatch (P : Prog) (line : List Stage) :
    (P.measureOldest line).meas.tallyLatch = P.meas.tallyLatch := by
  unfold Prog.measureOldest
  split <;> rfl

theorem Prog.frameMeasured_tallyLatch (P : Prog) (line : List Stage) :
    (P.frameMeasured line).tallyLatch = P.meas.tallyLatch := by
  unfold Prog.frameMeasured
  split
  · exact P.measureOldest_tallyLatch line
  · rfl

/-- Measuring reads and writes nothing of the Gain Stage. -/
theorem Prog.measureOldest_setGain (P : Prog) (g : Gain) (line : List Stage) :
    (P.setGain g).measureOldest line = (P.measureOldest line).setGain g := by
  unfold Prog.measureOldest
  rw [show (P.setGain g).meas.inFlight = P.meas.inFlight from rfl]
  split <;> rfl

theorem Prog.measureOldest_eq (P : Prog) (line : List Stage) :
    P.measureOldest line = { P with meas := (P.measureOldest line).meas } := by
  unfold Prog.measureOldest
  split <;> rfl

/-- The measuring step of a frame, with the Gain Stage already moved on. -/
theorem Prog.frameMeasured_step (P : Prog) (g : Gain) (line : List Stage) :
    (if (P.setGain g).isMeasuring && decide (Config.lookAhead ≤ (P.setGain g).meas.inFlight.length)
      then (P.setGain g).measureOldest line else P.setGain g) = (P.setGain g).setMeas (P.frameMeasured line) := by
  have due : ((P.setGain g).isMeasuring && decide (Config.lookAhead ≤ (P.setGain g).meas.inFlight.length)) = true
      ↔ P.isMeasuring = true ∧ 72 ≤ P.meas.inFlight.length := by
    rw [Bool.and_eq_true]
    exact and_congr_right fun _ => decide_eq_true_iff
  unfold Prog.frameMeasured
  by_cases h : P.isMeasuring = true ∧ 72 ≤ P.meas.inFlight.length
  · rw [if_pos (due.mpr h), if_pos h, P.measureOldest_setGain, P.measureOldest_eq]
    rfl
  · rw [if_neg fun hd => h (due.mp hd), if_neg h]
    rfl

/-- One frame handed to a programme, part by part (R42, R74, R112). -/
theorem Prog.handFrame_eq (P : Prog) (line : List Stage) (raw : List Sample) (now : Bool) :
    P.handFrame line raw now = ((P.frameFixed line).1,
      { entry := P.entry
        queue := ⟨P.queue.onAir.map OnAir.aged, P.queue.cued⟩
        meas := { P.frameMeasured (P.frameFixed line).1 with
          inFlight := if P.isMeasuring then (P.frameMeasured (P.frameFixed line).1).inFlight
              ++ [⟨channels P.entry raw, P.meas.tallyLatch || now⟩]
            else (P.frameMeasured (P.frameFixed line).1).inFlight
          tallyLatch := now }
        gain := { (P.frameFixed line).2 with
          window := (P.frameFixed line).2.window ++ [⟨channels P.entry raw, P.moveGain.applied⟩] } }) := by
  have hf : (if Config.lookAhead ≤ P.moveGain.window.length then fixOldest P.entry line P.moveGain
      else (line, P.moveGain)) = P.frameFixed line := by
    rw [P.moveGain_window]
    rfl
  unfold Prog.handFrame
  simp only [hf, P.frameMeasured_step, P.frameFixed_applied]
  rw [← P.frameMeasured_tallyLatch (P.frameFixed line).1]
  rfl

/-! ### What the frame's work sees of the delay line -/

theorem Prog.frameFixed_congr {P : Prog} {a b : List Stage} (h : P.entry.SeesAlike a b) :
    (P.frameFixed a).2 = (P.frameFixed b).2 ∧ P.entry.SeesAlike (P.frameFixed a).1 (P.frameFixed b).1 := by
  unfold Prog.frameFixed
  split
  · exact fixOldest_congr h _
  · exact ⟨rfl, h⟩

theorem Prog.frameMeasured_congr {P : Prog} {a b : List Stage} (h : P.entry.SeesAlike a b) :
    P.frameMeasured a = P.frameMeasured b := by
  unfold Prog.frameMeasured
  rw [P.measureOldest_congr h]

/-- A frame on two lines that look alike to the programme. -/
theorem Prog.handFrame_congr {P : Prog} {a b : List Stage} (h : P.entry.SeesAlike a b) (raw : List Sample) (now : Bool) :
    (P.handFrame a raw now).2 = (P.handFrame b raw now).2
      ∧ P.entry.SeesAlike (P.handFrame a raw now).1 (P.handFrame b raw now).1 := by
  obtain ⟨gain, line⟩ := Prog.frameFixed_congr h
  rw [Prog.handFrame_eq, Prog.handFrame_eq, gain, Prog.frameMeasured_congr line]
  exact ⟨rfl, line⟩

theorem Prog.frameFixed_raw (P : Prog) (line : List Stage) : (P.frameFixed line).1.map (·.raw) = line.map (·.raw) := by
  unfold Prog.frameFixed
  split
  · exact fixOldest_raw _ _ _
  · rfl

/-- A frame handed to one programme leaves what a programme with other slots sees. -/
theorem Prog.frameFixed_other {P : Prog} {f : Entry} {line : List Stage} (staged : wellStaged line)
    (h : f.overlaps P.entry = false) : f.SeesAlike line (P.frameFixed line).1 := by
  unfold Prog.frameFixed
  split
  · exact fixOldest_other _ _ staged h
  · exact .refl _ _

/-! ### The frame handed to the active programmes -/

theorem State.handOver_active {s : State} {p : Index} (raw : List Sample) (h : (s.prog p).isActive = true) :
    (State.handOver raw s p).prog p = ((s.prog p).handFrame s.audio.line raw ((s.prog p).tallyInactive s.lines)).2
      ∧ (State.handOver raw s p).audio = { s.audio with line := ((s.prog p).frameFixed s.audio.line).1 } := by
  unfold State.handOver
  simp only [if_pos h]
  refine ⟨State.setProg_prog_same _ _ _, ?_⟩
  rw [Prog.handFrame_eq]
  rfl

theorem State.handOver_inactive {s : State} {p : Index} (raw : List Sample) (h : ¬(s.prog p).isActive = true) :
    State.handOver raw s p = s := if_neg h

theorem State.handOver_sameAudio (raw : List Sample) (s : State) (p : Index) : s.SameAudio (State.handOver raw s p) := by
  by_cases h : (s.prog p).isActive = true
  · obtain ⟨_, audio⟩ := State.handOver_active raw h
    exact ⟨by rw [audio], by rw [audio]; exact Prog.frameFixed_raw _ _⟩
  · rw [State.handOver_inactive raw h]
    exact .refl s

theorem State.handOver_frame (raw : List Sample) (s : State) (p : Index) : State.handOver raw s p
    = { s with audio := (State.handOver raw s p).audio, progs := (State.handOver raw s p).progs } := by
  unfold State.handOver
  simp only
  split <;> rfl

theorem State.handOver_entry (raw : List Sample) (s : State) (p q : Index) :
    ((State.handOver raw s p).prog q).entry = (s.prog q).entry := by
  by_cases hq : q = p
  · subst hq
    by_cases h : (s.prog q).isActive = true
    · rw [(State.handOver_active raw h).1, Prog.handFrame_eq]
    · rw [State.handOver_inactive raw h]
  · rw [State.handOver_prog_other _ _ _ _ hq]

theorem State.handOver_apart (raw : List Sample) (s : State) (p : Index) (h : s.Apart) : (State.handOver raw s p).Apart := by
  have r := State.handOver_relined raw s p
  refine ⟨⟨r.length.trans h.shaped.1, r.staged h.shaped.2⟩, fun a b hab ia ib => ?_⟩
  unfold Prog.isActive at ia ib
  rw [State.handOver_entry] at ia ib ⊢
  rw [State.handOver_entry]
  exact h.disjoint a b hab ia ib

/-- The frame handed to one programme leaves what another active programme sees of the line. -/
theorem State.handOver_sees (raw : List Sample) {s : State} (p : Index) {q : Index} (hs : s.Apart) (hq : q ≠ p)
    (active : (s.prog q).isActive = true) :
    (s.prog q).entry.SeesAlike s.audio.line (State.handOver raw s p).audio.line := by
  by_cases h : (s.prog p).isActive = true
  · rw [(State.handOver_active raw h).2]
    exact Prog.frameFixed_other hs.shaped.2 (hs.disjoint q p hq active h)
  · rw [State.handOver_inactive raw h]
    exact .refl _ _

/-- An active programme is handed the frame as if it were the only one, and sees what its own work leaves. -/
theorem handOvers_alone (raw : List Sample) (l : List Index) : ∀ s : State, s.Apart → l.Nodup →
    ∀ p, (s.prog p).isActive = true →
      (p ∉ l → (s.prog p).entry.SeesAlike s.audio.line (l.foldl (State.handOver raw) s).audio.line)
      ∧ (p ∈ l → (l.foldl (State.handOver raw) s).prog p
          = ((s.prog p).handFrame s.audio.line raw ((s.prog p).tallyInactive s.lines)).2
        ∧ (s.prog p).entry.SeesAlike ((s.prog p).frameFixed s.audio.line).1
          (l.foldl (State.handOver raw) s).audio.line) := by
  induction l with
  | nil => exact fun s _ _ p _ => ⟨fun _ => .refl _ _, fun h => absurd h List.not_mem_nil⟩
  | cons a l ih =>
    intro s hs nd p active
    rw [List.nodup_cons] at nd
    have entry := State.handOver_entry raw s a p
    have active' : ((State.handOver raw s a).prog p).isActive = true := by
      unfold Prog.isActive
      rw [entry]
      exact active
    obtain ⟨before, after⟩ := ih (State.handOver raw s a) (State.handOver_apart raw s a hs) nd.2 p active'
    rw [List.foldl_cons]
    by_cases hp : p = a
    · subst hp
      obtain ⟨prog, audio⟩ := State.handOver_active raw active
      refine ⟨fun h => absurd List.mem_cons_self h, fun _ => ⟨?_, ?_⟩⟩
      · rw [(handOvers_prog raw l _ nd.2 p).1 (.inl nd.1), prog]
      · have seen := before nd.1
        rw [entry, audio] at seen
        exact seen
    · have sees := State.handOver_sees raw a hs hp active
      rw [State.handOver_prog_other _ _ _ _ hp] at before after
      refine ⟨fun h => sees.trans (before fun hm => h (List.mem_cons_of_mem _ hm)), fun h => ?_⟩
      obtain ⟨prog, seen⟩ := after ((List.mem_cons.mp h).resolve_left hp)
      refine ⟨?_, (Prog.frameFixed_congr sees).2.trans seen⟩
      rw [prog, (Prog.handFrame_congr sees raw _).1, State.handOver_frame]

/-! ### A frame that completes -/

theorem State.processFrame_audio (s : State) (raw : List Sample) : (s.processFrame raw).audio
    = ((allIndices.foldl (State.handOver raw) s).audio).enterFrame raw := rfl

theorem State.handOvers_sameAudio (s : State) (raw : List Sample) :
    s.SameAudio (allIndices.foldl (State.handOver raw) s) :=
  foldl_keeps (M := s.SameAudio) _ (fun t p h => h.trans (State.handOver_sameAudio raw t p)) allIndices s (.refl s)

/-- A processed frame changes the Audio Port and the programmes alone. -/
theorem State.processFrame_frame (s : State) (raw : List Sample) : s.processFrame raw
    = { s with audio := (s.processFrame raw).audio, progs := (s.processFrame raw).progs } := by
  have h : allIndices.foldl (State.handOver raw) s = { s with
      audio := (allIndices.foldl (State.handOver raw) s).audio
      progs := (allIndices.foldl (State.handOver raw) s).progs } := by
    refine foldl_keeps (M := fun t => t = { s with audio := t.audio, progs := t.progs }) _ (fun t p h => ?_) allIndices s rfl
    rw [State.handOver_frame raw t p]
    generalize (State.handOver raw t p).audio = a
    generalize (State.handOver raw t p).progs = b
    rw [h]
  unfold State.processFrame
  generalize allIndices.foldl (State.handOver raw) s = t at h ⊢
  rw [h]
  rfl

/-- Of the Audio Port a processed frame changes the clock, the phase and the line (R10, R12). -/
theorem State.processFrame_port (s : State) (raw : List Sample) : (s.processFrame raw).audio
    = { s.audio with airClock := s.audio.airClock + 1, phase := .complete, line := (s.processFrame raw).audio.line } := by
  rw [State.processFrame_audio]
  have h := (s.handOvers_sameAudio raw).audio
  generalize allIndices.foldl (State.handOver raw) s = t at h ⊢
  rw [h]
  rfl

/-- The raw samples enter the line and the oldest leave it (R12). -/
theorem State.processFrame_raw (s : State) (raw : List Sample) : (s.processFrame raw).audio.line.map (·.raw)
    = (s.audio.line.map (·.raw)).drop 1 ++ [raw] := by
  rw [State.processFrame_audio]
  simp only [AudioPort.enterFrame, List.map_append, List.map_drop, (s.handOvers_sameAudio raw).raw, List.map_cons,
    List.map_nil]

theorem State.processFrame_progs (s : State) (raw : List Sample) (p : Index) :
    (s.processFrame raw).prog p = (allIndices.foldl (State.handOver raw) s).prog p := by
  unfold State.processFrame
  generalize allIndices.foldl (State.handOver raw) s = t
  rfl

/-- One place on in the line: a stage that has not just entered (R12). -/
theorem AudioPort.enterFrame_stage (a : AudioPort) (raw : List Sample) {i : Nat} (h : i + 1 < a.line.length) :
    (a.enterFrame raw).line.getD i Stage.zero = a.line.getD (i + 1) Stage.zero := by
  simp only [AudioPort.enterFrame, List.getD_eq_getElem?_getD]
  rw [List.getElem?_append_left (by rw [List.length_drop]; omega), List.getElem?_drop, Nat.add_comm]

theorem State.completeFrame_locked {s : State} (slots : List (BitVec 32)) (hd : s.audio.detector = .locked)
    (hp : s.audio.phase = .receiving) : s.completeFrame slots = s.processFrame (frameSamples slots) := by
  unfold State.completeFrame
  rw [if_pos hp, hd]

theorem State.completeFrame_recovering {s : State} (slots : List (BitVec 32)) (hd : s.audio.detector = .recovering)
    (hp : s.audio.phase = .receiving) : s.completeFrame slots = s.setAudio { s.audio with phase := .complete } := by
  unfold State.completeFrame
  rw [if_pos hp, hd]

theorem State.completeFrame_none {s : State} (slots : List (BitVec 32))
    (h : s.audio.detector = .lost ∨ s.audio.phase ≠ .receiving) : s.completeFrame slots = s := by
  unfold State.completeFrame
  rcases h with hd | hp
  · simp only [hd, ite_self]
  · rw [if_neg hp]

/-- R42: measuring in RUNNING, STOPPING and DRAINING. -/
theorem Prog.isMeasuring_iff (P : Prog) : P.isMeasuring = true
    ↔ P.entry.state = .running ∨ P.entry.state = .stopping ∨ P.entry.state = .draining := by
  simp [Prog.isMeasuring, or_assoc]

/-- What a processed frame leaves of an active programme, with the line in its shape and the slots apart. -/
theorem State.processFrame_alone {s : State} (hs : s.Apart) (raw : List Sample) {p : Index}
    (active : (s.prog p).isActive = true) :
    (s.processFrame raw).prog p = ((s.prog p).handFrame s.audio.line raw ((s.prog p).tallyInactive s.lines)).2
      ∧ ∀ i, i < 79 → channels (s.prog p).entry ((s.processFrame raw).audio.line.getD i Stage.zero).cor
        = channels (s.prog p).entry (((s.prog p).frameFixed s.audio.line).1.getD (i + 1) Stage.zero).cor := by
  obtain ⟨prog, seen⟩ := (handOvers_alone raw allIndices s hs (by decide) p active).2 (mem_allIndices p)
  refine ⟨(s.processFrame_progs raw p).trans prog, fun i hi => ?_⟩
  have length : (allIndices.foldl (State.handOver raw) s).audio.line.length = 80 := by
    rw [← List.length_map (f := Stage.raw), (s.handOvers_sameAudio raw).raw, List.length_map]
    exact hs.shaped.1
  rw [State.processFrame_audio, AudioPort.enterFrame_stage _ _ (by omega)]
  exact (seen.cor (i + 1)).symm

/-- Settles O7: the frame in LOCKED by `State.processFrame`, handed to each active programme as if it were the only one. -/
theorem processedFrame : Obligations.ProcessedFrame := by
  refine ⟨fun s slots => ?_, fun s slots => ?_, fun P => ⟨P.isActive_iff, P.isMeasuring_iff⟩⟩
  · intro u hd hp raw
    have run : exec (.processedFrame slots) s = .next (u.completeFrame slots) := rfl
    have hraw : frameSamples slots = raw := rfl
    clear_value u raw
    rw [State.completeFrame_locked slots hd hp, hraw] at run
    refine ⟨_, run, u.processFrame_frame raw, u.processFrame_port raw, u.processFrame_raw raw, fun p inactive => ?_,
      fun p active => ?_, fun shaped _ disjoint p active => ?_⟩
    · exact (u.processFrame_prog raw p).1 inactive
    · obtain ⟨line, prog⟩ := (u.processFrame_prog raw p).2 active
      obtain ⟨entry, queue, applied, _⟩ := (u.prog p).handFrame_facts line raw ((u.prog p).tallyInactive u.lines)
      rw [prog]
      exact ⟨entry, by rw [queue], by rw [queue]; rfl, applied⟩
    · obtain ⟨prog, seen⟩ := State.processFrame_alone ⟨shaped, disjoint⟩ raw active
      intro P Q now fixed measured
      have hQ : Q = (P.handFrame u.audio.line raw now).2 := prog
      rw [Prog.handFrame_eq] at hQ
      rw [hQ]
      exact ⟨rfl, rfl, seen⟩
  · intro u
    have run : exec (.processedFrame slots) s = .next (u.completeFrame slots) := rfl
    clear_value u
    rw [run]
    exact ⟨fun hd hp => congrArg Host.Outcome.next (State.completeFrame_recovering slots hd hp),
      fun h => congrArg Host.Outcome.next (State.completeFrame_none slots h)⟩

end Sys2Proof.Machine
end

section
/-! A restart: its rows, what it leaves, and the records it posts (R15, R40, R68, R87, R104, R133, R140, R168, R178, R193). -/

namespace Sys2Proof.Machine

/-! ### The rows -/

theorem State.pinLow_armed {s : State} (h : s.restartArmed = true) :
    s.pinLow = { s.restart with restartArmed := false } := if_pos h

theorem State.pinLow_unarmed {s : State} (h : s.restartArmed = false) : s.pinLow = s := if_neg (by rw [h]; decide)

theorem noParams_none {β : Type} (f : Unit → Except (Result × List Byte) β) : (noParams [] >>= f) = f () := rfl

theorem devRestart_ok {s : State} {x : PortId} (hs : s.receptive x) (tag : Byte) (h : (s.judged x).override = some x) :
    exec (.devRestart x tag []) s = answered (s.judged x).restart x 0x02 tag .ok [] := by
  refine request_taken hs 0x02 devRestartRequest tag [] ?_
  unfold devRestartRequest
  rw [noParams_none, h, beq_self_eq_true, demand_true]

theorem devRestart_noRights {s : State} {x : PortId} (hs : s.receptive x) (tag : Byte) (h : (s.judged x).override ≠ some x) :
    exec (.devRestart x tag []) s = answered (s.judged x) x 0x02 tag .noRights [] := by
  refine request_refused hs 0x02 devRestartRequest tag [] ?_
  unfold devRestartRequest
  rw [noParams_none, beq_false_of_ne h, demand_false]

/-! ### The closes -/

/-- R138: an INTERRUPTED segment leaves the escalation counter. -/
theorem State.closeSegment_restart_prog (s : State) (p : Index) :
    (s.closeSegment p .restart).prog p = (s.prog p).closed (s.prog p).entry.escalation := by
  unfold State.closeSegment
  cases h : (s.prog p).queue.onAir with
  | none => simp [Prog.closed, Prog.hasOnAir, h]
  | some r =>
    have kept : ∀ cls n, escalationAfter cls .interrupted n = n := fun cls n => by cases cls <;> rfl
    simp only [Prog.closed, Prog.hasOnAir, h, Option.isSome_some, if_true, State.updProg_prog_same,
      State.post_prog_same s ((s.prog p).resultRecord p r .restart) p rfl]
    rw [show ((s.prog p).resultRecord p r .restart).judged.verdict = .interrupted from rfl, kept]

theorem Prog.closed_escalation (P : Prog) : (P.closed P.entry.escalation).entry = P.entry := by
  unfold Prog.closed
  split <;> rfl

theorem State.restartClose_escalation (s : State) (p q : Index) :
    ((s.restartClose p).prog q).entry.escalation = (s.prog q).entry.escalation := by
  by_cases hq : q = p
  · subst hq
    unfold State.restartClose
    rw [State.closeSegment_restart_prog, Prog.closed_escalation, State.boundary_prog_same, boundaryWork_escalation]
  · rw [State.restartClose_prog_other _ _ _ hq]

/-- The closes of a restart, one after another in the free order (log 6). -/
def State.restartCloses (s : State) : State :=
  (arrange s.freeCount (allIndices.filter fun p => (s.prog p).hasOnAir)).foldl State.restartClose s.useFree

theorem State.restartCloses_around (s : State) : s.Around s.restartCloses :=
  (State.Around.mk rfl rfl rfl rfl rfl (State.onlyRaised_of_ports rfl) : s.Around s.useFree).trans
    (Machine.restartCloses_around _ s.useFree)

theorem State.restartCloses_escalation (s : State) (p : Index) :
    (s.restartCloses.prog p).entry.escalation = (s.prog p).entry.escalation :=
  foldl_keeps (M := fun t => (t.prog p).entry.escalation = (s.prog p).entry.escalation) _
    (fun t q h => (t.restartClose_escalation q p).trans h) _ s.useFree rfl

theorem State.restart_port (s : State) (x : PortId) :
    s.restart.port x = { Port.reset with reply := (s.port x).reply } := by
  have raised := (s.restartCloses_around.raised x).1
  have h : s.restart.port x = (s.restartCloses.port x).restarted := Trio.get_map _ _ _
  rw [h, raised]
  rfl

theorem State.restart_lines (s : State) : s.restart.lines = s.lines.map CueLine.restarted := by
  show s.restartCloses.lines.map CueLine.restarted = _
  rw [s.restartCloses_around.lines]

theorem State.restart_line (s : State) (k : Index) : s.restart.line k = (s.line k).restarted := by
  unfold State.line
  rw [s.restart_lines]
  exact Octet.get_map _ _ _

/-! ### What a restart leaves of a programme -/

/-- A programme after its close in a restart, if it has a segment on air. -/
def Prog.restartCut (P : Prog) (line : List Stage) (n : Nat) : Prog :=
  if P.hasOnAir then (boundaryWork line P).2.closed n else P

/-- Of the entry the close leaves all but the counter and the state of a STOPPING programme, whose stop completes (R35). -/
theorem Prog.restartCut_entry (P : Prog) (line : List Stage) (n : Nat) : ∃ st m,
    (P.restartCut line n).entry = { P.entry with state := st, escalation := m }
      ∧ st.restarted = P.entry.state.restarted := by
  unfold Prog.restartCut
  split
  · obtain ⟨_, _, _, _, entry, _⟩ := boundaryWork_facts line P
    rw [Prog.closed_entry]
    rcases entry with entry | ⟨stopping, entry⟩ <;> rw [entry]
    · exact ⟨_, _, rfl, rfl⟩
    · exact ⟨_, _, rfl, by rw [stopping]; rfl⟩
  · exact ⟨_, _, rfl, rfl⟩

/-- R40: the entry of a programme after a restart, but for its escalation counter. -/
theorem Prog.restarted_entry (P : Prog) (lines : Octet CueLine) (line : List Stage) (n : Nat) : ∃ m,
    (Prog.restarted lines (P.restartCut line n)).entry = { P.entry with
      state := P.entry.state.restarted
      custodian := none
      active := P.entry.active.apply P.entry.pending
      pending := .empty
      escalation := m } := by
  obtain ⟨st, m, entry, state⟩ := P.restartCut_entry line n
  refine ⟨m, ?_⟩
  show { (P.restartCut line n).applyPending.entry with
    state := (P.restartCut line n).entry.state.restarted, custodian := none } = _
  rw [Prog.applyPending_entry, entry, ← state]

theorem State.restart_escalation (s : State) (p : Index) :
    (s.restart.prog p).entry.escalation = (s.prog p).entry.escalation := by
  have h : s.restart.prog p = Prog.restarted s.restartCloses.lines (s.restartCloses.prog p) := Octet.get_map _ _ _
  rw [h]
  exact s.restartCloses_escalation p

/-- R40: the entry of a programme after a restart. -/
theorem State.restart_entry (s : State) (p : Index) : (s.restart.prog p).entry = { (s.prog p).entry with
    state := (s.prog p).entry.state.restarted
    custodian := none
    active := (s.prog p).entry.active.apply (s.prog p).entry.pending
    pending := .empty } := by
  obtain ⟨line, n, _, prog⟩ := s.restart_prog p
  obtain ⟨m, entry⟩ := (s.prog p).restarted_entry s.lines line n
  have escalation := s.restart_escalation p
  rw [show s.restart.prog p = Prog.restarted s.lines ((s.prog p).restartCut line n) from prog, entry] at escalation ⊢
  rw [show m = (s.prog p).entry.escalation from escalation]

/-- R177: whether a tally is inactive depends on the tally and the lines alone. -/
theorem Prog.tallyInactive_congr {P Q : Prog} (lines : Octet CueLine) (h : Q.entry.tally = P.entry.tally) :
    Q.tallyInactive lines = P.tallyInactive lines := by
  unfold Prog.tallyInactive
  rw [h]

/-- R178: a restart changes the active level of no line. -/
theorem Prog.tallyInactive_restarted (P : Prog) (lines : Octet CueLine) :
    P.tallyInactive (lines.map CueLine.restarted) = P.tallyInactive lines := by
  unfold Prog.tallyInactive
  cases P.entry.tally with
  | none => rfl
  | some k =>
    simp only [Octet.get_map]
    rfl

/-- R68: the engine of a programme after a restart starts from rest, with its Programme Account as the close left it. -/
theorem State.restart_meas (s : State) (p : Index) : ∃ line n, (s.restart.prog p).meas =
    { ((s.prog p).restartCut line n).meas.start ((s.prog p).tallyInactive s.lines) with segAccount := none } := by
  obtain ⟨line, n, _, prog⟩ := s.restart_prog p
  obtain ⟨_, _, entry, _⟩ := (s.prog p).restartCut_entry line n
  refine ⟨line, n, ?_⟩
  rw [prog, ← Prog.tallyInactive_congr (P := s.prog p) (Q := (s.prog p).restartCut line n) s.lines (by rw [entry])]
  rfl

/-- R133: the Gain Stage of a programme after a restart stands at its power-on values, but for an old ceiling (log 26). -/
theorem State.restart_gain (s : State) (p : Index) :
    (s.restart.prog p).gain = { Gain.reset with oldCeiling := (s.restart.prog p).gain.oldCeiling } := by
  obtain ⟨_, _, _, prog⟩ := s.restart_prog p
  rw [prog]
  rfl

/-- R114: a programme with no ramp whose law holds is FROZEN. -/
theorem Prog.mode_frozen {P : Prog} (ramp : P.gain.ramp = none) (holding : P.gain.holding = true) : P.mode = .frozen := by
  unfold Prog.mode
  simp [ramp, holding]

/-- What a restart makes of the ceiling of a programme after its close (R131, log 26). -/
theorem Prog.restarted_oldCeiling (P : Prog) (lines : Octet CueLine) : (Prog.restarted lines P).gain.oldCeiling
    = ceilingChange P.entry.active.ceiling (Prog.restarted lines P).entry.active.ceiling P.gain.oldCeiling := rfl

/-- What is left of a programme whose segment a restart has closed: the Programme Account as the boundary leaves it, and an old
ceiling by the change of the ceiling that its pending set makes (R104, R131, log 26). -/
theorem Prog.restarted_cut (P : Prog) (lines : Octet CueLine) (line : List Stage) (n : Nat) :
    let cut := (boundaryWork line P).2
    let Q := Prog.restarted lines (cut.closed n)
    Q.meas.account = cut.meas.account ∧ Q.gain.oldCeiling
      = ceilingChange P.entry.active.ceiling Q.entry.active.ceiling cut.gain.oldCeiling := by
  intro cut Q
  have account : (cut.closed n).meas.account = cut.meas.account := (congrArg Measure.account (cut.closed_meas n) :)
  have active : (cut.closed n).entry.active = P.entry.active := by
    obtain ⟨_, _, _, _, entry, _⟩ := boundaryWork_facts line P
    have kept : (cut.closed n).entry.active = cut.entry.active := (congrArg Entry.active (cut.closed_entry n) :)
    rw [kept]
    rcases entry with entry | ⟨_, entry⟩
    · exact congrArg Entry.active entry
    · exact (congrArg Entry.active entry :)
  refine ⟨account, ?_⟩
  rw [Prog.restarted_oldCeiling, active, Prog.closed_gain]

/-- A programme with nothing on air goes through a restart with no close. -/
theorem State.restart_prog_silent {s : State} {p : Index} (h : (s.prog p).queue.onAir = none) :
    s.restart.prog p = Prog.restarted s.lines (s.prog p) := by
  obtain ⟨_, _, _, prog⟩ := s.restart_prog p
  rw [if_neg (by simp [Prog.hasOnAir, h])] at prog
  exact prog

/-! ### The records -/

theorem Prog.hasOnAir_iff (P : Prog) : P.hasOnAir = true ↔ ∃ o, P.queue.onAir = some o := Option.isSome_iff_exists

/-- The record of a programme that a restart closes, and of no other (R104). -/
theorem State.restartRecord_some_iff (s : State) (p : Index) (r : ResultRecord) : s.restartRecord p = some r ↔
    ∃ o, (s.prog p).queue.onAir = some o
      ∧ ((boundaryWork s.audio.line (s.prog p)).2.resultRecord p o .restart).judged = r := Option.map_eq_some_iff

/-- R104, R105: the record a restart posts is INTERRUPTED, with the account after the boundary and the gain at the end. -/
theorem State.restartRecord_facts {s : State} {p : Index} {r : ResultRecord} (h : s.restartRecord p = some r) :
    r.programme = p ∧ r.verdict = .interrupted ∧ r.endCause = .restart ∧ ∀ o, (s.prog p).queue.onAir = some o →
      r.closes p o .restart (s.prog p).gain.applied (boundaryWork s.audio.line (s.prog p)).2.meas.segAccount := by
  obtain ⟨o, onAir, rfl⟩ := (s.restartRecord_some_iff p r).mp h
  refine ⟨rfl, rfl, rfl, fun o' onAir' => ?_⟩
  obtain rfl : o = o' := Option.some.inj (onAir.symm.trans onAir')
  obtain ⟨_, _, _, _, _, applied, _⟩ := boundaryWork_facts s.audio.line (s.prog p)
  refine ⟨rfl, rfl, rfl, rfl, rfl, rfl, rfl, rfl, rfl, rfl, rfl, rfl, rfl, rfl, rfl, ?_, rfl, rfl, fun b account => ?_⟩
  · exact congrArg roundAway applied
  · simp only [ResultRecord.judged, Prog.resultRecord, account, Option.getD_some, and_self]

/-- The records of the programmes of a list, each with a segment on air: one of each, in the list's order. -/
theorem State.restartRecords_programmes (s : State) (l : List Index) (h : ∀ p ∈ l, (s.prog p).hasOnAir = true) :
    (l.filterMap s.restartRecord).map (·.programme) = l := by
  induction l with
  | nil => rfl
  | cons a l ih =>
    obtain ⟨o, onAir⟩ := (s.prog a).hasOnAir_iff.mp (h a List.mem_cons_self)
    have record := (s.restartRecord_some_iff a _).mpr ⟨o, onAir, rfl⟩
    rw [List.filterMap_cons_some record, List.map_cons, ih fun p hp => h p (List.mem_cons_of_mem _ hp)]
    rfl

/-- R69: in a state that fits, a programme with a segment on air is active. -/
theorem Prog.fitsState.active {P : Prog} (fits : P.fitsState) (h : P.hasOnAir = true) : P.isActive = true := by
  rw [Prog.isActive_iff]
  intro inactive
  rw [Prog.hasOnAir, fits.1 inactive] at h
  cases h

/-- The records that a restart posts, with the line and the slots as every step keeps them (R104, R105, R140). -/
theorem State.restart_records {s : State} (hs : s.Apart) (fits : s.statesFit) : ∃ records : List ResultRecord,
    (s.restart.log, s.restart.discards) = records.foldl appendRecord (s.log, s.discards)
    ∧ (∀ p, (∃ r ∈ records, r.programme = p) ↔ ∃ o, (s.prog p).queue.onAir = some o)
    ∧ (records.map (·.programme)).Nodup
    ∧ ∀ r ∈ records, s.restartRecord r.programme = some r := by
  obtain ⟨⟨order, nodup, mem, log⟩, _⟩ := s.restart_closes hs fun p h => (fits p).active h
  have programmes := s.restartRecords_programmes order fun p hp => (mem p).mp hp
  refine ⟨order.filterMap s.restartRecord, log, fun p => ?_, by rwa [programmes], fun r hr => ?_⟩
  · rw [← Prog.hasOnAir_iff, ← mem, ← programmes, List.mem_map, programmes]
  · obtain ⟨p, _, record⟩ := List.mem_filterMap.mp hr
    obtain ⟨programme, _⟩ := State.restartRecord_facts record
    rw [programme, record]

/-! ### The records, with room for them all -/

theorem appendRecord_room {l : List ResultRecord × Nat} (h : l.1.length < 48) (r : ResultRecord) :
    appendRecord l r = (l.1 ++ [{ r with discardsBefore := 0 }], l.2) := if_pos h

/-- One close of a programme with a segment on air, the log having room (R104, R140). -/
theorem State.restartClose_room {s : State} {p : Index} {o : OnAir} (room : s.log.length < 48)
    (onAir : (s.prog p).queue.onAir = some o) : ∃ r, (s.restartClose p).log = s.log ++ [r]
      ∧ (s.restartClose p).discards = s.discards ∧ r.verdict = .interrupted ∧ r.endCause = .restart ∧ r.programme = p
      ∧ r.id = o.record.id := by
  have record := (s.restartRecord_some_iff p _).mpr ⟨o, onAir, rfl⟩
  have log := s.restartClose_log p
  rw [record, Option.toList_some, List.foldl_cons, List.foldl_nil, appendRecord_room room] at log
  obtain ⟨log, discards⟩ := Prod.mk.inj log
  exact ⟨_, log, discards, rfl, rfl, rfl, rfl⟩

/-- The closes of a restart, in any order, the log having room for them all: the records follow the log before. -/
theorem restartCloses_room (l : List Index) : ∀ s : State, l.Nodup → (∀ p ∈ l, (s.prog p).hasOnAir = true) →
    s.log.length + l.length ≤ 48 → ∃ new, (l.foldl State.restartClose s).log = s.log ++ new
      ∧ (l.foldl State.restartClose s).discards = s.discards ∧ new.length = l.length
      ∧ (∀ r ∈ new, r.verdict = .interrupted ∧ r.endCause = .restart ∧ r.programme ∈ l)
      ∧ ∀ p ∈ l, ∀ o, (s.prog p).queue.onAir = some o → ∃ r ∈ new, r.programme = p ∧ r.id = o.record.id := by
  induction l with
  | nil => exact fun s _ _ _ => ⟨[], by simp⟩
  | cons a l ih =>
    intro s nd air room
    rw [List.nodup_cons] at nd
    rw [List.length_cons] at room
    obtain ⟨o, onAir⟩ := (s.prog a).hasOnAir_iff.mp (air a List.mem_cons_self)
    obtain ⟨r, log, discards, verdict, cause, programme, id⟩ := State.restartClose_room (by omega) onAir
    have same : ∀ q ∈ l, (s.restartClose a).prog q = s.prog q := fun q hq =>
      State.restartClose_prog_other s a q fun e => nd.1 (e ▸ hq)
    obtain ⟨new, logs, tally, length, each, named⟩ := ih (s.restartClose a) nd.2
      (fun q hq => by rw [same q hq]; exact air q (List.mem_cons_of_mem _ hq))
      (by rw [log, List.length_append, List.length_singleton]; omega)
    refine ⟨r :: new, ?_, tally.trans discards, by rw [List.length_cons, length, List.length_cons], fun v hv => ?_,
      fun p hp o' onAir' => ?_⟩
    · rw [List.foldl_cons, logs, log, List.append_assoc, List.singleton_append]
    · rcases List.mem_cons.mp hv with rfl | hv
      · exact ⟨verdict, cause, programme ▸ List.mem_cons_self⟩
      · obtain ⟨h1, h2, h3⟩ := each v hv
        exact ⟨h1, h2, List.mem_cons_of_mem _ h3⟩
    · rcases List.mem_cons.mp hp with rfl | hp
      · obtain rfl : o = o' := Option.some.inj (onAir.symm.trans onAir')
        exact ⟨r, List.mem_cons_self, programme, id⟩
      · obtain ⟨v, hv, h⟩ := named p hp o' (by rw [same p hp]; exact onAir')
        exact ⟨v, List.mem_cons_of_mem _ hv, h⟩

/-- The records of a restart, the log having room for them all (R104, R140). -/
theorem State.restart_room {s : State}
    (room : s.log.length + (allIndices.filter fun p => (s.prog p).hasOnAir).length ≤ 48) :
    ∃ new, s.restart.log = s.log ++ new ∧ new.length = (allIndices.filter fun p => (s.prog p).hasOnAir).length
      ∧ s.restart.discards = s.discards
      ∧ (∀ r ∈ new, r.verdict = .interrupted ∧ r.endCause = .restart ∧ (s.prog r.programme).hasOnAir = true)
      ∧ ∀ p o, (s.prog p).queue.onAir = some o → ∃ r ∈ new, r.programme = p ∧ r.id = o.record.id := by
  have perm := arrange_perm s.freeCount (allIndices.filter fun p => (s.prog p).hasOnAir)
  have mem : ∀ p, p ∈ arrange s.freeCount (allIndices.filter fun p => (s.prog p).hasOnAir) ↔ (s.prog p).hasOnAir = true :=
    fun p => by rw [mem_arrange, List.mem_filter, and_iff_right (mem_allIndices p)]
  obtain ⟨new, log, discards, length, each, named⟩ := restartCloses_room
    (arrange s.freeCount (allIndices.filter fun p => (s.prog p).hasOnAir)) s.useFree
    (perm.nodup_iff.mpr (List.Nodup.filter _ (by decide))) (fun p hp => (mem p).mp hp)
    (by rw [perm.length_eq]; exact room)
  refine ⟨new, log, length.trans perm.length_eq, discards, fun r hr => ?_, fun p o onAir => ?_⟩
  · obtain ⟨verdict, cause, programme⟩ := each r hr
    exact ⟨verdict, cause, (mem _).mp programme⟩
  · exact named p ((mem p).mpr ((s.prog p).hasOnAir_iff.mpr ⟨o, onAir⟩)) o onAir

/-! ### The whole restart -/

/-- The straps, the arming of the pin and the commands waiting stay through a restart (R152, R179; logs 18 and 22). -/
theorem State.restart_part (s : State) : s.restart.override = s.override ∧ s.restart.baud = s.baud
    ∧ s.restart.restartArmed = s.restartArmed ∧ s.restart.pending = s.pending :=
  ⟨s.restartCloses_around.override, s.restartCloses_around.baud, s.restartCloses_around.armed,
    s.restartCloses_around.pending⟩

/-- Settles O27: the rows, what a restart leaves of each block, and its records, in any state and in one that fits. -/
theorem restart : Obligations.Restart := by
  refine ⟨fun s => ⟨rfl, fun h => congrArg Host.Outcome.next (State.pinLow_armed h),
      fun h => congrArg Host.Outcome.next (State.pinLow_unarmed h),
      fun x tag hs => ⟨devRestart_ok hs tag, devRestart_noRights hs tag⟩⟩,
    fun s => ?_, fun s shaped disjoint fits => ?_, fun s => State.restart_room⟩
  · obtain ⟨override, baud, armed, pending⟩ := s.restart_part
    refine ⟨s.restart_audio, override, baud, armed, pending, fun k => ?_, fun x => ?_, fun p => ?_⟩
    · rw [State.restart_line]
      exact ⟨rfl, rfl, rfl, rfl, rfl⟩
    · rw [State.restart_port]
      exact ⟨rfl, rfl, rfl, rfl, rfl, rfl, NoticeSet.get_clear, rfl, Port.attn_clear rfl, rfl, rfl, rfl⟩
    · have entry := s.restart_entry p
      have gain := s.restart_gain p
      obtain ⟨line, n, meas⟩ := s.restart_meas p
      have tally : (s.restart.prog p).meas.tallyLatch = (s.restart.prog p).tallyInactive s.restart.lines := by
        rw [s.restart_lines, Prog.tallyInactive_restarted,
          Prog.tallyInactive_congr (P := s.prog p) (Q := s.restart.prog p) s.lines (by rw [entry]), meas]
        rfl
      have silent : (s.prog p).queue.onAir = none → (s.restart.prog p).meas.account = (s.prog p).meas.account
          ∧ (s.restart.prog p).gain.oldCeiling = ceilingChange (s.prog p).entry.active.ceiling
            (s.restart.prog p).entry.active.ceiling (s.prog p).gain.oldCeiling := fun h => by
        rw [State.restart_prog_silent h]
        exact ⟨rfl, rfl⟩
      have queue : (s.restart.prog p).queue = .reset := by
        obtain ⟨_, _, _, prog⟩ := s.restart_prog p
        rw [prog]
        rfl
      have mode : (s.restart.prog p).mode = .frozen := Prog.mode_frozen (by rw [gain]; rfl) (by rw [gain]; rfl)
      have state : (s.restart.prog p).entry.state = (s.prog p).entry.state.restarted := congrArg Entry.state entry
      exact ⟨queue, congrArg Entry.custodian entry, (congrArg Entry.rights entry :), (congrArg Entry.base entry :),
        (congrArg Entry.width entry :), (congrArg Entry.trigger entry :), (congrArg Entry.tally entry :),
        (congrArg Entry.escalation entry :), congrArg Entry.active entry, congrArg Entry.pending entry,
        fun h => state.trans (congrArg _ h), fun h => state.trans (congrArg _ h), fun h => state.trans (congrArg _ h),
        fun h => state.trans (congrArg _ h), fun h => state.trans (congrArg _ h),
        congrArg Measure.inHist meas, congrArg Measure.outHist meas, congrArg Measure.clock meas,
        congrArg Measure.inFlight meas, congrArg Measure.segAccount meas, congrArg Measure.inFilters meas,
        congrArg Measure.outFilters meas, congrArg Measure.inSum meas, congrArg Measure.outSum meas,
        congrArg Measure.held meas, tally, silent, congrArg Gain.applied gain, congrArg Gain.desired gain,
        congrArg Gain.policy gain, congrArg Gain.holding gain, congrArg Gain.ramp gain, congrArg Gain.window gain,
        congrArg Gain.reduction gain, congrArg Gain.passed gain, mode⟩
  · have apart : s.Apart := ⟨shaped, disjoint⟩
    obtain ⟨records, log, programmes, nodup, each⟩ := State.restart_records apart fits
    refine ⟨⟨records, log, programmes, nodup, fun r hr => ?_⟩, fun p o onAir => ?_⟩
    · obtain ⟨_, verdict, _, closes⟩ := State.restartRecord_facts (each r hr)
      exact ⟨verdict, closes⟩
    · have air := (s.prog p).hasOnAir_iff.mpr ⟨o, onAir⟩
      obtain ⟨n, prog⟩ := (s.restart_closes apart fun p h => (fits p).active h).2 p air
      rw [prog]
      exact Prog.restarted_cut (s.prog p) s.lines s.audio.line n

end Sys2Proof.Machine
end

section
/-! The plan of the programmes (02_programmes.md): their slots, triggers and which are active. Only a reset, PROG.SET and
PROG.ACTIVATE give a programme a slot or a trigger or make it active; so what these keep of the plan, every step keeps (R17,
R20). -/

namespace Sys2Proof.Machine

/-! ### What the other pieces leave of the plan -/

/-- Slots and trigger have stayed, and a programme that was INACTIVE still is. -/
structure Prog.SamePlan (P Q : Prog) : Prop where
  base : Q.entry.base = P.entry.base
  width : Q.entry.width = P.entry.width
  trigger : Q.entry.trigger = P.entry.trigger
  active : Q.isActive = true → P.isActive = true

theorem Prog.SamePlan.refl (P : Prog) : P.SamePlan P := ⟨rfl, rfl, rfl, id⟩

theorem Prog.SamePlan.trans {P Q R : Prog} (a : P.SamePlan Q) (b : Q.SamePlan R) : P.SamePlan R :=
  ⟨b.base.trans a.base, b.width.trans a.width, b.trigger.trans a.trigger, a.active ∘ b.active⟩

theorem Prog.SamePlan.of_entry {P Q : Prog} (h : Q.entry = P.entry) : P.SamePlan Q :=
  ⟨by rw [h], by rw [h], by rw [h], by rw [Prog.isActive, Prog.isActive, h]; exact id⟩

theorem Prog.SamePlan.overlaps {P P' Q Q' : Prog} (a : P.SamePlan P') (b : Q.SamePlan Q') :
    P'.entry.overlaps Q'.entry = P.entry.overlaps Q.entry := by
  rw [Entry.overlaps, Entry.overlaps, a.base, a.width, b.base, b.width]

theorem Prog.Worked.samePlan {P Q : Prog} (w : P.Worked Q) : P.SamePlan Q := by
  rcases w.entry with h | ⟨stopping, h⟩
  · exact .of_entry h
  · exact ⟨by rw [h], by rw [h], by rw [h], fun _ => by simp [Prog.isActive, stopping]⟩

theorem boundaryWork_samePlan (line : List Stage) (P : Prog) : P.SamePlan (boundaryWork line P).2 :=
  .trans (Q := P.setGain (fixAll P.entry line P.gain).2) (.of_entry rfl) (Prog.boundaryMeasure_worked _ _).samePlan

theorem Prog.closed_samePlan (P : Prog) (n : Nat) : P.SamePlan (P.closed n) := by
  unfold Prog.closed
  split
  · exact ⟨rfl, rfl, rfl, id⟩
  · exact .refl P

theorem Prog.applyPending_samePlan (P : Prog) : P.SamePlan P.applyPending := ⟨rfl, rfl, rfl, id⟩

theorem Prog.ended_samePlan (line : List Stage) (n : Nat) (P : Prog) : P.SamePlan (P.ended line n) :=
  ((boundaryWork_samePlan line P).trans (Prog.closed_samePlan _ n)).trans (Prog.applyPending_samePlan _)

theorem Prog.becomeInactive_samePlan (P : Prog) : P.SamePlan P.becomeInactive :=
  ⟨rfl, rfl, rfl, fun h => absurd h (by simp [Prog.isActive, Prog.becomeInactive, Entry.setState])⟩

theorem Prog.withdrawn_samePlan (P : Prog) : P.SamePlan P.withdrawn := ⟨rfl, rfl, rfl, id⟩

/-- R40: a restart makes no programme active. -/
theorem Prog.restarted_samePlan (lines : Octet CueLine) (P : Prog) : P.SamePlan (Prog.restarted lines P) := by
  refine ⟨rfl, rfl, rfl, ?_⟩
  simp only [Prog.isActive_iff]
  intro h inactive
  exact h (by simp [Prog.restarted, inactive, ProgState.restarted])

theorem Prog.tune_samePlan (P : Prog) (v : TunableSet) : P.SamePlan (P.tune v) := by
  unfold Prog.tune
  split <;> exact ⟨rfl, rfl, rfl, id⟩

theorem Prog.tallyChange_samePlan (P : Prog) (k : Index) (active : Bool) : P.SamePlan (P.tallyChange k active) := by
  unfold Prog.tallyChange
  split <;> exact ⟨rfl, rfl, rfl, id⟩

/-! ### The same, of all the programmes -/

/-- The plan of every programme has stayed. -/
def State.SamePlan (s t : State) : Prop := ∀ q, (s.prog q).SamePlan (t.prog q)

theorem State.SamePlan.of_progs {s t : State} (h : t.progs = s.progs) : s.SamePlan t := fun q => by
  rw [State.prog, State.prog, h]
  exact .refl _

/-- A piece of work that touches one programme and keeps its plan keeps them all. -/
theorem State.SamePlan.of_one {s t : State} {p : Index} (own : (s.prog p).SamePlan (t.prog p))
    (other : ∀ q, q ≠ p → t.prog q = s.prog q) : s.SamePlan t := fun q => by
  by_cases h : q = p
  · exact h ▸ own
  · rw [other q h]
    exact .refl _

theorem State.updProg_samePlan (s : State) (p : Index) (f : Prog → Prog) (h : (s.prog p).SamePlan (f (s.prog p))) :
    s.SamePlan (s.updProg p f) :=
  .of_one (by rw [State.updProg_prog_same]; exact h) fun q hq => State.updProg_prog_other s p q f hq

theorem State.takeStages_samePlan (s : State) (p : Index) (cause : TakeCause) : s.SamePlan (s.takeStages p cause) := by
  refine .of_one (p := p) ?_ fun q => State.takeStages_prog_other s p q cause
  obtain ⟨n, _, h⟩ := s.takeStages_prog_same p cause
  rw [h]
  exact (Prog.ended_samePlan _ n _).trans (.of_entry (Prog.goOnAir_entry _ _ _))

theorem State.endSegment_samePlan (s : State) (p : Index) (cause : EndCause) : s.SamePlan (s.endSegment p cause) := by
  refine .of_one (p := p) ?_ fun q => State.endSegment_prog_other s p q cause
  obtain ⟨n, _, h⟩ := s.endSegment_prog_same p cause
  rw [h]
  split
  · exact (Prog.ended_samePlan _ n _).trans (Prog.becomeInactive_samePlan _)
  · exact (Prog.ended_samePlan _ n _).trans (.of_entry rfl)

theorem State.closeBlock_samePlan (s : State) (p : Index) : s.SamePlan (s.closeBlock p) := by
  have h := s.updProg_samePlan p Prog.closeBlock (Prog.closeBlock_worked _).samePlan
  unfold State.closeBlock
  simp only
  split <;> exact h

theorem State.restart_samePlan (s : State) : s.SamePlan s.restart := fun q => by
  obtain ⟨line, n, _, h⟩ := s.restart_prog q
  rw [h]
  split
  · exact ((boundaryWork_samePlan line _).trans (Prog.closed_samePlan _ n)).trans (Prog.restarted_samePlan _ _)
  · exact Prog.restarted_samePlan _ _

theorem State.completeFrame_samePlan (s : State) (slots : List (BitVec 32)) : s.SamePlan (s.completeFrame slots) := by
  unfold State.completeFrame
  split
  · split
    · intro q
      obtain ⟨inactive, active⟩ := s.processFrame_prog (frameSamples slots) q
      by_cases h : (s.prog q).isActive = true
      · obtain ⟨line, hq⟩ := active h
        rw [hq]
        exact .of_entry (Prog.handFrame_facts _ _ _ _).1
      · rw [inactive (Bool.eq_false_iff.mpr h)]
        exact .refl _
    · exact .of_progs rfl
    · exact .of_progs rfl
  · exact .of_progs rfl

theorem State.takeFrameSync_progs (s : State) : s.takeFrameSync.progs = s.progs := by
  unfold State.takeFrameSync
  cases s.audio.detector with
  | lost => rfl
  | recovering => rfl
  | locked => simp only; split <;> rfl

theorem State.missSync_progs (s : State) : s.missSync.progs = s.progs := by
  unfold State.missSync
  split
  · cases s.audio.detector <;> rfl
  · rfl

theorem State.expireWatch_progs (s : State) : s.expireWatch.progs = s.progs := by
  unfold State.expireWatch
  split
  · cases s.audio.detector <;> rfl
  · rfl

theorem State.lapse_samePlan (s : State) (x : PortId) : s.SamePlan (s.lapse x) := fun q => by
  have h : (s.lapse x).prog q = (s.prog q).lapse x := by
    unfold State.lapse
    simp only
    split <;> split <;>
      simp only [State.raiseAt_prog, State.mapPorts_prog, State.mapProgs_prog, State.updPort_prog]
  rw [h]
  exact ⟨rfl, rfl, rfl, id⟩

theorem State.tallyChange_samePlan (s : State) (k : Index) (active : Bool) :
    s.SamePlan (s.mapProgs (Prog.tallyChange k active)) := fun q => by
  rw [State.mapProgs_prog]
  exact Prog.tallyChange_samePlan _ k active

/-- A deactivation that is taken leaves no programme active that was INACTIVE. -/
theorem State.deactivation_samePlan (s : State) (p : Index) (force : Bool) (active : (s.prog p).isActive = true) :
    s.SamePlan (s.deactivation p force) := by
  refine .of_one (p := p) ?_ fun q => s.deactivation_prog_other p q force
  obtain ⟨n, _, h⟩ := s.deactivation_prog_same p force
  rw [h]
  split
  · split
    · exact ((Prog.ended_samePlan _ n _).trans (Prog.withdrawn_samePlan _)).trans (Prog.becomeInactive_samePlan _)
    · split
      · exact .refl _
      · exact ⟨rfl, rfl, rfl, fun _ => active⟩
  · exact (Prog.withdrawn_samePlan _).trans (Prog.becomeInactive_samePlan _)

theorem State.run_samePlan (s : State) (p : Index) : s.SamePlan (s.run p) := by
  unfold State.run
  cases h : (s.prog p).entry.state with
  | stopping => exact s.updProg_samePlan p (fun P => P.setState .running) ⟨rfl, rfl, rfl, fun _ => by simp [Prog.isActive, h]⟩
  | stopped => exact s.updProg_samePlan p (fun P => P.resume _) ⟨rfl, rfl, rfl, fun _ => by simp [Prog.isActive, h]⟩
  | running => exact .of_progs rfl
  | inactive => exact .of_progs rfl
  | draining => exact .of_progs rfl

theorem State.withdraw_samePlan (s : State) (x : PortId) (p : Index) (r : SegRecord) : s.SamePlan (s.withdraw x p r) := by
  have h := s.updProg_samePlan p (fun P => P.setQueue (P.queue.remove r.id)) ⟨rfl, rfl, rfl, id⟩
  unfold State.withdraw
  simp only
  split <;> exact h

/-! ### A property of the plan -/

/-- A property of states that a kept plan keeps, and that a reset, PROG.SET and PROG.ACTIVATE keep. -/
structure PlanKept (M : State → Prop) : Prop where
  same : ∀ s t : State, s.SamePlan t → M s → M t
  powerOn : ∀ (s : State) straps levels, M (s.powerOn straps levels)
  configure : ∀ (s : State) p base width trig tally, slotsLegal base width = true → s.closesCycle p trig = false →
      (s.prog p).entry.state = .inactive → M s → M (s.updProg p fun P => P.configure base width trig tally)
  activate : ∀ (s : State) p, s.slotsTaken p = false → M s → M (s.activate p)

theorem PlanKept.of_progs {M : State → Prop} (K : PlanKept M) {s t : State} (h : t.progs = s.progs) : M s → M t :=
  K.same s t (.of_progs h)

theorem PlanKept.kept {M : State → Prop} (K : PlanKept M) : Kept M where
  free := fun _ => K.of_progs rfl
  raise := fun _ _ _ => K.of_progs rfl
  stages := fun s p cause _ => K.same _ _ (s.takeStages_samePlan p cause)
  overrun := fun s p => K.same _ _ (s.updProg_samePlan p Prog.overran ⟨rfl, rfl, rfl, id⟩)
  finish := fun s p cause _ => K.same _ _ (s.endSegment_samePlan p cause)
  lock := fun _ _ => K.of_progs rfl
  close := fun s p _ => K.same _ _ (s.closeBlock_samePlan p)
  ramp := fun s p _ => K.same _ _ (s.updProg_samePlan p _ ⟨rfl, rfl, rfl, id⟩)
  powerOn := K.powerOn
  queue := fun _ _ => K.of_progs rfl
  armed := fun _ _ => K.of_progs rfl
  restart := fun s => K.same _ _ s.restart_samePlan
  tick := fun _ => K.of_progs rfl
  frameSync := fun s _ => K.of_progs s.takeFrameSync_progs
  missSync := fun s => K.of_progs s.missSync_progs
  expireWatch := fun s => K.of_progs s.expireWatch_progs
  frame := fun s slots _ => K.same _ _ (s.completeFrame_samePlan slots)
  line := fun _ _ _ => K.of_progs rfl
  edges := fun s k active => K.same _ _ (s.tallyChange_samePlan k active)
  tally := fun s k active => K.same _ _ (s.tallyChange_samePlan k active)
  quiet := fun _ _ _ _ => K.of_progs rfl
  arrived := fun _ _ => K.of_progs rfl
  clear := fun _ _ _ => K.of_progs rfl
  timer := fun _ _ _ _ _ => K.of_progs rfl
  lapse := fun s x => K.same _ _ (s.lapse_samePlan x)
  copy := fun _ _ _ _ => K.of_progs rfl
  read := fun _ _ _ _ => K.of_progs rfl
  fetch := fun _ => K.of_progs rfl
  configure := K.configure
  activate := fun s p free _ => K.activate s p free
  deactivation := fun s p force active => K.same _ _ (s.deactivation_samePlan p force active)
  run := fun s p _ => K.same _ _ (s.run_samePlan p)
  stop := fun s p running _ => K.same _ _
    (s.updProg_samePlan p (fun P => P.setState .stopping) ⟨rfl, rfl, rfl, fun _ => by simp [Prog.isActive, running]⟩)
  tune := fun s p v _ => K.same _ _ (s.updProg_samePlan p _ (Prog.tune_samePlan _ v))
  claim := fun s p _ _ => K.same _ _ (s.updProg_samePlan p (Prog.withCustodian _) ⟨rfl, rfl, rfl, id⟩)
  release := fun s p => K.same _ _ (s.updProg_samePlan p (Prog.withCustodian _) ⟨rfl, rfl, rfl, id⟩)
  rights := fun s p v => K.same _ _ (s.updProg_samePlan p (Prog.withRights v) ⟨rfl, rfl, rfl, id⟩)
  clearAccount := fun s p => K.same _ _ (s.updProg_samePlan p _ ⟨rfl, rfl, rfl, id⟩)
  cue := fun s p _ _ _ _ _ _ => K.same _ _ (s.updProg_samePlan p _ ⟨rfl, rfl, rfl, id⟩)
  amend := fun s p _ _ _ _ => K.same _ _ (s.updProg_samePlan p _ ⟨rfl, rfl, rfl, id⟩)
  withdraw := fun s x p r _ _ => K.same _ _ (s.withdraw_samePlan x p r)

/-! ### The follow relation -/

theorem State.followAcyclic_of_triggers {s t : State} (same : ∀ q, (t.prog q).entry.trigger = (s.prog q).entry.trigger)
    (h : s.followAcyclic) : t.followAcyclic := by
  obtain ⟨rank, climbs⟩ := h
  exact ⟨rank, fun q i hq => climbs q i ((same q).symm.trans hq)⟩

/-- R27: a trigger that closes no cycle leaves the relation acyclic. A set `R` holds the new leader with its chain, and not the
programme: every programme outside `R` is ranked above all that the old ranking gives the leader. -/
theorem State.configure_followAcyclic {s : State} {p : Index} {trig : Trigger} (base width : Nat) (tally : Option Index)
    (opens : s.closesCycle p trig = false) (h : s.followAcyclic) :
    (s.updProg p fun P => P.configure base width trig tally).followAcyclic := by
  classical
  obtain ⟨rank, climbs⟩ := h
  have others : ∀ q, q ≠ p → ∀ i, ((s.updProg p fun P => P.configure base width trig tally).prog q).entry.trigger = .follow i →
      (s.prog q).entry.trigger = .follow i := fun q hq i h => by
    rwa [State.updProg_prog_other _ _ _ _ hq] at h
  have own : ∀ i, ((s.updProg p fun P => P.configure base width trig tally).prog p).entry.trigger = .follow i →
      trig = .follow i := fun i h => by
    rwa [State.updProg_prog_same] at h
  by_cases leads : ∃ leader, trig = .follow leader
  · obtain ⟨leader, rfl⟩ := leads
    have apart := mt (s.closesCycle_iff p leader).mpr (Bool.eq_false_iff.mp opens)
    push Not at apart
    obtain ⟨R, holds, closed, misses⟩ := apart
    refine ⟨fun q => if R q then rank q else rank q + rank leader + 1, fun q i hq => ?_⟩
    by_cases hqp : q = p
    · subst hqp
      obtain rfl : leader = i := Trigger.follow.inj (own i hq)
      simp only [if_pos holds, if_neg misses]
      omega
    · have trigger := others q hqp i hq
      have below := climbs q i trigger
      by_cases hR : R q
      · simpa only [if_pos hR, if_pos (closed q i hR trigger)] using below
      · simp only [if_neg hR]
        split <;> omega
  · refine ⟨rank, fun q i hq => ?_⟩
    by_cases hqp : q = p
    · subst hqp
      exact absurd ⟨i, own i hq⟩ leads
    · exact climbs q i (others q hqp i hq)

theorem followAcyclic_kept : PlanKept State.followAcyclic where
  same := fun _ _ same => State.followAcyclic_of_triggers fun q => (same q).trigger
  powerOn := fun s straps levels => ⟨fun _ => 0, fun q i h => by
    rw [State.powerOn_prog] at h
    cases h⟩
  configure := fun _ _ base width _ tally _ opens _ => State.configure_followAcyclic base width tally opens
  activate := fun s p _ => State.followAcyclic_of_triggers fun q => by
    by_cases h : q = p
    · subst h
      rw [State.activate_prog_same]
      rfl
    · rw [State.activate_prog_other _ _ _ h]

/-- Settles O51: of the pieces of a step only PROG.SET gives a trigger, and it refuses one that closes a cycle. -/
theorem stepKeepsFollowAcyclic : Obligations.StepKeepsFollowAcyclic := followAcyclic_kept.kept.step

/-! ### The slots -/

/-- R17: the slots of every entry lie within the frame, and those of active programmes apart. -/
def State.slotsPlanned (s : State) : Prop := s.slotsWithin ∧ s.slotsDisjoint

theorem State.slotsPlanned_of_samePlan {s t : State} (same : s.SamePlan t) : s.slotsPlanned → t.slotsPlanned := by
  rintro ⟨within, disjoint⟩
  refine ⟨fun p => ?_, fun p q hpq hp hq => ?_⟩
  · rw [(same p).base, (same p).width]
    exact within p
  · rw [(same p).overlaps (same q)]
    exact disjoint p q hpq ((same p).active hp) ((same q).active hq)

/-- Slots are disjoint when those of one programme are apart from the others', and the others' among each other. -/
theorem State.slotsDisjoint_of_one {s : State} (p : Index)
    (own : (s.prog p).isActive = true → ∀ q, q ≠ p → (s.prog q).isActive = true →
      (s.prog p).entry.overlaps (s.prog q).entry = false)
    (others : ∀ q r, q ≠ p → r ≠ p → q ≠ r → (s.prog q).isActive = true → (s.prog r).isActive = true →
      (s.prog q).entry.overlaps (s.prog r).entry = false) : s.slotsDisjoint := by
  intro q r hqr hq hr
  by_cases hqp : q = p
  · subst hqp
    exact own hq r hqr.symm hr
  · by_cases hrp : r = p
    · subst hrp
      rw [Entry.overlaps, Bool.and_comm]
      exact own hr q hqp hq
    · exact others q r hqp hrp hqr hq hr

theorem State.slotsPlanned_configure {s : State} {p : Index} {base width : Nat} (trig : Trigger) (tally : Option Index)
    (legal : slotsLegal base width = true) (inactive : (s.prog p).entry.state = .inactive) (h : s.slotsPlanned) :
    (s.updProg p fun P => P.configure base width trig tally).slotsPlanned := by
  obtain ⟨within, disjoint⟩ := h
  have other : ∀ q, q ≠ p → (s.updProg p fun P => P.configure base width trig tally).prog q = s.prog q :=
    fun q => State.updProg_prog_other s p q _
  refine ⟨fun q => ?_, State.slotsDisjoint_of_one p (fun active => ?_) fun q r hq hr => ?_⟩
  · by_cases hq : q = p
    · subst hq
      rw [State.updProg_prog_same]
      exact legal
    · rw [other q hq]
      exact within q
  · rw [State.updProg_prog_same] at active
    exact absurd inactive ((Prog.isActive_iff _).mp active)
  · rw [other q hq, other r hr]
    exact disjoint q r

/-- R28: PROG.ACTIVATE refuses a programme with a slot of an active one. -/
theorem State.slotsPlanned_activate {s : State} {p : Index} (free : s.slotsTaken p = false) (h : s.slotsPlanned) :
    (s.activate p).slotsPlanned := by
  obtain ⟨within, disjoint⟩ := h
  have own : (s.activate p).prog p = _ := s.activate_prog_same p
  have other := s.activate_prog_other p
  refine ⟨fun q => ?_, State.slotsDisjoint_of_one p (fun _ q hq active => ?_) fun q r hq hr => ?_⟩
  · by_cases hq : q = p
    · subst hq
      rw [own]
      exact within q
    · rw [other q hq]
      exact within q
  · rw [other q hq] at active ⊢
    rw [own]
    by_contra overlap
    exact Bool.eq_false_iff.mp free ((s.slotsTaken_iff p).mpr ⟨q, hq, active, Bool.eq_true_of_not_eq_false overlap⟩)
  · rw [other q hq, other r hr]
    exact disjoint q r

theorem slotsPlanned_kept : PlanKept State.slotsPlanned where
  same := fun _ _ => State.slotsPlanned_of_samePlan
  powerOn := fun s straps levels => by
    refine ⟨fun p => ?_, fun p q _ active => ?_⟩
    · rw [State.powerOn_prog]
      exact Entry.reset_slots p
    · rw [State.powerOn_prog] at active
      exact absurd rfl ((Prog.isActive_iff _).mp active)
  configure := fun _ _ _ _ trig tally legal _ inactive => State.slotsPlanned_configure trig tally legal inactive
  activate := fun _ _ => State.slotsPlanned_activate

/-- Settles O52: of the pieces of a step only PROG.SET gives slots, to an INACTIVE programme, and only PROG.ACTIVATE makes a
programme active, with slots apart from those that are. -/
theorem stepKeepsSlotsDisjoint : Obligations.StepKeepsSlotsDisjoint :=
  fun s t within disjoint => slotsPlanned_kept.kept.step s t ⟨within, disjoint⟩

end Sys2Proof.Machine
end

section
/-! What stands on air, pending and in progress fits the state of each programme (R25, R58, R69, R121): with nothing on air
there is nothing to fit but the state and the queue, and with a segment on air the programme is RUNNING, or DRAINING its last
one. -/

namespace Sys2Proof.Machine

/-! ### Fitting, with nothing and with a segment on air -/

theorem Prog.hasOnAir_false_iff (P : Prog) : P.hasOnAir = false ↔ P.queue.onAir = none := by
  rw [Prog.hasOnAir, Option.isSome_eq_false_iff, Option.isNone_iff_eq_none]

/-- Nothing is pending, no ramp is in progress and there is no Segment Account. -/
structure Prog.Idle (P : Prog) : Prop where
  pending : P.entry.pending = .empty
  ramp : P.gain.ramp = none
  segment : P.meas.segAccount = none

theorem Prog.Idle.of_eq {P Q : Prog} (pending : Q.entry.pending = P.entry.pending) (ramp : Q.gain.ramp = P.gain.ramp)
    (segment : Q.meas.segAccount = P.meas.segAccount) (h : P.Idle) : Q.Idle :=
  ⟨pending.trans h.pending, ramp.trans h.ramp, segment.trans h.segment⟩

theorem Prog.fitsState_silent_iff {P : Prog} (silent : P.queue.onAir = none) :
    P.fitsState ↔ P.entry.state ≠ .draining ∧ (P.entry.state = .inactive → P.queue.cued = []) ∧ P.Idle := by
  have air : P.hasOnAir = false := P.hasOnAir_false_iff.mpr silent
  constructor
  · rintro ⟨inactive, _, draining, idle, _⟩
    obtain ⟨pending, ramp, segment⟩ := idle silent
    exact ⟨fun h => by simp [air] at draining; exact draining h, fun h => by rw [inactive h]; rfl, pending, ramp, segment⟩
  · rintro ⟨draining, inactive, pending, ramp, segment⟩
    refine ⟨fun h => ?_, fun _ => silent, fun h => absurd h draining, fun _ => ⟨pending, ramp, segment⟩, fun h => ?_⟩
    · rw [Queue.reset, ← silent, ← inactive h]
    · rw [air] at h
      cases h

theorem Prog.fitsState_onAir_iff {P : Prog} (air : P.hasOnAir = true) :
    P.fitsState ↔ (P.entry.state = .running ∨ P.entry.state = .draining ∧ P.queue.cued = [])
      ∧ P.meas.segAccount.isSome = true := by
  have some : P.queue.onAir ≠ none := fun h => by rw [P.hasOnAir_false_iff.mpr h] at air; cases air
  constructor
  · rintro ⟨inactive, stopped, draining, _, segment⟩
    refine ⟨?_, segment air⟩
    cases h : P.entry.state with
    | running => exact .inl rfl
    | draining => exact .inr ⟨rfl, (draining h).2⟩
    | inactive => exact absurd (congrArg Queue.onAir (inactive h)) some
    | stopped => exact absurd (stopped (.inl h)) some
    | stopping => exact absurd (stopped (.inr h)) some
  · rintro ⟨running | ⟨draining, cued⟩, segment⟩
    · exact ⟨by simp [running], by simp [running], by simp [running], fun h => absurd h some, fun _ => segment⟩
    · exact ⟨by simp [draining], by simp [draining], fun _ => ⟨air, cued⟩, fun h => absurd h some, fun _ => segment⟩

/-- R69: an INACTIVE programme has no record, and a DRAINING one no CUED record. -/
theorem Prog.fitsState.cued_empty {P : Prog} (fits : P.fitsState)
    (h : P.entry.state = .inactive ∨ P.entry.state = .draining) : P.queue.cued = [] := by
  obtain ⟨inactive, _, draining, _⟩ := fits
  rcases h with h | h
  · rw [inactive h]
    rfl
  · exact (draining h).2

theorem Prog.fitsState.silent {P : Prog} (fits : P.fitsState) (h : P.entry.state ≠ .running)
    (h' : P.entry.state ≠ .draining) : P.queue.onAir = none := by
  by_contra air
  have air : P.hasOnAir = true := Bool.eq_true_of_not_eq_false (mt P.hasOnAir_false_iff.mp air)
  rcases ((Prog.fitsState_onAir_iff air).mp fits).1 with running | ⟨draining, _⟩
  · exact h running
  · exact h' draining

/-- What fits, fits after a change that keeps the state and whether a segment is on air; no CUED record may arise where there was
none, and what was idle stays so. -/
theorem Prog.fitsState.of_same {P Q : Prog} (fits : P.fitsState) (state : Q.entry.state = P.entry.state)
    (onAir : Q.hasOnAir = P.hasOnAir) (cued : P.queue.cued = [] → Q.queue.cued = []) (idle : P.Idle → Q.Idle)
    (segment : Q.meas.segAccount.isSome = P.meas.segAccount.isSome) : Q.fitsState := by
  by_cases air : P.hasOnAir = true
  · rw [Prog.fitsState_onAir_iff air] at fits
    rw [Prog.fitsState_onAir_iff (onAir.trans air), state, segment]
    exact ⟨fits.1.imp id (.imp id cued), fits.2⟩
  · have air : P.hasOnAir = false := Bool.eq_false_iff.mpr air
    rw [Prog.fitsState_silent_iff (P.hasOnAir_false_iff.mp air)] at fits
    rw [Prog.fitsState_silent_iff (Q.hasOnAir_false_iff.mp (onAir.trans air)), state]
    exact ⟨fits.1, fun h => cued (fits.2.1 h), idle fits.2.2⟩

/-- With nothing on air a programme goes on fitting in another state, but for DRAINING and INACTIVE. -/
theorem Prog.fitsState.moved {P Q : Prog} (fits : P.fitsState) (silent : P.queue.onAir = none)
    (state : Q.entry.state ≠ .draining ∧ Q.entry.state ≠ .inactive) (onAir : Q.queue.onAir = none) (idle : P.Idle → Q.Idle) :
    Q.fitsState :=
  (Prog.fitsState_silent_iff onAir).mpr ⟨state.1, fun h => absurd h state.2,
    idle ((Prog.fitsState_silent_iff silent).mp fits).2.2⟩

/-! ### The work of the engine and of a boundary -/

theorem Prog.Worked.hasOnAir {P Q : Prog} (w : P.Worked Q) : Q.hasOnAir = P.hasOnAir := by
  rw [Prog.hasOnAir, Prog.hasOnAir, w.queue]

theorem Prog.Worked.idle {P Q : Prog} (w : P.Worked Q) (idle : P.Idle) : Q.Idle := by
  refine ⟨?_, w.ramp.trans idle.ramp, ?_⟩
  · rcases w.entry with h | ⟨_, h⟩ <;> rw [h] <;> exact idle.pending
  · rw [← Option.not_isSome_iff_eq_none, w.segment, idle.segment]
    simp

/-- R35: the engine's work changes no state but that of a programme whose stop completes. -/
theorem Prog.Worked.fitsState {P Q : Prog} (w : P.Worked Q) (fits : P.fitsState) : Q.fitsState := by
  rcases w.entry with h | ⟨stopping, h⟩
  · exact fits.of_same (by rw [h]) w.hasOnAir (by rw [w.queue]; exact id) w.idle w.segment
  · have silent := fits.silent (by simp [stopping]) (by simp [stopping])
    exact fits.moved silent (by simp [h]) (by rw [w.queue]; exact silent) w.idle

/-- What an end leaves of a programme: its state and its CUED records, with nothing on air, nothing pending and no Segment
Account. -/
structure Prog.Ended (P Q : Prog) : Prop where
  state : Q.entry.state = P.entry.state
  onAir : Q.queue.onAir = none
  cued : Q.queue.cued = P.queue.cued
  pending : Q.entry.pending = .empty
  segment : Q.meas.segAccount = none

theorem Prog.closed_segAccount {P : Prog} (n : Nat) (h : P.hasOnAir = true ∨ P.meas.segAccount = none) :
    (P.closed n).meas.segAccount = none := by
  unfold Prog.closed
  split
  · rfl
  · rename_i silent
    exact h.resolve_left silent

theorem Prog.fitsState.ended {P : Prog} (fits : P.fitsState) (stopping : P.entry.state ≠ .stopping) (line : List Stage)
    (n : Nat) :
    P.Ended (P.ended line n) := by
  obtain ⟨_, _, _, queue, _, _, _, _, _, _, _, segment⟩ := boundaryWork_facts line P
  refine ⟨Prog.ended_state line n P stopping, Prog.closed_onAir _ n, (Prog.closed_cued _ n).trans (congrArg _ queue), rfl,
    Prog.closed_segAccount n ?_⟩
  by_cases air : P.hasOnAir = true
  · exact .inl (by rw [Prog.hasOnAir, queue]; exact air)
  · have silent := P.hasOnAir_false_iff.mp (Bool.eq_false_iff.mpr air)
    obtain ⟨_, _, idle⟩ := (Prog.fitsState_silent_iff silent).mp fits
    exact .inr (Option.not_isSome_iff_eq_none.mp (by rw [segment, idle.segment]; simp))

theorem Prog.fitsState.not_stopping {P : Prog} (fits : P.fitsState) (air : P.hasOnAir = true) : P.entry.state ≠ .stopping := by
  rcases ((Prog.fitsState_onAir_iff air).mp fits).1 with h | ⟨h, _⟩ <;> simp [h]

/-! ### Each piece of the work on a programme -/

/-- R91: the record that goes on air has its Segment Account. -/
theorem Prog.goOnAir_fitsState {P : Prog} (running : P.entry.state = .running) (cued : P.queue.cued ≠ []) (n : Position)
    (cause : TakeCause) : (P.goOnAir n cause).fitsState := by
  have entry := Prog.goOnAir_entry P n cause
  revert entry
  unfold Prog.goOnAir
  split
  · rename_i h
    exact fun _ => absurd h cued
  · exact fun entry => (Prog.fitsState_onAir_iff rfl).mpr ⟨.inl (by rw [entry]; exact running), rfl⟩

theorem Prog.toFreeRun_fitsState {P Q : Prog} (e : P.Ended Q) (running : P.entry.state = .running) : Q.toFreeRun.fitsState := by
  have state := e.state.trans running
  exact (Prog.fitsState_silent_iff (P := Q.toFreeRun) e.onAir).mpr ⟨by simp [Prog.toFreeRun, Prog.setGain, state],
    by simp [Prog.toFreeRun, Prog.setGain, state], e.pending, Gain.freeRun_ramp _ _, e.segment⟩

/-- R32: a programme becomes INACTIVE with nothing on air and no CUED record. -/
theorem Prog.becomeInactive_fitsState {P : Prog} (onAir : P.queue.onAir = none) (cued : P.queue.cued = [])
    (pending : P.entry.pending = .empty) (segment : P.meas.segAccount = none) : P.becomeInactive.fitsState :=
  (Prog.fitsState_silent_iff (P := P.becomeInactive) onAir).mpr
    ⟨by simp [Prog.becomeInactive, Entry.setState], fun _ => cued, pending, rfl, segment⟩

theorem Prog.restarted_fitsState (lines : Octet CueLine) (P : Prog) : (Prog.restarted lines P).fitsState := by
  refine (Prog.fitsState_silent_iff rfl).mpr ⟨?_, fun _ => rfl, rfl, rfl, rfl⟩
  simp only [Prog.restarted]
  cases P.entry.state <;> simp [ProgState.restarted]

theorem Gain.completeRamp_ramp (g : Gain) (h : g.ramp = none) : g.completeRamp.ramp = none := by
  simp [Gain.completeRamp, h]

theorem Prog.overran_hasOnAir (P : Prog) : P.overran.hasOnAir = P.hasOnAir := Option.isSome_map

/-- R119: with no ramp record there is none after the gain has moved. -/
theorem Prog.moveGain_ramp {P : Prog} (h : P.gain.ramp = none) : P.moveGain.ramp = none := by
  unfold Prog.moveGain
  split
  · simp [Gain.rampStep, h]
  · unfold Gain.adaptiveStep
    split
    · exact h
    · split <;> exact h
  · exact h

theorem Prog.handFrame_fitsState {P : Prog} (fits : P.fitsState) (line : List Stage) (raw : List Sample) (now : Bool) :
    (P.handFrame line raw now).2.fitsState := by
  obtain ⟨entry, queue, _, _, _, _, ramp, _, _, _, _, _, _, segment⟩ := Prog.handFrame_facts line raw now P
  have some : (P.handFrame line raw now).2.meas.segAccount.isSome = P.meas.segAccount.isSome := by
    rcases segment with h | ⟨t, h⟩ <;> rw [h]
    rw [Option.isSome_map]
  refine fits.of_same (by rw [entry]) (by rw [Prog.hasOnAir, queue, Option.isSome_map]; rfl) (by rw [queue]; exact id)
    (fun idle => ⟨by rw [entry]; exact idle.pending, by rw [ramp]; exact Prog.moveGain_ramp idle.ramp, ?_⟩) some
  rw [← Option.not_isSome_iff_eq_none, some, idle.segment]
  simp

theorem Prog.lapse_fitsState {P : Prog} (fits : P.fitsState) (x : PortId) : (P.lapse x).fitsState :=
  fits.of_same rfl rfl (fun h => by simp [Prog.lapse, Prog.setQueue, h]) (.of_eq rfl rfl rfl) rfl

theorem Prog.tallyChange_fitsState {P : Prog} (fits : P.fitsState) (k : Index) (active : Bool) :
    (P.tallyChange k active).fitsState := by
  unfold Prog.tallyChange
  split
  · exact fits.of_same rfl rfl id (.of_eq rfl rfl rfl) rfl
  · exact fits

/-- R28: the limiter's work at an activation starts no ramp. -/
theorem activationFix_ramp (e : Entry) (line : List Stage) (g : Gain) : (activationFix e line g).2.ramp = g.ramp :=
  (fixAll_facts e line _).1.ramp

theorem Prog.activated_fitsState {P : Prog} (fits : P.fitsState) (inactive : P.entry.state = .inactive) (line : List Stage)
    (b : Bool) : (P.activated line b).fitsState := by
  have silent := fits.silent (by simp [inactive]) (by simp [inactive])
  exact fits.moved silent (by simp [Prog.activated]) silent fun idle => ⟨idle.pending, activationFix_ramp _ _ _, rfl⟩

/-- R24: with nothing on air PROG.TUNE leaves the pending set empty. -/
theorem Prog.tune_fitsState {P : Prog} (fits : P.fitsState) (v : TunableSet) : (P.tune v).fitsState := by
  unfold Prog.tune
  split
  · rename_i air
    rw [Prog.fitsState_onAir_iff air] at fits
    exact (Prog.fitsState_onAir_iff (P := P.setEntry { P.entry with pending := v.over P.entry.pending }) air).mpr fits
  · exact fits.of_same rfl rfl id (.of_eq rfl rfl rfl) rfl

/-- R75: SEG.CUE is refused in INACTIVE and in DRAINING, where no record may be CUED. -/
theorem Prog.append_fitsState {P : Prog} (fits : P.fitsState) (cues : P.entry.state.cues = true) (r : SegRecord) :
    (P.setQueue (P.queue.append r)).fitsState := by
  by_cases air : P.hasOnAir = true
  · rw [Prog.fitsState_onAir_iff air] at fits
    refine (Prog.fitsState_onAir_iff (P := P.setQueue (P.queue.append r)) air).mpr ⟨.inl (fits.1.resolve_right ?_), fits.2⟩
    rintro ⟨draining, _⟩
    simp [draining, ProgState.cues] at cues
  · have silent := P.hasOnAir_false_iff.mp (Bool.eq_false_iff.mpr air)
    exact fits.moved silent ⟨fun h => by simp [ProgState.cues, show P.entry.state = _ from h] at cues,
      fun h => by simp [ProgState.cues, show P.entry.state = _ from h] at cues⟩ silent
      (.of_eq rfl rfl rfl)

theorem fitsState_kept : ProgKept Prog.fitsState where
  reset := fun p => Prog.reset_fitsState p.val
  stages := fun P line n pos cause acts _ fits => by
    obtain ⟨running, cued⟩ : P.entry.state = .running ∧ P.queue.cued ≠ [] := by simpa [Prog.takeActs] using acts
    have e := fits.ended (by simp [running]) line n
    exact Prog.goOnAir_fitsState (e.state.trans running) (by rw [e.cued]; exact cued) pos cause
  goOn := fun P line n air _ state fits => by
    have e := fits.ended (fits.not_stopping air) line n
    refine Prog.toFreeRun_fitsState e (((Prog.fitsState_onAir_iff air).mp fits).1.resolve_right fun h => ?_)
    exact state (e.state.trans h.1)
  drained := fun P line n air _ state fits => by
    have e := fits.ended (fits.not_stopping air) line n
    exact Prog.becomeInactive_fitsState e.onAir (e.cued.trans (fits.cued_empty (.inr (e.state.symm.trans state)))) e.pending
      e.segment
  forced := fun P line n air _ fits => by
    have e := fits.ended (fits.not_stopping air) line n
    exact Prog.becomeInactive_fitsState (P := Prog.withdrawn _) e.onAir rfl e.pending e.segment
  restarted := fun P lines line n _ _ => Prog.restarted_fitsState lines _
  close := fun P _ => (Prog.closeBlock_worked P).fitsState
  ramp := fun P _ fits => fits.of_same rfl rfl id
    (fun idle => ⟨idle.pending, Gain.completeRamp_ramp _ idle.ramp, idle.segment⟩) rfl
  overrun := fun P fits => fits.of_same rfl P.overran_hasOnAir id (.of_eq rfl rfl rfl) rfl
  frame := fun P line raw now _ _ _ fits => Prog.handFrame_fitsState fits line raw now
  tally := fun P k active fits => Prog.tallyChange_fitsState fits k active
  lapse := fun P x fits => Prog.lapse_fitsState fits x
  configure := fun P _ _ _ _ _ _ fits => fits.of_same rfl rfl id (.of_eq rfl rfl rfl) rfl
  activate := fun P line b inactive fits => Prog.activated_fitsState fits inactive line b
  deactivate := fun P _ air fits => by
    have silent := P.hasOnAir_false_iff.mp air
    obtain ⟨_, _, idle⟩ := (Prog.fitsState_silent_iff silent).mp fits
    exact Prog.becomeInactive_fitsState (P := Prog.withdrawn _) silent rfl idle.pending idle.segment
  drain := fun P _ air fits => (Prog.fitsState_onAir_iff (P := P.withdrawn.setState .draining) air).mpr
    ⟨.inr ⟨rfl, rfl⟩, ((Prog.fitsState_onAir_iff air).mp fits).2⟩
  runOn := fun P stopping fits => by
    have silent := fits.silent (by simp [stopping]) (by simp [stopping])
    exact fits.moved silent (by simp [Prog.setState, Prog.setEntry, Entry.setState]) silent
      (.of_eq rfl rfl rfl)
  resume := fun P _ stopped fits => by
    have silent := fits.silent (by simp [stopped]) (by simp [stopped])
    exact fits.moved silent (by simp [Prog.resume, Entry.setState]) silent
      (.of_eq rfl rfl rfl)
  stop := fun P _ air fits => by
    have silent := P.hasOnAir_false_iff.mp air
    exact fits.moved silent (by simp [Prog.setState, Prog.setEntry, Entry.setState]) silent
      (.of_eq rfl rfl rfl)
  tune := fun P v _ fits => Prog.tune_fitsState fits v
  custodian := fun P _ fits => fits.of_same rfl rfl id (.of_eq rfl rfl rfl) rfl
  rights := fun P _ fits => fits.of_same rfl rfl id (.of_eq rfl rfl rfl) rfl
  clearAccount := fun P fits => fits.of_same rfl rfl id (.of_eq rfl rfl rfl) rfl
  cue := fun P r _ _ cues _ fits => Prog.append_fitsState fits cues r
  amend := fun P a _ _ _ fits => fits.of_same rfl rfl (fun h => by simp [Prog.setQueue, Queue.amend, h])
    (.of_eq rfl rfl rfl) rfl
  withdraw := fun P id fits => fits.of_same rfl rfl (fun h => by simp [Prog.setQueue, Queue.remove, h])
    (.of_eq rfl rfl rfl) rfl

/-- Settles O54: each piece of the work on a programme leaves it fitting. -/
theorem stepKeepsStatesFit : Obligations.StepKeepsStatesFit := fitsState_kept.kept.step

end Sys2Proof.Machine
end

section
/-! BLOCK_CLOSE (R35, R44, R45, R48, R49), and the measuring of one position (R18, R41, R42, R47, R61). -/

namespace Sys2Proof.Machine

/-! ### The block close -/

theorem Prog.closeDue_iff (P : Prog) : P.closeDue = true ↔ 4800 ≤ P.meas.clock := decide_eq_true_iff

/-- R49: a block close in full; a STOPPING programme completes its stop (R35, R63). -/
theorem Prog.closeBlock_eq (P : Prog) : P.closeBlock =
    { entry := if P.entry.state = .stopping then { P.entry with state := .stopped } else P.entry
      queue := P.queue
      meas := { P.closedMeasure with inFlight := if P.entry.state = .stopping then [] else P.meas.inFlight }
      gain := P.gain.law P.entry.active P.lawTarget (shortTerm P.closedMeasure.inHist) P.meas.held } := by
  unfold Prog.closeBlock Prog.completeStop
  by_cases h : P.entry.state = .stopping
  · simp only [h, if_true]
    rfl
  · simp only [h, if_false]
    rfl

theorem State.settleClose_due {s : State} {p : Index} (due : 4800 ≤ (s.prog p).meas.clock) : s.settleClose p
    = if (s.prog p).entry.state = .stopping then (s.setProg p (s.prog p).closeBlock).raiseAll .state p
      else s.setProg p (s.prog p).closeBlock := if_pos ((s.prog p).closeDue_iff.mpr due)

theorem State.settleClose_undue {s : State} {p : Index} (undue : (s.prog p).meas.clock < 4800) : s.settleClose p = s :=
  if_neg (mt (s.prog p).closeDue_iff.mp (by omega))

/-- R48: 30 records stay. -/
theorem appendHistory_eq {h : List BlockRecord} (b : BlockRecord) (short : h.length ≤ 30) :
    appendHistory h b = if h.length = 30 then h.tail ++ [b] else h ++ [b] := by
  have count : (h ++ [b]).length - Config.historyLength = if h.length = 30 then 1 else 0 := by
    rw [List.length_append, List.length_singleton, Config.historyLength]
    split <;> omega
  rw [appendHistory, count]
  split
  · rename_i full
    cases h with
    | nil => cases full
    | cons a l => rfl
  · rfl

theorem appendHistory_last {h : List BlockRecord} (b : BlockRecord) (short : h.length ≤ 30) :
    (appendHistory h b).getLast? = some b := by
  rw [appendHistory_eq b short]
  split <;> exact List.getLast?_concat

theorem appendHistory_length {h : List BlockRecord} (b : BlockRecord) (short : h.length ≤ 30) :
    (appendHistory h b).length = min 30 (h.length + 1) := by
  rw [appendHistory, List.length_drop, List.length_append, List.length_singleton, Config.historyLength]
  omega

/-- Settles O8: `Prog.closeBlock_eq` is the close of one programme, `appendHistory_eq` what stays of a history. -/
theorem blockClose : Obligations.BlockClose := by
  refine ⟨fun s p => ?_, fun h b short => ⟨appendHistory_length b short, appendHistory_last b short,
    appendHistory_eq b short⟩⟩
  intro P segment
  refine ⟨fun undue => congrArg _ (State.settleClose_undue undue), fun due => ⟨P.closeBlock,
    congrArg _ (State.settleClose_due due), ?_⟩⟩
  rw [P.closeBlock_eq]
  exact ⟨rfl, rfl, rfl, rfl, rfl, rfl, rfl, rfl, rfl, rfl, rfl, rfl, rfl, rfl, rfl⟩

/-! ### The measuring of a position -/

/-- R41: the two stages, with the coefficients as the decimals they are. -/
theorem Filter.step_eq (f : Filter) (x : Rat) : f.step x =
    let y := (153512485958697 * x - 269169618940638 * f.x1 + 119839281085285 * f.x2 + 169065929318241 * f.y1
      - 73248077421585 * f.y2) / 100000000000000
    let z := y - 2 * f.y1 + f.y2 + (199004745483398 * f.z1 - 99007225036621 * f.z2) / 100000000000000
    ⟨x, f.x1, y, f.y1, z, f.z1⟩ := by
  simp only [Filter.step, Rat.mkRat_eq_div, Filter.mk.injEq, true_and, and_true]
  push_cast
  constructor <;> ring

theorem channelWeight_plain {width : Nat} (h : width ≠ 6) (c : Nat) : channelWeight width c = 1 := if_neg h

theorem sampleValue_eq (v : Sample) : sampleValue v = (v.toInt : Rat) / 8388608 := by
  rw [sampleValue, Rat.mkRat_eq_div]
  rfl

theorem filterChannels_get (width : Nat) (fs : List Filter) (xs : List Sample) {c : Nat} (h : c < 6) :
    (filterChannels width fs xs)[c]? = some (if c < width ∧ channelWeight width c ≠ 0
      then (fs.getD c Filter.zero).step (((xs.getD c 0).toInt : Rat) / 8388608) else fs.getD c Filter.zero) := by
  rw [filterChannels, List.getElem?_map, List.getElem?_range h]
  simp only [sampleValue_eq, Option.map_some]

theorem filterChannels_weighted {width : Nat} (fs : List Filter) (xs : List Sample) {c : Nat} (h : c < 6)
    (weighted : c < width ∧ channelWeight width c ≠ 0) : (filterChannels width fs xs)[c]?
      = some ((fs.getD c Filter.zero).step (((xs.getD c 0).toInt : Rat) / 8388608)) := by
  rw [filterChannels_get width fs xs h, if_pos weighted]

theorem filterChannels_unweighted {width : Nat} (fs : List Filter) (xs : List Sample) {c : Nat} (h : c < 6)
    (unweighted : ¬(c < width ∧ channelWeight width c ≠ 0)) :
    (filterChannels width fs xs)[c]? = some (fs.getD c Filter.zero) := by
  rw [filterChannels_get width fs xs h, if_neg unweighted]

theorem weightedSquares_eq (width : Nat) (fs : List Filter) : weightedSquares width fs
    = ((List.range width).map fun c => channelWeight width c * (fs.getD c Filter.zero).z1 ^ 2).sum := by
  simp only [weightedSquares, List.sum_eq_foldl, pow_two]

/-- R42, R61: the engine after the oldest position in flight. -/
theorem Prog.measureOldest_cons {P : Prog} {f : InFlight} {rest : List InFlight} (line : List Stage)
    (h : P.meas.inFlight = f :: rest) : P.measureOldest line =
    let place := line.length - P.meas.inFlight.length
    let fin := filterChannels P.entry.width P.meas.inFilters f.input
    let fout := filterChannels P.entry.width P.meas.outFilters (channels P.entry (line.getD place Stage.zero).cor)
    { P with meas := { P.meas with
        inFilters := fin
        outFilters := fout
        inFlight := rest
        clock := P.meas.clock + 1
        inSum := P.meas.inSum + weightedSquares P.entry.width fin
        outSum := P.meas.outSum + weightedSquares P.entry.width fout
        held := P.meas.held || f.inactiveTally
        segAccount := P.meas.segAccount.map fun a =>
          { a with maxTruePeak := max a.maxTruePeak (truePeakTenths (estimateAt P.entry line place)) } } } := by
  unfold Prog.measureOldest
  split
  · rename_i e
    rw [h] at e
    cases e
  · rename_i e
    rw [h] at e
    obtain ⟨rfl, rfl⟩ := List.cons.inj e
    rfl

theorem Prog.tallyInactive_iff (P : Prog) (lines : Octet CueLine) : P.tallyInactive lines = true ↔
    ∃ k, P.entry.tally = some k ∧ (lines.get k).accepted = (lines.get k).inverted := by
  unfold Prog.tallyInactive
  cases P.entry.tally with
  | none => simp
  | some k => simp [CueLine.active]

theorem Prog.tallyChange_remembers {P : Prog} {k : Index} {active : Bool} (named : P.entry.tally = some k)
    (inactive : active = false) : P.tallyChange k active = { P with meas := { P.meas with tallyLatch := true } } :=
  if_pos ⟨named, inactive⟩

theorem Prog.tallyChange_none {P : Prog} {k : Index} {active : Bool} (h : P.entry.tally ≠ some k ∨ active = true) :
    P.tallyChange k active = P := by
  refine if_neg fun ⟨named, inactive⟩ => ?_
  rcases h with h | h
  · exact h named
  · rw [inactive] at h
    cases h

/-- Settles O11: `Filter.step_eq` is the K-weighting, `Prog.measureOldest_cons` the measuring. -/
theorem measuredPosition : Obligations.MeasuredPosition := by
  refine ⟨Filter.step_eq, fun c => ⟨channelWeight_plain (by decide) c, channelWeight_plain (by decide) c⟩, ?_, ?_,
    Prog.tallyInactive_iff, fun P k active => ⟨Prog.tallyChange_remembers, Prog.tallyChange_none⟩⟩
  · simp [channelWeight, Rat.mkRat_eq_div]
  · intro P line f rest h Q place width output weighted after
    have hQ : Q = _ := P.measureOldest_cons line h
    clear_value Q
    subst hQ
    exact ⟨rfl,
      fun c hc hw => ⟨filterChannels_weighted _ _ hc hw, filterChannels_weighted _ _ hc hw⟩,
      fun c hc hw => ⟨filterChannels_unweighted _ _ hc hw, filterChannels_unweighted _ _ hc hw⟩,
      congrArg _ (weightedSquares_eq _ _), congrArg _ (weightedSquares_eq _ _),
      rfl, rfl, rfl, rfl, rfl, rfl, rfl, rfl⟩

end Sys2Proof.Machine
end

section
/-! The requests that configure a programme and set it running: PROG.SET (R27), PROG.STOP and PROG.RUN (R34, R36), PROG.TUNE
(R22, R24); and the rights of a port (R154, R155). -/

namespace Sys2Proof.Machine

/-! ### PROG.SET -/

theorem slotsLegal_iff (base width : Nat) :
    slotsLegal base width = true ↔ (width = 1 ∨ width = 2 ∨ width = 6) ∧ base ≤ 15 ∧ base + width ≤ 16 := by
  simp [slotsLegal, or_assoc, and_assoc]

theorem State.governs_iff (s : State) (x : PortId) (p : Index) :
    s.governs x p = true ↔ (s.prog p).entry.custodian = some x ∨ s.override = some x := by
  simp [State.governs]

section

variable {v : State} {x : PortId} {p : Index} {base width trigger tally : Byte}

/-- R27: a field outside its values is BAD_VALUE, whatever the rights and the state. -/
theorem progSetRequest_illegal
    (h : slotsLegal base.toNat width.toNat = false ∨ triggerOf trigger = none ∨ tallyOf tally = none) :
    progSetRequest x [indexByte p, base, width, trigger, tally] v = .error (.badValue, []) := by
  simp only [progSetRequest, indexOf_indexByte, need_some]
  cases slots : slotsLegal base.toNat width.toNat with
  | false => rfl
  | true => cases trig : triggerOf trigger with
    | none => rfl
    | some t => cases tal : tallyOf tally with
      | none => rfl
      | some l => simp [slots, trig, tal] at h

/-- R27: with its values legal PROG.SET goes on to the cycle, the rights and the state. -/
theorem progSetRequest_legal {t : Trigger} {l : Option Index} (slots : slotsLegal base.toNat width.toNat = true)
    (trig : triggerOf trigger = some t) (tal : tallyOf tally = some l) :
    progSetRequest x [indexByte p, base, width, trigger, tally] v = (do
      demand (!v.closesCycle p t) .badValue
      demand (v.governs x p) .noRights
      demand ((v.prog p).entry.state == .inactive) .wrongState
      .ok (v.updProg p fun P => P.configure base.toNat width.toNat t l, [])) := by
  simp only [progSetRequest, indexOf_indexByte, need_some, slots, trig, tal]
  rfl

end

/-- Settles O39: the checks of PROG.SET in their order, and `State.closesCycle_iff` for the cycle. -/
theorem progSet : Obligations.ProgSet := by
  refine ⟨fun s p k => ⟨rfl, rfl⟩, State.closesCycle_iff, fun s x p => ⟨s.governs_iff x p, ?_⟩, ?_⟩
  · cases x <;> rfl
  · intro s x tag base width trigger tally p hs v ask slots
    have refused : ∀ {r}, progSetRequest x [indexByte p, base, width, trigger, tally] v = .error (r, []) →
        ask = answered v x 0x11 tag r [] := request_refused hs 0x11 progSetRequest tag _
    have legal_iff : slotsLegal base.toNat width.toNat = true ↔ slots := slotsLegal_iff _ _
    refine ⟨fun h => refused (progSetRequest_illegal (h.imp_left fun h => Bool.eq_false_iff.mpr (mt legal_iff.mp h))),
      fun t l legal trig tal => ?_⟩
    have checks := progSetRequest_legal (v := v) (x := x) (p := p) (legal_iff.mpr legal) trig tal
    refine ⟨fun cycle => refused ?_, fun cycle rights => refused ?_, fun cycle rights active => refused ?_,
      fun cycle rights inactive => request_taken hs 0x11 progSetRequest tag _ ?_⟩
    · rw [checks, cycle]
      rfl
    · rw [checks, cycle, rights]
      rfl
    · rw [checks, cycle, rights, beq_false_of_ne active]
      rfl
    · change progSetRequest x [indexByte p, base, width, trigger, tally] v = _
      rw [checks, cycle, rights, inactive]
      rfl

/-! ### PROG.STOP and PROG.RUN -/

section

variable {v : State} {x : PortId} {p : Index}

theorem progStopRequest_one : progStopRequest x [indexByte p] v = (do
    demand (v.governs x p) .noRights
    demand ((v.prog p).entry.state == .running && !(v.prog p).hasOnAir) .wrongState
    .ok ((v.updProg p fun P => P.setState .stopping).raiseAll .state p, [])) := by
  simp only [progStopRequest, readProg_one, indexOf_indexByte, need_some]

theorem progRunRequest_one : progRunRequest x [indexByte p] v = (do
    demand (v.governs x p) .noRights
    demand (v.prog p).entry.state.runs .wrongState
    .ok (v.run p, [])) := by
  simp only [progRunRequest, readProg_one, indexOf_indexByte, need_some]

theorem progRunRequest_runs (rights : v.governs x p = true) (runs : (v.prog p).entry.state.runs = true) :
    progRunRequest x [indexByte p] v = .ok (v.run p, []) := by
  rw [progRunRequest_one, rights, runs]
  rfl

end

theorem State.run_stopping {s : State} {p : Index} (h : (s.prog p).entry.state = .stopping) :
    s.run p = (s.updProg p fun P => P.setState .running).raiseAll .state p := by
  simp only [State.run, h]

theorem State.run_running {s : State} {p : Index} (h : (s.prog p).entry.state = .running) : s.run p = s := by
  simp only [State.run, h]

theorem State.run_stopped {s : State} {p : Index} (h : (s.prog p).entry.state = .stopped) :
    s.run p = (s.updProg p fun P => P.resume (P.tallyInactive s.lines)).raiseAll .state p := by
  simp only [State.run, h]

/-- R34: PROG.STOP is taken in RUNNING with nothing on air. -/
theorem Prog.stops_iff (P : Prog) :
    (P.entry.state == .running && !P.hasOnAir) = true ↔ P.entry.state = .running ∧ P.queue.onAir = none := by
  rw [Bool.and_eq_true, beq_iff_eq, Bool.not_eq_true', P.hasOnAir_false_iff]

/-- Settles O42: the rights, then each state. -/
theorem progStopAndRun : Obligations.ProgStopAndRun := by
  intro s x tag p hs v P stop run
  have stop_refused : ∀ {r}, progStopRequest x [indexByte p] v = .error (r, []) → stop = answered v x 0x15 tag r [] :=
    request_refused hs 0x15 progStopRequest tag _
  have run_refused : ∀ {r}, progRunRequest x [indexByte p] v = .error (r, []) → run = answered v x 0x14 tag r [] :=
    request_refused hs 0x14 progRunRequest tag _
  have runs : ∀ {t}, v.governs x p = true → P.entry.state.runs = true → v.run p = t → run = answered t x 0x14 tag .ok [] :=
    fun rights state e => e ▸ request_taken hs 0x14 progRunRequest tag _ (progRunRequest_runs rights state)
  refine ⟨fun rights => ⟨stop_refused ?_, run_refused ?_⟩, fun rights => ⟨fun running silent => ?_, fun h => stop_refused ?_,
    fun stopping => runs rights (by rw [stopping]; rfl) (State.run_stopping stopping),
    fun running => runs rights (by rw [running]; rfl) (State.run_running running), fun h => run_refused ?_,
    fun stopped => ⟨P.resume (P.tallyInactive v.lines), runs rights (by rw [stopped]; rfl) (State.run_stopped stopped),
      rfl, rfl, rfl, rfl⟩⟩⟩
  · rw [progStopRequest_one, rights]
    rfl
  · rw [progRunRequest_one, rights]
    rfl
  · refine request_taken hs 0x15 progStopRequest tag _ ?_
    change progStopRequest x [indexByte p] v = _
    rw [progStopRequest_one, rights, P.stops_iff.mpr ⟨running, silent⟩]
    rfl
  · rw [progStopRequest_one, rights, Bool.eq_false_iff.mpr (mt P.stops_iff.mp h)]
    rfl
  · rw [progRunRequest_one, rights]
    rcases h with h | h <;> rw [show (v.prog p).entry.state = _ from h] <;> rfl

/-! ### PROG.TUNE -/

theorem optInRange_iff (lo hi step : Int) (v : Option Int) :
    optInRange lo hi step v = true ↔ ∀ n, v = some n → lo ≤ n ∧ n ≤ hi ∧ n % step = 0 := by
  cases v <;> simp [optInRange, inRange, and_assoc]

theorem optInRange_unit_iff (lo hi : Int) (v : Option Int) :
    optInRange lo hi 1 v = true ↔ ∀ n, v = some n → lo ≤ n ∧ n ≤ hi := by
  simp only [optInRange_iff, Int.emod_one, and_true]

/-- R22: the ranges, each value on its step. -/
theorem TunableSet.legal_iff (set : TunableSet) : set.legal = true ↔
    (∀ v, set.target = some v → -3100 ≤ v ∧ v ≤ -1400) ∧ (∀ v, set.tolerance = some v → 10 ≤ v ∧ v ≤ 500)
    ∧ (∀ v, set.maxBoost = some v → 0 ≤ v ∧ v ≤ 1500) ∧ (∀ v, set.maxCut = some v → -3000 ≤ v ∧ v ≤ 0)
    ∧ (∀ v, set.riseRate = some v → 1 ≤ v ∧ v ≤ 60) ∧ (∀ v, set.fallRate = some v → 1 ≤ v ∧ v ≤ 120)
    ∧ (∀ v, set.holdThreshold = some v → -6000 ≤ v ∧ v ≤ -3000)
    ∧ (∀ v, set.defaultRamp = some v → 0 ≤ v ∧ v ≤ 2000 ∧ v % 10 = 0)
    ∧ (∀ v, set.ceiling = some v → -90 ≤ v ∧ v ≤ 0) ∧ (∀ v, set.release = some v → 10 ≤ v ∧ v ≤ 1000) := by
  simp only [TunableSet.legal, Bool.and_eq_true, optInRange_unit_iff, optInRange_iff _ _ 10, and_assoc]

theorem TunableSet.over_eq (new old : TunableSet) : let either := fun (a b : Option Int) => match a with
      | some v => some v
      | none => b
    new.over old = ⟨either new.target old.target, either new.tolerance old.tolerance, either new.maxBoost old.maxBoost,
      either new.maxCut old.maxCut, either new.riseRate old.riseRate, either new.fallRate old.fallRate,
      either new.holdThreshold old.holdThreshold, either new.defaultRamp old.defaultRamp,
      either new.ceiling old.ceiling, either new.release old.release⟩ := by
  intro either
  have or_eq : ∀ a b : Option Int, a.or b = either a b := fun a b => by cases a <;> rfl
  simp only [TunableSet.over, or_eq]

/-- R24, R25: a pending set that is carried over another is applied as the two are, one after the other. -/
theorem Tunables.apply_over (t : Tunables) (new old : TunableSet) : t.apply (new.over old) = (t.apply old).apply new := by
  have getD_or : ∀ (a b : Option Int) (n : Int), (a.or b).getD n = a.getD (b.getD n) := fun a b n => by cases a <;> rfl
  simp only [Tunables.apply, TunableSet.over, getD_or]

theorem Prog.tune_silent {P : Prog} (v : TunableSet) (h : P.queue.onAir = none) : P.tune v = P.tuneActive v :=
  if_neg (Bool.eq_false_iff.mp (P.hasOnAir_false_iff.mpr h))

theorem Prog.tune_onAir {P : Prog} (v : TunableSet) (h : P.hasOnAir = true) :
    P.tune v = { P with entry := { P.entry with pending := v.over P.entry.pending } } := if_pos h

theorem progTuneRequest_read {v : State} {x : PortId} {p : Index} {rest : List Byte} {set : TunableSet}
    (read : readTunables rest = some set) : progTuneRequest x (indexByte p :: rest) v = (do
      demand set.legal .badValue
      demand (v.governs x p) .noRights
      .ok (v.updProg p (Prog.tune set), [])) := by
  simp only [progTuneRequest, read, indexOf_indexByte, need_some]

/-- Settles O43: the checks of PROG.TUNE, and what `Prog.tune` leaves with nothing and with a segment on air. -/
theorem progTune : Obligations.ProgTune := by
  refine ⟨TunableSet.legal_iff, fun old set => rfl, TunableSet.over_eq, ?_⟩
  intro s x tag rest p set hs read v ask
  have checks := progTuneRequest_read (v := v) (x := x) (p := p) read
  have refused : ∀ {r}, progTuneRequest x (indexByte p :: rest) v = .error (r, []) → ask = answered v x 0x16 tag r [] :=
    request_refused hs 0x16 progTuneRequest tag _
  have taken : set.legal = true → v.governs x p = true → ∀ {Q}, (v.prog p).tune set = Q →
      ask = answered (v.setProg p Q) x 0x16 tag .ok [] := fun legal rights Q tuned => by
    refine request_taken hs 0x16 progTuneRequest tag _ ?_
    change progTuneRequest x (indexByte p :: rest) v = _
    rw [checks, legal, rights, ← tuned]
    rfl
  refine ⟨fun illegal => refused ?_, fun legal rights => refused ?_,
    fun legal rights silent =>
      ⟨(v.prog p).tuneActive set, taken legal rights (Prog.tune_silent set silent), rfl, rfl, rfl, rfl⟩,
    fun legal rights air => taken legal rights (Prog.tune_onAir set air), fun old => Tunables.apply_over old set _⟩
  · rw [checks, illegal]
    rfl
  · rw [checks, legal, rights]
    rfl

end Sys2Proof.Machine
end

section
/-! The requests that only read (R38, R66, R86, R189, R192), and the snapshots (R190, R191). -/

namespace Sys2Proof.Machine

theorem flagOf_none {b : Byte} (h : 1 < b.toNat) : flagOf b = none := by
  unfold flagOf
  split
  · omega
  · omega
  · rfl

section

variable {v : State} {x : PortId} {p : Index}

theorem progQueryRequest_one : progQueryRequest x [indexByte p] v = .ok (v, entryBlock (v.prog p)) := by
  rw [progQueryRequest, readProg_one, indexOf_indexByte, need_some]

theorem segListRequest_one : segListRequest x [indexByte p] v = .ok (v, listBytes (v.prog p).queue) := by
  rw [segListRequest, readProg_one, indexOf_indexByte, need_some]

theorem meterReadRequest_one : meterReadRequest x [indexByte p] v = .ok (v, meterBlock (v.prog p)) := by
  rw [meterReadRequest, readProg_one, indexOf_indexByte, need_some]

/-- R190: the state and the reply of a copy that is taken. -/
def snapshotTaken (v : State) (x : PortId) (p : Index) (segment : Bool) : State × List Byte :=
  let content := snapshotContent p segment v.audio.airClock ((v.prog p).accountOf segment)
  (v.setPort x { v.port x with snapshot := some ⟨content, 0, content.length⟩ }, content.take 16)

theorem snapTakeRequest_two (kind : Byte) : snapTakeRequest x [indexByte p, kind] v = (do
    let segment ← need (flagOf kind) .badValue
    demand (!segment || (v.prog p).hasOnAir) .wrongState
    .ok (snapshotTaken v x p segment)) := by
  rw [snapTakeRequest, readTwo_two, indexOf_indexByte, need_some]
  rfl

theorem Prog.accountOf_segment {P : Prog} {a : SegAccount} (h : P.meas.segAccount = some a) :
    P.accountOf true = a.account := by
  rw [Prog.accountOf, if_pos rfl, h]
  rfl

theorem snapReadRequest_empty (h : (v.port x).snapshot = none) : snapReadRequest x [] v = .error (.empty, []) := by
  rw [snapReadRequest, noParams_none, h]
  rfl

theorem snapReadRequest_ready {b : Snapshot} (h : (v.port x).snapshot = some b) : snapReadRequest x [] v = (do
    demand (decide (0 < b.remaining)) .empty
    .ok (v.setPort x { v.port x with snapshot := some b.advance },
      bytesOfNat 2 b.cursor ++ (b.content.drop b.cursor).take b.chunk)) := by
  rw [snapReadRequest, noParams_none, h, need_some]
  rfl

end

/-- Settles O31: each request's reading, in the state it is judged in. -/
theorem readingRequests : Obligations.ReadingRequests := by
  refine ⟨fun s x tag p hs => ?_, fun s x tag kind p hs => ?_⟩
  · exact ⟨request_taken hs 0x01 devIdentRequest tag [] rfl, request_taken hs 0x07 portKeepaliveRequest tag [] rfl,
      request_taken hs 0x10 progQueryRequest tag _ progQueryRequest_one,
      request_taken hs 0x25 segListRequest tag _ segListRequest_one,
      request_taken hs 0x3A meterReadRequest tag _ meterReadRequest_one⟩
  · intro v ask copy
    have taken : ∀ {t d}, snapTakeRequest x [indexByte p, kind] v = .ok (t, d) → ask = answered t x 0x38 tag .ok d :=
      request_taken hs 0x38 snapTakeRequest tag _
    have refused : ∀ {r}, snapTakeRequest x [indexByte p, kind] v = .error (r, []) → ask = answered v x 0x38 tag r [] :=
      request_refused hs 0x38 snapTakeRequest tag _
    have read_refused : snapReadRequest x [] v = .error (.empty, []) →
        exec (.snapRead x tag []) s = answered v x 0x39 tag .empty [] := request_refused hs 0x39 snapReadRequest tag _
    refine ⟨?_, ?_, ?_, fun large => refused ?_, fun absent => read_refused (snapReadRequest_empty absent),
      fun b ready spent => read_refused ?_, fun b ready left => request_taken hs 0x39 snapReadRequest tag _ ?_⟩
    · rintro rfl
      exact taken (snapTakeRequest_two 0)
    · rintro rfl silent
      refine refused ?_
      rw [snapTakeRequest_two, silent]
      rfl
    · rintro rfl air a account
      have h := snapTakeRequest_two (v := v) (x := x) (p := p) 1
      rw [air] at h
      refine (taken (t := (snapshotTaken v x p true).1) (d := (snapshotTaken v x p true).2) h).trans ?_
      rw [snapshotTaken, Prog.accountOf_segment account]
    · rw [snapTakeRequest_two, flagOf_none large]
      rfl
    · rw [snapReadRequest_ready ready, spent]
      rfl
    · change snapReadRequest x [] v = _
      rw [snapReadRequest_ready ready, decide_eq_true left]
      rfl

end Sys2Proof.Machine
end

section
/-! PROG.DEACTIVATE without and with force (R29 to R32, R81, R103). -/

namespace Sys2Proof.Machine

/-! ### Withdrawals with STATE -/

theorem foldl_raiseAt_parts {α : Type} (l : List α) (x : α → PortId) (k : Kind) (b : α → BitVec 8) : ∀ s : State,
    l.foldl (fun t r => t.raiseAt (x r) k (b r)) s
      = { s with ports := (l.foldl (fun t r => t.raiseAt (x r) k (b r)) s).ports } := by
  induction l with
  | nil => exact fun _ => rfl
  | cons a l ih => exact fun s => ih (s.raiseAt (x a) k (b a))

theorem State.withdrawAll_parts (s : State) (p : Index) :
    s.withdrawAll p = { s with progs := (s.withdrawAll p).progs, ports := (s.withdrawAll p).ports } := by
  unfold State.withdrawAll
  simp only
  rw [foldl_raiseAt_parts]
  rfl

/-- The CUED records of `p` are withdrawn, and it is left as `f` leaves it, with STATE at every port. -/
def State.withdrawTo (s : State) (p : Index) (f : Prog → Prog) : State :=
  ((s.withdrawAll p).updProg p f).raiseAll .state p

/-- From `s` to `t` at most the programme `p` and notices have changed: STATE was raised at every port, and WITHDRAWN at the
owner of each CUED record. -/
structure State.Withdrew (s t : State) (p : Index) : Prop where
  other : ∀ q, q ≠ p → t.prog q = s.prog q
  parts : t = { s with progs := t.progs, ports := t.ports }
  notices : s.onlyNotices t [.withdrawn, .state]
  state : ∀ y, (t.port y).notices.get .state = ⟨true, ((s.port y).notices.get .state).bitmap ||| bitOf p⟩
  withdrawn : ∀ y, (t.port y).notices.get .withdrawn = if (s.prog p).queue.cued.any (fun r => r.owner == y) then
    ⟨true, ((s.port y).notices.get .withdrawn).bitmap ||| bitOf p⟩ else (s.port y).notices.get .withdrawn

theorem State.withdrawTo_prog_same (s : State) (p : Index) (f : Prog → Prog) :
    (s.withdrawTo p f).prog p = f (s.prog p).withdrawn := by
  rw [State.withdrawTo, State.raiseAll_prog, State.updProg_prog_same, State.withdrawAll_prog_same]

theorem State.withdrawTo_port (s : State) (p : Index) (f : Prog → Prog) (y : PortId) :
    (s.withdrawTo p f).port y = ((s.withdrawAll p).port y).raise .state (bitOf p) := State.raiseAll_port _ _ _ y

theorem State.withdrawTo_withdrew (s : State) (p : Index) (f : Prog → Prog) : s.Withdrew (s.withdrawTo p f) p := by
  obtain ⟨raised, withdrawn⟩ := s.withdrawAll_notices p
  have notices : s.onlyNotices (s.withdrawTo p f) [.withdrawn, .state] :=
    (raised.mono (by simp)).trans (State.raiseAll_onlyNotices ((s.withdrawAll p).updProg p f) .state p _ (by simp))
  refine ⟨fun q hq => ?_, ?_, notices, fun y => ?_, fun y => ?_⟩
  · rw [State.withdrawTo, State.raiseAll_prog, State.updProg_prog_other _ _ _ _ hq, State.withdrawAll_prog_other _ _ _ hq]
  · rw [State.withdrawTo, s.withdrawAll_parts]
    rfl
  · rw [State.withdrawTo_port, Port.raise_get_same, (raised y).2 .state (by decide)]
  · rw [State.withdrawTo_port, Port.raise_get_other _ _ _ _ (by decide), withdrawn]

/-! ### The three deactivations -/

theorem State.deactivation_silent {s : State} {p : Index} (silent : (s.prog p).queue.onAir = none) (force : Bool) :
    s.deactivation p force = s.withdrawTo p Prog.becomeInactive :=
  if_neg (Bool.eq_false_iff.mp ((s.prog p).hasOnAir_false_iff.mpr silent))

theorem State.deactivation_forced {s : State} {p : Index} (air : (s.prog p).hasOnAir = true) :
    s.deactivation p true = (s.endCore p .forced).withdrawTo p Prog.becomeInactive := by
  rw [State.deactivation, if_pos air, if_pos rfl]
  rfl

theorem State.deactivation_drained {s : State} {p : Index} (air : (s.prog p).hasOnAir = true)
    (draining : (s.prog p).entry.state = .draining) : s.deactivation p false = s := by
  rw [State.deactivation, if_pos air, if_neg (by decide), if_pos draining]

theorem State.deactivation_drains {s : State} {p : Index} (air : (s.prog p).hasOnAir = true)
    (state : (s.prog p).entry.state ≠ .draining) :
    s.deactivation p false = s.withdrawTo p fun P => P.setState .draining := by
  rw [State.deactivation, if_pos air, if_neg (by decide), if_neg state]
  rfl

/-! ### The end that force brings -/

/-- What takes, ends and due events leave of the part around the programmes, with the free order not used. -/
theorem State.Around.parts {s t : State} (around : s.Around t) (free : t.freeCount = s.freeCount) :
    t = { s with audio := t.audio, progs := t.progs, log := t.log, discards := t.discards, ports := t.ports } := by
  rw [← around.lines, ← around.override, ← around.baud, ← around.armed, ← around.pending, ← free]

theorem State.endCore_freeCount (s : State) (p : Index) (cause : EndCause) : (s.endCore p cause).freeCount = s.freeCount :=
  (State.closeSegment_facts (s.boundary p) p cause).2.2

theorem State.endCore_port (s : State) (p : Index) (cause : EndCause) (y : PortId) : (s.endCore p cause).port y
    = (((s.boundary p).closeSegment p cause).port y).raise .segClosed (bitOf p) := State.raiseAll_port _ _ _ y

theorem State.endCore_onlyNotices (s : State) (p : Index) (cause : EndCause) :
    s.onlyNotices (s.endCore p cause) [.escalated, .logHalf, .logDiscard, .segClosed] :=
  ((s.cut_onlyNotices p cause).mono (by simp)).trans
    (State.raiseAll_onlyNotices (((s.boundary p).closeSegment p cause).updProg p Prog.applyPending) .segClosed p _ (by simp))

/-- R103: the record of an end, with the log, the counter and the ports as its posting leaves them. -/
theorem State.endCore_posts {s : State} {p : Index} (cause : EndCause) {o : OnAir} (h : (s.prog p).queue.onAir = some o) :
    let t := s.endCore p cause
    ∃ rec, (t.log, t.discards) = appendRecord (s.log, s.discards) rec ∧ t.log.getLast? = some rec
      ∧ rec.closes p o cause (s.prog p).gain.applied (boundaryWork s.audio.line (s.prog p)).2.meas.segAccount
      ∧ (t.prog p).entry.escalation = ((s.post rec).prog p).entry.escalation
      ∧ ∀ y, t.port y = ((s.post rec).port y).raise .segClosed (bitOf p) := by
  intro t
  obtain ⟨_, _, _, _, _, applied, _⟩ := boundaryWork_facts s.audio.line (s.prog p)
  obtain ⟨rec, log, last, closes, ports, counter⟩ := s.cut_posts p cause o h
  rw [applied] at closes
  refine ⟨rec, log, last, closes, ?_, fun y => ?_⟩
  · rw [← counter]
    simp only [t, State.endCore, State.raiseAll_prog, State.updProg_prog_same]
    rfl
  · rw [State.endCore_port, State.port, ports]
    rfl

/-- R31, R32: a programme whose segment on air has ended, and which becomes INACTIVE with its CUED records withdrawn. -/
theorem Prog.ended_inactive {P : Prog} (air : P.hasOnAir = true) (line : List Stage) (n : Nat) :
    (P.ended line n).withdrawn.becomeInactive =
      let cut := (boundaryWork line P).2
      let active := P.entry.active.apply P.entry.pending
      { entry := { P.entry with state := .inactive, active := active, pending := .empty, escalation := n }
        queue := ⟨none, []⟩
        meas := { cut.meas with
          segAccount := none
          inSum := 0
          outSum := 0
          held := false
          inHist := []
          outHist := [] }
        gain := { cut.gain with
          policy := .adaptive
          ramp := none
          reduction := 0
          oldCeiling := ceilingChange P.entry.active.ceiling active.ceiling cut.gain.oldCeiling } } := by
  obtain ⟨_, _, _, queue, entry, _, _, _, window, clock, inFlight, _⟩ := boundaryWork_facts line P
  have cutAir : (boundaryWork line P).2.hasOnAir = true := by rw [Prog.hasOnAir, queue]; exact air
  rw [Prog.ended, Prog.closed, if_pos cutAir]
  have entry : (boundaryWork line P).2.entry = { P.entry with state := (boundaryWork line P).2.entry.state } := by
    rcases entry with h | ⟨_, h⟩ <;> rw [h]
  simp only [Prog.applyPending, Prog.tuneActive, Prog.setEntry, Prog.withdrawn, Prog.setQueue, Prog.becomeInactive,
    Entry.setState, Measure.discard, Gain.rest, window, clock, inFlight]
  rw [entry]

theorem Prog.ended_cued (P : Prog) (line : List Stage) (n : Nat) : (P.ended line n).queue.cued = P.queue.cued := by
  obtain ⟨_, _, _, queue, _⟩ := boundaryWork_facts line P
  exact (Prog.closed_cued _ n).trans (congrArg _ queue)

/-- R31: the whole of a forced deactivation, as an end and a withdrawal after it. -/
structure State.ForcedOff (s e t : State) (p : Index) : Prop where
  closed : e = s.endCore p .forced
  withdrew : e.Withdrew t p
  prog : t.prog p = (e.prog p).withdrawn.becomeInactive

section

variable {s e t : State} {p : Index} (off : s.ForcedOff e t p)
include off

theorem State.ForcedOff.core : s.onlyNotices e [.escalated, .logHalf, .logDiscard, .segClosed] :=
  off.closed ▸ s.endCore_onlyNotices p .forced

theorem State.ForcedOff.onlyNotices :
    s.onlyNotices t [.escalated, .logHalf, .logDiscard, .segClosed, .withdrawn, .state] :=
  (off.core.mono (by simp)).trans (off.withdrew.notices.mono (by simp))

theorem State.ForcedOff.state (y : PortId) :
    (t.port y).notices.get .state = ⟨true, ((s.port y).notices.get .state).bitmap ||| bitOf p⟩ := by
  rw [off.withdrew.state, (off.core y).2 .state (by decide)]

theorem State.ForcedOff.segClosed (y : PortId) :
    (t.port y).notices.get .segClosed = ⟨true, ((s.port y).notices.get .segClosed).bitmap ||| bitOf p⟩ := by
  rw [(off.withdrew.notices y).2 .segClosed (by decide), off.closed, State.endCore_port, Port.raise_get_same,
    (s.cut_onlyNotices p .forced y).2 .segClosed (by decide)]

theorem State.ForcedOff.withdrawn (y : PortId) :
    (t.port y).notices.get .withdrawn = if (s.prog p).queue.cued.any (fun r => r.owner == y) then
      ⟨true, ((s.port y).notices.get .withdrawn).bitmap ||| bitOf p⟩ else (s.port y).notices.get .withdrawn := by
  obtain ⟨n, _, ended⟩ := s.endCore_prog_same p .forced
  have cued : (e.prog p).queue.cued = (s.prog p).queue.cued := by
    rw [off.closed, ended, Prog.ended_cued]
  rw [off.withdrew.withdrawn, cued, (off.core y).2 .withdrawn (by decide)]

theorem State.ForcedOff.audio : t.audio = { s.audio with line := (boundaryWork s.audio.line (s.prog p)).1 } := by
  rw [off.withdrew.parts, off.closed, ← s.endCore_line p .forced]
  exact (s.endCore_audio p .forced).audio

theorem State.ForcedOff.parts :
    t = { s with audio := t.audio, progs := t.progs, log := t.log, discards := t.discards, ports := t.ports } := by
  have parts := off.withdrew.parts
  have core : e = { s with audio := e.audio, progs := e.progs, log := e.log, discards := e.discards, ports := e.ports } :=
    off.closed ▸ (s.endCore_around p .forced).parts (s.endCore_freeCount p .forced)
  have audio : t.audio = e.audio := by rw [parts]
  have log : t.log = e.log := by rw [parts]
  have discards : t.discards = e.discards := by rw [parts]
  rw [audio, log, discards]
  exact parts.trans (by rw [core])

theorem State.ForcedOff.other (q : Index) (h : q ≠ p) : t.prog q = s.prog q := by
  rw [off.withdrew.other q h, off.closed, State.endCore_prog_other _ _ _ _ h]

/-- R103: the one record posted, and what its posting leaves of the counter and of the notices of the log. -/
theorem State.ForcedOff.posts {o : OnAir} (onAir : (s.prog p).queue.onAir = some o) :
    ∃ rec, (t.log, t.discards) = appendRecord (s.log, s.discards) rec ∧ t.log.getLast? = some rec
      ∧ rec.closes p o .forced (s.prog p).gain.applied (boundaryWork s.audio.line (s.prog p)).2.meas.segAccount
      ∧ rec.verdict = .aborted
      ∧ (t.prog p).entry.escalation = ((s.post rec).prog p).entry.escalation
      ∧ ∀ y, ∀ k ∈ [Kind.escalated, .logHalf, .logDiscard],
        (t.port y).notices.get k = ((s.post rec).port y).notices.get k := by
  obtain ⟨rec, log, last, closes, counter, ports⟩ := State.endCore_posts .forced onAir
  rw [← off.closed] at log last counter ports
  have verdict : rec.verdict = verdictOf .forced rec.integrated o.target o.tolerance := by
    obtain ⟨_, _, _, _, _, _, _, _, _, _, _, _, _, _, _, _, _, verdict, _⟩ := closes
    exact verdict
  refine ⟨rec, ?_, ?_, closes, verdict, ?_, fun y k hk => ?_⟩
  · rw [off.withdrew.parts]
    exact log
  · rw [off.withdrew.parts]
    exact last
  · rw [off.prog, ← counter]
    rfl
  · have ⟨still, kept⟩ : k ∉ [Kind.withdrawn, .state] ∧ k ≠ .segClosed := by
      revert hk
      cases k <;> decide
    rw [(off.withdrew.notices y).2 k still, ports, Port.raise_get_other _ _ _ _ kept]

end

theorem State.withdrawTo_forcedOff (s : State) (p : Index) :
    s.ForcedOff (s.endCore p .forced) ((s.endCore p .forced).withdrawTo p Prog.becomeInactive) p :=
  ⟨rfl, State.withdrawTo_withdrew _ p _, State.withdrawTo_prog_same _ p _⟩

/-! ### PROG.DEACTIVATE -/

section

variable {v : State} {x : PortId} {p : Index}

theorem deactivateRequest_badForce {b : Byte} (h : 1 < b.toNat) :
    deactivateRequest x [indexByte p, b] v = .error (.badValue, []) := by
  rw [deactivateRequest, readTwo_two, indexOf_indexByte, need_some, flagOf_none h]
  rfl

theorem deactivateRequest_force {b : Byte} {force : Bool} (h : flagOf b = some force) :
    deactivateRequest x [indexByte p, b] v = (do
      demand (v.governs x p) .noRights
      demand (v.prog p).isActive .wrongState
      .ok (v.deactivation p force, [])) := by
  rw [deactivateRequest, readTwo_two, indexOf_indexByte, need_some, h]
  rfl

theorem deactivateRequest_noRights {b : Byte} {force : Bool} (h : flagOf b = some force) (rights : v.governs x p = false) :
    deactivateRequest x [indexByte p, b] v = .error (.noRights, []) := by
  rw [deactivateRequest_force h, rights]
  rfl

theorem deactivateRequest_wrongState {b : Byte} {force : Bool} (h : flagOf b = some force) (rights : v.governs x p = true)
    (state : (v.prog p).entry.state = .inactive) : deactivateRequest x [indexByte p, b] v = .error (.wrongState, []) := by
  rw [deactivateRequest_force h, rights, Prog.isActive, state]
  rfl

theorem deactivateRequest_ok {b : Byte} {force : Bool} (h : flagOf b = some force) (rights : v.governs x p = true)
    (state : (v.prog p).entry.state ≠ .inactive) :
    deactivateRequest x [indexByte p, b] v = .ok (v.deactivation p force, []) := by
  rw [deactivateRequest_force h, rights, (Prog.isActive_iff _).mpr state]
  rfl

end

/-- Settles O41: nothing on air, a drain, and a forced end, each a withdrawal with STATE (`State.Withdrew`). -/
theorem progDeactivate : Obligations.ProgDeactivate := by
  intro s x tag p hs v plain force withdrawn raised
  have plain_refused : ∀ {r}, deactivateRequest x [indexByte p, 0] v = .error (r, []) → plain = answered v x 0x13 tag r [] :=
    request_refused hs 0x13 deactivateRequest tag _
  have force_refused : ∀ {r}, deactivateRequest x [indexByte p, 1] v = .error (r, []) → force = answered v x 0x13 tag r [] :=
    request_refused hs 0x13 deactivateRequest tag _
  refine ⟨fun b large => request_refused hs 0x13 deactivateRequest tag _ (deactivateRequest_badForce large),
    fun rights =>
      ⟨plain_refused (deactivateRequest_noRights rfl rights), force_refused (deactivateRequest_noRights rfl rights)⟩,
    fun rights state =>
      ⟨plain_refused (deactivateRequest_wrongState rfl rights state),
        force_refused (deactivateRequest_wrongState rfl rights state)⟩,
    fun rights state => ?_⟩
  have plain_ok : ∀ {t}, v.deactivation p false = t → plain = answered t x 0x13 tag .ok [] := fun e =>
    e ▸ request_taken hs 0x13 deactivateRequest tag _ (deactivateRequest_ok rfl rights state)
  have force_ok : ∀ {t}, v.deactivation p true = t → force = answered t x 0x13 tag .ok [] := fun e =>
    e ▸ request_taken hs 0x13 deactivateRequest tag _ (deactivateRequest_ok rfl rights state)
  clear_value plain force v
  refine ⟨fun silent => ?_, fun air draining => plain_ok (State.deactivation_drained air draining), fun air running => ?_,
    fun o onAir => ?_⟩
  · have w := v.withdrawTo_withdrew p Prog.becomeInactive
    have prog := v.withdrawTo_prog_same p Prog.becomeInactive
    refine ⟨_, plain_ok (State.deactivation_silent silent _), force_ok (State.deactivation_silent silent _), w.state, ?_, ?_, ?_,
      ?_, ?_, w.other, w.parts, w.notices, w.withdrawn⟩
    · rw [prog]
      rfl
    · rw [prog]
      exact congrArg (Queue.mk · []) silent
    · rw [prog]
      rfl
    · rw [prog]
      rfl
    · rw [w.parts]
  · have w := v.withdrawTo_withdrew p fun P => P.setState .draining
    have prog := v.withdrawTo_prog_same p fun P => P.setState .draining
    refine ⟨_, plain_ok (State.deactivation_drains air running), w.state, ?_, ?_, prog, w.other, w.parts, w.notices,
      w.withdrawn⟩
    · rw [w.parts]
    · rw [w.parts]
  · intro P cut active
    have air : P.hasOnAir = true := P.hasOnAir_iff.mpr ⟨o, onAir⟩
    have off := v.withdrawTo_forcedOff p
    obtain ⟨_, _, _, _, _, applied, _, _, window, clock, inFlight, _⟩ := boundaryWork_facts v.audio.line P
    obtain ⟨n, _, ended⟩ := v.endCore_prog_same p .forced
    have prog := off.prog
    rw [ended, Prog.ended_inactive air] at prog
    refine ⟨_, force_ok (State.deactivation_forced air), off.state, off.segClosed, ?_, ?_, ?_, ?_, ?_, ?_, ?_, ?_,
      off.posts onAir, off.withdrawn, off.onlyNotices, off.parts, off.audio, off.other⟩ <;> rw [prog]
    · exact inFlight
    · exact clock
    · exact applied
    · exact window

end Sys2Proof.Machine
end

section
/-! The bounds of the Measurement Engine, the limiter window and the escalation counter (R42, R44, R48, R54, R56, R62, R125,
R138): the full block closes before the next position is measured, so the clock never passes 4800, and no bin and no count of held
blocks passes its limit. -/

namespace Sys2Proof.Machine

/-! ### Accounts -/

/-- R56: a full bin takes no further window. -/
theorem Account.bounded.add {a : Account} (h : a.bounded) (loudness : Int) (energy : Rat) :
    (a.add loudness energy).bounded := by
  obtain ⟨bins, counts⟩ := h
  unfold Account.add
  dsimp only
  split
  · exact ⟨bins, counts⟩
  · rename_i room
    refine ⟨(List.length_set ..).trans bins, fun b hb => ?_⟩
    rcases List.mem_or_eq_of_mem_set hb with hb | rfl
    · exact counts b hb
    · exact Nat.lt_of_not_le room

/-- R54, R62: the bounds of a Segment Account. -/
def SegAccount.bounded (a : SegAccount) : Prop := a.account.bounded ∧ a.heldBlocks ≤ Config.countLimit

theorem SegAccount.fresh_bounded : SegAccount.fresh.bounded := ⟨Account.empty_bounded, Nat.zero_le _⟩

theorem SegAccount.bounded.close {a : SegAccount} (h : a.bounded) (stamp : Position) (hist : List BlockRecord) (held : Bool) :
    (a.close stamp hist held).bounded := by
  obtain ⟨account, heldBlocks⟩ := h
  refine ⟨?_, ?_⟩ <;> dsimp only [SegAccount.close] <;> split
  · exact account.add _ _
  · exact account
  · exact Nat.min_le_left _ _
  · exact heldBlocks

/-! ### The engine -/

/-- R48: the two histories, of one length, at most 30. -/
theorem appendHistory_lengths {h k : List BlockRecord} (b c : BlockRecord) (same : h.length = k.length)
    (short : h.length ≤ Config.historyLength) : (appendHistory h b).length = (appendHistory k c).length
      ∧ (appendHistory h b).length ≤ Config.historyLength := by
  rw [appendHistory_length b short, appendHistory_length c (same ▸ short), same]
  exact ⟨rfl, Nat.min_le_left _ _⟩

/-- R49: a close starts the block clock anew, and the accounts keep their bounds. -/
theorem Prog.closedMeasure_bounded {P : Prog} (h : P.meas.bounded) : P.closedMeasure.bounded := by
  obtain ⟨inFlight, _, same, short, account, segAccount⟩ := h
  obtain ⟨same, short⟩ := appendHistory_lengths (P.blockRecord P.meas.inSum) (P.blockRecord P.meas.outSum) same short
  refine ⟨inFlight, Nat.zero_le _, same, short, ?_, fun a ha => ?_⟩
  · dsimp only [Prog.closedMeasure]
    split
    · exact account.add _ _
    · exact account
  · dsimp only [Prog.closedMeasure] at ha
    split at ha
    · rename_i before _ present
      obtain rfl := Option.some.inj ha
      exact SegAccount.bounded.close (segAccount before present) _ _ _
    · exact segAccount a ha

theorem Measure.bounded.cleared {m : Measure} (h : m.bounded) : { m with inFlight := [] }.bounded :=
  ⟨Nat.zero_le _, h.2⟩

theorem Prog.closeBlock_measBounded {P : Prog} (h : P.meas.bounded) : P.closeBlock.meas.bounded := by
  rw [P.closeBlock_eq]
  have closed := Prog.closedMeasure_bounded h
  dsimp only
  split
  · exact closed.cleared
  · exact closed

/-- R44: after a full block has closed, or where there is none, a further position can be measured. -/
theorem Prog.closeIfFull_open (P : Prog) : P.closeIfFull.meas.clock < Config.blockFrames := by
  unfold Prog.closeIfFull
  split
  · rw [Prog.closeBlock_clock]
    decide
  · rename_i undue
    exact Nat.lt_of_not_le undue

theorem Prog.closeIfFull_measBounded {P : Prog} (h : P.meas.bounded) : P.closeIfFull.meas.bounded := by
  unfold Prog.closeIfFull
  split
  · exact Prog.closeBlock_measBounded h
  · exact h

theorem SegAccount.bounded.peaked {old new : Option SegAccount} (h : ∀ a ∈ old, a.bounded)
    (e : new = old ∨ ∃ t, new = old.map (·.peak t)) : ∀ a ∈ new, a.bounded := by
  rcases e with rfl | ⟨t, rfl⟩
  · exact h
  · rintro a ha
    obtain ⟨b, hb, rfl⟩ := Option.mem_map.mp ha
    exact h b hb

/-- R42: a position is measured, and the clock advances to 4800 at most. -/
theorem Prog.measureOldest_measBounded {P : Prog} (line : List Stage) (h : P.meas.bounded)
    (fits : P.meas.clock < Config.blockFrames) : (P.measureOldest line).meas.bounded := by
  obtain ⟨inFlight, _, same, short, account, segAccount⟩ := h
  obtain ⟨_, inHist, outHist, sameAccount, clock, peak⟩ := Prog.measureOldest_meas line P
  refine ⟨?_, ?_, by rw [inHist, outHist, same], by rw [inHist]; exact short, by rw [sameAccount]; exact account,
    SegAccount.bounded.peaked segAccount peak⟩
  · rw [Prog.measureOldest_inFlight, List.length_tail]
    exact (Nat.sub_le _ _).trans inFlight
  · rw [clock]
    split
    · exact fits.le
    · exact fits

theorem Prog.flush_measBounded (line : List Stage) (n : Nat) : ∀ P : Prog, P.meas.bounded →
    P.meas.clock < Config.blockFrames → (Prog.flush line n P).meas.bounded := by
  induction n with
  | zero => exact fun P h _ => h
  | succ n ih =>
    exact fun P h fits => ih _ (Prog.closeIfFull_measBounded (Prog.measureOldest_measBounded line h fits))
      (Prog.closeIfFull_open _)

theorem Prog.boundaryMeasure_measBounded (line : List Stage) {P : Prog} (h : P.meas.bounded) :
    (P.boundaryMeasure line).meas.bounded := by
  unfold Prog.boundaryMeasure Prog.closeShort
  have flushed := Prog.flush_measBounded line P.meas.inFlight.length _ (Prog.closeIfFull_measBounded h) P.closeIfFull_open
  split
  · exact flushed
  · exact Prog.closeBlock_measBounded flushed

theorem Measure.bounded.without {m : Measure} (h : m.bounded) : { m with segAccount := none }.bounded := by
  obtain ⟨inFlight, clock, same, short, account, _⟩ := h
  exact ⟨inFlight, clock, same, short, account, fun _ ha => nomatch ha⟩

/-- R63: nothing in flight, the clock at 0 and both histories empty; the accounts stay. -/
theorem Measure.bounded.emptied {m n : Measure} (h : m.bounded) (inFlight : n.inFlight = []) (clock : n.clock = 0)
    (inHist : n.inHist = []) (outHist : n.outHist = []) (account : n.account = m.account)
    (segAccount : n.segAccount = m.segAccount) : n.bounded := by
  obtain ⟨_, _, _, _, bounded, segBounded⟩ := h
  unfold Measure.bounded
  rw [inFlight, clock, inHist, outHist, account, segAccount]
  exact ⟨Nat.zero_le _, Nat.zero_le _, rfl, Nat.zero_le _, bounded, segBounded⟩

theorem Measure.bounded.start {m : Measure} (h : m.bounded) (tallyInactive : Bool) : (m.start tallyInactive).bounded :=
  h.emptied rfl rfl rfl rfl rfl rfl

theorem Measure.bounded.discard {m : Measure} (h : m.bounded) : m.discard.bounded := h.emptied rfl rfl rfl rfl rfl rfl

/-! ### Each piece of the work on a programme -/

theorem Prog.bounded.engine {P : Prog} (h : P.bounded) : P.meas.bounded := h.1
theorem Prog.bounded.window {P : Prog} (h : P.bounded) : P.gain.window.length ≤ Config.lookAhead := h.2.1
theorem Prog.bounded.counter {P : Prog} (h : P.bounded) : P.entry.escalation ≤ 3 := h.2.2

/-- The engine's work keeps the window and the counter. -/
theorem Prog.bounded.worked {P Q : Prog} (h : P.bounded) (w : P.Worked Q) (meas : Q.meas.bounded) : Q.bounded := by
  refine ⟨meas, w.window ▸ h.window, ?_⟩
  rcases w.entry with e | ⟨_, e⟩ <;> rw [e] <;> exact h.counter

theorem Prog.bounded.closeBlock {P : Prog} (h : P.bounded) : P.closeBlock.bounded :=
  h.worked P.closeBlock_worked (Prog.closeBlock_measBounded h.engine)

theorem Prog.bounded.boundaryWork {P : Prog} (h : P.bounded) (line : List Stage) : (boundaryWork line P).2.bounded := by
  obtain ⟨_, _, _, _, _, _, _, _, window, _⟩ := boundaryWork_facts line P
  refine ⟨Prog.boundaryMeasure_measBounded _ (P := P.setGain _) h.engine, ?_, ?_⟩
  · rw [window]
    exact Nat.zero_le _
  · rw [boundaryWork_escalation]
    exact h.counter

/-- R84, R138: a close takes the Segment Account away, and leaves the counter at `n`. -/
theorem Prog.bounded.closed {P : Prog} (h : P.bounded) {n : Nat} (counter : n ≤ 3) : (P.closed n).bounded := by
  unfold Prog.closed
  split
  · exact ⟨h.engine.without, h.window, counter⟩
  · exact h

theorem Prog.bounded.ended {P : Prog} (h : P.bounded) (line : List Stage) {n : Nat} (counter : P.entry.escalation ≤ 3 → n ≤ 3) :
    (P.ended line n).bounded := (h.boundaryWork line).closed (counter h.counter)

theorem Gain.startRamp_window (g : Gain) (policy : Policy) (entry : Rat) (ms : Int) :
    (g.startRamp policy entry ms).window = g.window := by
  unfold Gain.startRamp
  dsimp only
  split <;> rfl

theorem Gain.completeRamp_window (g : Gain) : g.completeRamp.window = g.window := by
  unfold Gain.completeRamp
  split <;> rfl

/-- A gain stage with the same limiter window leaves the programme bounded. -/
theorem Prog.bounded.setGain {P : Prog} (h : P.bounded) {g : Gain} (window : g.window = P.gain.window) : (P.setGain g).bounded :=
  ⟨h.engine, (congrArg List.length window).trans_le h.window, h.counter⟩

theorem Prog.bounded.goOnAir {P : Prog} (h : P.bounded) (n : Position) (cause : TakeCause) : (P.goOnAir n cause).bounded := by
  unfold Prog.goOnAir
  split
  · exact h
  · obtain ⟨⟨inFlight, clock, same, short, account, _⟩, window, counter⟩ := h
    refine ⟨⟨inFlight, clock, same, short, account, fun a ha => ?_⟩, ?_, counter⟩
    · obtain rfl := Option.some.inj ha
      exact SegAccount.fresh_bounded
    · rw [Gain.startRamp_window]
      exact window

theorem Prog.bounded.becomeInactive {P : Prog} (h : P.bounded) : P.becomeInactive.bounded :=
  ⟨h.engine.discard, Nat.zero_le _, h.counter⟩

theorem Prog.bounded.restarted {P : Prog} (h : P.bounded) (lines : Octet CueLine) : (Prog.restarted lines P).bounded :=
  ⟨(h.engine.start _).without, Nat.zero_le _, h.counter⟩

/-- R112: with no close due a frame brings the clock to 4800 at most, and what enters the window and the engine at one end leaves
them at the other. -/
theorem Prog.bounded.handFrame {P : Prog} (h : P.bounded) (line : List Stage) (raw : List Sample) (now : Bool)
    (undue : P.closeDue = false) : (P.handFrame line raw now).2.bounded := by
  obtain ⟨⟨inFlight, _, same, short, account, segAccount⟩, window, counter⟩ := h
  obtain ⟨entry, _, _, _, _, _, _, newWindow, inHist, outHist, sameAccount, clock, newInFlight, peak⟩ :=
    Prog.handFrame_facts line raw now P
  have fits : P.meas.clock < Config.blockFrames := Nat.lt_of_not_le (of_decide_eq_false undue)
  exact ⟨⟨newInFlight.trans (max_le (le_refl _) inFlight), clock.trans fits, by rw [inHist, outHist, same],
    by rw [inHist]; exact short, by rw [sameAccount]; exact account, SegAccount.bounded.peaked segAccount peak⟩,
    newWindow.trans (max_le (le_refl _) window), by rw [entry]; exact counter⟩

theorem Prog.bounded.tallyChange {P : Prog} (h : P.bounded) (k : Index) (active : Bool) : (P.tallyChange k active).bounded := by
  unfold Prog.tallyChange
  split <;> exact h

theorem Prog.bounded.activated {P : Prog} (h : P.bounded) (line : List Stage) (b : Bool) : (P.activated line b).bounded := by
  obtain ⟨inFlight, clock, same, short, _⟩ := h.engine.start b
  refine ⟨⟨inFlight, clock, same, short, Account.empty_bounded, fun _ ha => nomatch ha⟩, ?_, Nat.zero_le _⟩
  dsimp only [Prog.activated, activationFix]
  rw [(fixAll_facts _ _ _).2.1]
  exact Nat.zero_le _

theorem Prog.bounded.tune {P : Prog} (h : P.bounded) (v : TunableSet) : (P.tune v).bounded := by
  unfold Prog.tune
  split <;> exact h

theorem Prog.bounded.clearAccount {P : Prog} (h : P.bounded) : P.clearAccount.bounded := by
  obtain ⟨⟨inFlight, clock, same, short, _, segAccount⟩, window, _⟩ := h
  exact ⟨⟨inFlight, clock, same, short, Account.empty_bounded, segAccount⟩, window, Nat.zero_le _⟩

theorem bounded_kept : ProgKept Prog.bounded where
  reset := fun p => Prog.reset_bounded p.val
  stages := fun _ line _ pos cause _ counter h => (h.ended line counter).goOnAir pos cause
  goOn := fun _ line _ _ counter _ h => (h.ended line counter).setGain (Gain.startRamp_window _ _ _ _)
  drained := fun _ line _ _ counter _ h => (h.ended line counter).becomeInactive
  forced := fun _ line _ _ counter h => Prog.bounded.becomeInactive (P := Prog.withdrawn _) (h.ended line counter)
  restarted := fun P lines line _ counter h => by
    refine Prog.bounded.restarted ?_ lines
    split
    · exact (h.boundaryWork line).closed (counter h.counter)
    · exact h
  close := fun _ _ h => h.closeBlock
  ramp := fun _ _ h => h.setGain (Gain.completeRamp_window _)
  overrun := fun _ h => h
  frame := fun _ line raw now _ undue _ h => h.handFrame line raw now undue
  tally := fun _ k active h => h.tallyChange k active
  lapse := fun _ _ h => h
  configure := fun _ _ _ _ _ _ _ h => h
  activate := fun _ line b _ h => h.activated line b
  deactivate := fun P _ _ h => Prog.bounded.becomeInactive (P := P.withdrawn) h
  drain := fun _ _ _ h => h
  runOn := fun _ _ h => h
  resume := fun _ b _ h => ⟨h.engine.start b, h.2⟩
  stop := fun _ _ _ h => h
  tune := fun _ v _ h => h.tune v
  custodian := fun _ _ h => h
  rights := fun _ _ h => h
  clearAccount := fun _ h => h.clearAccount
  cue := fun _ _ _ _ _ _ h => h
  amend := fun _ _ _ _ _ h => h
  withdraw := fun _ _ h => h

/-- Settles O56: each piece of the work on a programme keeps the bounds. -/
theorem stepKeepsEnginesBounded : Obligations.StepKeepsEnginesBounded := bounded_kept.kept.step

end Sys2Proof.Machine
end

section
/-! Loudness and the accounts: the loudness of a set of blocks (R50), momentary and short-term (R52, R53), the integrated loudness
(R57), and what a block close gives the two accounts (R54 to R56, R60, R62). -/

namespace Sys2Proof.Machine

/-! ### The loudness of a set of blocks -/

/-- R50: the energy of a set of blocks is their frame-weighted mean. -/
theorem setEnergy_eq (bs : List BlockRecord) : setEnergy bs
    = (bs.map fun b => b.energy * (b.frames : Rat)).sum / (((bs.map (·.frames)).sum : Nat) : Rat) := by
  rw [setEnergy, Int.cast_natCast, ← List.sum_eq_foldl, ← List.sum_eq_foldl]

theorem sum_map_cast {α : Type} (f : α → Nat) (l : List α) : (l.map fun a => (f a : Rat)).sum = ((l.map f).sum : Nat) := by
  rw [Nat.cast_list_sum, List.map_map]
  rfl

theorem loudnessOf_nonpos {e : Rat} (h : e ≤ 0) : loudnessOf e = -9999 := if_pos h

theorem momentary_none {h : List BlockRecord} (short : h.length < 4) : momentary h = none := if_neg (Nat.not_le.mpr short)
theorem shortTerm_none {h : List BlockRecord} (short : h.length < 4) : shortTerm h = none := if_neg (Nat.not_le.mpr short)

theorem momentary_some {h : List BlockRecord} (long : 4 ≤ h.length) : momentary h = some (setLoudness (windowOf h)) :=
  if_pos long
theorem shortTerm_some {h : List BlockRecord} (long : 4 ≤ h.length) : shortTerm h = some (setLoudness h) := if_pos long

/-- Log 11: whole powers of ten are exact. -/
theorem pow10_intCast (n : Int) : pow10 (n : Rat) = (10 : Rat) ^ n := by
  have whole : (n : Rat).floor = n := Int.floor_intCast (R := Rat) n
  rw [pow10_eq, whole, sub_self, fractionFactor, if_pos rfl, mul_one]

/-! ### The integrated loudness -/

theorem Account.windowCount_eq (a : Account) : a.windowCount = (a.bins.map (·.count)).sum := List.sum_eq_foldl.symm

/-- The bins whose lower edge is `gate` or above, each with its number (R54, R57). -/
def gatedBins (gate : Int) (bins : List Bin) : List (Bin × Nat) := bins.zipIdx.filter fun b => decide (gate ≤ binEdge b.2)

/-- R57: the two sums run over the bins at or above the gate. -/
theorem gatedSums_eq (gate : Int) (bins : List Bin) : gatedSums gate bins
    = (((gatedBins gate bins).map (·.1.count)).sum, ((gatedBins gate bins).map (·.1.energy)).sum) := by
  have onward : ∀ (l : List (Bin × Nat)) (t : Nat × Rat),
      l.foldl (fun t bi => if gate ≤ binEdge bi.2 then (t.1 + bi.1.count, t.2 + bi.1.energy) else t) t
        = (t.1 + ((l.filter fun b => decide (gate ≤ binEdge b.2)).map (·.1.count)).sum,
          t.2 + ((l.filter fun b => decide (gate ≤ binEdge b.2)).map (·.1.energy)).sum) := by
    intro l
    induction l with
    | nil => simp
    | cons b l ih =>
      intro t
      rw [List.foldl_cons, ih]
      by_cases above : gate ≤ binEdge b.2 <;> simp [above, add_assoc]
  rw [gatedSums, onward, Nat.zero_add, zero_add]
  rfl

/-- The gate of an account: 10.00 LU below its ungated level (R57). -/
def Account.gate (a : Account) : Int :=
  loudnessOf ((a.bins.map (·.energy)).sum / ((a.bins.map (·.count)).sum : Nat)) - 1000

theorem Account.integrated_eq (a : Account) : a.integrated =
    if (a.bins.map (·.count)).sum = 0 then none
    else if ((gatedBins a.gate a.bins).map (·.1.count)).sum = 0 then none
    else some (loudnessOf (((gatedBins a.gate a.bins).map (·.1.energy)).sum
      / (((gatedBins a.gate a.bins).map (·.1.count)).sum : Nat))) := by
  simp only [Account.integrated, Account.windowCount_eq, gatedSums_eq, Int.cast_natCast, ← List.sum_eq_foldl]
  rfl

section

variable {a : Account}

theorem Account.integrated_noWindow (empty : (a.bins.map (·.count)).sum = 0) : a.integrated = none := by
  rw [a.integrated_eq, if_pos empty]

theorem Account.integrated_allGated (windows : (a.bins.map (·.count)).sum ≠ 0)
    (gated : ((gatedBins a.gate a.bins).map (·.1.count)).sum = 0) : a.integrated = none := by
  rw [a.integrated_eq, if_neg windows, if_pos gated]

theorem Account.integrated_some (windows : (a.bins.map (·.count)).sum ≠ 0)
    (above : ((gatedBins a.gate a.bins).map (·.1.count)).sum ≠ 0) : a.integrated = some (loudnessOf
      (((gatedBins a.gate a.bins).map (·.1.energy)).sum / (((gatedBins a.gate a.bins).map (·.1.count)).sum : Nat))) := by
  rw [a.integrated_eq, if_neg windows, if_neg above]

end

/-- Settles O10: `pow10_root_near` for the powers of ten, `loudnessOf_law` for the edges, `Account.integrated_eq` for the gate. -/
theorem loudnessAndGating : Obligations.LoudnessAndGating := by
  refine ⟨pow10_intCast, fun _ _ => pow10_mono, pow10_root_near, fun bs => congrArg loudnessOf (setEnergy_eq bs),
    fun e => ⟨loudnessOf_nonpos, loudnessOf_law e⟩,
    fun h => ⟨fun short => ⟨momentary_none short, shortTerm_none short⟩, fun long => ⟨momentary_some long, shortTerm_some long⟩⟩,
    fun a => ?_⟩
  simp only [sum_map_cast, ne_eq, Nat.cast_eq_zero]
  exact ⟨Account.integrated_noWindow, Account.integrated_allGated, Account.integrated_some⟩

/-! ### What a block close gives the accounts -/

theorem anyHeld_false_iff (bs : List BlockRecord) : anyHeld bs = false ↔ ∀ b ∈ bs, b.held = false := by
  simp [anyHeld]

/-- R45: the block belongs to the segment with this take stamp. -/
def BlockRecord.belongs (stamp : Position) (b : BlockRecord) : Prop := ∃ g, b.segment = some g ∧ g.takeStamp = stamp

theorem allBelong_iff (stamp : Position) (bs : List BlockRecord) : allBelong stamp bs = true ↔ ∀ b ∈ bs, b.belongs stamp := by
  rw [allBelong, List.all_eq_true]
  refine forall₂_congr fun b _ => ?_
  cases h : b.segment <;> simp [BlockRecord.belongs, h]

/-- R54: an output history whose window the Programme Account takes. -/
def windowAccepted (h : List BlockRecord) : Prop :=
  4 ≤ h.length ∧ (∀ b ∈ windowOf h, b.held = false) ∧ -7000 ≤ setLoudness (windowOf h)

theorem accepts_iff (h : List BlockRecord) : (decide (Config.windowLength ≤ h.length)
    && acceptable (setLoudness (windowOf h)) (anyHeld (windowOf h))) = true ↔ windowAccepted h := by
  rw [acceptable, Bool.and_eq_true, Bool.and_eq_true, Bool.not_eq_true', anyHeld_false_iff, decide_eq_true_iff,
    decide_eq_true_iff]
  rfl

/-- The output history after a close (R48, R49). -/
def Prog.closedHistory (P : Prog) : List BlockRecord := appendHistory P.meas.outHist (P.blockRecord P.meas.outSum)

theorem Prog.closedMeasure_account_taken {P : Prog} (h : windowAccepted P.closedHistory) : P.closedMeasure.account
    = P.meas.account.add (setLoudness (windowOf P.closedHistory)) (setEnergy (windowOf P.closedHistory)) :=
  if_pos ((accepts_iff _).mpr h)

theorem Prog.closedMeasure_account_kept {P : Prog} (h : ¬windowAccepted P.closedHistory) :
    P.closedMeasure.account = P.meas.account := if_neg (mt (accepts_iff _).mp h)

theorem Prog.closedMeasure_segAccount_none {P : Prog} (h : P.queue.onAir = none ∨ P.meas.segAccount = none) :
    P.closedMeasure.segAccount = P.meas.segAccount := by
  dsimp only [Prog.closedMeasure]
  rcases h with h | h <;> rw [h]
  cases P.queue.onAir <;> rfl

theorem Prog.closedMeasure_segAccount_some {P : Prog} {o : OnAir} {a : SegAccount} (onAir : P.queue.onAir = some o)
    (account : P.meas.segAccount = some a) :
    P.closedMeasure.segAccount = some (a.close o.takeStamp P.closedHistory P.meas.held) := by
  dsimp only [Prog.closedMeasure]
  rw [onAir, account]
  rfl

section

variable {a : SegAccount} {stamp : Position} {h : List BlockRecord} {held : Bool}

theorem SegAccount.accepts_iff : (decide (Config.windowLength ≤ h.length)
    && acceptable (setLoudness (windowOf h)) (anyHeld (windowOf h)) && allBelong stamp (windowOf h)) = true
    ↔ windowAccepted h ∧ ∀ b ∈ windowOf h, b.belongs stamp := by
  rw [Bool.and_eq_true, Machine.accepts_iff, allBelong_iff]

theorem SegAccount.close_taken (taken : windowAccepted h ∧ ∀ b ∈ windowOf h, b.belongs stamp) :
    (a.close stamp h held).account = a.account.add (setLoudness (windowOf h)) (setEnergy (windowOf h))
      ∧ (a.close stamp h held).maxMomentary = raiseMax a.maxMomentary (setLoudness (windowOf h)) :=
  ⟨if_pos (SegAccount.accepts_iff.mpr taken), if_pos (SegAccount.accepts_iff.mpr taken)⟩

theorem SegAccount.close_kept (kept : ¬(windowAccepted h ∧ ∀ b ∈ windowOf h, b.belongs stamp)) :
    (a.close stamp h held).account = a.account ∧ (a.close stamp h held).maxMomentary = a.maxMomentary :=
  ⟨if_neg (mt SegAccount.accepts_iff.mp kept), if_neg (mt SegAccount.accepts_iff.mp kept)⟩

/-- R60: 30 blocks of the segment, none of them HELD. -/
theorem SegAccount.full_iff : (decide (h.length = Config.historyLength) && allBelong stamp h && !anyHeld h) = true
    ↔ h.length = 30 ∧ ∀ b ∈ h, b.belongs stamp ∧ b.held = false := by
  rw [Bool.and_eq_true, Bool.and_eq_true, Bool.not_eq_true', allBelong_iff, anyHeld_false_iff, decide_eq_true_iff, and_assoc,
    ← forall₂_and]
  rfl

theorem SegAccount.close_full (full : h.length = 30 ∧ ∀ b ∈ h, b.belongs stamp ∧ b.held = false) :
    (a.close stamp h held).maxShortTerm = raiseMax a.maxShortTerm (setLoudness h) := if_pos (SegAccount.full_iff.mpr full)

theorem SegAccount.close_notFull (short : ¬(h.length = 30 ∧ ∀ b ∈ h, b.belongs stamp ∧ b.held = false)) :
    (a.close stamp h held).maxShortTerm = a.maxShortTerm := if_neg (mt SegAccount.full_iff.mp short)

end

/-- R54, R56: a window goes to its bin while the bin has room. -/
theorem Account.add_room {a : Account} {loudness : Int} (energy : Rat)
    (room : (a.bins.getD (binIndex loudness) Bin.empty).count < Config.countLimit) : a.add loudness energy =
      { a with bins := a.bins.set (binIndex loudness) ⟨(a.bins.getD (binIndex loudness) Bin.empty).count + 1,
        (a.bins.getD (binIndex loudness) Bin.empty).energy + energy⟩ } := if_neg (Nat.not_le.mpr room)

theorem Account.add_full {a : Account} {loudness : Int} (energy : Rat)
    (full : Config.countLimit ≤ (a.bins.getD (binIndex loudness) Bin.empty).count) :
    a.add loudness energy = { a with saturated := true } := if_pos full

/-- Settles O9: the window that the output history leaves after the close is taken by each account, or not. -/
theorem accountsAcceptWindows : Obligations.AccountsAcceptWindows := by
  refine ⟨fun P => ?_, fun a l e _ _ => ⟨Account.add_room e, Account.add_full e⟩⟩
  intro h w energy ok
  have mean : setEnergy w = energy := setEnergy_eq w
  rw [← mean]
  refine ⟨Prog.closedMeasure_account_taken, Prog.closedMeasure_account_kept, Prog.closedMeasure_segAccount_none,
    fun o a onAir account => ?_⟩
  intro own rise
  have raise_eq : ∀ old v, raiseMax old v = rise old v := fun old v => by cases old <;> rfl
  simp only [← raise_eq]
  exact ⟨_, Prog.closedMeasure_segAccount_some onAir account, SegAccount.close_taken, SegAccount.close_kept,
    SegAccount.close_full, SegAccount.close_notFull, rfl, rfl⟩

end Sys2Proof.Machine
end

section
/-! The boundary work of a programme (R43, R46, R89, R129), and the two ways in which a segment leaves the air: a take (R88 to R92)
and an end (R99, R100, R102, R103). -/

namespace Sys2Proof.Machine

/-! ### The boundary work -/

theorem fixAll_iterate (e : Entry) (line : List Stage) (g : Gain) :
    fixAll e line g = (fun r : List Stage × Gain => fixOldest e r.1 r.2)^[g.window.length] (line, g) :=
  fixMany_iterate e _ line g

/-- R46: a short block closes exactly when the block in progress holds a position. -/
theorem Prog.closeShort_eq (P : Prog) : P.closeShort = if 0 < P.meas.clock then P.closeBlock else P := by
  rw [Prog.closeShort]
  split
  · rename_i empty
    rw [if_neg (by omega)]
  · rename_i begun
    rw [if_pos (by omega)]

/-- R43, R46, R129: the window fixed, the positions in flight measured, the short block closed. -/
theorem boundaryWork_eq (line : List Stage) (P : Prog) :
    let fixed := fixAll P.entry line P.gain
    let flushed := (fun Q : Prog => (Q.measureOldest fixed.1).closeIfFull)^[P.meas.inFlight.length]
      (P.setGain fixed.2).closeIfFull
    boundaryWork line P = (fixed.1, if 0 < flushed.meas.clock then flushed.closeBlock else flushed) := by
  intro fixed flushed
  rw [boundaryWork, Prog.boundaryMeasure, Prog.closeShort_eq, Prog.flush_iterate]
  rfl

/-- Settles O14: `boundaryWork_eq` is the work, `Prog.closeBlock_eq` each close in it. -/
theorem boundaryWork_law : Obligations.BoundaryWork := by
  refine ⟨fun line P => ?_, fun P => ?_, fun s p => rfl⟩
  · obtain ⟨_, _, _, _, _, _, _, _, window, clock, inFlight, _⟩ := boundaryWork_facts line P
    refine ⟨?_, window, inFlight, clock⟩
    rw [boundaryWork_eq, fixAll_iterate]
    rfl
  · rw [P.closeBlock_eq]
    exact ⟨rfl, rfl, rfl, rfl⟩

/-! ### A programme whose segment has ended -/

/-- R35: the boundary work leaves the entry but for the state of a programme whose stop completes. -/
theorem boundaryWork_entry (line : List Stage) (P : Prog) :
    (boundaryWork line P).2.entry = { P.entry with state := (boundaryWork line P).2.entry.state } := by
  obtain ⟨_, _, _, _, entry, _⟩ := boundaryWork_facts line P
  rcases entry with h | ⟨_, h⟩ <;> rw [h]

theorem boundaryWork_draining_iff (line : List Stage) (P : Prog) :
    (boundaryWork line P).2.entry.state = .draining ↔ P.entry.state = .draining := by
  obtain ⟨_, _, _, _, entry, _⟩ := boundaryWork_facts line P
  rcases entry with h | ⟨stopping, h⟩ <;> rw [h]
  simp [stopping]

section

variable (P : Prog) (line : List Stage) (n : Nat)

theorem Prog.ended_entry : (P.ended line n).entry = { P.entry with
    state := (boundaryWork line P).2.entry.state
    active := P.entry.active.apply P.entry.pending
    pending := .empty
    escalation := (P.ended line n).entry.escalation } := by
  rw [Prog.ended, Prog.applyPending_entry, Prog.closed_entry, boundaryWork_entry]

theorem Prog.ended_draining_iff : (P.ended line n).entry.state = .draining ↔ P.entry.state = .draining := by
  rw [Prog.ended_entry]
  exact boundaryWork_draining_iff line P

theorem Prog.ended_queue : (P.ended line n).queue = ⟨none, P.queue.cued⟩ := by
  rw [← Prog.ended_cued P line n, ← Prog.closed_onAir (boundaryWork line P).2 n]
  rfl

theorem Prog.ended_meas : (P.ended line n).meas
    = { (boundaryWork line P).2.meas with segAccount := (P.ended line n).meas.segAccount } := Prog.closed_meas _ n

theorem Prog.ended_gain : (P.ended line n).gain = { (boundaryWork line P).2.gain with
    oldCeiling := ceilingChange P.entry.active.ceiling (P.entry.active.apply P.entry.pending).ceiling
      (boundaryWork line P).2.gain.oldCeiling } := by
  dsimp only [Prog.ended, Prog.applyPending, Prog.tuneActive, Prog.setEntry]
  rw [Prog.closed_gain, Prog.closed_entry, boundaryWork_entry]

end

theorem Prog.ended_segAccount {P : Prog} (air : P.hasOnAir = true) (line : List Stage) (n : Nat) :
    (P.ended line n).meas.segAccount = none := by
  obtain ⟨_, _, _, queue, _⟩ := boundaryWork_facts line P
  exact Prog.closed_segAccount n (.inl (by rw [Prog.hasOnAir, queue]; exact air))

/-! ### The ramp at a take and at an end -/

/-- R123: the effective policy, and whether the counter overrides the policy cued. -/
theorem effectivePolicy_eq (cued : Policy) (counter : Nat) : effectivePolicy cued counter =
    (if cued = .fixed ∧ counter = 3 then .adaptive else cued, decide (cued = .fixed ∧ counter = 3)) := by
  by_cases full : counter = 3 <;> cases cued <;> simp [effectivePolicy, full]

/-- R118: 48 frames in a millisecond. -/
theorem rampTotal_eq (ms : Int) : (ms * 48).toNat = 48 * ms.toNat := by omega

/-- R118: a ramp starts: what it leaves of the gain stage, with the landing at once of one that has no course or no change. -/
theorem Gain.startRamp_eq (g : Gain) (policy : Policy) (entry : Rat) (ms : Int) : g.startRamp policy entry ms =
    { g with
      policy := policy
      desired := entry
      holding := false
      applied := if ms ≤ 0 ∨ entry = g.applied then entry else g.applied
      ramp := if ms ≤ 0 ∨ entry = g.applied then none else some ⟨g.applied, entry, 48 * ms.toNat, 0⟩ } := by
  have atOnce : 48 * ms.toNat = 0 ↔ ms ≤ 0 := by omega
  rw [Gain.startRamp, rampTotal_eq]
  simp only [atOnce]
  split <;> rfl

/-- R99, R113: free-run keeps the gain as it stands. -/
theorem Gain.freeRun_eq (g : Gain) (ms : Int) : g.freeRun ms =
    { g with policy := .adaptive, desired := g.applied, holding := false, ramp := none } := by
  rw [Gain.freeRun, Gain.startRamp_eq]
  simp only [or_true, if_true]

/-- R91, R92: the next record goes on air. -/
theorem Prog.goOnAir_cued {P : Prog} {r : SegRecord} {rest : List SegRecord} (cued : P.queue.cued = r :: rest) (n : Position)
    (cause : TakeCause) :
    let o := P.onAirRecord n cause r
    P.goOnAir n cause =
      { entry := P.entry
        queue := ⟨some o, rest⟩
        meas := { P.meas with segAccount := some .fresh }
        gain := P.gain.startRamp o.policy (entryValue r o.policy o.overridden o.target P.gain.applied)
          (r.rampLength.getD P.entry.active.defaultRamp) } := by
  dsimp only [Prog.goOnAir]
  rw [cued]

/-! ### A take -/

/-- The record that goes on air at a take, with the escalation counter at `n` (R72, R91). -/
def Prog.takenRecord (P : Prog) (n : Nat) (pos : Position) (cause : TakeCause) (r : SegRecord) : OnAir :=
  let active := P.entry.active.apply P.entry.pending
  { record := r
    takeStamp := pos
    cause := cause
    policy := if r.policy = .fixed ∧ n = 3 then .adaptive else r.policy
    overridden := decide (r.policy = .fixed ∧ n = 3)
    target := r.targetOverride.getD active.target
    tolerance := r.toleranceOverride.getD active.tolerance
    gainAtTake := roundAway P.gain.applied
    framesOnAir := 0
    overrun := false }

/-- The entry value of that record (R113). -/
def Prog.takenEntry (P : Prog) (o : OnAir) : Rat := entryValue o.record o.policy o.overridden o.target P.gain.applied

/-- The length in ms of the ramp that starts at a take (R92). -/
def Prog.takenRamp (P : Prog) (r : SegRecord) : Int :=
  r.rampLength.getD (P.entry.active.apply P.entry.pending).defaultRamp

theorem Prog.ended_onAirRecord (P : Prog) (line : List Stage) (m : Nat) (pos : Position) (cause : TakeCause) (r : SegRecord) :
    (P.ended line m).onAirRecord pos cause r = P.takenRecord (P.ended line m).entry.escalation pos cause r := by
  obtain ⟨_, _, _, _, _, applied, _⟩ := boundaryWork_facts line P
  rw [Prog.onAirRecord, effectivePolicy_eq, Prog.ended_gain, Prog.ended_entry]
  dsimp only
  rw [applied]
  rfl

/-- The gain stage at a take, with this record going on air and this gain stage before (R92, R118). -/
def Prog.takenGain (P : Prog) (g : Gain) (o : OnAir) : Gain :=
  let still := P.takenRamp o.record ≤ 0 ∨ P.takenEntry o = P.gain.applied
  { g with
    policy := o.policy
    desired := P.takenEntry o
    holding := false
    applied := if still then P.takenEntry o else P.gain.applied
    ramp := if still then none else some ⟨P.gain.applied, P.takenEntry o, 48 * (P.takenRamp o.record).toNat, 0⟩ }

theorem Prog.takenGain_eq {P : Prog} {g : Gain} (o : OnAir) (applied : g.applied = P.gain.applied) :
    g.startRamp o.policy (P.takenEntry o) (P.takenRamp o.record) = P.takenGain g o := by
  rw [Gain.startRamp_eq, applied]
  rfl

/-- R88, stages 1 to 5: what a take leaves of its programme, with the counter that the posting leaves. -/
theorem State.takeStages_prog_cued {s : State} {p : Index} {r : SegRecord} {rest : List SegRecord}
    (cued : (s.prog p).queue.cued = r :: rest) (cause : TakeCause) :
    let P := s.prog p
    let cut := (boundaryWork s.audio.line P).2
    let active := P.entry.active.apply P.entry.pending
    let Q := (s.takeStages p cause).prog p
    let o := P.takenRecord Q.entry.escalation s.position cause r
    Q.entry = { P.entry with
        state := cut.entry.state
        active := active
        pending := .empty
        escalation := Q.entry.escalation }
      ∧ Q.queue = ⟨some o, rest⟩
      ∧ Q.meas = { cut.meas with segAccount := some .fresh }
      ∧ Q.gain = P.takenGain { cut.gain with
          oldCeiling := ceilingChange P.entry.active.ceiling active.ceiling cut.gain.oldCeiling } o := by
  intro P cut active Q o
  obtain ⟨m, _, prog⟩ := s.takeStages_prog_same p cause
  obtain ⟨_, _, _, _, _, applied, _⟩ := boundaryWork_facts s.audio.line P
  have entry : Q.entry = (P.ended s.audio.line m).entry := (congrArg Prog.entry prog).trans (Prog.goOnAir_entry _ _ _)
  have taken : Q = _ := prog.trans (Prog.goOnAir_cued ((P.ended_cued s.audio.line m).trans cued) s.position cause)
  have record : (P.ended s.audio.line m).onAirRecord s.position cause r = o := by
    rw [Prog.ended_onAirRecord, ← entry]
  refine ⟨by rw [entry]; exact P.ended_entry _ m, by rw [taken, ← record], ?_, ?_⟩
  · rw [taken]
    exact congrArg (fun M : Measure => { M with segAccount := some .fresh }) (P.ended_meas s.audio.line m)
  · have gain := P.ended_gain s.audio.line m
    have before : (P.ended s.audio.line m).gain.applied = P.gain.applied := (congrArg Gain.applied gain).trans applied
    have ramp : r.rampLength.getD (P.ended s.audio.line m).entry.active.defaultRamp = P.takenRamp o.record := by
      rw [P.ended_entry]
      rfl
    rw [taken]
    dsimp only
    rw [record, before, ramp, gain]
    exact Prog.takenGain_eq o applied

theorem State.takeStages_escalation (s : State) (p : Index) (cause : TakeCause) : ((s.takeStages p cause).prog p).entry.escalation
    = (((s.boundary p).closeSegment p .takeNext).prog p).entry.escalation := by
  simp only [State.takeStages, State.updProg_prog_same, Prog.goOnAir_entry, Prog.applyPending_entry]

theorem State.boundary_onAir (s : State) (p : Index) : ((s.boundary p).prog p).queue.onAir = (s.prog p).queue.onAir := by
  obtain ⟨_, _, _, queue, _⟩ := boundaryWork_facts s.audio.line (s.prog p)
  rw [State.boundary_prog_same, queue]

/-- R90: with nothing on air a take posts nothing. -/
theorem State.takeStages_silent {s : State} {p : Index} (cause : TakeCause) (silent : (s.prog p).queue.onAir = none) :
    let t := s.takeStages p cause
    t.log = s.log ∧ t.discards = s.discards ∧ t.ports = s.ports
      ∧ (t.prog p).entry.escalation = (s.prog p).entry.escalation := by
  intro t
  have close : (s.boundary p).closeSegment p .takeNext = s.boundary p := by
    rw [State.closeSegment, s.boundary_onAir p, silent]
  have outside : ∀ {α : Type} (f : State → α), f ((s.boundary p).closeSegment p .takeNext) = f (s.boundary p) :=
    fun f => congrArg f close
  refine ⟨outside State.log, outside State.discards, outside State.ports, ?_⟩
  rw [State.takeStages_escalation, close, State.boundary_prog_same, boundaryWork_escalation]

/-- R90, R140: the segment on air is closed with one record, and its posting decides notices and counter. -/
theorem State.takeStages_posts {s : State} {p : Index} (cause : TakeCause) {o : OnAir} (onAir : (s.prog p).queue.onAir = some o) :
    let t := s.takeStages p cause
    ∃ rec, (t.log, t.discards) = appendRecord (s.log, s.discards) rec ∧ t.log.getLast? = some rec
      ∧ rec.closes p o .takeNext (s.prog p).gain.applied (boundaryWork s.audio.line (s.prog p)).2.meas.segAccount
      ∧ t.ports = (s.post rec).ports ∧ (t.prog p).entry.escalation = ((s.post rec).prog p).entry.escalation := by
  intro t
  obtain ⟨_, _, _, _, _, applied, _⟩ := boundaryWork_facts s.audio.line (s.prog p)
  obtain ⟨rec, log, last, closes, ports, counter⟩ := s.cut_posts p .takeNext o onAir
  rw [applied] at closes
  exact ⟨rec, log, last, closes, ports, (s.takeStages_escalation p cause).trans counter⟩

theorem State.takeStages_parts (s : State) (p : Index) (cause : TakeCause) : let t := s.takeStages p cause
    t = { s with audio := t.audio, progs := t.progs, log := t.log, discards := t.discards, ports := t.ports } :=
  (s.takeStages_around p cause).parts (State.closeSegment_facts (s.boundary p) p .takeNext).2.2

theorem boundaryWork_state {P : Prog} (line : List Stage) (h : P.entry.state ≠ .stopping) :
    (boundaryWork line P).2.entry.state = P.entry.state := by
  obtain ⟨_, _, _, _, entry, _⟩ := boundaryWork_facts line P
  exact congrArg Entry.state (entry.resolve_right fun stopping => h stopping.1)

/-- Settles O15: `State.takeStages_prog_cued` is the programme after a take, `State.takeStages_posts` its posting. -/
theorem takeStages : Obligations.TakeStages := by
  intro s p cause r rest cued t P Q cut n active ms
  obtain ⟨_, _, _, _, _, _, _, _, window, clock, inFlight, _⟩ := boundaryWork_facts s.audio.line P
  obtain ⟨entry, queue, meas, gain⟩ := State.takeStages_prog_cued cued cause
  refine ⟨⟨_, queue, rfl, rfl, rfl, rfl, rfl, rfl, rfl, rfl, rfl, rfl, congrArg Gain.policy gain, congrArg Gain.holding gain,
      congrArg Gain.desired gain, fun still => ?_, fun long moves => ?_⟩, entry, fun running => ?_, meas,
    (congrArg Measure.clock meas).trans clock, (congrArg Measure.inFlight meas).trans inFlight,
    (congrArg Gain.window gain).trans window, (congrArg Gain.reduction gain).trans rfl,
    (congrArg Gain.passed gain).trans rfl,
    congrArg Gain.oldCeiling gain, s.takeStages_line p cause, State.takeStages_silent cause,
    fun o => State.takeStages_posts cause, s.takeStages_onlyNotices p cause, s.takeStages_parts p cause,
    (s.takeStages_audio p cause).audio, fun q other => s.takeStages_prog_other p q cause other⟩
  · exact ⟨(congrArg Gain.applied gain).trans (if_pos still), (congrArg Gain.ramp gain).trans (if_pos still)⟩
  · have course := not_or.mpr ⟨not_le.mpr long, moves⟩
    exact ⟨(congrArg Gain.applied gain).trans (if_neg course), (congrArg Gain.ramp gain).trans (if_neg course)⟩
  · have going : P.entry.state ≠ .stopping := by rw [running]; decide
    exact (congrArg Entry.state entry).trans ((boundaryWork_state _ going).trans running)

end Sys2Proof.Machine
end

section
/-! A segment that ends other than by a take (R99, R100, R102, R103). -/

namespace Sys2Proof.Machine

/-- R99, step 4, R102: a programme whose segment has ended goes on in free-run, or becomes INACTIVE after a drain. -/
def Prog.afterEnd (E : Prog) : Prog := if E.entry.state = .draining then E.becomeInactive else E.toFreeRun

theorem Prog.afterEnd_draining {E : Prog} (h : E.entry.state = .draining) : E.afterEnd = E.becomeInactive := if_pos h
theorem Prog.afterEnd_going {E : Prog} (h : E.entry.state ≠ .draining) : E.afterEnd = E.toFreeRun := if_neg h

/-- What either way on leaves of a programme whose boundary work is done. -/
theorem Prog.afterEnd_facts {E : Prog} (window : E.gain.window = []) (clock : E.meas.clock = 0)
    (inFlight : E.meas.inFlight = []) : let Q := E.afterEnd
    Q.queue = E.queue ∧ Q.entry = { E.entry with state := Q.entry.state } ∧ Q.meas.segAccount = E.meas.segAccount
      ∧ Q.meas.inFlight = [] ∧ Q.meas.clock = 0 ∧ Q.meas.account = E.meas.account ∧ Q.gain.applied = E.gain.applied
      ∧ Q.gain.policy = .adaptive ∧ Q.gain.window = [] ∧ Q.gain.ramp = none := by
  dsimp only
  by_cases draining : E.entry.state = .draining
  · rw [Prog.afterEnd_draining draining]
    exact ⟨rfl, rfl, rfl, rfl, rfl, rfl, rfl, rfl, rfl, rfl⟩
  · rw [Prog.afterEnd_going draining, Prog.toFreeRun, Gain.freeRun_eq]
    exact ⟨rfl, rfl, rfl, inFlight, clock, rfl, rfl, rfl, window, rfl⟩

theorem Prog.afterEnd_escalation (E : Prog) : E.afterEnd.entry.escalation = E.entry.escalation := by
  rw [Prog.afterEnd]
  split <;> rfl

/-- R63: what is discarded where nothing is in flight and the clock stands at 0. -/
theorem Measure.discard_eq {m : Measure} (inFlight : m.inFlight = []) (clock : m.clock = 0) : m.discard =
    { m with inSum := 0, outSum := 0, held := false, inHist := [], outHist := [] } := by
  simp only [Measure.discard, inFlight, clock]

theorem Gain.rest_eq {g : Gain} (window : g.window = []) :
    g.rest = { g with policy := .adaptive, ramp := none, reduction := 0 } := by
  simp only [Gain.rest, window]

/-! ### An end of a segment on air -/

section

variable (s : State) (p : Index) (cause : EndCause)

theorem State.endSegment_afterEnd : (s.endSegment p cause).prog p = ((s.endCore p cause).prog p).afterEnd := by
  rw [State.endSegment, Prog.afterEnd]
  split
  · exact State.deactivate_prog_same _ p
  · exact State.updProg_prog_same _ p _

theorem State.endCore_draining_iff :
    ((s.endCore p cause).prog p).entry.state = .draining ↔ (s.prog p).entry.state = .draining := by
  obtain ⟨n, _, ended⟩ := s.endCore_prog_same p cause
  rw [ended]
  exact Prog.ended_draining_iff _ _ n

/-- R102: STATE is raised at the end of a drain. -/
theorem State.endSegment_ports : (s.endSegment p cause).ports = (if (s.prog p).entry.state = .draining then
    (s.endCore p cause).raiseAll .state p else s.endCore p cause).ports := by
  rw [State.endSegment]
  simp only [State.endCore_draining_iff]
  split <;> rfl

theorem State.endSegment_outside : (s.endSegment p cause).log = (s.endCore p cause).log
    ∧ (s.endSegment p cause).discards = (s.endCore p cause).discards
    ∧ (s.endSegment p cause).audio = (s.endCore p cause).audio
    ∧ (s.endSegment p cause).freeCount = (s.endCore p cause).freeCount := by
  rw [State.endSegment]
  split <;> exact ⟨rfl, rfl, rfl, rfl⟩

theorem State.endSegment_parts : let t := s.endSegment p cause
    t = { s with audio := t.audio, progs := t.progs, log := t.log, discards := t.discards, ports := t.ports } := by
  obtain ⟨_, _, _, free⟩ := s.endSegment_outside p cause
  exact (s.endSegment_around p cause).parts (free.trans (s.endCore_freeCount p cause))

theorem State.endSegment_segClosed : (s.endSegment p cause).noticed .segClosed p := by
  have closed : (s.endCore p cause).noticed .segClosed p := State.raiseAll_noticed _ _ _
  rw [State.endSegment]
  split
  · exact closed.mono (State.deactivate_around _ p).raised
  · exact closed

end

theorem State.endSegment_state {s : State} {p : Index} (cause : EndCause) (draining : (s.prog p).entry.state = .draining) :
    (s.endSegment p cause).noticed .state p := by
  rw [State.endSegment]
  rw [if_pos ((s.endCore_draining_iff p cause).mpr draining)]
  exact State.raiseAll_noticed _ _ _

/-- R99, R140: the record of an end, and what its posting and SEG_CLOSED leave of the ports; STATE after a drain. -/
theorem State.endSegment_posts {s : State} {p : Index} (cause : EndCause) {o : OnAir} (onAir : (s.prog p).queue.onAir = some o) :
    let t := s.endSegment p cause
    ∃ rec, (t.log, t.discards) = appendRecord (s.log, s.discards) rec ∧ t.log.getLast? = some rec
      ∧ rec.closes p o cause (s.prog p).gain.applied (boundaryWork s.audio.line (s.prog p)).2.meas.segAccount
      ∧ (t.prog p).entry.escalation = ((s.post rec).prog p).entry.escalation
      ∧ let closed := (s.post rec).raiseAll .segClosed p
        t.ports = (if (s.prog p).entry.state = .draining then closed.raiseAll .state p else closed).ports := by
  intro t
  obtain ⟨_, _, _, _, _, applied, _⟩ := boundaryWork_facts s.audio.line (s.prog p)
  obtain ⟨rec, log, last, closes, ports, counter⟩ := s.cut_posts p cause o onAir
  obtain ⟨sameLog, sameDiscards, _⟩ := s.endSegment_outside p cause
  rw [applied] at closes
  refine ⟨rec, ?_, ?_, closes, ?_, ?_⟩
  · rw [sameLog, sameDiscards]
    exact log
  · rw [sameLog]
    exact last
  · rw [← counter, s.endSegment_afterEnd, Prog.afterEnd_escalation, State.endCore, State.raiseAll_prog,
      State.updProg_prog_same]
    rfl
  · have core : (s.endCore p cause).ports = ((s.post rec).raiseAll .segClosed p).ports := congrArg (Trio.map _) ports
    rw [s.endSegment_ports]
    split
    · exact congrArg (Trio.map _) core
    · exact core

/-! ### The programme after an end -/

section

variable {P : Prog} (air : P.hasOnAir = true) (line : List Stage) (n : Nat)
include air

theorem Prog.ended_air_meas : (P.ended line n).meas = { (boundaryWork line P).2.meas with segAccount := none } := by
  rw [P.ended_meas, Prog.ended_segAccount air]

/-- What both ways on leave of a programme whose segment on air has ended. -/
theorem Prog.ended_afterEnd : let Q := (P.ended line n).afterEnd
    Q.queue = ⟨none, P.queue.cued⟩
      ∧ Q.entry = { P.entry with
        state := Q.entry.state
        active := P.entry.active.apply P.entry.pending
        pending := .empty
        escalation := Q.entry.escalation }
      ∧ Q.meas.segAccount = none ∧ Q.meas.inFlight = [] ∧ Q.meas.clock = 0
      ∧ Q.meas.account = (boundaryWork line P).2.meas.account ∧ Q.gain.applied = P.gain.applied ∧ Q.gain.policy = .adaptive
      ∧ Q.gain.window = [] ∧ Q.gain.ramp = none := by
  intro Q
  obtain ⟨_, _, _, _, _, applied, _, _, window, clock, inFlight, _⟩ := boundaryWork_facts line P
  have meas := Prog.ended_air_meas air line n
  have gain := P.ended_gain line n
  obtain ⟨queue, entry, segAccount, noFlight, noClock, account, sameApplied, policy, noWindow, ramp⟩ :=
    Prog.afterEnd_facts ((congrArg Gain.window gain).trans window) ((congrArg Measure.clock meas).trans clock)
      ((congrArg Measure.inFlight meas).trans inFlight)
  refine ⟨queue.trans (P.ended_queue line n), ?_, segAccount.trans (congrArg Measure.segAccount meas), noFlight, noClock,
    account.trans ((congrArg Measure.account meas).trans rfl), sameApplied.trans ((congrArg Gain.applied gain).trans applied),
    policy, noWindow, ramp⟩
  rw [show Q.entry.escalation = _ from Prog.afterEnd_escalation _]
  exact entry.trans (congrArg (fun e : Entry => { e with state := Q.entry.state }) (P.ended_entry line n))

/-- R99, step 4: a RUNNING programme goes on with the gain and the engine as they stand. -/
theorem Prog.ended_running (running : P.entry.state = .running) :
    let cut := (boundaryWork line P).2
    let Q := (P.ended line n).afterEnd
    Q.entry.state = .running ∧ Q.meas = { cut.meas with segAccount := none }
      ∧ Q.gain = { cut.gain with
          policy := .adaptive
          desired := P.gain.applied
          holding := false
          ramp := none
          oldCeiling := ceilingChange P.entry.active.ceiling (P.entry.active.apply P.entry.pending).ceiling
            cut.gain.oldCeiling } := by
  intro cut Q
  obtain ⟨_, _, _, _, _, applied, _⟩ := boundaryWork_facts line P
  have state := (P.ended_state line n (by rw [running]; decide)).trans running
  have gain := P.ended_gain line n
  have going : Q = (P.ended line n).toFreeRun := Prog.afterEnd_going (by rw [state]; decide)
  rw [going]
  refine ⟨state, Prog.ended_air_meas air line n, (Gain.freeRun_eq _ _).trans ?_⟩
  exact congrArg₂ (fun (g : Gain) (d : Rat) =>
    ({ g with policy := .adaptive, desired := d, holding := false, ramp := none } : Gain)) gain
    ((congrArg Gain.applied gain).trans applied)

/-- R102: a DRAINING programme becomes INACTIVE. -/
theorem Prog.ended_draining (draining : P.entry.state = .draining) :
    let cut := (boundaryWork line P).2
    let Q := (P.ended line n).afterEnd
    Q.entry.state = .inactive
      ∧ Q.meas = { cut.meas with segAccount := none, inSum := 0, outSum := 0, held := false, inHist := [], outHist := [] }
      ∧ Q.gain = { cut.gain with
          policy := .adaptive
          ramp := none
          reduction := 0
          oldCeiling := ceilingChange P.entry.active.ceiling (P.entry.active.apply P.entry.pending).ceiling
            cut.gain.oldCeiling } := by
  intro cut Q
  obtain ⟨_, _, _, _, _, _, _, _, window, clock, inFlight, _⟩ := boundaryWork_facts line P
  have rest : Q = (P.ended line n).becomeInactive := Prog.afterEnd_draining ((P.ended_draining_iff line n).mpr draining)
  rw [rest]
  exact ⟨rfl, (congrArg Measure.discard (Prog.ended_air_meas air line n)).trans (Measure.discard_eq inFlight clock),
    (congrArg Gain.rest (P.ended_gain line n)).trans (Gain.rest_eq window)⟩

end

/-- Settles O17: `State.endSegment_posts` is the posting, `Prog.ended_afterEnd` the programme after the end. -/
theorem segmentEnd : Obligations.SegmentEnd := by
  intro s p cause o onAir t P Q cut active oldCeiling
  have air : P.hasOnAir = true := P.hasOnAir_iff.mpr ⟨o, onAir⟩
  obtain ⟨n, _, ended⟩ := s.endCore_prog_same p cause
  have after : Q = (P.ended s.audio.line n).afterEnd := (s.endSegment_afterEnd p cause).trans (congrArg _ ended)
  obtain ⟨queue, entry, segAccount, inFlight, clock, account, applied, policy, window, ramp⟩ :=
    Prog.ended_afterEnd air s.audio.line n
  rw [← after] at queue entry segAccount inFlight clock account applied policy window ramp
  obtain ⟨_, _, audio, _⟩ := s.endSegment_outside p cause
  refine ⟨queue, entry, segAccount, inFlight, clock, account, applied, policy, window, ramp, s.endSegment_segClosed p cause,
    State.endSegment_posts cause onAir, fun running => ?_, fun draining => ?_, s.endSegment_onlyNotices p cause,
    s.endSegment_parts p cause, ?_, fun q other => s.endSegment_prog_other p q cause other⟩
  · rw [after]
    exact Prog.ended_running air s.audio.line n running
  · obtain ⟨state, meas, gain⟩ := Prog.ended_draining air s.audio.line n draining
    rw [after]
    exact ⟨state, State.endSegment_state cause draining, meas, gain⟩
  · rw [audio, (s.endCore_audio p cause).audio, s.endCore_line]

end Sys2Proof.Machine
end

section
/-! Custody, cue rights and the Programme Account: PROG.CLAIM (R157), PROG.RELEASE (R159), PROG.RIGHTS (R160) and ACCOUNT.CLEAR
(R67). -/

namespace Sys2Proof.Machine

theorem indexByte_of_val {p : Index} {b : Byte} (h : p.val = b.toNat) : indexByte p = b := by
  rw [indexByte, byteOfNat, h, BitVec.ofNat_toNat, BitVec.setWidth_eq]

section

variable {v : State} {x : PortId} {p : Index}

/-! ### PROG.CLAIM -/

theorem claimRequest_badForce {b : Byte} (h : 1 < b.toNat) : claimRequest x [indexByte p, b] v = .error (.badValue, []) := by
  rw [claimRequest, readTwo_two, indexOf_indexByte, need_some, flagOf_none h]
  rfl

theorem claimRequest_plain : claimRequest x [indexByte p, 0] v = v.claim x p false := by
  rw [claimRequest, readTwo_two, indexOf_indexByte, need_some]
  rfl

/-- R157: force is for the override port. -/
theorem claimRequest_force : claimRequest x [indexByte p, 1] v = (do
    demand (v.override == some x) .noRights
    v.claim x p true) := by
  rw [claimRequest, readTwo_two, indexOf_indexByte, need_some]
  rfl

theorem claimRequest_force_noRights (h : v.override ≠ some x) :
    claimRequest x [indexByte p, 1] v = .error (.noRights, []) := by
  rw [claimRequest_force, beq_false_of_ne h]
  rfl

theorem claimRequest_force_override (h : v.override = some x) : claimRequest x [indexByte p, 1] v = v.claim x p true := by
  rw [claimRequest_force, h, beq_self_eq_true]
  rfl

theorem State.claim_free (h : (v.prog p).entry.custodian = none) (force : Bool) :
    v.claim x p force = .ok (v.setCustodian p (some x), [portCode (some x)]) := by
  rw [State.claim, h]

theorem State.claim_own (h : (v.prog p).entry.custodian = some x) (force : Bool) :
    v.claim x p force = .ok (v, [portCode (some x)]) := by
  simp only [State.claim, h, if_true]

theorem State.claim_busy {y : PortId} (other : y ≠ x) (h : (v.prog p).entry.custodian = some y) :
    v.claim x p false = .error (.busy, [portCode (some y)]) := by
  simp only [State.claim, h, if_neg other]
  rfl

/-- R157: a forced claim takes the custody of another port. -/
theorem State.claim_force (h : (v.prog p).entry.custodian ≠ some x) :
    v.claim x p true = .ok (v.setCustodian p (some x), [portCode (some x)]) := by
  cases held : (v.prog p).entry.custodian with
  | none => exact State.claim_free held true
  | some y =>
    have other : y ≠ x := fun e => h (held.trans (congrArg some e))
    simp only [State.claim, held, if_neg other, if_true]

/-! ### PROG.RELEASE -/

theorem progReleaseRequest_badValue {b : Byte} (h : 8 ≤ b.toNat) : progReleaseRequest x [b] v = .error (.badValue, []) := by
  rw [progReleaseRequest, readProg_one, indexOf_none h]
  rfl

theorem progReleaseRequest_one : progReleaseRequest x [indexByte p] v = (do
    demand ((v.prog p).entry.custodian == some x) .noRights
    .ok (v.setCustodian p none, [])) := by
  rw [progReleaseRequest, readProg_one, indexOf_indexByte, need_some]

theorem progReleaseRequest_noRights (h : (v.prog p).entry.custodian ≠ some x) :
    progReleaseRequest x [indexByte p] v = .error (.noRights, []) := by
  rw [progReleaseRequest_one, beq_false_of_ne h]
  rfl

theorem progReleaseRequest_ok (h : (v.prog p).entry.custodian = some x) :
    progReleaseRequest x [indexByte p] v = .ok (v.setCustodian p none, []) := by
  rw [progReleaseRequest_one, h, beq_self_eq_true]
  rfl

/-! ### PROG.RIGHTS and ACCOUNT.CLEAR -/

theorem progRightsRequest_badValue {set : Byte} (h : 8 ≤ set.toNat) :
    progRightsRequest x [indexByte p, set] v = .error (.badValue, []) := by
  rw [progRightsRequest, readTwo_two, indexOf_indexByte, need_some, portSetOf, if_neg (Nat.not_lt.mpr h)]
  rfl

theorem progRightsRequest_legal {set : Byte} (h : set.toNat < 8) : progRightsRequest x [indexByte p, set] v = (do
    demand (v.governs x p) .noRights
    .ok (v.updProg p (Prog.withRights (set.setWidth 3)), [])) := by
  rw [progRightsRequest, readTwo_two, indexOf_indexByte, need_some, portSetOf, if_pos h]
  rfl

theorem accountClearRequest_one : accountClearRequest x [indexByte p] v = (do
    demand (v.governs x p) .noRights
    .ok (v.updProg p Prog.clearAccount, [])) := by
  rw [accountClearRequest, readProg_one, indexOf_indexByte, need_some]

end

/-- Settles O44: the outcome of each request's checks, in the state it is judged in. -/
theorem custodyRightsAndAccount : Obligations.CustodyRightsAndAccount := by
  refine ⟨fun s x tag p hs => ?_, fun s x tag b hs => ?_, fun s x tag set p hs => ?_⟩
  · intro v plain force held claimed
    have refused : ∀ b {r data}, claimRequest x [indexByte p, b] v = .error (r, data) →
        .next (s.request 0x17 claimRequest x tag [indexByte p, b]) = answered v x 0x17 tag r data :=
      fun b _ _ => request_refused hs 0x17 claimRequest tag _
    have taken : ∀ b {t data}, claimRequest x [indexByte p, b] v = .ok (t, data) →
        .next (s.request 0x17 claimRequest x tag [indexByte p, b]) = answered t x 0x17 tag .ok data :=
      fun b _ _ => request_taken hs 0x17 claimRequest tag _
    exact ⟨fun b large => refused b (claimRequest_badForce large),
      fun free => taken 0 (claimRequest_plain.trans (State.claim_free free false)),
      fun own => taken 0 (claimRequest_plain.trans (State.claim_own own false)),
      fun y other busy => refused 0 (claimRequest_plain.trans (State.claim_busy other busy)),
      fun rights => refused 1 (claimRequest_force_noRights rights),
      fun override own => taken 1 ((claimRequest_force_override override).trans (State.claim_own own true)),
      fun override other => taken 1 ((claimRequest_force_override override).trans (State.claim_force other))⟩
  · intro v
    refine ⟨fun large => request_refused hs 0x18 progReleaseRequest tag _ (progReleaseRequest_badValue large), fun p index => ?_⟩
    rw [← indexByte_of_val index]
    exact ⟨fun rights => request_refused hs 0x18 progReleaseRequest tag _ (progReleaseRequest_noRights rights),
      fun custodian => request_taken hs 0x18 progReleaseRequest tag _ (progReleaseRequest_ok custodian)⟩
  · intro v rights clear
    have rights_refused : ∀ {r}, progRightsRequest x [indexByte p, set] v = .error (r, []) →
        rights = answered v x 0x19 tag r [] := request_refused hs 0x19 progRightsRequest tag _
    have clear_refused : ∀ {r}, accountClearRequest x [indexByte p] v = .error (r, []) →
        clear = answered v x 0x1A tag r [] := request_refused hs 0x1A accountClearRequest tag _
    refine ⟨fun large => rights_refused (progRightsRequest_badValue large), fun legal other => rights_refused ?_,
      fun legal governs => request_taken hs 0x19 progRightsRequest tag _ ?_, fun other => clear_refused ?_,
      fun governs => request_taken hs 0x1A accountClearRequest tag _ ?_⟩
    · rw [progRightsRequest_legal legal, other]
      rfl
    · change progRightsRequest x [indexByte p, set] v = _
      rw [progRightsRequest_legal legal, governs]
      rfl
    · rw [accountClearRequest_one, other]
      rfl
    · change accountClearRequest x [indexByte p] v = _
      rw [accountClearRequest_one, governs]
      rfl

end Sys2Proof.Machine
end

section
/-! Segment queues (04_segment_queues.md): their records (R69), the search for an id (R78, R80), and what every step keeps of
them: at most six legal records of different ids (R69, R71). -/

namespace Sys2Proof.Machine

/-! ### The records of a queue -/

theorem Queue.records_silent {q : Queue} (h : q.onAir = none) : q.records = q.cued := by
  rw [Queue.records, h]
  rfl

theorem Queue.records_onAir {q : Queue} {o : OnAir} (h : q.onAir = some o) : q.records = o.record :: q.cued := by
  rw [Queue.records, h]
  rfl

/-- R69: an ON AIR record counts as one of the queue. -/
theorem Queue.count_eq_length (q : Queue) : q.count = q.records.length := by
  cases h : q.onAir with
  | none => simp [Queue.count, Queue.records_silent h, h]
  | some o => simp [Queue.count, Queue.records_onAir h, h]

theorem Queue.cued_sublist (q : Queue) : q.cued.Sublist q.records := List.sublist_append_right _ _

theorem Queue.append_records (q : Queue) (r : SegRecord) : (q.append r).records = q.records ++ [r] :=
  (List.append_assoc _ _ _).symm

theorem Queue.hasId_false_iff (q : Queue) (id : Nat) : q.hasId id = false ↔ ∀ r ∈ q.records, r.id ≠ id := by
  simp [Queue.hasId]

/-! ### The search for an id -/

/-- The record on air has the id. -/
def Queue.airs (q : Queue) (id : Nat) : Bool := q.onAir.any fun o => o.record.id == id

theorem Queue.airs_iff (q : Queue) (id : Nat) : q.airs id = true ↔ ∃ o, q.onAir = some o ∧ o.record.id = id := by
  simp [Queue.airs, Option.any_eq_true]

/-- R78, R80: the search answers the first record of the id, head first, and whether it is the one on air. -/
theorem Queue.find_eq (q : Queue) (id : Nat) :
    q.find id = (q.records.find? fun r => r.id == id).map fun r => (r, q.airs id) := by
  unfold Queue.find Queue.airs
  cases h : q.onAir with
  | none => rw [Queue.records_silent h, Option.any_none]
  | some o =>
    rw [Queue.records_onAir h]
    by_cases ho : o.record.id = id
    · simp [ho]
    · simp [ho, beq_false_of_ne ho]

theorem Queue.find_cued {q : Queue} {id : Nat} {r : SegRecord} (h : q.find id = some (r, false)) :
    r ∈ q.records ∧ r.id = id ∧ q.airs id = false := by
  rw [Queue.find_eq, Option.map_eq_some_iff] at h
  obtain ⟨r', found, e⟩ := h
  obtain ⟨rfl, air⟩ := Prod.mk.inj e
  exact ⟨List.mem_of_find?_eq_some found, by simpa using List.find?_some found, air⟩

/-- The record that a record becomes when the one with the body's id is amended (R78). -/
def AmendBody.amendedAt (a : AmendBody) (r : SegRecord) : SegRecord := if r.id = a.id.toNat then a.amended r else r

/-- R73: an amendment keeps the id. -/
theorem AmendBody.amendedAt_id (a : AmendBody) (r : SegRecord) : (a.amendedAt r).id = r.id := by
  unfold AmendBody.amendedAt
  split <;> rfl

/-- R73: an amendment keeps the owner. -/
theorem AmendBody.amendedAt_owner (a : AmendBody) (r : SegRecord) : (a.amendedAt r).owner = r.owner := by
  unfold AmendBody.amendedAt
  split <;> rfl

theorem Queue.amend_cued (q : Queue) (a : AmendBody) : (q.amend a).cued = q.cued.map a.amendedAt := rfl

/-- With the record of the id not on air, the amendment goes through the records of the queue one by one. -/
theorem Queue.amend_records {q : Queue} {a : AmendBody} (air : q.airs a.id.toNat = false) :
    (q.amend a).records = q.records.map a.amendedAt := by
  cases h : q.onAir with
  | none => rw [Queue.records_silent h, Queue.records_silent (q := q.amend a) h, Queue.amend_cued]
  | some o =>
    have other : ¬o.record.id = a.id.toNat := by simpa [Queue.airs, h] using air
    rw [Queue.records_onAir h, Queue.records_onAir (q := q.amend a) h, Queue.amend_cued, List.map_cons,
      AmendBody.amendedAt, if_neg other]

/-! ### Sound queues -/

/-- What records leave a queue, it stays sound. -/
theorem Queue.sound.of_sublist {q q' : Queue} (h : q.sound) (fewer : q'.records.Sublist q.records) : q'.sound := by
  obtain ⟨count, ids, legal⟩ := h
  rw [Queue.count_eq_length] at count
  refine ⟨?_, ids.sublist (fewer.map _), fun r hr => legal r (fewer.subset hr)⟩
  rw [Queue.count_eq_length]
  exact fewer.length_le.trans count

theorem Queue.sound.of_records {q q' : Queue} (h : q.sound) (same : q'.records = q.records) : q'.sound :=
  h.of_sublist (same ▸ List.Sublist.refl _)

/-- R75: a legal record of another id joins a queue that is not full. -/
theorem Queue.sound.append {q : Queue} (h : q.sound) {r : SegRecord} (legal : r.legal = true) (new : q.hasId r.id = false)
    (room : q.count < Config.queueLimit) : (q.append r).sound := by
  obtain ⟨_, ids, legals⟩ := h
  rw [Queue.hasId_false_iff] at new
  rw [Queue.count_eq_length] at room
  refine ⟨?_, ?_, fun r' hr' => ?_⟩
  · rw [Queue.count_eq_length, Queue.append_records, List.length_append, List.length_singleton]
    exact room
  · rw [Queue.append_records, List.map_append, List.map_singleton, ← List.concat_eq_append, List.nodup_concat]
    refine ⟨fun hm => ?_, ids⟩
    obtain ⟨r', hr', same⟩ := List.mem_map.mp hm
    exact new r' hr' same
  · rw [Queue.append_records, List.mem_append, List.mem_singleton] at hr'
    rcases hr' with old | rfl
    · exact legals r' old
    · exact legal

/-- R78: an amendment checked on the one record of its id keeps every record legal, and the ids. -/
theorem Queue.sound.amend {q : Queue} (h : q.sound) {a : AmendBody} {r : SegRecord}
    (found : q.find a.id.toNat = some (r, false)) (amended : (a.amended r).legal = true) : (q.amend a).sound := by
  obtain ⟨count, ids, legals⟩ := h
  obtain ⟨hr, hid, air⟩ := Queue.find_cued found
  have records := Queue.amend_records air
  refine ⟨?_, ?_, fun r' hr' => ?_⟩
  · rw [Queue.count_eq_length, records, List.length_map, ← Queue.count_eq_length]
    exact count
  · rw [records, List.map_map]
    exact (List.map_congr_left fun r _ => a.amendedAt_id r) ▸ ids
  · rw [records] at hr'
    obtain ⟨r₀, hr₀, rfl⟩ := List.mem_map.mp hr'
    unfold AmendBody.amendedAt
    split
    · rename_i same
      obtain rfl : r₀ = r := List.inj_on_of_nodup_map ids hr₀ hr (same.trans hid.symm)
      exact amended
    · exact legals r₀ hr₀

/-! ### Each piece of the work on a programme -/

/-- An end takes the record on air out of the queue. -/
theorem Prog.ended_records (P : Prog) (line : List Stage) (n : Nat) : (P.ended line n).queue.records = P.queue.cued := by
  rw [Prog.ended_queue]
  rfl

theorem Prog.goOnAir_empty {P : Prog} (cued : P.queue.cued = []) (n : Position) (cause : TakeCause) : P.goOnAir n cause = P := by
  unfold Prog.goOnAir
  rw [cued]

/-- A take puts the first CUED record on air; the queue it leaves has the records that were CUED. -/
theorem Prog.goOnAir_records {P : Prog} (silent : P.queue.onAir = none) (n : Position) (cause : TakeCause) :
    (P.goOnAir n cause).queue.records = P.queue.cued := by
  cases h : P.queue.cued with
  | nil => rw [Prog.goOnAir_empty h, Queue.records_silent silent, h]
  | cons r rest =>
    rw [Prog.goOnAir_cued h]
    rfl

theorem Queue.records_map_onAir (q : Queue) (f : OnAir → OnAir) (same : ∀ o, (f o).record = o.record) :
    (Queue.mk (q.onAir.map f) q.cued).records = q.records := by
  unfold Queue.records
  cases q.onAir with
  | none => rfl
  | some o => exact congrArg (· :: q.cued) (same o)

theorem Prog.handFrame_records (P : Prog) (line : List Stage) (raw : List Sample) (now : Bool) :
    (P.handFrame line raw now).2.queue.records = P.queue.records := by
  rw [(Prog.handFrame_facts line raw now P).2.1]
  exact P.queue.records_map_onAir OnAir.aged fun _ => rfl

theorem Prog.tallyChange_queue (P : Prog) (k : Index) (active : Bool) : (P.tallyChange k active).queue = P.queue := by
  unfold Prog.tallyChange
  split <;> rfl

theorem Prog.tune_queue (P : Prog) (v : TunableSet) : (P.tune v).queue = P.queue := by
  unfold Prog.tune
  split <;> rfl

/-- A queue that keeps its record on air, with fewer CUED ones. -/
theorem Queue.records_sublist (q : Queue) {cued : List SegRecord} (fewer : cued.Sublist q.cued) :
    (Queue.mk q.onAir cued).records.Sublist q.records := fewer.append_left _

/-- The queue of the programme is sound. -/
def Prog.queueSound (P : Prog) : Prop := P.queue.sound

theorem Prog.queueSound.ended {P : Prog} (h : P.queueSound) (line : List Stage) (n : Nat) : (P.ended line n).queueSound :=
  h.of_sublist (by rw [Prog.ended_records]; exact P.queue.cued_sublist)

theorem Prog.queueSound.withdrawn {P : Prog} (h : P.queueSound) : P.withdrawn.queueSound :=
  h.of_sublist (P.queue.records_sublist (List.nil_sublist _))

theorem queueSound_kept : ProgKept Prog.queueSound where
  reset := fun _ => Queue.reset_sound
  stages := fun P line n pos cause _ _ h => h.of_sublist (by
    rw [Prog.goOnAir_records (by rw [Prog.ended_queue]), Prog.ended_cued]
    exact P.queue.cued_sublist)
  goOn := fun _ line n _ _ _ h => h.ended line n
  drained := fun _ line n _ _ _ h => h.ended line n
  forced := fun _ line n _ _ h => (h.ended line n).withdrawn
  restarted := fun _ _ _ _ _ _ => Queue.reset_sound
  close := fun P _ h => h.of_records (congrArg Queue.records P.closeBlock_worked.queue)
  ramp := fun _ _ h => h
  overrun := fun P h => h.of_records (P.queue.records_map_onAir _ fun _ => rfl)
  frame := fun P line raw now _ _ _ h => h.of_records (P.handFrame_records line raw now)
  tally := fun P k active h => h.of_records (congrArg Queue.records (P.tallyChange_queue k active))
  lapse := fun P _ h => h.of_sublist (P.queue.records_sublist List.filter_sublist)
  configure := fun _ _ _ _ _ _ _ h => h
  activate := fun _ _ _ _ h => h
  deactivate := fun _ _ _ h => h.withdrawn
  drain := fun _ _ _ h => h.withdrawn
  runOn := fun _ _ h => h
  resume := fun _ _ _ h => h
  stop := fun _ _ _ h => h
  tune := fun P v _ h => h.of_records (congrArg Queue.records (P.tune_queue v))
  custodian := fun _ _ h => h
  rights := fun _ _ h => h
  clearAccount := fun _ h => h
  cue := fun _ _ legal new _ room h => h.append legal new room
  amend := fun _ _ _ found amended h => h.amend found amended
  withdraw := fun P _ h => h.of_sublist (P.queue.records_sublist List.filter_sublist)

/-- Settles O53: each piece of the work on a programme keeps its queue sound. -/
theorem stepKeepsQueuesSound : Obligations.StepKeepsQueuesSound := queueSound_kept.kept.step

end Sys2Proof.Machine
end

section
/-! Silence timers and lapses (08, R161 to R166): PORT.TIMER, PORT.LEAVE, SILENCE_TIMER_EXPIRY, and what a lapse takes and keeps. -/

namespace Sys2Proof.Machine

/-! ### Bitmaps of programmes -/

/-- A bitmap gathered over programmes has the bit of each one gathered. -/
theorem foldl_bitOf_iff (c : Index → Prop) [DecidablePred c] (q : Index) : ∀ (l : List Index) (b : BitVec 8),
    (l.foldl (fun b p => if c p then b ||| bitOf p else b) b).getLsbD q.val = true ↔ b.getLsbD q.val = true ∨ q ∈ l ∧ c q := by
  intro l
  induction l with
  | nil => simp
  | cons p l ih =>
    intro b
    rw [List.foldl_cons, ih]
    by_cases hp : c p
    · rw [if_pos hp, BitVec.getLsbD_or, Bool.or_eq_true, bitOf_getLsbD_iff, or_assoc, List.mem_cons]
      exact or_congr Iff.rfl ⟨fun h => h.elim (fun e => ⟨.inl e, e ▸ hp⟩) fun ⟨hm, hq⟩ => ⟨.inr hm, hq⟩,
        fun ⟨hm, hq⟩ => hm.imp id fun hm => ⟨hm, hq⟩⟩
    · rw [if_neg hp, List.mem_cons]
      exact or_congr Iff.rfl ⟨fun ⟨hm, hq⟩ => ⟨.inr hm, hq⟩,
        fun ⟨hm, hq⟩ => ⟨hm.resolve_left fun e => hp (e ▸ hq), hq⟩⟩

theorem State.custodyBitmap_iff (s : State) (x : PortId) (p : Index) :
    (s.custodyBitmap x).getLsbD p.val = true ↔ (s.prog p).entry.custodian = some x := by
  unfold State.custodyBitmap
  rw [foldl_bitOf_iff (fun p => (s.prog p).entry.custodian = some x)]
  simp [mem_allIndices]

theorem State.ownedBitmap_iff (s : State) (x : PortId) (p : Index) :
    (s.ownedBitmap x).getLsbD p.val = true ↔ ∃ r ∈ (s.prog p).queue.cued, r.owner = x := by
  unfold State.ownedBitmap
  rw [foldl_bitOf_iff (fun p => ((s.prog p).queue.cued.any fun r => r.owner == x) = true)]
  simp [mem_allIndices]

theorem bits_ne_zero {b : BitVec 8} {i : Nat} (h : b.getLsbD i = true) : b ≠ 0 := by
  rintro rfl
  simp at h

/-! ### Notices of a lapse -/

/-- A notice for the programmes of a bitmap, if there are any. -/
def Port.raiseAny (k : Kind) (bits : BitVec 8) (P : Port) : Port := if bits = 0 then P else P.raise k bits

theorem Port.raiseAny_parts (k : Kind) (bits : BitVec 8) (P : Port) :
    P.raiseAny k bits = { P with notices := (P.raiseAny k bits).notices } := by
  unfold Port.raiseAny
  split <;> rfl

theorem Port.raiseAny_get (k j : Kind) (bits : BitVec 8) (P : Port) : (P.raiseAny k bits).notices.get j =
    if j = k ∧ bits ≠ 0 then ⟨true, (P.notices.get j).bitmap ||| bits⟩ else P.notices.get j := by
  unfold Port.raiseAny
  by_cases none : bits = 0
  · rw [if_pos none, if_neg fun h => h.2 none]
  · rw [if_neg none]
    by_cases same : j = k
    · subst same
      rw [Port.raise_get_same, if_pos ⟨rfl, none⟩]
    · rw [Port.raise_get_other _ _ _ _ same, if_neg fun h => same h.1]

/-! ### A lapse -/

/-- R166, step 1: a port that has lapsed is ABSENT, with its count stopped and its snapshot EMPTY. -/
def Port.left (P : Port) : Port := { P with present := false, timerCount := none, snapshot := none }

theorem State.lapse_parts (s : State) (x : PortId) :
    s.lapse x = { s with progs := (s.lapse x).progs, ports := (s.lapse x).ports } := by
  unfold State.lapse
  simp only
  split <;> split <;> rfl

theorem State.lapse_prog (s : State) (x : PortId) (p : Index) : (s.lapse x).prog p = (s.prog p).lapse x := by
  unfold State.lapse
  simp only
  split <;> split <;> simp only [State.raiseAt_prog, State.mapPorts_prog, State.mapProgs_prog, State.updPort_prog]

/-- The port that lapses. -/
theorem State.lapse_port_same (s : State) (x : PortId) : (s.lapse x).port x =
    ((s.port x).left.raiseAny .custody (s.custodyBitmap x)).raiseAny .withdrawn (s.ownedBitmap x) := by
  unfold State.lapse Port.raiseAny
  simp only
  split <;> split <;>
    simp only [State.raiseAt_port_same, State.mapPorts_port, State.mapProgs_port, State.updPort_port_same] <;> rfl

/-- R161: another port is told of the custodies released, and no more. -/
theorem State.lapse_port_other (s : State) {x y : PortId} (h : y ≠ x) :
    (s.lapse x).port y = (s.port y).raiseAny .custody (s.custodyBitmap x) := by
  unfold State.lapse Port.raiseAny
  simp only
  split <;> split <;>
    simp only [State.raiseAt_port_other _ _ _ _ _ h, State.mapPorts_port, State.mapProgs_port, State.updPort_port_other _ _ _ _ h]

/-- R82, R161, R166: the notices of a lapse, kind by kind. -/
theorem State.lapse_notices (s : State) (x y : PortId) (k : Kind) : ((s.lapse x).port y).notices.get k =
    if k = .custody ∧ s.custodyBitmap x ≠ 0 then ⟨true, ((s.port y).notices.get k).bitmap ||| s.custodyBitmap x⟩
    else if k = .withdrawn ∧ y = x ∧ s.ownedBitmap x ≠ 0 then ⟨true, ((s.port y).notices.get k).bitmap ||| s.ownedBitmap x⟩
    else (s.port y).notices.get k := by
  have kinds : Kind.withdrawn ≠ .custody := by decide
  by_cases h : y = x
  · subst h
    rw [State.lapse_port_same, Port.raiseAny_get, Port.raiseAny_get]
    by_cases custody : k = .custody
    · subst custody
      simp only [kinds.symm, false_and, if_false]
      rfl
    · simp only [custody, false_and, if_false, true_and]
      rfl
  · rw [State.lapse_port_other _ h, Port.raiseAny_get]
    simp only [h, false_and, and_false, if_false]

/-- R161: CUSTODY is PENDING at every port for each programme whose custody is released. -/
theorem State.lapse_custody {s : State} {x : PortId} {p : Index} (held : (s.prog p).entry.custodian = some x) :
    (s.lapse x).noticed .custody p := by
  intro y
  have bit := (s.custodyBitmap_iff x p).mpr held
  rw [State.lapse_notices, if_pos ⟨rfl, bits_ne_zero bit⟩]
  exact ⟨rfl, by rw [BitVec.getLsbD_or, bit, Bool.or_true]⟩

/-- R82: WITHDRAWN is PENDING at the port for each programme from which a CUED record of it leaves. -/
theorem State.lapse_withdrawn {s : State} {x : PortId} {p : Index} (owned : ∃ r ∈ (s.prog p).queue.cued, r.owner = x) :
    (((s.lapse x).port x).notices.get .withdrawn).pending = true
      ∧ (((s.lapse x).port x).notices.get .withdrawn).bitmap.getLsbD p.val = true := by
  have bit := (s.ownedBitmap_iff x p).mpr owned
  rw [State.lapse_notices, if_neg fun h => absurd h.1 (by decide), if_pos ⟨rfl, rfl, bits_ne_zero bit⟩]
  exact ⟨rfl, by rw [BitVec.getLsbD_or, bit, Bool.or_true]⟩

/-- Settles O38: the two requests as `portTimerRequest` and `portLeaveRequest` answer them, and the lapse part by part. -/
theorem silenceTimerAndLapse : Obligations.SilenceTimerAndLapse := by
  refine ⟨fun s x tag setting hs => request_taken hs 0x05 portTimerRequest tag [setting] rfl, fun s x =>
    ⟨fun tag hs => request_taken hs 0x06 portLeaveRequest tag [] rfl, fun present out => ?_, fun running => ?_, ?_⟩⟩
  · exact congrArg Host.Outcome.next (if_pos ((State.expired_silence_iff _ x).mpr ⟨present, out⟩))
  · exact congrArg Host.Outcome.next (if_neg fun h => running ((State.expired_silence_iff _ x).mp h))
  · refine ⟨s.lapse_parts x, ?_, fun y h => ?_, fun p => ⟨s.custodyBitmap_iff x p, s.ownedBitmap_iff x p⟩,
      fun y k => s.lapse_notices x y k, fun p => ⟨s.lapse_prog x p, State.lapse_custody, State.lapse_withdrawn⟩⟩
    · rw [State.lapse_port_same, Port.raiseAny_parts, Port.raiseAny_parts .custody]
      rfl
    · rw [State.lapse_port_other s h]
      exact Port.raiseAny_parts _ _ _

end Sys2Proof.Machine
end

section
/-! Ports that are ABSENT (R82, R156): what every step keeps of custodies and owners. A programme comes to be held by a port in two
requests alone, PROG.CLAIM and SEG.CUE, which make the port PRESENT (R162); and a port ceases to be PRESENT in a lapse alone, which
takes all it holds (R166). -/

namespace Sys2Proof.Machine

/-! ### What a port holds -/

/-- The port is custodian of the programme, or owner of one of its CUED records. -/
def Prog.heldBy (P : Prog) (x : PortId) : Prop := P.entry.custodian = some x ∨ ∃ r ∈ P.queue.cued, r.owner = x

/-- Every port that holds something is PRESENT. -/
def State.holdersPresent (s : State) : Prop := ∀ p x, (s.prog p).heldBy x → (s.port x).present = true

theorem State.absentHoldNothing_iff (s : State) : s.absentHoldNothing ↔ s.holdersPresent := by
  constructor
  · intro h p x held
    by_contra absent
    obtain ⟨custodian, owners⟩ := h x (Bool.eq_false_iff.mpr absent) p
    rcases held with custody | ⟨r, hr, owner⟩
    · exact custodian custody
    · exact owners r hr owner
  · intro h x absent p
    have none : ¬(s.prog p).heldBy x := fun held => by rw [h p x held] at absent; cases absent
    exact ⟨fun custody => none (.inl custody), fun r hr owner => none (.inr ⟨r, hr, owner⟩)⟩

/-- From `P` to `Q` no port has come to hold the programme. -/
def Prog.Yields (P Q : Prog) : Prop := ∀ x, Q.heldBy x → P.heldBy x

theorem Prog.Yields.refl (P : Prog) : P.Yields P := fun _ => id

theorem Prog.Yields.trans {P Q R : Prog} (h : P.Yields Q) (g : Q.Yields R) : P.Yields R := fun x held => h x (g x held)

theorem Prog.Yields.of_same {P Q : Prog} (custodian : Q.entry.custodian = P.entry.custodian)
    (cued : Q.queue.cued ⊆ P.queue.cued) : P.Yields Q := fun x held => by
  rcases held with custody | ⟨r, hr, owner⟩
  · exact .inl (custodian.symm.trans custody)
  · exact .inr ⟨r, cued hr, owner⟩

/-- From `s` to `t` no port has come to hold anything, and none has left. -/
structure State.Yields (s t : State) : Prop where
  prog : ∀ p, (s.prog p).Yields (t.prog p)
  present : ∀ x, (s.port x).present = true → (t.port x).present = true

theorem State.Yields.trans {s t u : State} (h : s.Yields t) (g : t.Yields u) : s.Yields u :=
  ⟨fun p => (h.prog p).trans (g.prog p), fun x present => g.present x (h.present x present)⟩

theorem State.Yields.keeps {s t : State} (y : s.Yields t) (h : s.holdersPresent) : t.holdersPresent :=
  fun p x held => y.present x (h p x (y.prog p x held))

/-- A state with the same programmes and the same ports. -/
theorem State.Yields.of_same {s t : State} (progs : t.progs = s.progs) (ports : t.ports = s.ports) : s.Yields t :=
  ⟨fun p => by rw [State.prog, State.prog, progs]; exact .refl _, fun x h => by rw [State.port, ports]; exact h⟩

/-- A state in which at most one programme differs. -/
theorem State.Yields.of_one {s t : State} (p : Index) (own : (s.prog p).Yields (t.prog p))
    (other : ∀ q, q ≠ p → t.prog q = s.prog q) (present : ∀ x, (s.port x).present = true → (t.port x).present = true) :
    s.Yields t := by
  refine ⟨fun q => ?_, present⟩
  by_cases hq : q = p
  · exact hq ▸ own
  · rw [other q hq]
    exact .refl _

theorem State.updProg_yields (s : State) (p : Index) (f : Prog → Prog) (h : (s.prog p).Yields (f (s.prog p))) :
    s.Yields (s.updProg p f) :=
  .of_one p (by rw [State.updProg_prog_same]; exact h) (fun q => s.updProg_prog_other p q f) fun _ => id

theorem State.updPort_yields (s : State) (x : PortId) (f : Port → Port)
    (h : (s.port x).present = true → (f (s.port x)).present = true) : s.Yields (s.updPort x f) := by
  refine ⟨fun _ => .refl _, fun y present => ?_⟩
  by_cases hy : y = x
  · subst hy
    rw [State.updPort_port_same]
    exact h present
  · rw [State.updPort_port_other _ _ _ _ hy]
    exact present

theorem State.raiseAll_yields (s : State) (k : Kind) (i : Index) : s.Yields (s.raiseAll k i) :=
  ⟨fun _ => .refl _, fun x present => by rw [State.raiseAll_port]; exact present⟩

theorem State.Around.present {s t : State} (around : s.Around t) (x : PortId) (h : (s.port x).present = true) :
    (t.port x).present = true := by
  rw [(around.raised x).1]
  exact h

theorem State.onlyNotices.present {s t : State} {ks : List Kind} (only : s.onlyNotices t ks) (x : PortId)
    (h : (s.port x).present = true) : (t.port x).present = true := by
  rw [(only x).1]
  exact h

/-! ### The pieces that give no port anything -/

/-- R166: custodies and CUED records stay through an end. -/
theorem Prog.ended_yields (P : Prog) (line : List Stage) (n : Nat) : P.Yields (P.ended line n) :=
  .of_same (by rw [Prog.ended_entry]) (by rw [Prog.ended_cued]; exact List.Subset.refl _)

theorem Prog.goOnAir_yields (P : Prog) (n : Position) (cause : TakeCause) : P.Yields (P.goOnAir n cause) := by
  refine .of_same (by rw [Prog.goOnAir_entry]) ?_
  cases cued : P.queue.cued with
  | nil => rw [Prog.goOnAir_empty cued, cued]; exact List.Subset.refl _
  | cons r rest =>
    rw [Prog.goOnAir_cued cued]
    exact List.subset_cons_self r rest

theorem Prog.Worked.yields {P Q : Prog} (w : P.Worked Q) : P.Yields Q := by
  refine .of_same ?_ (by rw [w.queue]; exact List.Subset.refl _)
  rcases w.entry with h | ⟨_, h⟩ <;> rw [h]

theorem Prog.withdrawn_yields (P : Prog) : P.Yields P.withdrawn := .of_same rfl (List.nil_subset _)

/-- A programme with the same entry, but for what is no custody, and the same queue. -/
theorem Prog.Yields.of_eq {P Q : Prog} (custodian : Q.entry.custodian = P.entry.custodian) (queue : Q.queue = P.queue) :
    P.Yields Q := .of_same custodian (queue ▸ List.Subset.refl _)

theorem Prog.becomeInactive_yields (P : Prog) : P.Yields P.becomeInactive := .of_eq rfl rfl

theorem Prog.setState_yields (P : Prog) (v : ProgState) : P.Yields (P.setState v) := .of_eq rfl rfl

theorem Prog.tallyChange_yields (P : Prog) (k : Index) (active : Bool) : P.Yields (P.tallyChange k active) := by
  unfold Prog.tallyChange
  split
  · exact .of_eq rfl rfl
  · exact .refl P

theorem Prog.tune_yields (P : Prog) (v : TunableSet) : P.Yields (P.tune v) := by
  unfold Prog.tune
  split <;> exact .of_eq rfl rfl

/-- R73: an amended record keeps its owner. -/
theorem Prog.amend_yields (P : Prog) (a : AmendBody) : P.Yields (P.setQueue (P.queue.amend a)) := fun x held => by
  rcases held with custody | ⟨r, hr, owner⟩
  · exact .inl custody
  · obtain ⟨r₀, hr₀, rfl⟩ := List.mem_map.mp hr
    exact .inr ⟨r₀, hr₀, (a.amendedAt_owner r₀).symm.trans owner⟩

theorem State.takeStages_yields (s : State) (p : Index) (cause : TakeCause) : s.Yields (s.takeStages p cause) := by
  refine .of_one p ?_ (fun q => s.takeStages_prog_other p q cause) (s.takeStages_around p cause).present
  obtain ⟨n, _, h⟩ := s.takeStages_prog_same p cause
  rw [h]
  exact (Prog.ended_yields _ s.audio.line n).trans (Prog.goOnAir_yields _ _ _)

theorem State.endCore_yields (s : State) (p : Index) (cause : EndCause) : s.Yields (s.endCore p cause) := by
  refine .of_one p ?_ (fun q => s.endCore_prog_other p q cause) (s.endCore_around p cause).present
  obtain ⟨n, _, h⟩ := s.endCore_prog_same p cause
  rw [h]
  exact Prog.ended_yields _ _ n

theorem State.endSegment_yields (s : State) (p : Index) (cause : EndCause) : s.Yields (s.endSegment p cause) := by
  refine .of_one p ?_ (fun q => s.endSegment_prog_other p q cause) (s.endSegment_around p cause).present
  obtain ⟨n, _, h⟩ := s.endSegment_prog_same p cause
  rw [h]
  split
  · exact (Prog.ended_yields _ _ n).trans (Prog.becomeInactive_yields _)
  · exact (Prog.ended_yields _ _ n).trans (.of_eq rfl rfl)

theorem State.closeBlock_yields (s : State) (p : Index) : s.Yields (s.closeBlock p) := by
  have close := s.updProg_yields p Prog.closeBlock (Prog.closeBlock_worked _).yields
  unfold State.closeBlock
  simp only
  split
  · exact close.trans (State.raiseAll_yields _ _ _)
  · exact close

theorem State.withdrawTo_yields (s : State) (p : Index) (f : Prog → Prog) (h : ∀ P : Prog, P.Yields (f P)) :
    s.Yields (s.withdrawTo p f) := by
  have w := s.withdrawTo_withdrew p f
  refine .of_one p ?_ w.other w.notices.present
  rw [State.withdrawTo_prog_same]
  exact (Prog.withdrawn_yields _).trans (h _)

theorem State.deactivation_yields (s : State) (p : Index) (force : Bool) : s.Yields (s.deactivation p force) := by
  by_cases air : (s.prog p).hasOnAir = true
  · cases force with
    | true =>
      rw [State.deactivation_forced air]
      exact (s.endCore_yields p .forced).trans (State.withdrawTo_yields _ p _ Prog.becomeInactive_yields)
    | false =>
      by_cases draining : (s.prog p).entry.state = .draining
      · rw [State.deactivation_drained air draining]
        exact .of_same rfl rfl
      · rw [State.deactivation_drains air draining]
        exact s.withdrawTo_yields p _ fun P => P.setState_yields .draining
  · rw [State.deactivation_silent ((s.prog p).hasOnAir_false_iff.mp (Bool.eq_false_iff.mpr air))]
    exact s.withdrawTo_yields p _ Prog.becomeInactive_yields

theorem State.activate_yields (s : State) (p : Index) : s.Yields (s.activate p) := by
  refine .of_one p ?_ (fun q => s.activate_prog_other p q) fun x present => ?_
  · rw [State.activate_prog_same]
    exact .of_eq rfl rfl
  · rw [State.activate_port]
    exact present

theorem State.run_yields (s : State) (p : Index) : s.Yields (s.run p) := by
  unfold State.run
  cases (s.prog p).entry.state with
  | stopping =>
    exact (s.updProg_yields p (fun P => P.setState .running) (.of_eq rfl rfl)).trans (State.raiseAll_yields _ _ _)
  | stopped => exact (s.updProg_yields p (fun P => P.resume _) (.of_eq rfl rfl)).trans (State.raiseAll_yields _ _ _)
  | running => exact .of_same rfl rfl
  | inactive => exact .of_same rfl rfl
  | draining => exact .of_same rfl rfl

theorem State.withdraw_yields (s : State) (x : PortId) (p : Index) (r : SegRecord) : s.Yields (s.withdraw x p r) := by
  have removed := s.updProg_yields p (fun P => P.setQueue (P.queue.remove r.id)) (.of_same rfl List.filter_sublist.subset)
  unfold State.withdraw
  simp only
  split
  · exact removed
  · exact removed.trans (State.updPort_yields _ _ _ id)

theorem State.processFrame_yields (s : State) (raw : List Sample) : s.Yields (s.processFrame raw) := by
  have ports := congrArg State.ports (s.processFrame_frame raw)
  refine ⟨fun p => ?_, fun x present => by rw [State.port, ports]; exact present⟩
  obtain ⟨inactive, active⟩ := s.processFrame_prog raw p
  by_cases h : (s.prog p).isActive = true
  · obtain ⟨line, hp⟩ := active h
    obtain ⟨entry, queue, _⟩ := Prog.handFrame_facts line raw ((s.prog p).tallyInactive s.lines) (s.prog p)
    rw [hp]
    exact .of_same (by rw [entry]) (by rw [queue]; exact List.Subset.refl _)
  · rw [inactive (Bool.eq_false_iff.mpr h)]
    exact .refl _

theorem State.completeFrame_yields (s : State) (slots : List (BitVec 32)) : s.Yields (s.completeFrame slots) := by
  unfold State.completeFrame
  split
  · split
    · exact s.processFrame_yields _
    · exact .of_same rfl rfl
    · exact .of_same rfl rfl
  · exact .of_same rfl rfl

theorem State.takeFrameSync_ports (s : State) : s.takeFrameSync.ports = s.ports := by
  unfold State.takeFrameSync
  cases s.audio.detector with
  | lost => rfl
  | recovering => rfl
  | locked => simp only; split <;> rfl

theorem State.missSync_ports (s : State) : s.missSync.ports = s.ports := by
  unfold State.missSync
  split
  · cases s.audio.detector <;> rfl
  · rfl

theorem State.expireWatch_yields (s : State) : s.Yields s.expireWatch := by
  refine ⟨fun p => by rw [State.prog, State.prog, State.expireWatch_progs]; exact .refl _, fun x present => ?_⟩
  unfold State.expireWatch
  split
  · cases s.audio.detector with
    | locked =>
      simp only [State.raisePlain_port]
      exact present
    | recovering => exact present
    | lost => exact present
  · exact present

theorem State.mapProgs_yields (s : State) (f : Prog → Prog) (h : ∀ P : Prog, P.Yields (f P)) : s.Yields (s.mapProgs f) :=
  ⟨fun p => by rw [State.mapProgs_prog]; exact h _, fun _ => id⟩

theorem State.mapPorts_yields (s : State) (f : Port → Port) (h : ∀ P : Port, P.present = true → (f P).present = true) :
    s.Yields (s.mapPorts f) := ⟨fun _ => .refl _, fun x present => by rw [State.mapPorts_port]; exact h _ present⟩

theorem Port.setEdge_present (k : Index) (rising : Bool) (P : Port) : (P.setEdge k rising).present = P.present := by
  unfold Port.setEdge
  split <;> rfl

theorem State.edgeReport_yields (s : State) (k : Index) (active : Bool) : s.Yields (s.edgeReport k active) :=
  (s.mapPorts_yields (fun P => (P.setEdge k active).raise .cueEdge (bitOf k)) fun P present => (P.setEdge_present k active).trans present).trans
    (State.mapProgs_yields _ _ fun P => P.tallyChange_yields k active)

theorem State.tick_yields (s : State) : s.Yields s.tick :=
  (s.mapPorts_yields Port.tick fun _ => id).trans (.of_same rfl rfl)

/-! ### The pieces that give a port something, or take it away -/

/-- R39: after a reset no port holds anything. -/
theorem Prog.reset_free (n : Nat) (x : PortId) : ¬(Prog.reset n).heldBy x := by
  rintro (custody | ⟨r, hr, _⟩)
  · cases custody
  · cases hr

/-- R40, R87: after a restart no port holds anything. -/
theorem Prog.restarted_free (lines : Octet CueLine) (P : Prog) (x : PortId) : ¬(Prog.restarted lines P).heldBy x := by
  rintro (custody | ⟨r, hr, _⟩)
  · cases custody
  · cases hr

/-- R166: a lapse takes all that the port holds. -/
theorem Prog.lapse_heldBy {P : Prog} {x y : PortId} (held : (P.lapse x).heldBy y) : y ≠ x ∧ P.heldBy y := by
  rcases held with custody | ⟨r, hr, owner⟩
  · have custody : (if P.entry.custodian = some x then none else P.entry.custodian) = some y := custody
    split at custody
    · cases custody
    · rename_i other
      exact ⟨fun e => other (e ▸ custody), .inl custody⟩
  · obtain ⟨hr, other⟩ := List.mem_filter.mp hr
    exact ⟨fun e => by simp [owner, e] at other, .inr ⟨r, hr, owner⟩⟩

theorem State.lapse_holdersPresent {s : State} (h : s.holdersPresent) (x : PortId) : (s.lapse x).holdersPresent := by
  intro p y held
  rw [State.lapse_prog] at held
  obtain ⟨other, held⟩ := Prog.lapse_heldBy held
  rw [State.lapse_port_other s other, Port.raiseAny_parts]
  exact h p y held

/-- R157: the new custodian is PRESENT. -/
theorem State.updProg_holdersPresent {s : State} (h : s.holdersPresent) {p : Index} {x : PortId} (f : Prog → Prog)
    (given : ∀ y, (f (s.prog p)).heldBy y → y = x ∨ (s.prog p).heldBy y) (present : (s.port x).present = true) :
    (s.updProg p f).holdersPresent := by
  intro q y held
  by_cases hq : q = p
  · subst hq
    rw [State.updProg_prog_same] at held
    rcases given y held with rfl | held
    · exact present
    · exact h q y held
  · rw [State.updProg_prog_other _ _ _ _ hq] at held
    exact h q y held

theorem Prog.withCustodian_heldBy {P : Prog} {c : Option PortId} {y : PortId} (held : (P.withCustodian c).heldBy y) :
    c = some y ∨ P.heldBy y := held.imp id .inr

theorem Prog.append_heldBy {P : Prog} {r : SegRecord} {y : PortId} (held : (P.setQueue (P.queue.append r)).heldBy y) :
    y = r.owner ∨ P.heldBy y := by
  rcases held with custody | ⟨r', hr', owner⟩
  · exact .inr (.inl custody)
  · rcases List.mem_append.mp hr' with old | new
    · exact .inr (.inr ⟨r', old, owner⟩)
    · rw [List.mem_singleton] at new
      exact .inl (new ▸ owner.symm)

theorem holdersPresent_kept : Kept State.holdersPresent where
  free := fun _ => (State.Yields.of_same rfl rfl).keeps
  raise := fun s k i => (s.raiseAll_yields k i).keeps
  stages := fun s p cause _ => (s.takeStages_yields p cause).keeps
  overrun := fun s p => ((s.updProg_yields p Prog.overran (.of_same rfl (List.Subset.refl _))).trans
    (State.raiseAll_yields _ .overrun p)).keeps
  finish := fun s p cause _ => (s.endSegment_yields p cause).keeps
  lock := fun s _ => State.Yields.keeps ⟨fun _ => .refl _, s.enterLocked_around.present⟩
  close := fun s p _ => (s.closeBlock_yields p).keeps
  ramp := fun s p _ => (s.updProg_yields p _ (.of_eq rfl rfl)).keeps
  powerOn := fun s straps levels p x held => by
    rw [State.powerOn_prog] at held
    exact absurd held (Prog.reset_free _ x)
  queue := fun _ _ h => h
  armed := fun _ _ h => h
  restart := fun s _ p x held => by
    obtain ⟨_, _, _, restarted⟩ := s.restart_prog p
    rw [restarted] at held
    exact absurd held (Prog.restarted_free _ _ x)
  tick := fun s => s.tick_yields.keeps
  frameSync := fun s _ => (State.Yields.of_same s.takeFrameSync_progs s.takeFrameSync_ports).keeps
  missSync := fun s => (State.Yields.of_same s.missSync_progs s.missSync_ports).keeps
  expireWatch := fun s => s.expireWatch_yields.keeps
  frame := fun s slots _ => (s.completeFrame_yields slots).keeps
  line := fun _ _ _ h => h
  edges := fun s k active => (s.edgeReport_yields k active).keeps
  tally := fun s k active => (s.mapProgs_yields _ fun P => P.tallyChange_yields k active).keeps
  quiet := fun s x Q quiet => (s.updPort_yields x (fun _ => Q) fun present => by rw [quiet]; exact present).keeps
  arrived := fun s x => (s.updPort_yields x Port.frameArrived fun _ => rfl).keeps
  clear := fun s x kinds => (s.updPort_yields x (Port.clearNotices kinds) id).keeps
  timer := fun s x setting _ _ => (s.updPort_yields x (Port.setTimer setting) id).keeps
  lapse := fun _ x h => State.lapse_holdersPresent h x
  copy := fun s x _ _ => (s.updPort_yields x _ id).keeps
  read := fun s x _ _ => (s.updPort_yields x _ id).keeps
  fetch := fun _ h => h
  configure := fun s p _ _ _ _ _ _ _ => (s.updProg_yields p _ (.of_eq rfl rfl)).keeps
  activate := fun s p _ _ => (s.activate_yields p).keeps
  deactivation := fun s p force _ => (s.deactivation_yields p force).keeps
  run := fun s p _ => (s.run_yields p).keeps
  stop := fun s p _ _ => ((s.updProg_yields p (fun P => P.setState .stopping) (.of_eq rfl rfl)).trans
    (State.raiseAll_yields _ .state p)).keeps
  tune := fun s p v _ => (s.updProg_yields p _ (Prog.tune_yields _ v)).keeps
  claim := fun s p x present h => (State.raiseAll_yields _ .custody p).keeps
    (State.updProg_holdersPresent h (Prog.withCustodian (some x))
      (fun y held => (Prog.withCustodian_heldBy held).imp_left fun e => (Option.some.inj e).symm) present)
  release := fun s p => ((s.updProg_yields p (Prog.withCustodian none) fun y held =>
    (Prog.withCustodian_heldBy held).resolve_left nofun).trans (State.raiseAll_yields _ .custody p)).keeps
  rights := fun s p v => (s.updProg_yields p (Prog.withRights v) (.of_eq rfl rfl)).keeps
  clearAccount := fun s p => (s.updProg_yields p _ (.of_eq rfl rfl)).keeps
  cue := fun _ _ _ present _ _ _ _ h => State.updProg_holdersPresent h _ (fun _ => Prog.append_heldBy) present
  amend := fun s p a _ _ _ => (s.updProg_yields p (fun P => P.setQueue (P.queue.amend a)) (Prog.amend_yields _ a)).keeps
  withdraw := fun s x p r _ _ => (s.withdraw_yields x p r).keeps

/-- Settles O55: each piece of a step keeps every holder PRESENT. -/
theorem stepKeepsAbsentHoldNothing : Obligations.StepKeepsAbsentHoldNothing := fun s t h ht =>
  t.absentHoldNothing_iff.mpr (holdersPresent_kept.step s t (s.absentHoldNothing_iff.mp h) ht)

end Sys2Proof.Machine
end

section
/-! DURATION_REACHED (R74, R96): an overrun mark, an AUTO take, or an end with DURATION_END; and when no duration is reached. -/

namespace Sys2Proof.Machine

/-! ### Which event is due -/

/-- R74, R96: a duration is reached once: with auto-advance CLEAR the mark that is SET is its event. -/
theorem Prog.durationDue_iff (P : Prog) : P.durationDue = true ↔ ∃ r d, P.queue.onAir = some r ∧ r.record.duration = some d
    ∧ 1 ≤ d ∧ r.framesOnAir = d * 4800 ∧ (r.record.autoAdvance = true ∨ r.overrun = false) := by
  unfold Prog.durationDue
  cases air : P.queue.onAir with
  | none => simp
  | some r =>
    cases timed : r.record.duration with
    | none => simp [timed]
    | some d =>
      simp only [Option.some.injEq, exists_and_left, exists_eq_left', timed, Bool.and_eq_true, decide_eq_true_eq,
        Bool.or_eq_true, Bool.not_eq_true', and_assoc]
      rfl

theorem Prog.autoDue_iff (P : Prog) : P.autoDue = true ↔ ∃ r d, P.queue.onAir = some r ∧ r.record.duration = some d
    ∧ 1 ≤ d ∧ r.framesOnAir = d * 4800 ∧ r.record.autoAdvance = true := by
  unfold Prog.autoDue
  cases air : P.queue.onAir with
  | none => simp
  | some r =>
    simp only [Bool.and_eq_true, P.durationDue_iff, air, Option.some.injEq, exists_and_left, exists_eq_left']
    exact ⟨fun ⟨⟨d, timed, least, frames, _⟩, auto⟩ => ⟨d, timed, least, frames, auto⟩,
      fun ⟨d, timed, least, frames, auto⟩ => ⟨⟨d, timed, least, frames, .inl auto⟩, auto⟩⟩

theorem Prog.takeActs_iff (P : Prog) : P.takeActs = true ↔ P.entry.state = .running ∧ P.queue.cued ≠ [] := by
  simp [Prog.takeActs]

/-! ### What it brings -/

theorem State.settleDuration_none {s : State} {p : Index} (undue : (s.prog p).durationDue = false) : s.settleDuration p = s := by
  obtain ⟨split, _⟩ := (s.prog p).durationDue_split
  rw [undue] at split
  obtain ⟨overrun, auto⟩ := Bool.or_eq_false_iff.mp split.symm
  rw [State.settleDuration, auto, if_neg nofun, State.settleOverrun, overrun, if_neg nofun]

section

variable {s : State} {p : Index} (due : (s.prog p).autoDue = true)
include due

/-- The overrun marks of the frame do not touch a programme whose AUTO event is due (R96). -/
theorem State.settleOverruns_auto : s.settleOverruns.prog p = s.prog p := by
  have apart : (s.prog p).overrunDue = false := by simpa [due] using (s.prog p).durationDue_split.2
  rw [s.settleOverruns_facts.1 p, apart, if_neg nofun]

/-- An AUTO event is taken after the overrun marks of its frame, with the cascade of the take it is. -/
theorem State.settleDuration_auto : s.settleDuration p =
    (s.settleOverruns.performAuto p).1.cascade 63 (s.settleOverruns.performAuto p).2 := by
  rw [State.settleDuration, if_pos due]
  exact State.cascade_one _ _ 63

theorem State.settleDuration_take (acts : (s.prog p).takeActs = true) :
    s.settleDuration p = s.settleOverruns.take p .auto := by
  have same := State.settleOverruns_auto due
  rw [State.settleDuration_auto due, State.performAuto, same, due, if_pos rfl, acts, if_pos rfl]
  exact (State.cascade_one _ (.take p .auto) 63).symm

theorem State.settleDuration_end (misses : (s.prog p).takeActs = false) :
    s.settleDuration p = s.settleOverruns.endSegment p .durationEnd := by
  have same := State.settleOverruns_auto due
  rw [State.settleDuration_auto due, State.performAuto, same, due, if_pos rfl, misses, if_neg nofun]
  rfl

end

/-- R96: with auto-advance CLEAR the mark of the record on air is SET, with OVERRUN at every port. -/
theorem State.settleDuration_mark {s : State} {p : Index} {r : OnAir} (air : (s.prog p).queue.onAir = some r)
    (due : (s.prog p).overrunDue = true) : s.settleDuration p = (s.setProg p { s.prog p with
      queue := { (s.prog p).queue with onAir := some { r with overrun := true } } }).raiseAll .overrun p := by
  rw [State.settleDuration_overrun due, State.settleOverrun, if_pos due, State.markOverrun, State.updProg, air]
  rfl

/-- Settles O13: `State.settleOverruns_facts` for the marks of the frame, and each event by `State.settleDuration`. -/
theorem durationReached : Obligations.DurationReached := by
  intro s p
  have run : exec (.durationReached p) s = .next (s.settleDuration p) := rfl
  refine ⟨fun undue => ?_, (s.prog p).durationDue_iff, ?_, fun r d air timed least frames =>
    ⟨fun clear unmarked => ?_, fun auto running cued => ?_, fun auto stays => ?_⟩⟩
  · rw [run, State.settleDuration_none]
    rw [Bool.eq_false_iff, ne_eq, Prog.durationDue_iff]
    rintro ⟨r, d, air, timed, least, frames, open_⟩
    rcases undue r d air timed with zero | other | ⟨clear, marked⟩
    · omega
    · exact other frames
    · rcases open_ with auto | unmarked
      · rw [clear] at auto; cases auto
      · rw [marked] at unmarked; cases unmarked
  · obtain ⟨progs, notices, raised, parts⟩ := s.settleOverruns_facts
    simp only [Prog.overrunDue_iff] at raised
    exact ⟨fun q => ⟨fun due => (progs q).trans (if_pos ((s.prog q).overrunDue_iff.mpr due)),
      fun undue => (progs q).trans (if_neg (mt (s.prog q).overrunDue_iff.mp undue))⟩, notices, raised, parts⟩
  · rw [run, State.settleDuration_mark air ((s.prog p).overrunDue_iff.mpr ⟨r, d, air, timed, least, frames, clear, unmarked⟩)]
  · rw [run, State.settleDuration_take ((s.prog p).autoDue_iff.mpr ⟨r, d, air, timed, least, frames, auto⟩)
      ((s.prog p).takeActs_iff.mpr ⟨running, cued⟩)]
  · have misses : (s.prog p).takeActs = false := by
      rw [Bool.eq_false_iff, ne_eq, Prog.takeActs_iff, not_and_or, not_not]
      exact stays
    rw [run, State.settleDuration_end ((s.prog p).autoDue_iff.mpr ⟨r, d, air, timed, least, frames, auto⟩) misses]

end Sys2Proof.Machine
end

section
/-! The requests on segment queues: SEG.CUE (R70, R71, R75), SEG.AMEND (R77, R78) and SEG.WITHDRAW (R80). -/

namespace Sys2Proof.Machine

/-! ### Legal records -/

/-- R70, R71: the values of the fields, and the conditions on their combination. -/
theorem SegRecord.legal_iff (r : SegRecord) : r.legal = true ↔
    (1 ≤ r.id ∧ r.id ≤ 65535) ∧ (∀ v, r.declared = some v → -7000 ≤ v ∧ v ≤ 0)
    ∧ (∀ v, r.entryGain = some v → -3000 ≤ v ∧ v ≤ 1500)
    ∧ (∀ v, r.rampLength = some v → 0 ≤ v ∧ v ≤ 2000 ∧ v % 10 = 0)
    ∧ (∀ v, r.duration = some v → 1 ≤ v ∧ v ≤ 65535)
    ∧ (∀ v, r.targetOverride = some v → -3100 ≤ v ∧ v ≤ -1400)
    ∧ (∀ v, r.toleranceOverride = some v → 10 ≤ v ∧ v ≤ 500) ∧ r.label.length ≤ 12
    ∧ (r.policy = .fixed → r.declared.isSome = true ∧ (r.cls = .spot ∨ r.cls = .promo))
    ∧ (r.entryGain.isSome = true → r.policy = .adaptive) ∧ (r.autoAdvance = true → r.duration.isSome = true) := by
  have fixed : (r.policy != .fixed || (r.declared.isSome && (r.cls == .spot || r.cls == .promo))) = true ↔
      (r.policy = .fixed → r.declared.isSome = true ∧ (r.cls = .spot ∨ r.cls = .promo)) := by
    simp [or_iff_not_imp_left]
  have entry : (r.entryGain.isNone || r.policy == .adaptive) = true ↔ (r.entryGain.isSome = true → r.policy = .adaptive) := by
    cases r.entryGain <;> simp
  have auto : (!r.autoAdvance || r.duration.isSome) = true ↔ (r.autoAdvance = true → r.duration.isSome = true) := by
    cases r.autoAdvance <;> simp
  have duration : r.duration.all (fun d => decide (1 ≤ d) && decide (d ≤ 65535)) = true ↔
      ∀ v, r.duration = some v → 1 ≤ v ∧ v ≤ 65535 := by
    cases r.duration <;> simp
  simp only [SegRecord.legal, Bool.and_eq_true, optInRange_unit_iff, optInRange_iff _ _ 10, decide_eq_true_eq, fixed, entry, auto,
    duration, and_assoc]

/-! ### SEG.CUE -/

theorem Queue.hasId_iff (q : Queue) (id : Nat) : q.hasId id = true ↔ ∃ r ∈ q.records, r.id = id := by
  simp [Queue.hasId]

/-- R75: SEG.CUE is refused in INACTIVE and DRAINING. -/
theorem ProgState.cues_false_iff (st : ProgState) : st.cues = false ↔ st = .inactive ∨ st = .draining := by
  cases st <;> decide

section

variable {v : State} {x : PortId} {ps : List Byte} {c : CueBody} {p : Index}

theorem segCueRequest_undefined (read : readCueBody ps = some c) (index : indexOf c.prog = some p) (undefined : c.record x = none) :
    segCueRequest x ps v = .error (.badValue, []) := by
  simp only [segCueRequest, read, index, undefined, need_some]
  rfl

/-- R75: with its codes defined SEG.CUE goes on to the record, the rights, the state and the room. -/
theorem segCueRequest_record {r : SegRecord} (read : readCueBody ps = some c) (index : indexOf c.prog = some p)
    (record : c.record x = some r) : segCueRequest x ps v = (do
      demand r.legal .badValue
      demand (!(v.prog p).queue.hasId r.id) .badValue
      demand (v.mayCue x p) .noRights
      demand (v.prog p).entry.state.cues .wrongState
      demand (decide ((v.prog p).queue.count < Config.queueLimit)) .full
      .ok (v.updProg p fun P => P.setQueue (P.queue.append r), [byteOfNat ((v.prog p).queue.count + 1)])) := by
  simp only [segCueRequest, read, index, record, need_some]

end

/-- Settles O45: `SegRecord.legal_iff` for the legal records, and the checks of SEG.CUE in their order. -/
theorem segCue : Obligations.SegCue := by
  refine ⟨fun q => ⟨?_, q.count_eq_length⟩, SegRecord.legal_iff, ?_⟩
  · cases air : q.onAir with
    | none => exact Queue.records_silent air
    | some o => exact Queue.records_onAir air
  · intro s x tag ps c p hs read index v q ask
    have refused : ∀ {r}, segCueRequest x ps v = .error (r, []) → ask = answered v x 0x20 tag r [] :=
      request_refused hs 0x20 segCueRequest tag ps
    refine ⟨fun undefined => refused (segCueRequest_undefined read index undefined), fun r record => ?_⟩
    have checks := segCueRequest_record (v := v) read index record
    obtain ⟨owner, id, label⟩ := CueBody.record_owner record
    refine ⟨owner, id, label, fun bad => refused ?_, fun legal new => ?_⟩
    · rw [checks]
      cases legal : r.legal with
      | false => rfl
      | true =>
        have taken : q.hasId r.id = true := (q.hasId_iff r.id).mpr (bad.resolve_left (by simp [legal]))
        rw [taken]
        rfl
    · rw [legal, (q.hasId_false_iff r.id).mpr new] at checks
      refine ⟨fun rights => refused ?_, fun rights state => refused ?_, fun rights active running full => refused ?_,
        fun rights active running room => request_taken hs 0x20 segCueRequest tag ps ?_⟩
      · rw [checks, rights]
        rfl
      · rw [checks, rights, (ProgState.cues_false_iff _).mpr state]
        rfl
      · have cues : (v.prog p).entry.state.cues = true :=
          Bool.eq_true_of_not_eq_false fun h => ((ProgState.cues_false_iff _).mp h).elim active running
        rw [checks, rights, cues, decide_eq_false (show ¬(v.prog p).queue.count < Config.queueLimit from Nat.not_lt.mpr full)]
        rfl
      · have cues : (v.prog p).entry.state.cues = true :=
          Bool.eq_true_of_not_eq_false fun h => ((ProgState.cues_false_iff _).mp h).elim active running
        change segCueRequest x ps v = _
        rw [checks, rights, cues, decide_eq_true (show (v.prog p).queue.count < Config.queueLimit from room)]
        rfl

/-! ### Searches and rights -/

theorem Queue.find_none {q : Queue} {id : Nat} (none : ∀ r ∈ q.records, r.id ≠ id) : q.find id = .none := by
  rw [Queue.find_eq, List.find?_eq_none.mpr (fun r hr => by simpa using none r hr)]
  rfl

theorem Queue.find_some {q : Queue} {id : Nat} {r : SegRecord} (found : q.records.find? (fun o => o.id == id) = some r) :
    q.find id = some (r, q.airs id) := by
  rw [Queue.find_eq, found]
  rfl

/-- R154: the rights on a record are those of its owner and of the override port. -/
theorem State.mayEdit_iff (s : State) (x : PortId) (r : SegRecord) : s.mayEdit x r = true ↔ r.owner = x ∨ s.override = some x := by
  simp [State.mayEdit]

/-! ### SEG.AMEND -/

section

variable {v : State} {x : PortId} {ps : List Byte} {a : AmendBody} {p : Index} (read : readAmendBody ps = some a)
  (index : indexOf a.prog = some p)
include read index

theorem segAmendRequest_illegal (h : a.id.toNat = 0 ∨ a.valuesLegal = false) : segAmendRequest x ps v = .error (.badValue, []) := by
  simp only [segAmendRequest, read, index, need_some]
  by_cases zero : a.id.toNat = 0
  · rw [zero]
    rfl
  · rw [h.resolve_left zero, decide_eq_true (Nat.one_le_iff_ne_zero.mpr zero)]
    rfl

variable (id : 1 ≤ a.id.toNat) (legal : a.valuesLegal = true)
include id legal

theorem segAmendRequest_absent (none : (v.prog p).queue.find a.id.toNat = none) :
    segAmendRequest x ps v = .error (.noSuchId, []) := by
  simp only [segAmendRequest, read, index, need_some, id, legal, none, decide_true, demand_true]

/-- R78: with a record of the id SEG.AMEND goes on to the amended record, the rights and whether it is on air. -/
theorem segAmendRequest_found {r : SegRecord} {air : Bool} (found : (v.prog p).queue.find a.id.toNat = some (r, air)) :
    segAmendRequest x ps v = (do
      demand (a.amended r).legal .badValue
      demand (v.mayEdit x r) .noRights
      demand (!air) .wrongState
      .ok (v.updProg p fun P => P.setQueue (P.queue.amend a), [])) := by
  simp only [segAmendRequest, read, index, need_some, id, legal, found, decide_true, demand_true]

end

/-- Settles O46: the checks of SEG.AMEND in their order, by what the search for the id finds. -/
theorem segAmend : Obligations.SegAmend := by
  intro s x tag ps a p hs read index v q ask
  have refused : ∀ {r}, segAmendRequest x ps v = .error (r, []) → ask = answered v x 0x21 tag r [] :=
    request_refused hs 0x21 segAmendRequest tag ps
  refine ⟨fun bad => refused (segAmendRequest_illegal read index bad), fun id legal =>
    ⟨fun none => refused (segAmendRequest_absent read index id legal (Queue.find_none none)), fun r found => ?_⟩⟩
  intro air mine
  have checks := segAmendRequest_found (v := v) (x := x) read index id legal (Queue.find_some found)
  have mine_iff : v.mayEdit x r = true ↔ mine := v.mayEdit_iff x r
  have air_iff : q.airs a.id.toNat = true ↔ air := q.airs_iff _
  refine ⟨fun bad => refused ?_, fun good other => refused ?_, fun good own onAir => refused ?_,
    fun good own cued => request_taken hs 0x21 segAmendRequest tag ps ?_, rfl, rfl⟩
  · rw [checks, bad]
    rfl
  · rw [checks, good, Bool.eq_false_iff.mpr (mt mine_iff.mp other)]
    rfl
  · rw [checks, good, mine_iff.mpr own, air_iff.mpr onAir]
    rfl
  · change segAmendRequest x ps v = _
    rw [checks, good, mine_iff.mpr own, Bool.eq_false_iff.mpr (mt air_iff.mp cued)]
    rfl

/-! ### SEG.WITHDRAW -/

section

variable {v : State} {x : PortId} {p : Index} {hi lo : Byte}

theorem segWithdrawRequest_zero (zero : (hi ++ lo : BitVec 16).toNat = 0) :
    segWithdrawRequest x [indexByte p, hi, lo] v = .error (.badValue, []) := by
  simp only [segWithdrawRequest, indexOf_indexByte, need_some, zero]
  rfl

variable (id : 1 ≤ (hi ++ lo : BitVec 16).toNat)
include id

theorem segWithdrawRequest_absent (none : (v.prog p).queue.find (hi ++ lo : BitVec 16).toNat = none) :
    segWithdrawRequest x [indexByte p, hi, lo] v = .error (.noSuchId, []) := by
  simp only [segWithdrawRequest, indexOf_indexByte, need_some, id, none, decide_true, demand_true]

/-- R80: with a record of the id SEG.WITHDRAW goes on to the rights and to whether it is on air. -/
theorem segWithdrawRequest_found {r : SegRecord} {air : Bool}
    (found : (v.prog p).queue.find (hi ++ lo : BitVec 16).toNat = some (r, air)) :
    segWithdrawRequest x [indexByte p, hi, lo] v = (do
      demand (v.mayEdit x r) .noRights
      demand (!air) .wrongState
      .ok (v.withdraw x p r, [byteOfNat ((v.withdraw x p r).prog p).queue.count])) := by
  simp only [segWithdrawRequest, indexOf_indexByte, need_some, id, found, decide_true, demand_true]

end

theorem State.withdraw_own {v : State} {x : PortId} {p : Index} {r : SegRecord} (own : r.owner = x) :
    v.withdraw x p r = v.updProg p fun P => P.setQueue (P.queue.remove r.id) := if_pos own

/-- R80: the owner is told when another port asked. -/
theorem State.withdraw_other {v : State} {x : PortId} {p : Index} {r : SegRecord} (other : r.owner ≠ x) :
    v.withdraw x p r = (v.updProg p fun P => P.setQueue (P.queue.remove r.id)).raiseAt r.owner .withdrawn (bitOf p) :=
  if_neg other

theorem State.withdraw_queue (v : State) (x : PortId) (p : Index) (r : SegRecord) :
    ((v.withdraw x p r).prog p).queue = (v.prog p).queue.remove r.id := by
  by_cases own : r.owner = x
  · rw [State.withdraw_own own, State.updProg_prog_same]
    rfl
  · rw [State.withdraw_other own, State.raiseAt_prog, State.updProg_prog_same]
    rfl

/-- Settles O47: the checks of SEG.WITHDRAW in their order, and `State.withdraw` for the owner and for another port. -/
theorem segWithdraw : Obligations.SegWithdraw := by
  intro s x tag hi lo p hs v id q ask
  have refused : ∀ {r}, segWithdrawRequest x [indexByte p, hi, lo] v = .error (r, []) → ask = answered v x 0x22 tag r [] :=
    request_refused hs 0x22 segWithdrawRequest tag _
  refine ⟨fun zero => refused (segWithdrawRequest_zero zero),
    fun given none => refused (segWithdrawRequest_absent given (Queue.find_none none)), fun r given found => ?_⟩
  intro air mine left removed
  have same : r.id = id.toNat := by simpa using List.find?_some found
  have checks := segWithdrawRequest_found (v := v) (x := x) given (Queue.find_some found)
  rw [State.withdraw_queue, same] at checks
  have mine_iff : v.mayEdit x r = true ↔ mine := v.mayEdit_iff x r
  have air_iff : q.airs id.toNat = true ↔ air := q.airs_iff _
  have taken : ∀ {t}, ¬air → mine → v.withdraw x p r = t →
      ask = answered t x 0x22 tag .ok [byteOfNat left.count] := fun cued own e => by
    refine request_taken hs 0x22 segWithdrawRequest tag _ ?_
    change segWithdrawRequest x [indexByte p, hi, lo] v = _
    rw [checks, mine_iff.mpr own, Bool.eq_false_iff.mpr (mt air_iff.mp cued), ← e]
    rfl
  refine ⟨fun other => refused ?_, fun own onAir => refused ?_, fun cued own => taken cued (.inl own) ?_,
    fun cued own other => taken cued own ?_⟩
  · rw [checks, Bool.eq_false_iff.mpr (mt mine_iff.mp other)]
    rfl
  · rw [checks, mine_iff.mpr own, air_iff.mpr onAir]
    rfl
  · rw [State.withdraw_own own, same]
    rfl
  · rw [State.withdraw_other other, same]
    rfl

end Sys2Proof.Machine
end

section
/-! The codes of the fields of a request, and the presence bits of the fields it carries (R195). -/

namespace Sys2Proof.Machine

/-! ### Codes -/

theorem Byte.eq_of_toNat {b : Byte} {n : Nat} (h : b.toNat = n) : b = BitVec.ofNat 8 n := by
  rw [← h, BitVec.ofNat_toNat, BitVec.setWidth_eq]

theorem indexOf_iff (b : Byte) (i : Index) : indexOf b = some i ↔ b = BitVec.ofNat 8 i.val := by
  constructor
  · intro h
    unfold indexOf at h
    split at h
    · obtain rfl := Option.some.inj h
      exact Byte.eq_of_toNat rfl
    · cases h
  · rintro rfl
    exact indexOf_indexByte i

theorem flagOf_iff (b : Byte) (v : Bool) : flagOf b = some v ↔ b = if v then 1 else 0 := by
  constructor
  · intro h
    unfold flagOf at h
    split at h <;> cases h <;> exact Byte.eq_of_toNat (by assumption)
  · rintro rfl
    cases v <;> rfl

theorem classOf_iff (b : Byte) (c : SegClass) : classOf b = some c ↔ b = classCode c := by
  constructor
  · intro h
    unfold classOf at h
    split at h <;> cases h <;> exact Byte.eq_of_toNat (by assumption)
  · rintro rfl
    cases c <;> rfl

theorem policyOf_iff (b : Byte) (c : Policy) : policyOf b = some c ↔ b = policyCode c := by
  constructor
  · intro h
    unfold policyOf at h
    split at h <;> cases h <;> exact Byte.eq_of_toNat (by assumption)
  · rintro rfl
    cases c <;> rfl

/-- The byte of a reject length in CUE.CONFIG: its length in ms (R195). -/
def RejectLength.ms : RejectLength → Byte
  | .ms0 => 0
  | .ms2 => 2
  | .ms8 => 8
  | .ms32 => 32

theorem rejectOf_iff (b : Byte) (r : RejectLength) : rejectOf b = some r ↔ b = r.ms := by
  constructor
  · intro h
    unfold rejectOf at h
    split at h <;> cases h <;> exact Byte.eq_of_toNat (by assumption)
  · rintro rfl
    cases r <;> rfl

/-- R195: the index of a trigger stands in the low four bits. -/
theorem lowFour_toNat (b : Byte) : (b &&& 0x0F).toNat = b.toNat % 16 :=
  (BitVec.toNat_and b 0x0F).trans (Nat.and_two_pow_sub_one_eq_mod b.toNat 4)

/-- The byte of a kind and an index, high four bits and low four bits. -/
theorem eq_of_nibbles {b : Byte} {i : Index} {kind : Nat} (high : b.toNat / 16 = kind) (low : indexOf (b &&& 0x0F) = some i) :
    b = BitVec.ofNat 8 (16 * kind + i.val) := by
  have index := congrArg BitVec.toNat ((indexOf_iff _ i).mp low)
  rw [lowFour_toNat, BitVec.toNat_ofNat] at index
  refine Byte.eq_of_toNat ?_
  omega

theorem triggerOf_iff (b : Byte) (t : Trigger) : triggerOf b = some t ↔ b = triggerCode t := by
  constructor
  · intro h
    unfold triggerOf at h
    split at h
    · rename_i i high low
      split at h
      · rename_i zero
        cases h
        rw [zero] at low
        exact eq_of_nibbles high low
      · cases h
    · rename_i k high low
      cases h
      exact eq_of_nibbles high low
    · rename_i i high low
      cases h
      exact eq_of_nibbles high low
    · cases h
  · rintro rfl
    cases t with
    | off => rfl
    | cue k => revert k; decide
    | follow i => revert i; decide

/-- R195: a tally is a trigger that is NONE or CUE. -/
theorem tallyOf_iff (b : Byte) (v : Option Index) : tallyOf b = some v ↔ b = tallyCode v := by
  have trigger : tallyOf b = some v ↔ triggerOf b = some (v.elim .off .cue) := by
    unfold tallyOf
    split <;> rename_i h <;> rw [h] <;> cases v <;> simp
  rw [trigger, triggerOf_iff]
  cases v <;> rfl

/-! ### Presence bits -/

theorem getLsbD_eq_iff {n : Nat} (w : BitVec n) (i : Nat) (b : Bool) : b = w.getLsbD i ↔ w.toNat / 2 ^ i % 2 = b.toNat := by
  rw [← BitVec.testBit_toNat, Nat.testBit_eq_decide_div_mod_eq]
  cases b
  · simp
  · simp

theorem ite_eq_mul_toNat (b : Bool) (k : Nat) : (if b then k else 0) = k * b.toNat := by cases b <;> simp

theorem presenceByte_iff (w : Byte) (a b c d e f : Bool) :
    (w.toNat < 64 ∧ a = w.getLsbD 0 ∧ b = w.getLsbD 1 ∧ c = w.getLsbD 2 ∧ d = w.getLsbD 3 ∧ e = w.getLsbD 4 ∧ f = w.getLsbD 5) ↔
    w = BitVec.ofNat 8 ((if a then 1 else 0) + (if b then 2 else 0) + (if c then 4 else 0) + (if d then 8 else 0)
      + (if e then 16 else 0) + (if f then 32 else 0)) := by
  simp only [getLsbD_eq_iff, ite_eq_mul_toNat, ← BitVec.toNat_inj, BitVec.toNat_ofNat]
  have := a.toNat_le; have := b.toNat_le; have := c.toNat_le; have := d.toNat_le; have := e.toNat_le; have := f.toNat_le
  omega

theorem presenceWord_iff (w : BitVec 16) (a b c d e f g h i j : Bool) :
    (w.toNat < 1024 ∧ a = w.getLsbD 0 ∧ b = w.getLsbD 1 ∧ c = w.getLsbD 2 ∧ d = w.getLsbD 3 ∧ e = w.getLsbD 4
      ∧ f = w.getLsbD 5 ∧ g = w.getLsbD 6 ∧ h = w.getLsbD 7 ∧ i = w.getLsbD 8 ∧ j = w.getLsbD 9) ↔
    w = BitVec.ofNat 16 ((if a then 1 else 0) + (if b then 2 else 0) + (if c then 4 else 0) + (if d then 8 else 0)
      + (if e then 16 else 0) + (if f then 32 else 0) + (if g then 64 else 0) + (if h then 128 else 0)
      + (if i then 256 else 0) + (if j then 512 else 0)) := by
  simp only [getLsbD_eq_iff, ite_eq_mul_toNat, ← BitVec.toNat_inj, BitVec.toNat_ofNat]
  have := a.toNat_le; have := b.toNat_le; have := c.toNat_le; have := d.toNat_le; have := e.toNat_le; have := f.toNat_le
  have := g.toNat_le; have := h.toNat_le; have := i.toNat_le; have := j.toNat_le
  omega

end Sys2Proof.Machine
end

section
/-! The layouts of requests (R196 to R198): which bytes give the fields of SEG.CUE, SEG.TAKE, SEG.END and PROG.TUNE. -/

namespace Sys2Proof.Machine

/-! ### SEG.CUE -/

/-- The optional fields of a cue body and its label, one reader after the other. -/
theorem readCueBody_key (ps : List Byte) (c : CueBody) : readCueBody ps = some c ↔ ∃ presence r0,
    ps = [c.prog] ++ wordBytes c.id ++ [c.cls, c.policy, c.flags, presence] ++ r0 ∧ presence.toNat < 64 ∧
    ∃ r1, readOptWord (presence.getLsbD 0) r0 = some (c.declared, r1) ∧
    ∃ r2, readOptWord (presence.getLsbD 1) r1 = some (c.entryGain, r2) ∧
    ∃ r3, readOptWord (presence.getLsbD 2) r2 = some (c.rampLength, r3) ∧
    ∃ r4, readOptWord (presence.getLsbD 3) r3 = some (c.duration, r4) ∧
    ∃ r5, readOptWord (presence.getLsbD 4) r4 = some (c.targetOverride, r5) ∧
    ∃ r6, readOptWord (presence.getLsbD 5) r5 = some (c.toleranceOverride, r6) ∧ readLabel r6 = some c.label := by
  constructor
  · intro h
    unfold readCueBody at h
    split at h
    · rename_i prog idHi idLo cls policy flags presence rest
      split at h
      · cases h
      · rename_i small
        obtain ⟨⟨v1, r1⟩, h1, h⟩ := Option.bind_eq_some_iff.mp h
        obtain ⟨⟨v2, r2⟩, h2, h⟩ := Option.bind_eq_some_iff.mp h
        obtain ⟨⟨v3, r3⟩, h3, h⟩ := Option.bind_eq_some_iff.mp h
        obtain ⟨⟨v4, r4⟩, h4, h⟩ := Option.bind_eq_some_iff.mp h
        obtain ⟨⟨v5, r5⟩, h5, h⟩ := Option.bind_eq_some_iff.mp h
        obtain ⟨⟨v6, r6⟩, h6, h⟩ := Option.bind_eq_some_iff.mp h
        obtain ⟨label, h7, h⟩ := Option.bind_eq_some_iff.mp h
        obtain rfl := Option.some.inj h
        refine ⟨presence, rest, ?_, by omega, r1, h1, r2, h2, r3, h3, r4, h4, r5, h5, r6, h6, h7⟩
        simp [word_append]
    · cases h
  · rintro ⟨presence, r0, rfl, small, r1, h1, r2, h2, r3, h3, r4, h4, r5, h5, r6, h6, h7⟩
    simp only [wordBytes, List.cons_append, List.nil_append]
    unfold readCueBody
    dsimp only
    rw [if_neg (by omega), append_word]
    refine Option.bind_eq_some_iff.mpr ⟨_, h1, Option.bind_eq_some_iff.mpr ⟨_, h2, Option.bind_eq_some_iff.mpr ⟨_, h3,
      Option.bind_eq_some_iff.mpr ⟨_, h4, Option.bind_eq_some_iff.mpr ⟨_, h5, Option.bind_eq_some_iff.mpr ⟨_, h6,
      Option.bind_eq_some_iff.mpr ⟨_, h7, rfl⟩⟩⟩⟩⟩⟩⟩

/-- The presence byte of a cue body (R198). -/
def CueBody.presence (c : CueBody) : Byte :=
  BitVec.ofNat 8 ((if c.declared.isSome then 1 else 0) + (if c.entryGain.isSome then 2 else 0)
    + (if c.rampLength.isSome then 4 else 0) + (if c.duration.isSome then 8 else 0)
    + (if c.targetOverride.isSome then 16 else 0) + (if c.toleranceOverride.isSome then 32 else 0))

theorem readCueBody_iff (ps : List Byte) (c : CueBody) : readCueBody ps = some c ↔ c.label.length ≤ 255
    ∧ ps = [c.prog] ++ wordBytes c.id ++ [c.cls, c.policy, c.flags, c.presence] ++ optBytes c.declared ++ optBytes c.entryGain
      ++ optBytes c.rampLength ++ optBytes c.duration ++ optBytes c.targetOverride ++ optBytes c.toleranceOverride
      ++ [BitVec.ofNat 8 c.label.length] ++ c.label := by
  rw [readCueBody_key]
  simp only [readOptWord_iff, readLabel_iff]
  constructor
  · rintro ⟨presence, r0, rfl, small, r1, ⟨p0, rfl⟩, r2, ⟨p1, rfl⟩, r3, ⟨p2, rfl⟩, r4, ⟨p3, rfl⟩, r5, ⟨p4, rfl⟩, r6, ⟨p5, rfl⟩,
      fits, rfl⟩
    have hpresence : presence = c.presence := (presenceByte_iff presence ..).mp ⟨small, p0, p1, p2, p3, p4, p5⟩
    subst hpresence
    exact ⟨fits, by simp only [List.append_assoc, List.singleton_append]⟩
  · rintro ⟨fits, rfl⟩
    obtain ⟨small, p0, p1, p2, p3, p4, p5⟩ := (presenceByte_iff c.presence ..).mpr rfl
    refine ⟨c.presence, _, by simp only [List.append_assoc, List.singleton_append], small, _, ⟨p0, rfl⟩, _, ⟨p1, rfl⟩, _, ⟨p2, rfl⟩, _, ⟨p3, rfl⟩,
      _, ⟨p4, rfl⟩, _, ⟨p5, rfl⟩, fits, rfl⟩

theorem CueBody.record_iff (c : CueBody) (x : PortId) (r : SegRecord) : c.record x = some r ↔
    classOf c.cls = some r.cls ∧ policyOf c.policy = some r.policy ∧ flagOf c.flags = some r.autoAdvance
    ∧ r.id = c.id.toNat ∧ r.owner = x ∧ r.declared = c.declared.map (fun v => v.toInt)
    ∧ r.entryGain = c.entryGain.map (fun v => v.toInt) ∧ r.rampLength = c.rampLength.map (fun v => (v.toNat : Int))
    ∧ r.duration = c.duration.map (fun v => v.toNat) ∧ r.targetOverride = c.targetOverride.map (fun v => v.toInt)
    ∧ r.toleranceOverride = c.toleranceOverride.map (fun v => (v.toNat : Int)) ∧ r.label = c.label := by
  unfold CueBody.record
  constructor
  · intro h
    obtain ⟨cls, hcls, h⟩ := Option.bind_eq_some_iff.mp h
    obtain ⟨policy, hpolicy, h⟩ := Option.bind_eq_some_iff.mp h
    obtain ⟨auto, hauto, h⟩ := Option.bind_eq_some_iff.mp h
    obtain rfl := Option.some.inj h
    exact ⟨hcls, hpolicy, hauto, rfl, rfl, rfl, rfl, rfl, rfl, rfl, rfl, rfl⟩
  · obtain ⟨id, owner, cls, policy, declared, entryGain, rampLength, duration, auto, target, tolerance, label⟩ := r
    rintro ⟨hcls, hpolicy, hauto, rfl, rfl, rfl, rfl, rfl, rfl, rfl, rfl, rfl⟩
    exact Option.bind_eq_some_iff.mpr ⟨_, hcls, Option.bind_eq_some_iff.mpr ⟨_, hpolicy,
      Option.bind_eq_some_iff.mpr ⟨_, hauto, rfl⟩⟩⟩

/-! ### SEG.TAKE and SEG.END -/

theorem readTakeBody_iff (ps : List Byte) (p : Byte) (e : Option (BitVec 16)) : readTakeBody ps = some (p, e) ↔
    ps = [p, BitVec.ofNat 8 (if e.isSome then 1 else 0)] ++ optBytes e := by
  constructor
  · intro h
    unfold readTakeBody at h
    split at h
    · split at h <;> cases h
      subst_vars
      rfl
    · split at h <;> cases h
      subst_vars
      simp [optBytes, word_append]
    · cases h
  · rintro rfl
    cases e with
    | none => rfl
    | some v => simp [optBytes, wordBytes, readTakeBody, append_word]

theorem readEndBody_iff (ps : List Byte) (p mode : Byte) (e : Option (BitVec 16)) : readEndBody ps = some (p, mode, e) ↔
    ps = [p, mode, BitVec.ofNat 8 (if e.isSome then 1 else 0)] ++ optBytes e := by
  constructor
  · intro h
    unfold readEndBody at h
    split at h
    · split at h <;> cases h
      subst_vars
      rfl
    · split at h <;> cases h
      subst_vars
      simp [optBytes, word_append]
    · cases h
  · rintro rfl
    cases e with
    | none => rfl
    | some v => simp [optBytes, wordBytes, readEndBody, append_word]

/-! ### PROG.TUNE -/

/-- The presence word of a set of tunables (R198). -/
def TunableSet.presence (v : TunableSet) : BitVec 16 :=
  BitVec.ofNat 16 ((if v.target.isSome then 1 else 0) + (if v.tolerance.isSome then 2 else 0)
    + (if v.maxBoost.isSome then 4 else 0) + (if v.maxCut.isSome then 8 else 0) + (if v.riseRate.isSome then 16 else 0)
    + (if v.fallRate.isSome then 32 else 0) + (if v.holdThreshold.isSome then 64 else 0)
    + (if v.defaultRamp.isSome then 128 else 0) + (if v.ceiling.isSome then 256 else 0) + (if v.release.isSome then 512 else 0))

/-- Every tunable carried is a number its field can hold. -/
def TunableSet.fits (v : TunableSet) : Prop :=
  optWithin (-32768) 32767 v.target ∧ optWithin 0 65535 v.tolerance ∧ optWithin (-32768) 32767 v.maxBoost
    ∧ optWithin (-32768) 32767 v.maxCut ∧ optWithin 0 255 v.riseRate ∧ optWithin 0 255 v.fallRate
    ∧ optWithin (-32768) 32767 v.holdThreshold ∧ optWithin 0 65535 v.defaultRamp ∧ optWithin (-128) 127 v.ceiling
    ∧ optWithin 0 65535 v.release

theorem readTunables_iff (ps : List Byte) (v : TunableSet) : readTunables ps = some v ↔ v.fits
    ∧ ps = wordBytes v.presence ++ numberBytes v.target ++ numberBytes v.tolerance ++ numberBytes v.maxBoost
      ++ numberBytes v.maxCut ++ singleBytes v.riseRate ++ singleBytes v.fallRate ++ numberBytes v.holdThreshold
      ++ numberBytes v.defaultRamp ++ singleBytes v.ceiling ++ numberBytes v.release := by
  rw [readTunables_key]
  simp only [readTunable_signed, readTunable_unsigned, readTunable_byte, readTunable_signedByte, TunableSet.fits]
  constructor
  · rintro ⟨w, r0, rfl, small, r1, ⟨p0, f0, rfl⟩, r2, ⟨p1, f1, rfl⟩, r3, ⟨p2, f2, rfl⟩, r4, ⟨p3, f3, rfl⟩, r5, ⟨p4, f4, rfl⟩,
      r6, ⟨p5, f5, rfl⟩, r7, ⟨p6, f6, rfl⟩, r8, ⟨p7, f7, rfl⟩, r9, ⟨p8, f8, rfl⟩, p9, f9, rfl⟩
    have hpresence : w = v.presence := (presenceWord_iff w ..).mp ⟨small, p0, p1, p2, p3, p4, p5, p6, p7, p8, p9⟩
    subst hpresence
    exact ⟨⟨f0, f1, f2, f3, f4, f5, f6, f7, f8, f9⟩, by simp only [List.append_assoc, List.append_nil]⟩
  · rintro ⟨⟨f0, f1, f2, f3, f4, f5, f6, f7, f8, f9⟩, rfl⟩
    obtain ⟨small, p0, p1, p2, p3, p4, p5, p6, p7, p8, p9⟩ := (presenceWord_iff v.presence ..).mpr rfl
    refine ⟨v.presence, _, by simp only [List.append_assoc], small, _, ⟨p0, f0, rfl⟩, _, ⟨p1, f1, rfl⟩, _, ⟨p2, f2, rfl⟩,
      _, ⟨p3, f3, rfl⟩, _, ⟨p4, f4, rfl⟩, _, ⟨p5, f5, rfl⟩, _, ⟨p6, f6, rfl⟩, _, ⟨p7, f7, rfl⟩, _, ⟨p8, f8, rfl⟩, p9, f9,
      (List.append_nil _).symm⟩

/-! ### The layouts -/

/-- Settles O35: a code is matched in both directions with the value that has it, and a body's readers, each reading exactly the
bytes of its field, are run one after the other. -/
theorem requestLayouts : Obligations.RequestLayouts := by
  unfold Obligations.RequestLayouts
  intro word opt number single within bit
  refine ⟨fun b => ⟨indexOf_iff b, flagOf_iff b, classOf_iff b, policyOf_iff b, triggerOf_iff b, tallyOf_iff b, ?_⟩,
    readCueBody_iff, CueBody.record_iff, readTakeBody_iff, readEndBody_iff, readTunables_iff⟩
  intro r
  rw [rejectOf_iff]
  cases r <;> rfl

end Sys2Proof.Machine
end

section
/-! The layout of SEG.AMEND (R77, R78, R198): the instruction word and the values Set, the values that are legal, and the amended
record. -/

namespace Sys2Proof.Machine

/-! ### The instruction word -/

/-- The three bytes of the instruction word, high byte first (R198). -/
def instructionBytes (w : BitVec 24) : List Byte := [w.extractLsb' 16 8, w.extractLsb' 8 8, w.extractLsb' 0 8]

theorem toNat_append_byte {n : Nat} (hi : BitVec n) (lo : Byte) : (hi ++ lo).toNat = hi.toNat * 256 + lo.toNat := by
  rw [BitVec.toNat_append, ← Nat.shiftLeft_add_eq_or_of_lt lo.isLt, Nat.shiftLeft_eq]

theorem append_instruction (w : BitVec 24) :
    (w.extractLsb' 16 8 ++ w.extractLsb' 8 8 ++ w.extractLsb' 0 8 : BitVec 24) = w := by
  rw [← BitVec.toNat_inj, toNat_append_byte, toNat_append_byte]
  simp only [BitVec.extractLsb'_toNat, Nat.shiftRight_eq_div_pow]
  omega

theorem instruction_append (w2 w1 w0 : Byte) : instructionBytes (w2 ++ w1 ++ w0 : BitVec 24) = [w2, w1, w0] := by
  have value : (w2 ++ w1 ++ w0 : BitVec 24).toNat = (w2.toNat * 256 + w1.toNat) * 256 + w0.toNat := by
    rw [toNat_append_byte, toNat_append_byte]
  simp only [instructionBytes, List.cons.injEq, and_true, ← BitVec.toNat_inj]
  simp only [BitVec.extractLsb'_toNat, Nat.shiftRight_eq_div_pow, value]
  omega

/-- The bits above the ten codes are the high four bits of the high byte. -/
theorem instruction_small (w : BitVec 24) : (w.extractLsb' 16 8).toNat < 16 ↔ w.toNat < 4 ^ 10 := by
  simp only [BitVec.extractLsb'_toNat, Nat.shiftRight_eq_div_pow]
  have := w.isLt
  omega

theorem Amend.code_le {α : Type} (i : Amend α) : i.code ≤ 2 := by cases i <;> simp [Amend.code]

/-- The instruction word of an amend body: ten codes of two bits, the first field lowest (R198). -/
def AmendBody.instructions (a : AmendBody) : BitVec 24 :=
  BitVec.ofNat 24 (a.cls.code + 4 * a.policy.code + 16 * a.autoAdvance.code + 64 * a.declared.code + 256 * a.entryGain.code
    + 1024 * a.rampLength.code + 4096 * a.duration.code + 16384 * a.targetOverride.code + 65536 * a.toleranceOverride.code
    + 262144 * a.label.code)

/-- The word holds only the ten codes, and each is the code of its instruction. -/
structure AmendBody.Codes (a : AmendBody) (w : BitVec 24) : Prop where
  small : w.toNat < 4 ^ 10
  cls : a.cls.code = instructionCode w 0
  policy : a.policy.code = instructionCode w 1
  autoAdvance : a.autoAdvance.code = instructionCode w 2
  declared : a.declared.code = instructionCode w 3
  entryGain : a.entryGain.code = instructionCode w 4
  rampLength : a.rampLength.code = instructionCode w 5
  duration : a.duration.code = instructionCode w 6
  targetOverride : a.targetOverride.code = instructionCode w 7
  toleranceOverride : a.toleranceOverride.code = instructionCode w 8
  label : a.label.code = instructionCode w 9

theorem AmendBody.Codes.eq {a : AmendBody} {w : BitVec 24} (h : a.Codes w) : w = a.instructions := by
  obtain ⟨small, h0, h1, h2, h3, h4, h5, h6, h7, h8, h9⟩ := h
  rw [← BitVec.toNat_inj, AmendBody.instructions, BitVec.toNat_ofNat, h0, h1, h2, h3, h4, h5, h6, h7, h8, h9]
  unfold instructionCode
  omega

theorem AmendBody.codes_instructions (a : AmendBody) : a.Codes a.instructions := by
  have := a.cls.code_le; have := a.policy.code_le; have := a.autoAdvance.code_le; have := a.declared.code_le
  have := a.entryGain.code_le; have := a.rampLength.code_le; have := a.duration.code_le; have := a.targetOverride.code_le
  have := a.toleranceOverride.code_le; have := a.label.code_le
  constructor <;> simp only [instructionCode, AmendBody.instructions, BitVec.toNat_ofNat] <;> omega

/-! ### The body -/

/-- The instructions of an amend body, one reader after the other. -/
theorem readAmendBody_key (ps : List Byte) (a : AmendBody) : readAmendBody ps = some a ↔ ∃ (w : BitVec 24) (r0 : List Byte),
    ps = [a.prog] ++ wordBytes a.id ++ instructionBytes w ++ r0 ∧ w.toNat < 4 ^ 10 ∧
    ∃ r1, readAmendByte (instructionCode w 0) r0 = some (a.cls, r1) ∧
    ∃ r2, readAmendByte (instructionCode w 1) r1 = some (a.policy, r2) ∧
    ∃ r3, readAmendByte (instructionCode w 2) r2 = some (a.autoAdvance, r3) ∧
    ∃ r4, readAmendWord (instructionCode w 3) r3 = some (a.declared, r4) ∧
    ∃ r5, readAmendWord (instructionCode w 4) r4 = some (a.entryGain, r5) ∧
    ∃ r6, readAmendWord (instructionCode w 5) r5 = some (a.rampLength, r6) ∧
    ∃ r7, readAmendWord (instructionCode w 6) r6 = some (a.duration, r7) ∧
    ∃ r8, readAmendWord (instructionCode w 7) r7 = some (a.targetOverride, r8) ∧
    ∃ r9, readAmendWord (instructionCode w 8) r8 = some (a.toleranceOverride, r9) ∧
      readAmendLabel (instructionCode w 9) r9 = some a.label := by
  constructor
  · intro h
    unfold readAmendBody at h
    split at h
    · rename_i prog idHi idLo w2 w1 w0 rest
      dsimp only at h
      split at h
      · cases h
      · rename_i small
        obtain ⟨⟨v1, r1⟩, h1, h⟩ := Option.bind_eq_some_iff.mp h
        obtain ⟨⟨v2, r2⟩, h2, h⟩ := Option.bind_eq_some_iff.mp h
        obtain ⟨⟨v3, r3⟩, h3, h⟩ := Option.bind_eq_some_iff.mp h
        obtain ⟨⟨v4, r4⟩, h4, h⟩ := Option.bind_eq_some_iff.mp h
        obtain ⟨⟨v5, r5⟩, h5, h⟩ := Option.bind_eq_some_iff.mp h
        obtain ⟨⟨v6, r6⟩, h6, h⟩ := Option.bind_eq_some_iff.mp h
        obtain ⟨⟨v7, r7⟩, h7, h⟩ := Option.bind_eq_some_iff.mp h
        obtain ⟨⟨v8, r8⟩, h8, h⟩ := Option.bind_eq_some_iff.mp h
        obtain ⟨⟨v9, r9⟩, h9, h⟩ := Option.bind_eq_some_iff.mp h
        obtain ⟨label, h10, h⟩ := Option.bind_eq_some_iff.mp h
        obtain rfl := Option.some.inj h
        have high : (w2 ++ w1 ++ w0 : BitVec 24).extractLsb' 16 8 = w2 := List.head_eq_of_cons_eq (instruction_append w2 w1 w0)
        refine ⟨w2 ++ w1 ++ w0, rest, ?_, ?_, r1, h1, r2, h2, r3, h3, r4, h4, r5, h5, r6, h6, r7, h7, r8, h8, r9, h9, h10⟩
        · rw [instruction_append]
          simp [word_append]
        · rw [← instruction_small, high]
          omega
    · cases h
  · rintro ⟨w, r0, rfl, small, r1, h1, r2, h2, r3, h3, r4, h4, r5, h5, r6, h6, r7, h7, r8, h8, r9, h9, h10⟩
    rw [← instruction_small] at small
    simp only [wordBytes, instructionBytes, List.cons_append, List.nil_append]
    unfold readAmendBody
    dsimp only
    rw [if_neg (by omega), append_word, append_instruction]
    refine Option.bind_eq_some_iff.mpr ⟨_, h1, Option.bind_eq_some_iff.mpr ⟨_, h2, Option.bind_eq_some_iff.mpr ⟨_, h3,
      Option.bind_eq_some_iff.mpr ⟨_, h4, Option.bind_eq_some_iff.mpr ⟨_, h5, Option.bind_eq_some_iff.mpr ⟨_, h6,
      Option.bind_eq_some_iff.mpr ⟨_, h7, Option.bind_eq_some_iff.mpr ⟨_, h8, Option.bind_eq_some_iff.mpr ⟨_, h9,
      Option.bind_eq_some_iff.mpr ⟨_, h10, rfl⟩⟩⟩⟩⟩⟩⟩⟩⟩⟩

theorem readAmendBody_iff (ps : List Byte) (a : AmendBody) : readAmendBody ps = some a ↔
    (a.cls ≠ .clear ∧ a.policy ≠ .clear ∧ a.autoAdvance ≠ .clear ∧ a.label ≠ .clear)
    ∧ (∀ l, a.label = .put l → l.length ≤ 255)
    ∧ ps = [a.prog] ++ wordBytes a.id ++ instructionBytes a.instructions ++ a.cls.bytes (fun b => [b])
      ++ a.policy.bytes (fun b => [b]) ++ a.autoAdvance.bytes (fun b => [b]) ++ a.declared.bytes wordBytes
      ++ a.entryGain.bytes wordBytes ++ a.rampLength.bytes wordBytes ++ a.duration.bytes wordBytes
      ++ a.targetOverride.bytes wordBytes ++ a.toleranceOverride.bytes wordBytes
      ++ a.label.bytes (fun l => BitVec.ofNat 8 l.length :: l) := by
  rw [readAmendBody_key]
  simp only [readAmendByte_iff, readAmendWord_iff, readAmendLabel_iff]
  constructor
  · rintro ⟨w, r0, rfl, small, r1, ⟨c0, n0, rfl⟩, r2, ⟨c1, n1, rfl⟩, r3, ⟨c2, n2, rfl⟩, r4, ⟨c3, rfl⟩, r5, ⟨c4, rfl⟩,
      r6, ⟨c5, rfl⟩, r7, ⟨c6, rfl⟩, r8, ⟨c7, rfl⟩, r9, ⟨c8, rfl⟩, c9, n9, fits, rfl⟩
    obtain rfl := AmendBody.Codes.eq (a := a) ⟨small, c0, c1, c2, c3, c4, c5, c6, c7, c8, c9⟩
    exact ⟨⟨n0, n1, n2, n9⟩, fits, by simp only [List.append_assoc]⟩
  · rintro ⟨⟨n0, n1, n2, n9⟩, fits, rfl⟩
    have codes := a.codes_instructions
    exact ⟨a.instructions, _, by simp only [List.append_assoc], codes.small, _, ⟨codes.cls, n0, rfl⟩, _, ⟨codes.policy, n1, rfl⟩,
      _, ⟨codes.autoAdvance, n2, rfl⟩, _, ⟨codes.declared, rfl⟩, _, ⟨codes.entryGain, rfl⟩, _, ⟨codes.rampLength, rfl⟩,
      _, ⟨codes.duration, rfl⟩, _, ⟨codes.targetOverride, rfl⟩, _, ⟨codes.toleranceOverride, rfl⟩, codes.label, n9, fits, rfl⟩

/-! ### The values -/

theorem Amend.carries_iff {α : Type} (test : α → Bool) (i : Amend α) :
    i.carries test = true ↔ ∀ v, i = .put v → test v = true := by
  cases i <;> simp [Amend.carries]

theorem inRange_iff (lo hi step v : Int) : inRange lo hi step v = true ↔ lo ≤ v ∧ v ≤ hi ∧ v % step = 0 := by
  simp [inRange, and_assoc]

theorem classOf_isSome_iff (b : Byte) : (classOf b).isSome = true ↔ b.toNat ≤ 3 := by
  unfold classOf
  split <;> grind

theorem policyOf_isSome_iff (b : Byte) : (policyOf b).isSome = true ↔ b.toNat ≤ 2 := by
  unfold policyOf
  split <;> grind

theorem flagOf_isSome_iff (b : Byte) : (flagOf b).isSome = true ↔ b.toNat ≤ 1 := by
  unfold flagOf
  split <;> grind

theorem AmendBody.valuesLegal_iff (a : AmendBody) : a.valuesLegal = true ↔
    (∀ b, a.cls = .put b → b.toNat ≤ 3) ∧ (∀ b, a.policy = .put b → b.toNat ≤ 2)
    ∧ (∀ b, a.autoAdvance = .put b → b.toNat ≤ 1) ∧ (∀ v, a.declared = .put v → -7000 ≤ v.toInt ∧ v.toInt ≤ 0)
    ∧ (∀ v, a.entryGain = .put v → -3000 ≤ v.toInt ∧ v.toInt ≤ 1500)
    ∧ (∀ v, a.rampLength = .put v → v.toNat ≤ 2000 ∧ v.toNat % 10 = 0) ∧ (∀ v, a.duration = .put v → 1 ≤ v.toNat)
    ∧ (∀ v, a.targetOverride = .put v → -3100 ≤ v.toInt ∧ v.toInt ≤ -1400)
    ∧ (∀ v, a.toleranceOverride = .put v → 10 ≤ v.toNat ∧ v.toNat ≤ 500) ∧ ∀ l, a.label = .put l → l.length ≤ 12 := by
  have ramp (v : BitVec 16) : (0 ≤ (v.toNat : Int) ∧ (v.toNat : Int) ≤ 2000 ∧ (v.toNat : Int) % 10 = 0)
      ↔ v.toNat ≤ 2000 ∧ v.toNat % 10 = 0 := by omega
  have tolerance (v : BitVec 16) : (10 ≤ (v.toNat : Int) ∧ (v.toNat : Int) ≤ 500) ↔ 10 ≤ v.toNat ∧ v.toNat ≤ 500 := by omega
  simp only [AmendBody.valuesLegal, Bool.and_eq_true, and_assoc, Amend.carries_iff, classOf_isSome_iff, policyOf_isSome_iff,
    flagOf_isSome_iff, inRange_iff, decide_eq_true_eq, Int.emod_one, and_true, ramp, tolerance]

/-! ### The amended record -/

theorem Amend.always_keep {α β : Type} {i : Amend β} (read : β → Option α) (old : α) (h : i = .keep) : i.always read old = old := by
  rw [h]
  rfl

theorem Amend.always_put {α β : Type} {i : Amend β} {read : β → Option α} {v : β} {x : α} (old : α) (h : i = .put v)
    (reads : read v = some x) : i.always read old = x := by
  rw [h, Amend.always, reads]
  rfl

/-- Settles O36: the readers of the ten instructions are run one after the other on codes that fill the instruction word, and the
amended record is each instruction on its own field. -/
theorem amendLayout : Obligations.AmendLayout := by
  unfold Obligations.AmendLayout
  intro word byteCode wordCode labelCode byteValue wordValue
  have byteCode_eq (i : Amend Byte) : i.code = byteCode i := by cases i <;> rfl
  have wordCode_eq (i : Amend (BitVec 16)) : i.code = wordCode i := by cases i <;> rfl
  have labelCode_eq (i : Amend (List Byte)) : i.code = labelCode i := by cases i <;> rfl
  have byteValue_eq (i : Amend Byte) : i.bytes (fun b => [b]) = byteValue i := by cases i <;> rfl
  have wordValue_eq (i : Amend (BitVec 16)) : i.bytes wordBytes = wordValue i := by cases i <;> rfl
  refine ⟨fun ps a => ?_, AmendBody.valuesLegal_iff, fun a r => ?_⟩
  · intro instructions
    have hinstructions : a.instructions = instructions := by
      simp only [AmendBody.instructions, instructions, byteCode_eq, wordCode_eq, labelCode_eq]
    rw [readAmendBody_iff, hinstructions]
    simp only [byteValue_eq, wordValue_eq]
    cases a.label <;> rfl
  · intro n
    refine ⟨rfl, rfl, Amend.always_keep _ _, fun c h => Amend.always_put _ h ((classOf_iff _ c).mpr rfl), Amend.always_keep _ _,
      fun c h => Amend.always_put _ h ((policyOf_iff _ c).mpr rfl), Amend.always_keep _ _,
      fun v h => Amend.always_put _ h ((flagOf_iff _ v).mpr rfl), Amend.always_keep _ _,
      fun l h => Amend.always_put _ h rfl, ?_, ?_, ?_, ?_, ?_, ?_⟩
    · change a.declared.optional _ _ = _
      cases a.declared <;> rfl
    · change a.entryGain.optional _ _ = _
      cases a.entryGain <;> rfl
    · change a.rampLength.optional _ _ = _
      cases a.rampLength <;> rfl
    · change a.duration.optional _ _ = _
      cases a.duration <;> rfl
    · change a.targetOverride.optional _ _ = _
      cases a.targetOverride <;> rfl
    · change a.toleranceOverride.optional _ _ = _
      cases a.toleranceOverride <;> rfl

end Sys2Proof.Machine
end

section
/-! Takes with their cascades (R88, R90, R95, R97): what a cascade of takes leaves, said of the programmes it reaches. -/

namespace Sys2Proof.Machine

/-! ### What a cascade of takes leaves -/

/-- What takes on the programmes `who`, with their stages, notices and records, have left by the state `t`: TAKE_MISSED alone
where a take does not act, nothing on a programme that is not among them, and in the delay line nothing but the own slots of those
on which one acts. -/
structure State.TakenOn (s t : State) (who : Index → Prop) : Prop where
  acts : ∀ q, who q → (s.prog q).takeActs = true →
    t.noticed .segStarted q ∧ ((s.prog q).hasOnAir = true → t.noticed .segClosed q)
  missed : ∀ q, who q → (s.prog q).takeActs = false → t.prog q = s.prog q ∧ t.noticed .takeMissed q
  others : ∀ q, ¬who q → t.prog q = s.prog q
  ownSlots : s.Apart → ∀ q c i, who q → (s.prog q).takeActs = true →
    channels (s.prog q).entry (t.audio.line.getD i Stage.zero).cor
      = channels (s.prog q).entry ((s.takeStages q c).audio.line.getD i Stage.zero).cor
  otherSlots : s.Apart → ∀ q i, ¬(who q ∧ (s.prog q).takeActs = true) → (s.prog q).isActive = true →
    channels (s.prog q).entry (t.audio.line.getD i Stage.zero).cor
      = channels (s.prog q).entry (s.audio.line.getD i Stage.zero).cor
  posted : s.Apart → s.takesPosted t who
  notices : s.takesNoticed t who

section

variable {s t : State} {work : List Work} {made : List (Index × TakeCause)} (C : s.Cascaded t work made)
include C

/-- The programmes a cascade reaches are those on which it has made a take. -/
theorem State.Cascaded.takenOn {who : Index → Prop} (takes : ∀ w ∈ work, w.isTake = true)
    (reached : ∀ q, who q ↔ ∃ w ∈ work, s.reaches w.prog q) : s.TakenOn t who := by
  have made_iff : ∀ q, (∃ c, (q, c) ∈ made) ↔ who q := fun q => (C.mem_iff takes q).trans (reached q).symm
  constructor
  case acts =>
    intro q hq acts
    obtain ⟨c, hm⟩ := (made_iff q).mpr hq
    exact ((C.taken _ hm).acts acts).2
  case missed =>
    intro q hq misses
    obtain ⟨c, hm⟩ := (made_iff q).mpr hq
    exact (C.taken _ hm).missed misses
  case others =>
    intro q hq
    exact C.others q fun c hm => hq ((made_iff q).mp ⟨c, hm⟩)
  case ownSlots =>
    intro apart q c i hq acts
    obtain ⟨cause, hm⟩ := (made_iff q).mpr hq
    have sees := ((C.taken _ hm).apart apart acts).2
    rw [State.takeStages_line] at sees ⊢
    exact (sees.cor i).symm
  case otherSlots =>
    intro apart q i untaken active
    have sees := C.sees apart q
      (fun c hm => Bool.eq_false_iff.mpr fun acts => untaken ⟨(made_iff q).mp ⟨c, hm⟩, acts⟩) active
    exact (sees.cor i).symm
  case posted => exact fun apart => C.posted takes apart who reached
  case notices =>
    have same : (fun q => ∃ c, (q, c) ∈ made) = who := funext fun q => propext (made_iff q)
    exact same ▸ C.notices

/-- R91: a take that acts puts the first CUED record on air with its cause, at the position of the cascade. -/
theorem State.Cascaded.onAir {q : Index} {c : TakeCause} (hm : (q, c) ∈ made) (acts : (s.prog q).takeActs = true) :
    ∃ o r, (s.prog q).queue.cued.head? = some r ∧ (t.prog q).queue = ⟨some o, (s.prog q).queue.cued.tail⟩
      ∧ o.record = r ∧ o.cause = c ∧ o.takeStamp = s.audio.airClock := by
  obtain ⟨⟨u, same, prog, left⟩, _⟩ := (C.taken _ hm).acts acts
  cases cued : (s.prog q).queue.cued with
  | nil => exact absurd cued ((s.prog q).takeActs_iff.mp acts).2
  | cons r rest =>
    obtain ⟨_, queue, _⟩ := State.takeStages_prog_cued (s := u) (p := q) (by rw [prog]; exact cued) c
    exact ⟨_, r, rfl, (congrArg Prog.queue left).trans queue, rfl, rfl, same.position⟩

end

/-- R95: a cascade that starts with one take reaches what that take reaches. -/
theorem State.reaches_single_iff (s : State) (p q : Index) (cause : TakeCause) :
    s.reaches p q ↔ ∃ w ∈ [Work.take p cause], s.reaches w.prog q := by
  simp [Work.prog]

/-- Settles O18: `State.take_made` is the cascade, `State.Cascaded.takenOn` what it leaves of the programmes it reaches,
`State.take_root` what it leaves of the first. -/
theorem takeAndItsCascade : Obligations.TakeAndItsCascade := by
  refine ⟨fun P => ⟨P.takeActs_iff, P.hasOnAir_iff⟩, ?_⟩
  intro s p cause acyclic t
  obtain ⟨made, C⟩ := s.take_made p cause acyclic
  obtain ⟨root_acts, root_misses⟩ := s.take_root p cause acyclic
  have T : s.TakenOn t (s.reaches p) := C.takenOn (by simp [Work.isTake]) fun q => s.reaches_single_iff p q cause
  have root : s.reaches p p := fun R hR _ => hR
  have follower : ∀ q l, q ≠ p → s.reaches p q → (s.prog q).entry.trigger = .follow l → (q, TakeCause.follow l) ∈ made := by
    intro q l other hq follows
    obtain ⟨c, hm⟩ := (C.mem_iff (by simp [Work.isTake]) q).mpr ((s.reaches_single_iff p q cause).mp hq)
    have cause_eq : c = .follow l := C.cause_of hm follows fun c => by simp [other]
    exact cause_eq ▸ hm
  have around := s.take_around p cause
  have audio := s.take_audio p cause
  refine ⟨fun acts => ⟨root_acts acts, T.acts p root acts⟩, root_misses,
    fun q l other hq follows => ⟨fun acts => ?_, T.missed q hq⟩, T.others, fun shaped disjoint => ?_, audio.audio, audio.raw,
    around.lines, around.override, around.baud, around.armed, around.pending, s.take_onlyNotices p cause, T.notices⟩
  · obtain ⟨started, closed⟩ := T.acts q hq acts
    exact ⟨started, closed, C.onAir (follower q l other hq follows) acts⟩
  · have apart : s.Apart := ⟨shaped, disjoint⟩
    exact ⟨fun q l other hq follows acts => ((C.taken _ (follower q l other hq follows)).apart apart acts).1,
      fun q c i hq acts => T.ownSlots apart q c i hq acts, fun q i untaken active => T.otherSlots apart q i untaken active,
      T.posted apart⟩

end Sys2Proof.Machine
end

section
/-! Accepted edges (R94, R172, R173, R176, R177): the report of an edge in the line, the ports and the tallies, and the takes of an
active-going one. -/

namespace Sys2Proof.Machine

/-! ### The report of an edge -/

/-- R172, R173, R177: what the edge of line `k` leaves before its takes. -/
def State.edgeReported (s : State) (k : Index) (rising : Bool) : State :=
  (s.setLine k { s.line k with accepted := (s.line k).raw, change := none }).edgeReport k rising

/-- R94, R176: an active-going edge goes on to the takes it triggers, an inactive-going one does not. -/
theorem State.acceptEdge_rising {s : State} {k : Index} (rising : ((s.line k).raw != (s.line k).inverted) = true) :
    s.acceptEdge k = (s.edgeReported k true).edgeTakes k := by
  simp only [State.acceptEdge, State.edgeReported, CueLine.active, rising, if_true]

theorem State.acceptEdge_falling {s : State} {k : Index} (falling : ((s.line k).raw != (s.line k).inverted) = false) :
    s.acceptEdge k = s.edgeReported k false := by
  simp only [State.acceptEdge, State.edgeReported, CueLine.active, falling, Bool.false_eq_true, if_false]

section

variable (s : State) (k : Index) (rising : Bool)

theorem State.edgeReported_line_same :
    (s.edgeReported k rising).line k = { s.line k with accepted := (s.line k).raw, change := none } :=
  State.setLine_line_same s k _

theorem State.edgeReported_line_other {j : Index} (h : j ≠ k) : (s.edgeReported k rising).line j = s.line j :=
  State.setLine_line_other s k j _ h

theorem State.edgeReported_port (x : PortId) :
    (s.edgeReported k rising).port x = ((s.port x).setEdge k rising).raise .cueEdge (bitOf k) := State.mapPorts_port _ _ _

theorem State.edgeReported_prog (p : Index) : (s.edgeReported k rising).prog p = (s.prog p).tallyChange k rising :=
  State.mapProgs_prog _ _ _

end

theorem Port.setEdge_notices (k : Index) (rising : Bool) (P : Port) : (P.setEdge k rising).notices = P.notices := by
  cases rising <;> rfl

/-- R173: the flags of an edge, and CUE_EDGE. -/
theorem Port.setEdge_raise (k : Index) (rising : Bool) (P : Port) :
    (P.setEdge k rising).raise .cueEdge (bitOf k) = { P with
      notices := P.notices.set .cueEdge ⟨true, (P.notices.get .cueEdge).bitmap ||| bitOf k⟩
      rising := if rising then P.rising ||| bitOf k else P.rising
      falling := if rising then P.falling else P.falling ||| bitOf k } := by
  cases rising <;> rfl

/-- Of the ports the report raises CUE_EDGE and no other notice. -/
theorem State.edgeReported_notice_other (s : State) (k : Index) (rising : Bool) (x : PortId) {j : Kind} (h : j ≠ .cueEdge) :
    ((s.edgeReported k rising).port x).notices.get j = (s.port x).notices.get j := by
  rw [State.edgeReported_port, Port.raise_get_other _ _ _ _ h, Port.setEdge_notices]

/-- R177: the programmes whose tally is the line remember the moment of an inactive-going edge. -/
theorem Prog.tallyChange_falling (P : Prog) (k : Index) : P.tallyChange k false
    = { P with meas := { P.meas with tallyLatch := P.meas.tallyLatch || decide (P.entry.tally = some k) } } := by
  by_cases named : P.entry.tally = some k
  · rw [Prog.tallyChange_remembers named rfl, decide_eq_true named, Bool.or_true]
  · rw [Prog.tallyChange_none (.inl named), decide_eq_false named, Bool.or_false]

/-! ### The takes see nothing of the report -/

/-- To takes `u` is as `s`: it differs at most in what no take reads or raises. -/
structure State.SameToTakes (s u : State) : Prop where
  progs : u.progs = s.progs
  audio : u.audio = s.audio
  log : (u.log, u.discards) = (s.log, s.discards)
  raised : s.raisedBy u fun _ _ => False
  marks : s.logNoticed u 0

theorem State.edgeReported_sameToTakes (s : State) (k : Index) : s.SameToTakes (s.edgeReported k true) where
  progs := by
    have unchanged : Prog.tallyChange k true = id := funext fun P => Prog.tallyChange_none (.inr rfl)
    show s.progs.map (Prog.tallyChange k true) = s.progs
    rw [unchanged]
    rfl
  audio := rfl
  log := rfl
  raised := fun x j other _ _ => by
    rw [s.edgeReported_notice_other k true x other]
    simp
  marks := .of_same rfl fun x => ⟨s.edgeReported_notice_other k true x (j := .logHalf) (by decide),
    s.edgeReported_notice_other k true x (j := .logDiscard) (by decide)⟩

theorem State.SameToTakes.prog {s u : State} (h : s.SameToTakes u) (p : Index) : u.prog p = s.prog p :=
  congrArg (fun progs : Octet Prog => progs.get p) h.progs

theorem State.SameToTakes.apart {s u : State} (h : s.SameToTakes u) (apart : s.Apart) : u.Apart where
  shaped := by
    unfold State.lineShaped
    rw [h.audio]
    exact apart.shaped
  disjoint := fun p q => by
    rw [h.prog, h.prog]
    exact apart.disjoint p q

/-- What a cascade has made of `u` it has made of `s`. -/
theorem State.SameToTakes.cascaded {s u t : State} {work : List Work} {made : List (Index × TakeCause)} (h : s.SameToTakes u)
    (C : u.Cascaded t work made) : s.Cascaded t work made := by
  have sees : ∀ q, (s.prog q).entry.SeesAlike s.audio.line u.audio.line := fun q => by
    rw [h.audio]
    exact .refl _ _
  have prog : u.prog = s.prog := funext h.prog
  have record : u.takeRecord = s.takeRecord := funext fun q => State.takeRecord_congr q (h.prog q) fun _ => sees q
  obtain ⟨starts, taken, followers, source, others, line, reached, once, order, log, notices, marks⟩ := C
  rw [prog] at followers source others line order marks
  refine ⟨starts, fun m hm => (taken m hm).after (.of_eq h.audio) (h.prog _) fun apart _ => ⟨h.apart apart, sees _⟩,
    followers, source, others, fun apart => ?_, fun m hm => ?_, once, order, fun apart => ?_, ?_, ?_⟩
  · rw [← h.audio]
    exact line (h.apart apart)
  · obtain ⟨w, hw, r⟩ := reached m hm
    exact ⟨w, hw, (State.reaches_congr h.progs _ _).mp r⟩
  · rw [← h.log, ← record]
    exact log (h.apart apart)
  · refine (h.raised.trans notices).congr fun j q => ?_
    rw [prog, false_or]
  · have sum := h.marks.trans marks
    rwa [Nat.zero_add] at sum

/-! ### The moments remembered, through takes -/

theorem Prog.closeBlock_tallyLatch (P : Prog) : P.closeBlock.meas.tallyLatch = P.meas.tallyLatch := by
  rw [Prog.closeBlock_eq]
  rfl

theorem Prog.closeIfFull_tallyLatch (P : Prog) : P.closeIfFull.meas.tallyLatch = P.meas.tallyLatch := by
  unfold Prog.closeIfFull
  split
  · exact P.closeBlock_tallyLatch
  · rfl

theorem Prog.flush_tallyLatch (line : List Stage) (n : Nat) : ∀ P : Prog,
    (Prog.flush line n P).meas.tallyLatch = P.meas.tallyLatch := by
  induction n with
  | zero => exact fun _ => rfl
  | succ n ih =>
    intro P
    calc (Prog.flush line n (P.measureOldest line).closeIfFull).meas.tallyLatch
      _ = (P.measureOldest line).closeIfFull.meas.tallyLatch := ih _
      _ = (P.measureOldest line).meas.tallyLatch := Prog.closeIfFull_tallyLatch _
      _ = P.meas.tallyLatch := P.measureOldest_tallyLatch line

/-- A boundary leaves the moment a tally was last INACTIVE: it is for the next position (log 19). -/
theorem boundaryWork_tallyLatch (line : List Stage) (P : Prog) : (boundaryWork line P).2.meas.tallyLatch = P.meas.tallyLatch := by
  have flushed : ∀ (l : List Stage) (Q : Prog), (Prog.flush l Q.meas.inFlight.length Q.closeIfFull).meas.tallyLatch
      = Q.meas.tallyLatch := fun l Q => (Prog.flush_tallyLatch l _ _).trans Q.closeIfFull_tallyLatch
  unfold boundaryWork Prog.boundaryMeasure Prog.closeShort
  dsimp only
  split
  · exact flushed _ _
  · exact (Prog.closeBlock_tallyLatch _).trans (flushed _ _)

theorem State.takeStages_tallyLatch {s : State} {p : Index} (cause : TakeCause) (acts : (s.prog p).takeActs = true) :
    ((s.takeStages p cause).prog p).meas.tallyLatch = (s.prog p).meas.tallyLatch := by
  cases cued : (s.prog p).queue.cued with
  | nil => exact absurd cued ((s.prog p).takeActs_iff.mp acts).2
  | cons r rest =>
    obtain ⟨_, _, meas, _⟩ := State.takeStages_prog_cued cued cause
    exact (congrArg Measure.tallyLatch meas).trans (boundaryWork_tallyLatch _ _)

/-- Takes leave the moments remembered (R177). -/
theorem takes_tallyLatch (s : State) : Takes fun t => ∀ q, (t.prog q).meas.tallyLatch = (s.prog q).meas.tallyLatch where
  free := fun _ h => h
  raise := fun _ _ _ h => h
  stages := fun t p cause acts h q => by
    by_cases own : q = p
    · rw [own, State.takeStages_tallyLatch cause acts]
      exact h p
    · rw [State.takeStages_prog_other _ _ _ _ own]
      exact h q

/-! ### The takes of an edge -/

theorem State.mem_triggered (s : State) (k q : Index) : q ∈ s.triggered k ↔ (s.prog q).entry.trigger = .cue k := by
  simp [State.triggered, mem_allIndices]

/-- The work an edge begins with. -/
def State.edgeWork (s : State) (k : Index) : List Work := (s.triggered k).map fun q => .take q (.cue k)

theorem State.mem_edgeWork (s : State) (k q : Index) (c : TakeCause) :
    Work.take q c ∈ s.edgeWork k ↔ (s.prog q).entry.trigger = .cue k ∧ c = .cue k := by
  simp only [State.edgeWork, List.mem_map, State.mem_triggered, Work.take.injEq]
  constructor
  · rintro ⟨_, triggered, rfl, rfl⟩
    exact ⟨triggered, rfl⟩
  · rintro ⟨triggered, rfl⟩
    exact ⟨q, triggered, rfl, rfl⟩

theorem State.edgeWork_isTake (s : State) (k : Index) : ∀ w ∈ s.edgeWork k, w.isTake = true := by
  simp [State.edgeWork, Work.isTake]

/-- R94, R95: the programmes an edge of line `k` reaches. -/
def State.edgeReaches (s : State) (k q : Index) : Prop := ∃ p, (s.prog p).entry.trigger = .cue k ∧ s.reaches p q

theorem State.edgeReaches_iff (s : State) (k q : Index) : s.edgeReaches k q ↔ ∃ w ∈ s.edgeWork k, s.reaches w.prog q := by
  simp [State.edgeReaches, State.edgeWork, State.mem_triggered, Work.prog]

/-- The takes of an active-going edge raise no notice of another kind than takes do. -/
theorem State.edgeTakes_onlyNotices (s : State) (k : Index) : s.onlyNotices (s.edgeTakes k) takeKinds := by
  refine State.cascade_keeps (M := fun t => s.onlyNotices t takeKinds) (fun w => w.isTake = true)
    (fun t h => h.trans (.of_ports _ rfl)) (fun t w isTake h => ?_) cascadeLimit s _ (s.edgeWork_isTake k) (.refl _ _)
  cases w with
  | take q c => exact ⟨h.trans (t.performTake_onlyNotices q c), ((takes_around t).performTake t q c (.refl t)).2⟩
  | auto q => simp [Work.isTake] at isTake

/-- R94, R95: of the state before the edge, the takes of an active-going edge make a cascade. -/
theorem State.edgeTakes_cascaded (s : State) (k : Index) :
    ∃ made, s.Cascaded ((s.edgeReported k true).edgeTakes k) (s.edgeWork k) made := by
  obtain ⟨made, C⟩ := (s.edgeReported k true).edgeTakes_made k
  have same := s.edgeReported_sameToTakes k
  have work : (s.edgeReported k true).triggered k = s.triggered k := by
    unfold State.triggered
    rw [funext same.prog]
  rw [work] at C
  exact ⟨made, same.cascaded C⟩

/-- The cause of a take on `q` that an edge of line `k` brings is the one its trigger names. -/
def State.edgeCause (s : State) (k q : Index) (c : TakeCause) : Prop :=
  ((s.prog q).entry.trigger = .cue k ∧ c = .cue k) ∨ ∃ l, (s.prog q).entry.trigger = .follow l ∧ c = .follow l

theorem State.edgeCause_unique {s : State} {k q : Index} {c c' : TakeCause} (h : s.edgeCause k q c) (h' : s.edgeCause k q c') :
    c = c' := by
  unfold State.edgeCause at h h'
  cases trigger : (s.prog q).entry.trigger with
  | off => simp [trigger] at h
  | cue j =>
    simp only [trigger, reduceCtorEq, false_and, exists_false, or_false] at h h'
    exact h.2.trans h'.2.symm
  | follow l =>
    simp only [trigger, reduceCtorEq, false_and, false_or, Trigger.follow.injEq, exists_eq_left'] at h h'
    exact h.trans h'.symm

/-- A programme an edge reaches is taken with the cause its trigger names. -/
theorem State.Cascaded.mem_of_edgeCause {s t : State} {k : Index} {made : List (Index × TakeCause)}
    (C : s.Cascaded t (s.edgeWork k) made) {q : Index} {c : TakeCause} (reached : s.edgeReaches k q)
    (caused : s.edgeCause k q c) : (q, c) ∈ made := by
  obtain ⟨c', hm⟩ := (C.mem_iff (s.edgeWork_isTake k) q).mpr ((s.edgeReaches_iff k q).mp reached)
  have caused' : s.edgeCause k q c' := by
    rcases C.source _ hm with waiting | ⟨l, _, _, follows, ofLeader⟩
    · exact .inl ((s.mem_edgeWork k q c').mp waiting)
    · exact .inr ⟨l.1, follows, ofLeader⟩
  exact State.edgeCause_unique caused caused' ▸ hm

/-! ### What an edge leaves of lines, ports and the rest -/

/-- What every accepted edge leaves, whichever way it goes. -/
structure State.EdgeAccepted (s t : State) (k : Index) (rising : Bool) : Prop where
  around : (s.edgeReported k rising).Around t
  audio : s.SameAudio t
  notices : (s.edgeReported k rising).onlyNotices t takeKinds

theorem State.acceptEdge_accepted (s : State) (k : Index) :
    s.EdgeAccepted (s.acceptEdge k) k ((s.line k).raw != (s.line k).inverted) := by
  cases way : (s.line k).raw != (s.line k).inverted with
  | false =>
    rw [State.acceptEdge_falling way]
    exact ⟨.refl _, .of_eq rfl, .refl _ _⟩
  | true =>
    rw [State.acceptEdge_rising way]
    exact ⟨(takes_around _).edgeTakes _ k (.refl _), (takes_audio s).edgeTakes _ k (.of_eq rfl),
      State.edgeTakes_onlyNotices _ k⟩

section

variable {s t : State} {k : Index} {rising : Bool} (A : s.EdgeAccepted t k rising)
include A

theorem State.EdgeAccepted.line (j : Index) : t.line j = (s.edgeReported k rising).line j :=
  congrArg (fun lines : Octet CueLine => lines.get j) A.around.lines

theorem State.EdgeAccepted.cueEdge (x : PortId) :
    (t.port x).notices.get .cueEdge = ⟨true, ((s.port x).notices.get .cueEdge).bitmap ||| bitOf k⟩ := by
  rw [(A.notices x).2 .cueEdge (by decide), State.edgeReported_port, Port.raise_get_same, Port.setEdge_notices]

/-- R173: of a port an edge changes the notices and the flags of the line. -/
theorem State.EdgeAccepted.port (x : PortId) : t.port x = { s.port x with
    notices := (t.port x).notices
    rising := if rising then (s.port x).rising ||| bitOf k else (s.port x).rising
    falling := if rising then (s.port x).falling else (s.port x).falling ||| bitOf k } := by
  have only := (A.notices x).1
  rwa [State.edgeReported_port, Port.setEdge_raise] at only

end

/-- Settles O25: `State.EdgeAccepted` is what an edge leaves of lines and ports, `State.edgeTakes_cascaded` the takes of an
active-going one, `State.Cascaded.takenOn` what they leave. -/
theorem acceptedEdge : Obligations.AcceptedEdge := by
  refine ⟨fun P => ⟨P.takeActs_iff, P.hasOnAir_iff⟩, ?_⟩
  intro s k t rising reached caused
  have A : s.EdgeAccepted t k rising := s.acceptEdge_accepted k
  have fall : rising = false → t = s.edgeReported k false := State.acceptEdge_falling
  have rise : rising = true → ∃ made, s.Cascaded t (s.edgeWork k) made := fun active => by
    have takes : t = (s.edgeReported k true).edgeTakes k := State.acceptEdge_rising active
    exact takes ▸ s.edgeTakes_cascaded k
  have T : rising = true → s.TakenOn t reached := fun active => by
    obtain ⟨made, C⟩ := rise active
    exact C.takenOn (s.edgeWork_isTake k) (s.edgeReaches_iff k)
  have root : ∀ p, (s.prog p).entry.trigger = .cue k → reached p := fun p triggered => ⟨p, triggered, fun R hR _ => hR⟩
  have rising_port := fun x => congrArg Port.rising (A.port x)
  have falling_port := fun x => congrArg Port.falling (A.port x)
  refine ⟨(A.line k).trans (s.edgeReported_line_same k rising),
    fun j other => (A.line j).trans (s.edgeReported_line_other k rising other), A.cueEdge,
    fun x => ⟨rising_port x, falling_port x, ?_⟩, fun inactive x j other => ?_, fun active => (T active).notices,
    fun inactive => ⟨?_, fun p => ?_⟩, fun active => ?_, fun active p triggered => ⟨fun acts => ?_, fun misses => ?_⟩,
    fun active q => ⟨(T active).acts q, (T active).missed q, (T active).others q⟩, fun active shaped disjoint => ?_,
    A.audio.audio, A.audio.raw, A.around.override, A.around.baud, A.around.armed, A.around.pending⟩
  · rw [rising_port, falling_port]
    exact A.port x
  · rw [fall inactive]
    exact s.edgeReported_notice_other k false x other
  · rw [fall inactive]
    rfl
  · rw [fall inactive, State.edgeReported_prog]
    exact Prog.tallyChange_falling _ k
  · have same := s.edgeReported_sameToTakes k
    have takes : t = (s.edgeReported k true).edgeTakes k := State.acceptEdge_rising active
    rw [takes]
    exact (takes_tallyLatch s).edgeTakes _ k fun q => by rw [same.prog]
  · obtain ⟨made, C⟩ := rise active
    obtain ⟨o, r, next, queue, onAir⟩ := C.onAir (C.mem_of_edgeCause (root p triggered) (.inl ⟨triggered, rfl⟩)) acts
    exact ⟨o, r, next, congrArg Queue.onAir queue, onAir⟩
  · obtain ⟨unchanged, missed⟩ := (T active).missed p (root p triggered) misses
    exact ⟨congrArg Prog.queue unchanged, missed⟩
  · have apart : s.Apart := ⟨shaped, disjoint⟩
    obtain ⟨made, C⟩ := rise active
    exact ⟨fun q c hq causes acts => ⟨((C.taken _ (C.mem_of_edgeCause hq causes)).apart apart acts).1,
        fun i => (T active).ownSlots apart q c i hq acts⟩,
      fun q i untaken isActive => (T active).otherSlots apart q i untaken isActive, (T active).posted apart⟩

end Sys2Proof.Machine
end

section
/-! The requests that put a segment on air and take it off: SEG.TAKE (R93) and SEG.END (R100). -/

namespace Sys2Proof.Machine

/-! ### Expected ids and modes -/

theorem expectedLegal_of_ne {e : Option (BitVec 16)} (h : e ≠ some 0) : expectedLegal e = true := by
  cases e with
  | none => rfl
  | some v =>
    have nonzero : v.toNat ≠ 0 := fun zero => h (congrArg some (BitVec.eq_of_toNat_eq zero))
    exact decide_eq_true (Nat.one_le_iff_ne_zero.mpr nonzero)

theorem expectedIs_iff (e : Option (BitVec 16)) (id : Nat) : expectedIs e id = true ↔ ∀ v, e = some v → v.toNat = id := by
  cases e <;> simp [expectedIs]

theorem expectedIs_some_ne {v : BitVec 16} {id : Nat} (h : v.toNat ≠ id) : expectedIs (some v) id = false :=
  beq_false_of_ne h

theorem endCauseOf_none {mode : Byte} (h : 1 < mode.toNat) : endCauseOf mode = none := by
  unfold endCauseOf
  split
  · omega
  · omega
  · rfl

theorem endCauseOf_some {mode : Byte} (h : mode.toNat ≤ 1) : endCauseOf mode = some (if mode = 0 then .finish else .abort) := by
  rcases Nat.le_one_iff_eq_zero_or_eq_one.mp h with zero | one
  · rw [Byte.eq_of_toNat zero]
    rfl
  · rw [Byte.eq_of_toNat one]
    rfl

/-! ### SEG.TAKE -/

section

variable {v : State} {x : PortId} {ps : List Byte} {p : Index} {e : Option (BitVec 16)}
  (read : readTakeBody ps = some (indexByte p, e))
include read

theorem segTakeRequest_zero (zero : e = some 0) : segTakeRequest x ps v = .error (.badValue, []) := by
  simp only [segTakeRequest, read, need_some, indexOf_indexByte, zero]
  rfl

/-- R93: with a legal id SEG.TAKE goes on to the rights, the state, the queue and the id. -/
theorem segTakeRequest_legal (legal : e ≠ some 0) : segTakeRequest x ps v = (do
    demand (v.mayCue x p) .noRights
    demand ((v.prog p).entry.state == .running) .wrongState
    let r ← need (v.prog p).queue.cued.head? .empty
    demand (expectedIs e r.id) .noSuchId
    .ok (v.take p (.command x), bytesOfNat 2 r.id ++ bytesOfNat 6 v.position.toNat)) := by
  simp only [segTakeRequest, read, need_some, indexOf_indexByte, expectedLegal_of_ne legal, demand_true]

end

/-- Settles O48: the checks of SEG.TAKE in their order. -/
theorem segTake : Obligations.SegTake := by
  intro s x tag ps e p hs read v ask
  have refused : ∀ {r}, segTakeRequest x ps v = .error (r, []) → ask = answered v x 0x23 tag r [] :=
    request_refused hs 0x23 segTakeRequest tag ps
  refine ⟨fun zero => refused (segTakeRequest_zero read zero), fun legal => ?_⟩
  have checks := segTakeRequest_legal (v := v) (x := x) read legal
  refine ⟨fun rights => refused ?_, fun rights state => refused ?_, fun rights running =>
    ⟨fun empty => refused ?_, fun r rest cued => ⟨fun id given other => refused ?_, fun same =>
      request_taken hs 0x23 segTakeRequest tag ps ?_⟩⟩⟩
  · rw [checks, rights]
    rfl
  · rw [checks, rights, beq_false_of_ne state]
    rfl
  · rw [checks, rights, running, empty]
    rfl
  · rw [checks, rights, running, cued, given]
    simp only [List.head?_cons, need_some, expectedIs_some_ne other]
    rfl
  · change segTakeRequest x ps v = _
    rw [checks, rights, running, cued]
    simp only [List.head?_cons, need_some, (expectedIs_iff e r.id).mpr same]
    rfl

/-! ### SEG.END -/

section

variable {v : State} {x : PortId} {ps : List Byte} {p : Index} {mode : Byte} {e : Option (BitVec 16)}
  (read : readEndBody ps = some (indexByte p, mode, e))
include read

theorem segEndRequest_badValue (bad : 1 < mode.toNat ∨ e = some 0) : segEndRequest x ps v = .error (.badValue, []) := by
  simp only [segEndRequest, read, need_some, indexOf_indexByte]
  by_cases unknown : 1 < mode.toNat
  · rw [endCauseOf_none unknown]
    rfl
  · rw [endCauseOf_some (Nat.not_lt.mp unknown), bad.resolve_left unknown]
    rfl

/-- R100: with a legal mode and id SEG.END goes on to the rights, the segment on air and the id. -/
theorem segEndRequest_legal (known : mode.toNat ≤ 1) (legal : e ≠ some 0) : segEndRequest x ps v = (do
    demand (v.mayCue x p) .noRights
    let r ← need (v.prog p).queue.onAir .wrongState
    demand (expectedIs e r.record.id) .noSuchId
    .ok (v.endSegment p (if mode = 0 then .finish else .abort),
      bytesOfNat 2 r.record.id ++ bytesOfNat 6 v.position.toNat)) := by
  simp only [segEndRequest, read, need_some, indexOf_indexByte, endCauseOf_some known, expectedLegal_of_ne legal, demand_true]

end

/-- Settles O49: the checks of SEG.END in their order. -/
theorem segEnd : Obligations.SegEnd := by
  intro s x tag mode ps e p hs read v ask
  have refused : ∀ {r}, segEndRequest x ps v = .error (r, []) → ask = answered v x 0x24 tag r [] :=
    request_refused hs 0x24 segEndRequest tag ps
  refine ⟨fun bad => refused (segEndRequest_badValue read bad), fun known legal => ?_⟩
  have checks := segEndRequest_legal (v := v) (x := x) read known legal
  refine ⟨fun rights => refused ?_, fun rights silent => refused ?_, fun o rights onAir =>
    ⟨fun id given other => refused ?_, fun same => request_taken hs 0x24 segEndRequest tag ps ?_⟩⟩
  · rw [checks, rights]
    rfl
  · rw [checks, rights, silent]
    rfl
  · rw [checks, rights, onAir, given]
    simp only [need_some, expectedIs_some_ne other]
    rfl
  · change segEndRequest x ps v = _
    rw [checks, rights, onAir]
    simp only [need_some, (expectedIs_iff e o.record.id).mpr same]
    rfl

end Sys2Proof.Machine
end

section
/-! The range of the gains (R111, R122): every value a gain is set to lies from -30.00 to +15.00 dB, by the limits of the
tunables (R22), of a record's entry gain (R70) and of a declared gain (R113), and a gain that moves stays between two such
values. -/

namespace Sys2Proof.Machine

/-! ### Legal tunables -/

theorem optInRange_getD {lo hi step n : Int} {v : Option Int} (hv : optInRange lo hi step v = true)
    (hn : optInRange lo hi step (some n) = true) : optInRange lo hi step (some (v.getD n)) = true := by
  cases v with
  | none => exact hn
  | some m => exact hv

theorem optInRange_or {lo hi step : Int} {v w : Option Int} (hv : optInRange lo hi step v = true)
    (hw : optInRange lo hi step w = true) : optInRange lo hi step (v.or w) = true := by
  cases v with
  | none => exact hw
  | some m => exact hv

/-- R25: a legal set applied to a legal active set. -/
theorem Tunables.legal.apply {t : Tunables} {v : TunableSet} (ht : t.legal) (hv : v.legal = true) : (t.apply v).legal := by
  simp only [Tunables.legal, TunableSet.legal, Bool.and_eq_true, and_assoc] at ht hv ⊢
  obtain ⟨t1, t2, t3, t4, t5, t6, t7, t8, t9, t10⟩ := ht
  obtain ⟨v1, v2, v3, v4, v5, v6, v7, v8, v9, v10⟩ := hv
  exact ⟨optInRange_getD v1 t1, optInRange_getD v2 t2, optInRange_getD v3 t3, optInRange_getD v4 t4, optInRange_getD v5 t5,
    optInRange_getD v6 t6, optInRange_getD v7 t7, optInRange_getD v8 t8, optInRange_getD v9 t9, optInRange_getD v10 t10⟩

/-- R24: a legal set carried over a legal pending set. -/
theorem TunableSet.over_legal {new old : TunableSet} (hn : new.legal = true) (ho : old.legal = true) :
    (new.over old).legal = true := by
  simp only [TunableSet.legal, Bool.and_eq_true, and_assoc] at hn ho ⊢
  obtain ⟨n1, n2, n3, n4, n5, n6, n7, n8, n9, n10⟩ := hn
  obtain ⟨o1, o2, o3, o4, o5, o6, o7, o8, o9, o10⟩ := ho
  exact ⟨optInRange_or n1 o1, optInRange_or n2 o2, optInRange_or n3 o3, optInRange_or n4 o4, optInRange_or n5 o5,
    optInRange_or n6 o6, optInRange_or n7 o7, optInRange_or n8 o8, optInRange_or n9 o9, optInRange_or n10 o10⟩

/-- R22: the limits of the tunables that move a gain. -/
theorem Tunables.legal.limits {t : Tunables} (h : t.legal) : (0 ≤ t.maxBoost ∧ t.maxBoost ≤ 1500)
    ∧ (-3000 ≤ t.maxCut ∧ t.maxCut ≤ 0) ∧ 1 ≤ t.riseRate ∧ 1 ≤ t.fallRate ∧ 0 ≤ t.defaultRamp ∧ t.defaultRamp ≤ 2000 := by
  obtain ⟨_, _, boost, cut, rise, fall, _, ramp, _⟩ := (TunableSet.legal_iff _).mp h
  exact ⟨boost _ rfl, cut _ rfl, (rise _ rfl).1, (fall _ rfl).1, (ramp _ rfl).1, (ramp _ rfl).2.1⟩

/-- The tunables of an entry, in force and pending, are legal. -/
def Entry.tuned (e : Entry) : Prop := e.active.legal ∧ e.pending.legal = true

/-! ### Gains in range -/

theorem gainInRange_zero : gainInRange 0 := by
  unfold gainInRange
  norm_num

theorem gainInRange_cast {n : Int} (h : -3000 ≤ n ∧ n ≤ 1500) : gainInRange n := by
  obtain ⟨low, high⟩ := h
  exact ⟨by exact_mod_cast low, by exact_mod_cast high⟩

theorem gainInRange.between {a b g : Rat} (ha : gainInRange a) (hb : gainInRange b) (low : min a b ≤ g) (high : g ≤ max a b) :
    gainInRange g := ⟨(le_min ha.1 hb.1).trans low, high.trans (max_le ha.2 hb.2)⟩

/-- A point of the straight line from one gain to another. -/
theorem gainInRange.along {a b t : Rat} (ha : gainInRange a) (hb : gainInRange b) (ht : 0 ≤ t) (ht' : t ≤ 1) :
    gainInRange (a + (b - a) * t) := by
  obtain ⟨a1, a2⟩ := ha
  obtain ⟨b1, b2⟩ := hb
  constructor <;> nlinarith

/-- R113: a fixed gain is limited to the range. -/
theorem declaredGain_inRange (target : Int) (declared : Option Int) : gainInRange (declaredGain target declared) := by
  refine gainInRange_cast ?_
  unfold declaredGain clampInt
  split
  · omega
  · split <;> omega

/-- R70, R113: the entry value of a legal record. -/
theorem entryValue_inRange {r : SegRecord} (legal : r.legal = true) (policy : Policy) (overridden : Bool) (target : Int)
    {applied : Rat} (h : gainInRange applied) : gainInRange (entryValue r policy overridden target applied) := by
  obtain ⟨_, _, entryGain, _⟩ := (SegRecord.legal_iff r).mp legal
  unfold entryValue
  cases policy with
  | fixed => exact declaredGain_inRange _ _
  | bypass => exact gainInRange_zero
  | adaptive =>
    dsimp only
    split
    · exact declaredGain_inRange _ _
    · split
      · rename_i v e
        exact gainInRange_cast (entryGain v e)
      · exact h

/-! ### The gain stage -/

/-- R111: the applied and the desired gain in range, and a sound ramp. -/
structure Gain.sound (g : Gain) : Prop where
  applied : gainInRange g.applied
  desired : gainInRange g.desired
  ramp : ∀ r ∈ g.ramp, r.sound

theorem Gain.sound.of_eq {g h : Gain} (s : g.sound) (applied : h.applied = g.applied) (desired : h.desired = g.desired)
    (ramp : h.ramp = g.ramp) : h.sound := ⟨applied ▸ s.applied, desired ▸ s.desired, ramp ▸ s.ramp⟩

theorem Gain.sound.still {g : Gain} (applied : gainInRange g.applied) (desired : gainInRange g.desired)
    (ramp : g.ramp = none) : g.sound := ⟨applied, desired, fun r hr => by rw [ramp] at hr; cases hr⟩

theorem Gain.sound.fixed {g h : Gain} (s : g.sound) (same : g.SameButFixed h) : h.sound :=
  s.of_eq same.applied same.desired same.ramp

/-- R115: the desired gain stands from the maximum cut to the maximum boost. -/
theorem Gain.sound.law {g : Gain} (s : g.sound) {t : Tunables} (legal : t.legal) (target : Int) (short : Option Int)
    (held : Bool) : (g.law t target short held).sound := by
  obtain ⟨boost, cut, _⟩ := legal.limits
  unfold Gain.law
  split
  · split
    · exact s.of_eq rfl rfl rfl
    · split
      · exact s.of_eq rfl rfl rfl
      · refine ⟨s.applied, ?_, s.ramp⟩
        dsimp only [clampRat]
        split
        · exact gainInRange_cast (by omega)
        · rename_i low
          split
          · exact gainInRange_cast (by omega)
          · rename_i high
            norm_cast at low high
            exact gainInRange_cast (by omega)
  · exact s

/-- R118: a ramp from the applied gain to an entry value, over at most 2000 ms. -/
theorem Gain.sound.startRamp {g : Gain} (s : g.sound) (policy : Policy) {entry : Rat} (h : gainInRange entry) {ms : Int}
    (long : ms ≤ 2000) : (g.startRamp policy entry ms).sound := by
  rw [Gain.startRamp_eq]
  by_cases still : ms ≤ 0 ∨ entry = g.applied
  · simp only [if_pos still]
    exact .still h h rfl
  · simp only [if_neg still]
    refine ⟨s.applied, h, fun r hr => ?_⟩
    obtain rfl := Option.some.inj hr
    exact ⟨s.applied, h, by dsimp only; omega, by dsimp only; omega, Nat.zero_le _⟩

theorem Gain.sound.completeRamp {g : Gain} (s : g.sound) : g.completeRamp.sound := by
  unfold Gain.completeRamp
  split
  · rename_i r present
    exact .still (s.ramp r present).2.1 s.desired rfl
  · exact s

/-- R119: a ramp that is not complete moves along its line. -/
theorem Gain.sound.rampStep {g : Gain} (s : g.sound) (undue : ∀ r, g.ramp = some r → r.elapsed < r.total) :
    g.rampStep.sound := by
  unfold Gain.rampStep
  split
  · exact s
  · rename_i r present
    obtain ⟨start, finish, long, short, _⟩ := s.ramp r present
    have going := undue r present
    refine ⟨?_, s.desired, fun r' hr' => ?_⟩
    · refine start.along finish (by positivity) (div_le_one_of_le₀ ?_ (by positivity))
      exact_mod_cast going
    · obtain rfl := Option.some.inj hr'
      exact ⟨start, finish, long, short, going⟩

/-- R116: an adaptive step goes toward the desired gain and does not pass it. -/
theorem Gain.sound.adaptiveStep {g : Gain} (s : g.sound) {t : Tunables} (legal : t.legal) : (g.adaptiveStep t).sound := by
  obtain ⟨_, _, rise, fall, _⟩ := legal.limits
  have step : ∀ n : Int, 1 ≤ n → 0 ≤ mkRat n 4800 := fun n h => by
    rw [Rat.mkRat_eq_div]
    have : (0 : Rat) ≤ n := by exact_mod_cast (by omega : (0 : Int) ≤ n)
    positivity
  unfold Gain.adaptiveStep
  split
  · rename_i below
    have up := step _ rise
    refine ⟨s.applied.between s.desired ?_ ((min_le_left _ _).trans (le_max_right _ _)), s.desired, s.ramp⟩
    exact (min_le_left _ _).trans (le_min below.le (by linarith))
  · split
    · rename_i above
      have down := step _ fall
      refine ⟨s.applied.between s.desired ((min_le_right _ _).trans (le_max_left _ _)) ?_, s.desired, s.ramp⟩
      exact (max_le above.le (by linarith)).trans (le_max_left _ _)
    · exact s

/-! ### A programme -/

theorem Prog.gainSound_iff (P : Prog) : P.gainSound ↔ P.gain.sound ∧ P.entry.tuned :=
  ⟨fun ⟨applied, desired, ramp, tuned⟩ => ⟨⟨applied, desired, ramp⟩, tuned⟩,
    fun ⟨s, tuned⟩ => ⟨s.applied, s.desired, s.ramp, tuned⟩⟩

theorem Prog.gainSound.gain {P : Prog} (h : P.gainSound) : P.gain.sound := (P.gainSound_iff.mp h).1
theorem Prog.gainSound.tuned {P : Prog} (h : P.gainSound) : P.entry.tuned := (P.gainSound_iff.mp h).2

/-- A sound gain stage beside an entry whose tunables have stayed. -/
theorem Prog.gainSound.of_gain {P Q : Prog} (h : P.gainSound) (gain : Q.gain.sound) (active : Q.entry.active = P.entry.active)
    (pending : Q.entry.pending = P.entry.pending) : Q.gainSound :=
  Q.gainSound_iff.mpr ⟨gain, active ▸ h.tuned.1, pending ▸ h.tuned.2⟩

theorem TunableSet.empty_legal : TunableSet.empty.legal = true := rfl

theorem Prog.Worked.tunables {P Q : Prog} (w : P.Worked Q) :
    Q.entry.active = P.entry.active ∧ Q.entry.pending = P.entry.pending := by
  rcases w.entry with e | ⟨_, e⟩ <;> rw [e] <;> exact ⟨rfl, rfl⟩

theorem Prog.gainSound.worked {P Q : Prog} (h : P.gainSound) (w : P.Worked Q) (gain : Q.gain.sound) : Q.gainSound :=
  h.of_gain gain w.tunables.1 w.tunables.2

theorem Prog.gainSound.closeBlock {P : Prog} (h : P.gainSound) : P.closeBlock.gainSound := by
  refine h.worked P.closeBlock_worked ?_
  rw [P.closeBlock_eq]
  exact h.gain.law h.tuned.1 _ _ _

theorem Prog.gainSound.closeIfFull {P : Prog} (h : P.gainSound) : P.closeIfFull.gainSound := by
  unfold Prog.closeIfFull
  split
  · exact h.closeBlock
  · exact h

theorem Prog.gainSound.closeShort {P : Prog} (h : P.gainSound) : P.closeShort.gainSound := by
  unfold Prog.closeShort
  split
  · exact h
  · exact h.closeBlock

theorem Prog.gainSound.measureOldest {P : Prog} (h : P.gainSound) (line : List Stage) : (P.measureOldest line).gainSound := by
  refine h.worked (P.measureOldest_worked line) ?_
  rw [(P.measureOldest_meas line).1]
  exact h.gain

theorem Prog.gainSound.flush {P : Prog} (h : P.gainSound) (line : List Stage) (n : Nat) : (Prog.flush line n P).gainSound := by
  induction n generalizing P with
  | zero => exact h
  | succ n ih => exact ih (h.measureOldest line).closeIfFull

theorem Prog.gainSound.boundaryWork {P : Prog} (h : P.gainSound) (line : List Stage) : (boundaryWork line P).2.gainSound := by
  have fixed : (P.setGain (fixAll P.entry line P.gain).2).gainSound :=
    h.of_gain (h.gain.fixed (fixAll_facts P.entry line P.gain).1) rfl rfl
  exact (fixed.closeIfFull.flush _ _).closeShort

theorem Prog.gainSound.closed {P : Prog} (h : P.gainSound) (n : Nat) : (P.closed n).gainSound := by
  unfold Prog.closed
  split <;> exact h

/-- R25: the pending set is legal, so it leaves a legal active set. -/
theorem Prog.gainSound.applyPending {P : Prog} (h : P.gainSound) : P.applyPending.gainSound :=
  P.applyPending.gainSound_iff.mpr
    ⟨h.gain.of_eq rfl rfl rfl, h.tuned.1.apply h.tuned.2, TunableSet.empty_legal⟩

theorem Prog.gainSound.ended {P : Prog} (h : P.gainSound) (line : List Stage) (n : Nat) : (P.ended line n).gainSound :=
  ((h.boundaryWork line).closed n).applyPending

/-- R70, R92: a legal record goes on air with its entry value in range, over its ramp length or the default ramp. -/
theorem Prog.gainSound.goOnAir {P : Prog} (h : P.gainSound) (legal : ∀ r ∈ P.queue.cued, r.legal = true) (n : Position)
    (cause : TakeCause) : (P.goOnAir n cause).gainSound := by
  cases cued : P.queue.cued with
  | nil =>
    rw [Prog.goOnAir_empty cued]
    exact h
  | cons r rest =>
    have record : r.legal = true := legal r (by simp [cued])
    obtain ⟨_, _, _, length, _⟩ := (SegRecord.legal_iff r).mp record
    obtain ⟨_, _, _, _, _, default⟩ := h.tuned.1.limits
    rw [Prog.goOnAir_cued cued]
    refine h.of_gain (h.gain.startRamp _ (entryValue_inRange record _ _ _ h.gain.applied) ?_) rfl rfl
    cases own : r.rampLength with
    | none => exact default
    | some ms => exact (length ms own).2.1

/-- R117: a programme at rest keeps its gains. -/
theorem Prog.gainSound.becomeInactive {P : Prog} (h : P.gainSound) : P.becomeInactive.gainSound :=
  h.of_gain (.still h.gain.applied h.gain.desired rfl) rfl rfl

theorem Prog.gainSound.toFreeRun {P : Prog} (h : P.gainSound) : P.toFreeRun.gainSound := by
  obtain ⟨_, _, _, _, _, default⟩ := h.tuned.1.limits
  exact h.of_gain (h.gain.startRamp _ h.gain.applied default) rfl rfl

theorem Prog.gainSound.restarted {P : Prog} (h : P.gainSound) (lines : Octet CueLine) : (Prog.restarted lines P).gainSound :=
  h.applyPending.of_gain (.still gainInRange_zero gainInRange_zero rfl) rfl rfl

/-- R112: with no ramp completion due, the gain moves within the range. -/
theorem Prog.gainSound.moveGain {P : Prog} (h : P.gainSound) (undue : P.rampDue = false) : P.moveGain.sound := by
  unfold Prog.moveGain
  split
  · refine h.gain.rampStep fun r present => ?_
    rw [Prog.rampDue, present] at undue
    exact Nat.lt_of_not_le (of_decide_eq_false undue)
  · exact h.gain.adaptiveStep h.tuned.1
  · exact h.gain

theorem Prog.gainSound.handFrame {P : Prog} (h : P.gainSound) (line : List Stage) (raw : List Sample) (now : Bool)
    (undue : P.rampDue = false) : (P.handFrame line raw now).2.gainSound := by
  obtain ⟨entry, _, applied, desired, _, _, ramp, _⟩ := Prog.handFrame_facts line raw now P
  refine h.of_gain ((h.moveGain undue).of_eq applied (desired.trans P.moveGain_facts.1.symm) ramp) ?_ ?_ <;> rw [entry]

/-- R117, R130: an activation sets both gains to 0.00 dB. -/
theorem Prog.gainSound.activated {P : Prog} (h : P.gainSound) (line : List Stage) (b : Bool) : (P.activated line b).gainSound :=
  h.of_gain (Gain.sound.fixed (.still gainInRange_zero gainInRange_zero rfl) (fixAll_facts _ _ _).1)
    rfl rfl

/-- R117: a programme set running again desires the gain it has. -/
theorem Prog.gainSound.resume {P : Prog} (h : P.gainSound) (b : Bool) : (P.resume b).gainSound :=
  h.of_gain ⟨h.gain.applied, h.gain.applied, h.gain.ramp⟩ rfl rfl

/-- R22, R24: PROG.TUNE takes a legal set only. -/
theorem Prog.gainSound.tune {P : Prog} (h : P.gainSound) {v : TunableSet} (legal : v.legal = true) : (P.tune v).gainSound := by
  unfold Prog.tune
  split
  · exact (Prog.gainSound_iff _).mpr ⟨h.gain, h.tuned.1, TunableSet.over_legal legal h.tuned.2⟩
  · exact (P.tuneActive v).gainSound_iff.mpr ⟨h.gain.of_eq rfl rfl rfl, h.tuned.1.apply legal, h.tuned.2⟩

theorem Prog.gainSound.tallyChange {P : Prog} (h : P.gainSound) (k : Index) (active : Bool) :
    (P.tallyChange k active).gainSound := by
  unfold Prog.tallyChange
  split <;> exact h

theorem Prog.ended_legal {P : Prog} (h : P.queueSound) (line : List Stage) (n : Nat) :
    ∀ r ∈ (P.ended line n).queue.cued, r.legal = true := by
  rw [Prog.ended_cued]
  exact fun r hr => h.2.2 r (P.queue.cued_sublist.subset hr)

/-- The queue's records have to be legal, since a take starts the ramp to the entry gain of one. -/
def Prog.gainsSound (P : Prog) : Prop := P.gainSound ∧ P.queueSound

theorem gainsSound_kept : ProgKept Prog.gainsSound where
  reset := fun p => ⟨Prog.reset_gainSound p.val, queueSound_kept.reset p⟩
  stages := fun P line n pos cause acts counter h =>
    ⟨(h.1.ended line n).goOnAir (Prog.ended_legal h.2 line n) pos cause, queueSound_kept.stages P line n pos cause acts counter h.2⟩
  goOn := fun P line n air counter going h => ⟨(h.1.ended line n).toFreeRun, queueSound_kept.goOn P line n air counter going h.2⟩
  drained := fun P line n air counter draining h =>
    ⟨(h.1.ended line n).becomeInactive, queueSound_kept.drained P line n air counter draining h.2⟩
  forced := fun P line n air counter h =>
    ⟨Prog.gainSound.becomeInactive (P := Prog.withdrawn _) (h.1.ended line n), queueSound_kept.forced P line n air counter h.2⟩
  restarted := fun P lines line n counter h => by
    refine ⟨Prog.gainSound.restarted ?_ lines, queueSound_kept.restarted P lines line n counter h.2⟩
    split
    · exact (h.1.boundaryWork line).closed n
    · exact h.1
  close := fun P due h => ⟨h.1.closeBlock, queueSound_kept.close P due h.2⟩
  ramp := fun P due h => ⟨h.1.of_gain h.1.gain.completeRamp rfl rfl, queueSound_kept.ramp P due h.2⟩
  overrun := fun P h => ⟨h.1, queueSound_kept.overrun P h.2⟩
  frame := fun P line raw now active undue still h =>
    ⟨h.1.handFrame line raw now still, queueSound_kept.frame P line raw now active undue still h.2⟩
  tally := fun P k active h => ⟨h.1.tallyChange k active, queueSound_kept.tally P k active h.2⟩
  lapse := fun P x h => ⟨h.1, queueSound_kept.lapse P x h.2⟩
  configure := fun P base width trig tally legal inactive h =>
    ⟨h.1, queueSound_kept.configure P base width trig tally legal inactive h.2⟩
  activate := fun P line b inactive h => ⟨h.1.activated line b, queueSound_kept.activate P line b inactive h.2⟩
  deactivate := fun P active silent h =>
    ⟨Prog.gainSound.becomeInactive (P := P.withdrawn) h.1, queueSound_kept.deactivate P active silent h.2⟩
  drain := fun P active air h => ⟨h.1, queueSound_kept.drain P active air h.2⟩
  runOn := fun P stopping h => ⟨h.1, queueSound_kept.runOn P stopping h.2⟩
  resume := fun P b stopped h => ⟨h.1.resume b, queueSound_kept.resume P b stopped h.2⟩
  stop := fun P running silent h => ⟨h.1, queueSound_kept.stop P running silent h.2⟩
  tune := fun P v legal h => ⟨h.1.tune legal, queueSound_kept.tune P v legal h.2⟩
  custodian := fun P c h => ⟨h.1, queueSound_kept.custodian P c h.2⟩
  rights := fun P v h => ⟨h.1, queueSound_kept.rights P v h.2⟩
  clearAccount := fun P h => ⟨h.1, queueSound_kept.clearAccount P h.2⟩
  cue := fun P r legal new cues room h => ⟨h.1, queueSound_kept.cue P r legal new cues room h.2⟩
  amend := fun P a r found amended h => ⟨h.1, queueSound_kept.amend P a r found amended h.2⟩
  withdraw := fun P id h => ⟨h.1, queueSound_kept.withdraw P id h.2⟩

/-- Settles O57: each piece of the work on a programme keeps its gains in range, with the tunables and records that set them. -/
theorem stepKeepsGainsInRange : Obligations.StepKeepsGainsInRange := gainsSound_kept.kept.step

end Sys2Proof.Machine
end

section
/-! The motion of the gain (06_gain_and_peak_control.md): the adaptive law (R115), the mode (R114), the step of a frame (R116,
R119), and the policy, entry value and ramp of a take (R113, R118, R123). -/

namespace Sys2Proof.Machine

/-! ### The adaptive law -/

section

variable {g : Gain} (t : Tunables) (target : Int) {short : Option Int} {held : Bool}

theorem Gain.law_other (h : g.policy ≠ .adaptive) : g.law t target short held = g := if_neg h

/-- R115: with no short-term loudness, a held block, or a loudness below the hold threshold, the gain holds. -/
theorem Gain.law_holds (adaptive : g.policy = .adaptive)
    (quiet : short = none ∨ held = true ∨ ∃ v, short = some v ∧ v < t.holdThreshold) :
    g.law t target short held = { g with holding := true } := by
  unfold Gain.law
  rw [if_pos adaptive]
  cases short with
  | none => rfl
  | some v =>
    refine if_pos ?_
    rcases quiet with absent | mark | ⟨w, same, below⟩
    · cases absent
    · exact .inr mark
    · exact .inl (Option.some.inj same ▸ below)

theorem clampRat_cast (lo hi v : Int) : clampRat lo hi v = if v < lo then (lo : Rat) else if hi < v then (hi : Rat) else v := by
  simp only [clampRat, Int.cast_lt]

/-- R115: otherwise the desired gain is what brings the loudness to the target, from the maximum cut to the maximum boost. -/
theorem Gain.law_sets (adaptive : g.policy = .adaptive) (unheld : held = false) {v : Int} (loud : short = some v)
    (above : t.holdThreshold ≤ v) : g.law t target short held = { g with
      desired := if target - v < t.maxCut then (t.maxCut : Rat) else if t.maxBoost < target - v then (t.maxBoost : Rat)
        else ((target - v : Int) : Rat)
      holding := false } := by
  unfold Gain.law
  rw [if_pos adaptive, loud, unheld, ← clampRat_cast]
  exact if_neg fun h => h.elim (by omega) Bool.false_ne_true

end

theorem Prog.closeBlock_gain (P : Prog) : P.closeBlock.gain
    = P.gain.law P.entry.active P.lawTarget (shortTerm P.closedMeasure.inHist) P.meas.held := by rw [P.closeBlock_eq]

/-! ### The mode and the step of a frame -/

theorem Prog.mode_ramping {P : Prog} (h : P.gain.ramp.isSome = true) : P.mode = .ramping := if_pos h

section

variable {P : Prog} (still : P.gain.ramp = none)
include still

/-- R114: with no ramp the mode is FROZEN or FOLLOWING. -/
theorem Prog.mode_still : P.mode = if P.entry.state = .inactive ∨ P.entry.state = .stopped then .frozen
    else if P.gain.policy ≠ .adaptive then .frozen else if P.gain.holding then .frozen else .following := by
  rw [Prog.mode, still]
  rfl

theorem Prog.mode_resting (h : P.entry.state = .inactive ∨ P.entry.state = .stopped) : P.mode = .frozen := by
  rw [Prog.mode_still still, if_pos h]

theorem Prog.mode_unadapted (h : P.gain.policy = .fixed ∨ P.gain.policy = .bypass) : P.mode = .frozen := by
  have other : P.gain.policy ≠ .adaptive := by rcases h with h | h <;> simp [h]
  rw [Prog.mode_still still, if_pos other, ite_self]

theorem Prog.mode_holding (h : P.gain.holding = true) : P.mode = .frozen := by
  rw [Prog.mode_still still, if_pos h, ite_self, ite_self]

theorem Prog.mode_following (active : P.entry.state ≠ .inactive) (going : P.entry.state ≠ .stopped)
    (adaptive : P.gain.policy = .adaptive) (moving : P.gain.holding = false) : P.mode = .following := by
  rw [Prog.mode_still still, if_neg (not_or.mpr ⟨active, going⟩), if_neg (not_not.mpr adaptive),
    if_neg (Bool.eq_false_iff.mp moving)]

end

/-- R119: a step along the ramp. -/
theorem Gain.rampStep_eq {g : Gain} {r : Ramp} (h : g.ramp = some r) : g.rampStep = { g with
    applied := r.start + (r.finish - r.start) * (((r.elapsed + 1 : Nat) : Rat) / (r.total : Rat))
    ramp := some { r with elapsed := r.elapsed + 1 } } := by
  simp only [Gain.rampStep, h, Int.cast_natCast]

/-- R116: an adaptive step, by the way the gain has to go. -/
theorem Gain.adaptiveStep_up {g : Gain} (t : Tunables) (h : g.applied < g.desired) : g.adaptiveStep t = { g with
    applied := min g.desired (g.applied + (t.riseRate : Rat) / 4800) } := by
  rw [Gain.adaptiveStep, if_pos h, Rat.mkRat_eq_div]
  rfl

theorem Gain.adaptiveStep_down {g : Gain} (t : Tunables) (h : g.desired < g.applied) : g.adaptiveStep t = { g with
    applied := max g.desired (g.applied - (t.fallRate : Rat) / 4800) } := by
  rw [Gain.adaptiveStep, if_neg h.asymm, if_pos h, Rat.mkRat_eq_div]
  rfl

theorem Gain.adaptiveStep_arrived {g : Gain} (t : Tunables) (h : g.applied = g.desired) : g.adaptiveStep t = g := by
  rw [Gain.adaptiveStep, if_neg h.not_lt, if_neg h.not_gt]

theorem Prog.moveGain_ramping {P : Prog} (h : P.mode = .ramping) : P.moveGain = P.gain.rampStep := by rw [Prog.moveGain, h]
theorem Prog.moveGain_following {P : Prog} (h : P.mode = .following) : P.moveGain = P.gain.adaptiveStep P.entry.active := by
  rw [Prog.moveGain, h]
theorem Prog.moveGain_frozen {P : Prog} (h : P.mode = .frozen) : P.moveGain = P.gain := by rw [Prog.moveGain, h]

/-! ### RAMP_COMPLETION -/

theorem State.settleRamp_due {s : State} {p : Index} {r : Ramp} (h : (s.prog p).gain.ramp = some r) (due : r.total ≤ r.elapsed) :
    s.settleRamp p = s.setProg p { s.prog p with gain := { (s.prog p).gain with applied := r.finish, ramp := none } } := by
  have reached : (s.prog p).rampDue = true := by
    rw [Prog.rampDue, h]
    exact decide_eq_true due
  rw [State.settleRamp, if_pos reached, State.completeRamp, State.updProg, Gain.completeRamp, h]
  rfl

theorem State.settleRamp_undue {s : State} {p : Index} (h : ∀ r, (s.prog p).gain.ramp = some r → r.elapsed < r.total) :
    s.settleRamp p = s := by
  refine if_neg fun reached => ?_
  rw [Prog.rampDue] at reached
  split at reached
  · rename_i r present
    exact absurd (of_decide_eq_true reached) (Nat.not_le.mpr (h r present))
  · cases reached

/-- Settles O12: `Gain.law`, `Prog.mode`, `Prog.moveGain` and `State.settleRamp`, case by case. -/
theorem gainMotion : Obligations.GainMotion := by
  refine ⟨fun P => ?_, fun P => ?_, fun P => ?_, fun s p => ?_⟩
  · rw [P.closeBlock_gain]
    exact ⟨Gain.law_other _ _, Gain.law_holds _ _, fun adaptive unheld v loud => Gain.law_sets _ _ adaptive unheld loud⟩
  · exact ⟨Prog.mode_ramping, Prog.mode_resting, Prog.mode_unadapted, fun still _ => Prog.mode_holding still,
      Prog.mode_following⟩
  · refine ⟨fun r h => ?_, Prog.moveGain_frozen, fun mode h => ?_, fun mode h => ?_, fun mode h => ?_⟩
    · rw [Prog.moveGain_ramping (Prog.mode_ramping (by rw [h]; rfl)), Gain.rampStep_eq h]
    · rw [Prog.moveGain_following mode, Gain.adaptiveStep_arrived _ h]
    · rw [Prog.moveGain_following mode, Gain.adaptiveStep_up _ h]
    · rw [Prog.moveGain_following mode, Gain.adaptiveStep_down _ h]
  · exact ⟨fun r h due => congrArg _ (State.settleRamp_due h due), fun h => congrArg _ (State.settleRamp_undue h)⟩

/-! ### The ramp of a take -/

theorem clampInt_eq {lo hi : Int} (h : lo ≤ hi) (v : Int) : clampInt lo hi v = max lo (min hi v) := by
  unfold clampInt
  split
  · omega
  · split <;> omega

/-- R113, R123: the gain that brings a declared loudness to the target. -/
theorem declaredGain_eq (target v : Int) : declaredGain target (some v) = max (-3000) (min 1500 (target - v)) := clampInt_eq (by decide) _

/-- Settles O16: `effectivePolicy`, `entryValue` and `Gain.startRamp`, case by case. -/
theorem transitionRamp : Obligations.TransitionRamp := by
  refine ⟨fun cued counter _ => ?_, fun r target applied v declared => ?_, fun _ _ _ _ => rfl, fun _ _ _ => ?_,
    fun g policy entry ms long => ?_⟩
  · cases cued <;> rfl
  · rw [← declaredGain_eq, ← declared]
    exact ⟨rfl, rfl⟩
  · rfl
  · have atOnce : ms = 0 ↔ ms ≤ 0 := by omega
    rw [Gain.startRamp_eq]
    refine ⟨rfl, rfl, rfl, rfl, rfl, fun still => ?_, fun course moves => ?_⟩
    · rw [atOnce] at still
      exact ⟨if_pos still, if_pos still⟩
    · have moving := not_or.mpr ⟨not_le.mpr course, moves⟩
      exact ⟨if_neg moving, if_neg moving⟩

end Sys2Proof.Machine
end

section
/-! The look-ahead limiter (06_gain_and_peak_control.md, 6.6): how a position is fixed (R125 to R127), what its estimate and its
ceiling are (R126), and how its reduction is chosen (R127, R128). -/

namespace Sys2Proof.Machine

/-! ### The choice of a reduction -/

/-- R128: the greater of release and attack is chosen where it meets the condition. -/
theorem Gain.chooseReduction_met {g : Gain} {e : Entry} {w : GainApplied} {rest : List GainApplied} {s3 s2 s1 : List Int}
    (h : w.meets (g.governing e.active.ceiling) s3 s2 s1 (max (g.release e) (g.attack e w rest)) = true) :
    g.chooseReduction e w rest s3 s2 s1 = max (g.release e) (g.attack e w rest) := if_pos h

/-- Log 28: where no reduction meets the condition, the position is muted. -/
theorem Gain.chooseReduction_mute {g : Gain} {e : Entry} {w : GainApplied} (rest : List GainApplied) {s3 s2 s1 : List Int}
    (none : ∀ r, w.meets (g.governing e.active.ceiling) s3 s2 s1 r ≠ true) :
    g.chooseReduction e w rest s3 s2 s1 = 16000 * 2 ^ 32 := by
  unfold Gain.chooseReduction GainApplied.requirement
  simp only [if_neg (none _)]
  rfl

/-- Settles O21: a mute meets the condition after a position that met it (`GainApplied.meets_mute`), and the reduction chosen meets
it if any does (`Gain.chooseReduction_facts`). -/
theorem limiterKeepsTheCeiling : Obligations.LimiterKeepsTheCeiling := by
  refine ⟨?_, ?_⟩
  · intro e g w rest s3 s2 s1 s0 n _ h2 h1 h0 ceiling before
    have mute := w.meets_mute ceiling s3 s2 s1 s0 h0 before Config.muteReduction le_rfl
    exact (g.chooseReduction_facts e w rest s2 s1 s0 ⟨h2, h1, h0⟩ _ mute).1
  · intro e g w rest s3 s2 s1 r n h3 h2 h1 ceiling meets
    exact (g.chooseReduction_facts e w rest s3 s2 s1 ⟨h3, h2, h1⟩ r meets).1

/-! ### Release -/

/-- The first two terms of the exponential series. -/
theorem expFixed_ge (x : Nat) : 2 ^ 96 + x ≤ expFixed x := by
  have first : fixedOne * x / (1 * fixedOne) = x := by
    rw [one_mul, Nat.mul_div_cancel_left x (by decide)]
  rw [expFixed, expSeries, expSeries, first]
  exact Nat.add_le_add_left (Nat.le_add_right _ _) _

/-- e^x is at most 1/(1 - x), so the release divides by no more. -/
theorem expFixed_mul_le {x : Nat} (h : x ≤ 2 ^ 96) : expFixed x * (2 ^ 96 - x) ≤ 2 ^ 192 := by
  have small : (x : ℝ) / 2 ^ 96 ≤ 1 := div_le_one_of_le₀ (by exact_mod_cast h) (by positivity)
  have above := (expFixed_near x (by linarith)).1
  have below : 1 - (x : ℝ) / 2 ^ 96 ≤ Real.exp (-((x : ℝ) / 2 ^ 96)) := by
    have := Real.add_one_le_exp (-((x : ℝ) / 2 ^ 96))
    linarith
  have product : (expFixed x : ℝ) / 2 ^ 96 * (1 - (x : ℝ) / 2 ^ 96) ≤ 1 := by
    calc (expFixed x : ℝ) / 2 ^ 96 * (1 - (x : ℝ) / 2 ^ 96)
        ≤ Real.exp ((x : ℝ) / 2 ^ 96) * Real.exp (-((x : ℝ) / 2 ^ 96)) :=
          mul_le_mul above below (by linarith) (Real.exp_pos _).le
      _ = 1 := by rw [← Real.exp_add, add_neg_cancel, Real.exp_zero]
  have scaled : (expFixed x : ℝ) * (2 ^ 96 - x) ≤ 2 ^ 192 := by
    calc (expFixed x : ℝ) * (2 ^ 96 - x) = (expFixed x : ℝ) / 2 ^ 96 * (1 - (x : ℝ) / 2 ^ 96) * 2 ^ 192 := by ring
      _ ≤ 1 * 2 ^ 192 := mul_le_mul_of_nonneg_right product (by positivity)
      _ = 2 ^ 192 := one_mul _
  rw [← Nat.cast_le (α := ℝ), Nat.cast_mul, Nat.cast_sub h, Nat.cast_pow, Nat.cast_pow]
  exact scaled

theorem Gain.release_eq (g : Gain) {e : Entry} {T : Nat} (h : e.active.release = (T : Int)) :
    g.release e = g.reduction * 2 ^ 96 / expFixed (2 ^ 96 / (48 * T)) := by
  rw [Gain.release, decayed, h, Int.toNat_natCast]
  rfl

/-! ### Attack -/

/-- R128: the attack is the greatest share of the 71 positions behind in the window, or 0. -/
theorem Gain.attack_law (g : Gain) (e : Entry) (w : GainApplied) (rest : List GainApplied) :
    let scaled := gainAppliedValues e.width
    let seq := scaled g.passed[1]? :: scaled g.passed[0]? :: scaled (some w) :: rest.map fun q => scaled (some q)
    let share := attackShare (g.governing e.active.ceiling) 1 seq
    (∀ k, k < rest.length → 1 + k < 72 → share k ≤ g.attack e w rest)
      ∧ (g.attack e w rest = 0 ∨ ∃ k, k < rest.length ∧ 1 + k < 72 ∧ g.attack e w rest = share k) := by
  have law := attackFrom_law (g.governing e.active.ceiling) (rest.map fun q => gainAppliedValues e.width (some q)) 1
    (gainAppliedValues e.width (some w)) (gainAppliedValues e.width g.passed[0]?) (gainAppliedValues e.width g.passed[1]?)
  rw [List.length_map] at law
  exact law

/-- Settles O23: `Gain.chooseReduction_facts` and `Gain.chooseReduction_greater` are the choice, `Gain.attack_law` the attack,
`foreseenNeed_law` the need. -/
theorem limiterReduction : Obligations.LimiterReduction := by
  refine ⟨?_, ?_, ?_, foreseenNeed_law⟩
  · intro e g w rest s3 s2 s1 n h3 h2 h1 meets least chosen
    refine ⟨Gain.chooseReduction_met, fun r fails meeting => ?_, fun s4 _ before fails => ?_, Gain.chooseReduction_mute rest⟩
    · obtain ⟨met, _, lowest⟩ := g.chooseReduction_facts e w rest s3 s2 s1 ⟨h3, h2, h1⟩ r meeting
      exact ⟨met, lowest (Bool.eq_false_iff.mpr fails)⟩
    · exact g.chooseReduction_greater e w rest s4 s3 s2 s1 ⟨h3, h2, h1⟩ before (Bool.eq_false_iff.mpr fails)
  · intro e g T release long x
    exact ⟨g.release_eq release, expFixed_ge x, expFixed_mul_le (Nat.div_le_self _ _)⟩
  · intro e g w rest scaled seq share
    obtain ⟨greatest, reached⟩ := g.attack_law e w rest
    have shared : ∀ k, share (k + 1) = attackShare (g.governing e.active.ceiling) 1 seq k := fun k => by
      rw [attackShare, Nat.add_comm 1 k]
      rfl
    refine ⟨fun j first near behind => ?_, reached.imp id ?_⟩
    · obtain ⟨k, rfl⟩ := Nat.exists_eq_add_of_le' first
      exact shared k ▸ greatest k (by omega) (by omega)
    · rintro ⟨k, behind, near, e⟩
      exact ⟨k + 1, by omega, by omega, by omega, e.trans (shared k).symm⟩

end Sys2Proof.Machine
end

section
/-! The fixing of a position by the limiter (R125 to R127): its corrected samples, the ceiling that governs it, and its estimate in
tenths of a dBTP. -/

namespace Sys2Proof.Machine

/-! ### The oldest position of the window -/

/-- R13, R125: a programme's channels go into its slots, and the others stay. -/
theorem writeChannels_get (e : Entry) (slots chans : List Sample) {j : Nat} (h : j < 16) : (writeChannels e slots chans)[j]?
    = some (if e.base ≤ j ∧ j < e.base + e.width then chans.getD (j - e.base) 0 else slots.getD j 0) := by
  rw [writeChannels, List.getElem?_map, List.getElem?_range h]
  simp only [Option.map_some, Entry.covers_iff]

section

variable {g : Gain} {w : GainApplied} {rest : List GainApplied} (e : Entry) (line : List Stage)

/-- The reduction that the oldest position of the window is given (R128). -/
def Gain.fixedReduction (g : Gain) (e : Entry) (line : List Stage) (w : GainApplied) (rest : List GainApplied) : Nat :=
  let place := line.length - g.window.length
  g.chooseReduction e w rest (correctedAt e line place 3) (correctedAt e line place 2) (correctedAt e line place 1)

/-- R125: the oldest position leaves the window, with its corrected samples beside its raw ones. -/
theorem fixOldest_cons (h : g.window = w :: rest) : fixOldest e line g =
    let place := line.length - g.window.length
    let reduction := g.fixedReduction e line w rest
    let stage := line.getD place Stage.zero
    (line.set place { stage with cor := writeChannels e stage.cor (w.corrected reduction) },
      { g with
        window := rest
        reduction := reduction
        passed := (w :: g.passed).take 3
        oldCeiling := OldCeiling.next g.oldCeiling }) := by
  unfold fixOldest Gain.fixedReduction
  rw [h]

theorem fixOldest_stage (h : g.window = w :: rest) (within : line.length - g.window.length < line.length) :
    ((fixOldest e line g).1.getD (line.length - g.window.length) Stage.zero).cor
      = writeChannels e (line.getD (line.length - g.window.length) Stage.zero).cor
        (w.corrected (g.fixedReduction e line w rest)) := by
  rw [fixOldest_cons e line h, List.getD_eq_getElem?_getD, List.getElem?_set_self within]
  rfl

theorem fixOldest_apart (h : g.window = w :: rest) {i : Nat} (other : i ≠ line.length - g.window.length) :
    (fixOldest e line g).1[i]? = (line)[i]? := by
  rw [fixOldest_cons e line h]
  exact List.getElem?_set_ne other.symm

end

/-! ### Corrected samples -/

theorem correctedValue_muted (gain : Rat) {r : Nat} (h : 16000 * 2 ^ 32 ≤ r) (v : Sample) : correctedValue gain r v = 0 := if_pos h

/-- R125: the sample times the gain less the reduction, rounded and held in range. -/
theorem correctedValue_toInt (gain : Rat) {r : Nat} (h : r < 16000 * 2 ^ 32) (v : Sample) : (correctedValue gain r v).toInt
    = max (-8388608) (min 8388607 (roundAway ((v.toInt : Rat) * gainFactor (gain - (r : Rat) / 2 ^ 32)))) := by
  have sounds : ¬Config.muteReduction ≤ r := Nat.not_le.mpr h
  have steps : mkRat (r : Int) Config.reductionSteps = (r : Rat) / 2 ^ 32 := by
    rw [Rat.mkRat_eq_div, Config.reductionSteps]
    push_cast
    rfl
  rw [correctedValue, if_neg sounds]
  dsimp only
  rw [clamp_sample, clampInt_eq (by decide), steps]

/-- R125: the corrected samples of a position, one a channel. -/
theorem corrected_get {w : GainApplied} {c : Nat} {v : Sample} (r : Nat) (h : w.input[c]? = some v) :
    (w.corrected r)[c]? = some (correctedValue w.gain r v) := by
  rw [GainApplied.corrected, List.getElem?_map, h]
  rfl

/-! ### The ceiling -/

theorem Gain.governing_none {g : Gain} (ceiling : Int) (h : g.oldCeiling = none) : g.governing ceiling = ceiling := by
  simp only [Gain.governing, h]

theorem Gain.governing_some {g : Gain} (ceiling : Int) {old : OldCeiling} (h : g.oldCeiling = some old) :
    g.governing ceiling = if 0 < old.left then old.ceiling else ceiling := by
  simp only [Gain.governing, h]

section

variable {before after : Int} (old : Option OldCeiling)

theorem ceilingChange_lowered (h : after < before) : ceilingChange before after old = some ⟨before, 3⟩ := if_pos h

theorem ceilingChange_raised (h : before < after) : ceilingChange before after old = none := by
  rw [ceilingChange, if_neg h.asymm, if_pos h]

theorem ceilingChange_same (h : before = after) : ceilingChange before after old = old := by
  rw [ceilingChange, if_neg h.not_gt, if_neg h.not_lt]

end

/-! ### The estimate -/

theorem peakPoints_int (a b c d : Int) : peakPoints a b c d
    = [256 * d, 10 * a - 54 * b + 270 * c + 30 * d, 16 * a - 80 * b + 240 * c + 80 * d, 14 * a - 66 * b + 154 * c + 154 * d] := by
  simp only [peakPoints, Int.cast_id, List.cons.injEq, and_true, true_and]
  omega

theorem peakPoints_rat (a b c d : Rat) : peakPoints a b c d
    = [256 * d, 10 * a - 54 * b + 270 * c + 30 * d, 16 * a - 80 * b + 240 * c + 80 * d, 14 * a - 66 * b + 154 * c + 154 * d] := by
  simp only [peakPoints, List.cons.injEq, and_true]
  push_cast
  refine ⟨rfl, ?_, ?_, ?_⟩ <;> ring

/-- The estimate of magnitude `m` is below the lower edge of `t` tenths of a dBTP. -/
theorem belowTenth_iff (m : Nat) (t : Int) : belowTenth m t = true ↔ ((m : Rat) / 2 ^ 31) ^ 400 < (10 : Rat) ^ (2 * t - 1) := by
  rw [div_pow, ← pow_mul, div_lt_iff₀ (by positivity)]
  unfold belowTenth
  dsimp only
  generalize 2 * t - 1 = edge
  split
  · rename_i low
    obtain ⟨n, rfl⟩ : ∃ n : Nat, edge = -(n : Int) := ⟨(-edge).toNat, by omega⟩
    rw [neg_neg, Int.toNat_natCast, decide_eq_true_iff, zpow_neg, zpow_natCast, inv_mul_eq_div, lt_div_iff₀ (by positivity)]
    exact_mod_cast Iff.rfl
  · rename_i high
    obtain ⟨n, rfl⟩ : ∃ n : Nat, edge = (n : Int) := ⟨edge.toNat, by omega⟩
    rw [Int.toNat_natCast, decide_eq_true_iff, zpow_natCast, mul_comm]
    exact_mod_cast Iff.rfl

theorem belowTenth_false_iff (m : Nat) (t : Int) :
    belowTenth m t = false ↔ (10 : Rat) ^ (2 * t - 1) ≤ ((m : Rat) / 2 ^ 31) ^ 400 := by
  rw [← Bool.not_eq_true, belowTenth_iff, not_lt]

theorem belowTenth_mono (m : Nat) {t t' : Int} (h : t ≤ t') (below : belowTenth m t = true) : belowTenth m t' = true := by
  rw [belowTenth_iff] at below ⊢
  exact below.trans_le (zpow_le_zpow_right₀ (by norm_num) (by omega))

/-- An estimate of up to twice full scale is below 20.05 dBTP. -/
theorem belowTenth_top {m : Nat} (h : m ≤ 2 ^ 32) : belowTenth m 201 = true := by
  rw [belowTenth_iff]
  have ratio : (m : Rat) / 2 ^ 31 ≤ 2 := by
    rw [div_le_iff₀ (by positivity)]
    exact_mod_cast h
  calc ((m : Rat) / 2 ^ 31) ^ 400 ≤ 2 ^ 400 := pow_le_pow_left₀ (by positivity) ratio 400
    _ ≤ 10 ^ 400 := pow_le_pow_left₀ (by norm_num) (by norm_num) 400
    _ < 10 ^ 401 := pow_lt_pow_right₀ (by norm_num) (by norm_num)
    _ = (10 : Rat) ^ (2 * 201 - 1 : Int) := (zpow_natCast 10 401).symm

/-- R61, R126: the estimate reported lies within half a tenth of a dB, but for the floor of -99.9 dBTP. -/
theorem truePeakTenths_law {m : Nat} (h : m ≤ 2 ^ 32) : -999 ≤ truePeakTenths m ∧ belowTenth m (truePeakTenths m + 1) = true
    ∧ (-999 < truePeakTenths m → belowTenth m (truePeakTenths m) = false) := by
  unfold truePeakTenths
  generalize search : (fun n : Nat => belowTenth m ((n : Int) - 998)) = ok
  have okay : ∀ n : Nat, ok n = belowTenth m ((n : Int) - 998) := fun n => by rw [← search]
  have up : ∀ a b, a ≤ b → ok a = true → ok b = true := fun a b hab ha => by
    rw [okay] at ha ⊢
    exact belowTenth_mono m (by omega) ha
  have top : ok 1199 = true := (okay 1199).trans (belowTenth_top h)
  have found := leastBetween_ok ok 12 0 1199 top
  have least := leastBetween_le ok up 12 0 1199
  generalize leastBetween ok 12 0 1199 = n at found least
  refine ⟨by omega, ?_, fun positive => ?_⟩
  · rw [okay] at found
    rwa [show (n : Int) - 999 + 1 = (n : Int) - 998 by omega]
  · by_contra below
    have bound := least 1199 (by omega) top (by omega) le_rfl
    have earlier := least (n - 1) (by omega)
      ((okay _).trans (by rw [show ((n - 1 : Nat) : Int) - 998 = (n : Int) - 999 by omega]; exact Bool.eq_true_of_not_eq_false below))
      (by omega) (by omega)
    omega

/-- Settles O22: `fixOldest_cons` is the fixing, `correctedValue_toInt` a corrected sample, `peakMagnitude_greatest` the estimate
and `truePeakTenths_law` what is reported of it. -/
theorem limiterFixing : Obligations.LimiterFixing := by
  refine ⟨?_, fun w r c => ⟨List.length_map _, fun v h => ⟨_, corrected_get r h, fun muted => correctedValue_muted _ muted v,
      fun sounds => correctedValue_toInt _ sounds v⟩⟩, fun g ceiling => ⟨Gain.governing_none ceiling, fun old => Gain.governing_some ceiling⟩,
    fun before after old => ⟨ceilingChange_lowered old, ceilingChange_raised old, ceilingChange_same old⟩, peakPoints_int,
    peakPoints_rat, peakMagnitude_greatest, foreseenMagnitude_greatest, fun _ _ => rfl, fun _ => rfl, fun _ _ _ => rfl,
    fun _ => rfl, fun _ _ => rfl, fun _ => rfl, withinCeiling_iff, continuation_estimates, ?_⟩
  · intro e line g w rest window place before reduction r
    refine ⟨?_, fixOldest_length e line g, fixOldest_raw e line g, fun i => fixOldest_apart e line window, fun within j slot => ?_⟩
    · refine (congrArg Prod.snd (fixOldest_cons e line window)).trans ?_
      cases g.oldCeiling <;> rfl
    · rw [fixOldest_stage e line window within]
      exact writeChannels_get e _ _ slot
  · intro m t bound reported
    obtain ⟨floor, below, above⟩ := truePeakTenths_law bound
    rw [← reported] at floor below above
    refine ⟨floor, ?_, fun positive => ?_⟩
    · rw [belowTenth_iff] at below
      rwa [show 2 * t + 1 = 2 * (t + 1) - 1 by ring]
    · exact (belowTenth_false_iff m _).mp (above positive)

end Sys2Proof.Machine
end

section
/-! The bytes of the replies that carry a block (R195 to R199): numbers and codes, fields that take no bytes where they are absent,
and each block as the row of its fields. -/

namespace Sys2Proof.Machine

/-! ### Numbers -/

theorem bytesOfNat_length (n v : Nat) : (bytesOfNat n v).length = n := by
  induction n with
  | zero => rfl
  | succ n ih => exact congrArg Nat.succ ih

/-- R195: the high byte comes first. -/
theorem bytesOfNat_get {n i : Nat} (v : Nat) (h : i < n) : (bytesOfNat n v)[i]? = some (BitVec.ofNat 8 (v / 256 ^ (n - 1 - i))) := by
  induction n generalizing i with
  | zero => exact absurd h (Nat.not_lt_zero i)
  | succ n ih =>
    cases i with
    | zero => rfl
    | succ i =>
      rw [bytesOfNat, List.getElem?_cons_succ, ih (Nat.lt_of_succ_lt_succ h), show n + 1 - 1 - (i + 1) = n - 1 - i by omega]

/-- R195: a signed field is two's complement. -/
theorem wordOfInt_eq (v : Int) : wordOfInt v = [(BitVec.ofInt 16 v).extractLsb' 8 8, (BitVec.ofInt 16 v).extractLsb' 0 8] := by
  have byte : ∀ k : Nat, byteOfNat ((BitVec.ofInt 16 v).toNat / 2 ^ k) = (BitVec.ofInt 16 v).extractLsb' k 8 := fun k => by
    rw [byteOfNat, ← Nat.shiftRight_eq_div_pow]
    rfl
  exact congrArg₂ (fun a b => [a, b]) (byte 8) (byte 0)

theorem wordOfInt_length (v : Int) : (wordOfInt v).length = 2 := bytesOfNat_length 2 _

/-- R111: a gain is reported to the nearest 0.01 dB, and a tie goes away from zero. -/
theorem roundAway_nonneg {q : Rat} (h : 0 ≤ q) : (roundAway q : Rat) - 1 / 2 ≤ q ∧ q < roundAway q + 1 / 2 := by
  rw [roundAway, if_pos h]
  have low : ((q + 1 / 2).floor : Rat) ≤ q + 1 / 2 := Int.floor_le _
  have high : q + 1 / 2 < ((q + 1 / 2).floor : Rat) + 1 := Int.lt_floor_add_one _
  constructor <;> linarith

theorem roundAway_neg {q : Rat} (h : q < 0) : (roundAway q : Rat) - 1 / 2 < q ∧ q ≤ roundAway q + 1 / 2 := by
  rw [roundAway, if_neg (not_le.mpr h), Int.cast_neg]
  have low : ((-q + 1 / 2).floor : Rat) ≤ -q + 1 / 2 := Int.floor_le _
  have high : -q + 1 / 2 < ((-q + 1 / 2).floor : Rat) + 1 := Int.lt_floor_add_one _
  constructor <;> linarith

/-- The nearest whole number to a fraction, a tie going up. -/
theorem roundAway_div (n : Nat) {d : Nat} (h : 0 < d) : roundAway ((n : Rat) / d) = ((2 * n + d) / (2 * d) : Nat) := by
  have positive : (0 : Rat) < d := by exact_mod_cast h
  have half : (n : Rat) / d + 1 / 2 = ((2 * n + d : Nat) : Rat) / ((2 * d : Nat) : Rat) := by
    push_cast
    field_simp
  rw [roundAway, if_pos (by positivity), half]
  exact Rat.floor_natCast_div_natCast _ _

/-- R132: the nearest 0.01 dB, up to 99.99 dB. -/
theorem reportedReduction_eq (steps : Nat) : (reportedReduction steps : Int) = min 9999 (roundAway ((steps : Rat) / 2 ^ 32)) := by
  have rounded := roundAway_div steps (d := Config.reductionSteps) (by decide)
  rw [show ((Config.reductionSteps : Nat) : Rat) = 2 ^ 32 by rw [Config.reductionSteps]; norm_num] at rounded
  rw [rounded, reportedReduction, Nat.cast_min, Nat.cast_ofNat]

/-- R162: the time left in whole seconds, rounded up. -/
theorem secondsLeft_eq (left : Nat) :
    (left + Config.ticksPerSecond - 1) / Config.ticksPerSecond = left / 3000000 + if left % 3000000 = 0 then 0 else 1 := by
  rw [show Config.ticksPerSecond = 3000000 from rfl]
  split <;> omega

/-! ### Fields that may be absent -/

/-- The bytes of a two-byte field that may be absent (R196). -/
def optWord : Option Int → List Byte
  | some n => wordOfInt n
  | none => []

/-- The bytes of a one-byte field that may be absent (R196). -/
def optByte : Option Int → List Byte
  | some n => [BitVec.ofInt 8 n]
  | none => []

/-- What a presence bit adds to its byte. -/
def bitWeight (b : Bool) (k : Nat) : Nat := if b then k else 0

/-- R196: a field that is absent takes no bytes. -/
theorem presentWords_cons (f : Option Int) (fs : List (Option Int)) : presentWords (f :: fs) = optWord f ++ presentWords fs := by
  cases f <;> rfl

theorem optByte_eq (v : Option Int) : (v.map byteOfInt).toList = optByte v := by
  cases v <;> rfl

theorem optWord_length_le (v : Option Int) : (optWord v).length ≤ 2 := by
  cases v with
  | none => exact Nat.zero_le 2
  | some n => exact (wordOfInt_length n).le

theorem optByte_length_le (v : Option Int) : (optByte v).length ≤ 1 := by
  cases v with
  | none => exact Nat.zero_le 1
  | some n => exact le_rfl

/-- The sum of the weights of presence bits, from the weight `w` on, beside what is there. -/
def presenceSum : (sum w : Nat) → List Bool → Nat
  | sum, _, [] => sum
  | sum, w, b :: bs => presenceSum (sum + bitWeight b w) (2 * w) bs

/-- R196: bit k of a presence byte belongs to the field k of the group. -/
theorem presenceOf_cons (b : Bool) (bs : List Bool) : presenceOf (b :: bs) = presenceSum (bitWeight b 1) 2 bs := by
  have sum_from : ∀ (bs : List Bool) (sum k : Nat),
      ((bs.zipIdx k).map fun f => if f.1 then 2 ^ f.2 else 0).foldl (· + ·) sum = presenceSum sum (2 ^ k) bs := by
    intro bs
    induction bs with
    | nil => exact fun _ _ => rfl
    | cons b bs ih =>
      intro sum k
      rw [presenceSum, ← Nat.pow_succ']
      exact ih _ (k + 1)
  rw [presenceOf, sum_from, presenceSum, Nat.zero_add]
  rfl

/-! ### Ports and lines -/

theorem presenceSum_lt (bs : List Bool) : ∀ sum w : Nat, sum < w → presenceSum sum w bs < 2 ^ bs.length * w := by
  induction bs with
  | nil => exact fun sum w h => by rwa [presenceSum, List.length_nil, pow_zero, one_mul]
  | cons b bs ih =>
    intro sum w h
    have added : sum + bitWeight b w < 2 * w := by
      unfold bitWeight
      split <;> omega
    rw [presenceSum, List.length_cons, pow_succ, mul_assoc]
    exact ih _ _ added

/-- R188, R195: the pending kinds, each with the bit of its place in the order of the kinds. -/
theorem NoticeSet.pendingKinds_toNat (n : NoticeSet) :
    n.pendingKinds.toNat = presenceSum 0 1 (allKinds.map fun k => (n.get k).pending) := by
  have bound := presenceSum_lt (allKinds.map fun k => (n.get k).pending) 0 1 Nat.zero_lt_one
  rw [List.length_map, mul_one, show allKinds.length = 12 from rfl] at bound
  have sum : (allKinds.map fun k => if (n.get k).pending then 2 ^ k.index else 0).foldl (· + ·) 0
      = presenceSum 0 1 (allKinds.map fun k => (n.get k).pending) := by
    simp only [allKinds, List.map_cons, List.map_nil, List.foldl_cons, List.foldl_nil, presenceSum, bitWeight, Kind.index,
      Nat.reducePow, Nat.reduceMul]
  rw [NoticeSet.pendingKinds, BitVec.toNat_ofNat, sum, Nat.mod_eq_of_lt bound]

/-- R162: the byte of the time left. -/
def timeLeft : Option Nat → Byte
  | some left => BitVec.ofNat 8 (left / 3000000 + if left % 3000000 = 0 then 0 else 1)
  | none => 0

theorem timeLeft_eq (count : Option Nat) :
    byteOfNat ((count.getD 0 + Config.ticksPerSecond - 1) / Config.ticksPerSecond) = timeLeft count := by
  cases count with
  | none => decide
  | some left => exact congrArg byteOfNat (secondsLeft_eq left)

/-- R188, R197: the status block. -/
theorem statusBlock_eq (P : Port) (a : AudioPort) (presence : Byte) : let n := P.notices
    statusBlock P a presence = bytesOfNat 2 (presenceSum (bitWeight n.segStarted.pending 1) 2 (allKinds.tail.map fun k => (n.get k).pending))
      ++ [n.segStarted.bitmap, n.segClosed.bitmap, n.takeMissed.bitmap, n.overrun.bitmap, n.escalated.bitmap,
        n.custody.bitmap, n.state.bitmap, n.withdrawn.bitmap, n.cueEdge.bitmap]
      ++ bytesOfNat 2 P.mask.toNat ++ [detectorCode a.detector] ++ bytesOfNat 6 a.airClock.toNat
      ++ [presence, byteOfNat P.timerSetting, timeLeft P.timerCount] := by
  intro n
  have kinds : n.pendingKinds.toNat
      = presenceSum (bitWeight n.segStarted.pending 1) 2 (allKinds.tail.map fun k => (n.get k).pending) := by
    rw [n.pendingKinds_toNat, allKinds, List.map_cons, presenceSum, Nat.zero_add]
    rfl
  rw [statusBlock, timeLeft_eq, kinds, List.append_assoc _ [presence]]
  rfl

theorem State.presenceByte_eq (s : State) : s.presenceByte
    = byteOfNat (bitWeight (s.port .a).present 1 + bitWeight (s.port .b).present 2 + bitWeight (s.port .c).present 4) := by
  rw [State.presenceByte, presenceOf_cons]
  rfl

/-! ### Programmes and records -/

theorem append_presentWords_nil (l : List Byte) : l ++ presentWords [] = l := List.append_nil l

theorem append_presentWords_cons (l : List Byte) (f : Option Int) (fs : List (Option Int)) :
    l ++ presentWords (f :: fs) = l ++ optWord f ++ presentWords fs := by
  rw [presentWords_cons, List.append_assoc]

/-- R24, R197: the pending tunable set. -/
theorem pendingBytes_eq (q : TunableSet) : pendingBytes q
    = bytesOfNat 2 (presenceSum (bitWeight q.target.isSome 1) 2 [q.tolerance.isSome, q.maxBoost.isSome, q.maxCut.isSome,
        q.riseRate.isSome, q.fallRate.isSome, q.holdThreshold.isSome, q.defaultRamp.isSome, q.ceiling.isSome, q.release.isSome])
      ++ optWord q.target ++ optWord q.tolerance ++ optWord q.maxBoost ++ optWord q.maxCut ++ optByte q.riseRate
      ++ optByte q.fallRate ++ optWord q.holdThreshold ++ optWord q.defaultRamp ++ optByte q.ceiling ++ optWord q.release := by
  simp only [pendingBytes, presenceOf_cons, append_presentWords_cons, append_presentWords_nil, optByte_eq]

/-- R197: the active set takes 17 bytes, the pending set 2 to 19. -/
theorem activeBytes_length (t : Tunables) : (activeBytes t).length = 17 := rfl

theorem pendingBytes_length (q : TunableSet) : 2 ≤ (pendingBytes q).length ∧ (pendingBytes q).length ≤ 19 := by
  have w1 := optWord_length_le q.target
  have w2 := optWord_length_le q.tolerance
  have w3 := optWord_length_le q.maxBoost
  have w4 := optWord_length_le q.maxCut
  have b1 := optByte_length_le q.riseRate
  have b2 := optByte_length_le q.fallRate
  have w5 := optWord_length_le q.holdThreshold
  have w6 := optWord_length_le q.defaultRamp
  have b3 := optByte_length_le q.ceiling
  have w7 := optWord_length_le q.release
  simp only [pendingBytes_eq, List.length_append, bytesOfNat_length]
  omega

theorem entryBlock_length (P : Prog) : 29 ≤ (entryBlock P).length ∧ (entryBlock P).length ≤ 48 := by
  have pending := pendingBytes_length P.entry.pending
  have active := activeBytes_length P.entry.active
  unfold entryBlock
  simp only [List.length_append]
  split <;> simp only [List.length_cons, List.length_nil, bytesOfNat_length] <;> omega

/-- R198: the tail of a record. -/
theorem recordTail_eq (r : SegRecord) : recordTail r = [classCode r.cls, policyCode r.policy, if r.autoAdvance then 1 else 0,
      BitVec.ofNat 8 (bitWeight r.declared.isSome 1 + bitWeight r.entryGain.isSome 2 + bitWeight r.rampLength.isSome 4
        + bitWeight r.duration.isSome 8 + bitWeight r.targetOverride.isSome 16 + bitWeight r.toleranceOverride.isSome 32)]
    ++ optWord r.declared ++ optWord r.entryGain ++ optWord r.rampLength ++ optWord (r.duration.map fun d => (d : Int))
    ++ optWord r.targetOverride ++ optWord r.toleranceOverride ++ [BitVec.ofNat 8 r.label.length] ++ r.label := by
  rw [recordTail, List.append_cons]
  simp only [presenceOf_cons, append_presentWords_cons, append_presentWords_nil]
  rfl

/-! ### Snapshots -/

/-- The `b`-th of pieces of `k` bytes each that follow one another. -/
theorem take_drop_flatten {k : Nat} (l : List (List Byte)) (same : ∀ x ∈ l, x.length = k) (b : Nat) :
    (l.flatten.drop (k * b)).take k = l.getD b [] := by
  induction l generalizing b with
  | nil => simp
  | cons x l ih =>
    have len := same x List.mem_cons_self
    cases b with
    | zero => exact List.take_left' len
    | succ b =>
      rw [List.flatten_cons, Nat.mul_succ, Nat.add_comm, ← List.drop_drop, List.drop_left' len, ih (fun y hy => same y (.tail _ hy))]
      rfl

/-- The integrated loudness of a snapshot, with its presence byte (R199). -/
def integratedField : Option Int → List Byte
  | some l => 1 :: wordOfInt l
  | none => [0, 0, 0]

theorem integratedField_eq (v : Option Int) : [byteOfBool v.isSome] ++ wordOfInt (v.getD 0) = integratedField v := by
  cases v with
  | none => decide
  | some l => rfl

theorem integratedField_length (v : Option Int) : (integratedField v).length = 3 := by
  cases v <;> rfl

/-- R199: the five parts of a snapshot. -/
theorem snapshotContent_eq (p : Index) (segment : Bool) (stamp : Position) (a : Account) : snapshotContent p segment stamp a
    = [byteOfNat p.val, byteOfBool segment] ++ (bytesOfNat 6 stamp.toNat ++ (integratedField a.integrated
      ++ ((bytesOfNat 4 (a.bins.map (·.count)).sum ++ [byteOfBool a.saturated])
      ++ (a.bins.map fun b => bytesOfNat 3 b.count).flatten))) := by
  rw [← integratedField_eq, List.sum_eq_foldl, snapshotContent, Account.windowCount]
  simp only [List.append_assoc]

theorem binBytes_length (bins : List Bin) : ∀ x ∈ bins.map (fun b => bytesOfNat 3 b.count), x.length = 3 := by
  intro x hx
  obtain ⟨b, _, rfl⟩ := List.mem_map.mp hx
  exact bytesOfNat_length 3 _

section

variable (p : Index) (segment : Bool) (stamp : Position) (a : Account)

theorem snapshotContent_length (bins : a.bins.length = 140) : (snapshotContent p segment stamp a).length = 436 := by
  have flat : (a.bins.map fun b => bytesOfNat 3 b.count).flatten.length = 420 := by
    simp only [List.length_flatten, List.map_map, Function.comp_def, bytesOfNat_length, List.map_const', bins,
      List.sum_replicate, smul_eq_mul]
  rw [snapshotContent_eq]
  simp only [List.length_append, bytesOfNat_length, integratedField_length, flat, List.length_cons, List.length_nil]

theorem snapshotContent_drop_two : (snapshotContent p segment stamp a).drop 2 = bytesOfNat 6 stamp.toNat
    ++ (integratedField a.integrated ++ ((bytesOfNat 4 (a.bins.map (·.count)).sum ++ [byteOfBool a.saturated])
      ++ (a.bins.map fun b => bytesOfNat 3 b.count).flatten)) := by
  rw [snapshotContent_eq]
  rfl

theorem snapshotContent_drop_eight : (snapshotContent p segment stamp a).drop 8 = integratedField a.integrated
    ++ ((bytesOfNat 4 (a.bins.map (·.count)).sum ++ [byteOfBool a.saturated])
      ++ (a.bins.map fun b => bytesOfNat 3 b.count).flatten) := by
  rw [← List.drop_drop (i := 6) (j := 2), snapshotContent_drop_two, List.drop_left' (bytesOfNat_length 6 _)]

theorem snapshotContent_drop_eleven : (snapshotContent p segment stamp a).drop 11
    = (bytesOfNat 4 (a.bins.map (·.count)).sum ++ [byteOfBool a.saturated])
      ++ (a.bins.map fun b => bytesOfNat 3 b.count).flatten := by
  rw [← List.drop_drop (i := 3) (j := 8), snapshotContent_drop_eight, List.drop_left' (integratedField_length _)]

theorem snapshotContent_drop_bin (b : Nat) :
    ((snapshotContent p segment stamp a).drop (16 + 3 * b)).take 3 = (a.bins.map fun b => bytesOfNat 3 b.count).getD b [] := by
  have start : (snapshotContent p segment stamp a).drop 16 = (a.bins.map fun b => bytesOfNat 3 b.count).flatten := by
    rw [← List.drop_drop (i := 5) (j := 11), snapshotContent_drop_eleven]
    exact List.drop_left' (by rw [List.length_append, bytesOfNat_length]; rfl)
  rw [← List.drop_drop, start, take_drop_flatten _ (binBytes_length a.bins)]

end

/-- Settles O33: each block is the row of its fields, by `presenceOf_cons` for the presence bytes and `append_presentWords_cons` for
the fields that may be absent. -/
theorem replyLayouts : Obligations.ReplyLayouts := by
  unfold Obligations.ReplyLayouts
  intro word opt optByte bit
  refine ⟨wordOfInt_eq, fun n v i => ⟨bytesOfNat_length n v, bytesOfNat_get v⟩, fun _ => rfl,
    fun q => ⟨roundAway_nonneg, roundAway_neg⟩, reportedReduction_eq, ?_, statusBlock_eq, State.presenceByte_eq, ?_, ?_, ?_, ?_, ?_, ?_⟩
  · exact ⟨rfl, rfl, rfl, rfl, rfl, rfl, rfl, rfl, rfl, rfl, by decide, fun _ => ⟨rfl, rfl, rfl, rfl, rfl⟩, rfl, rfl, rfl, rfl⟩
  · intro P k l
    cases l with | mk inverted reject raw accepted change => cases reject <;> rfl
  · intro P e a q
    refine ⟨?_, entryBlock_length P⟩
    rw [entryBlock, pendingBytes_eq]
    rfl
  · intro P i1 o1 i2 o2 pr sg
    simp only [meterBlock, List.map_cons, List.map_nil, presenceOf_cons, append_presentWords_cons, append_presentWords_nil]
    rfl
  · intro q tail
    have same : recordTail = tail := funext recordTail_eq
    rw [listBytes, Queue.count, show cuedBytes = fun r => bytesOfNat 2 r.id ++ [portCode (some r.owner)] ++ tail r from
      funext fun r => by rw [cuedBytes, same]]
    cases q.onAir with
    | none => rfl
    | some o =>
      rw [Option.map_some, onAirBytes, same, presenceOf_cons]
      rfl
  · intro r
    simp only [resultBytes, presenceOf_cons, append_presentWords_cons, append_presentWords_nil]
    rfl
  · intro p segment stamp a bins c
    refine ⟨snapshotContent_length p segment stamp a bins, ?_, ?_, ?_, ?_, fun b hb => ?_⟩
    · rw [show c = _ from snapshotContent_eq p segment stamp a]
      rfl
    · rw [show c.drop 2 = _ from snapshotContent_drop_two p segment stamp a]
      exact List.take_left' (bytesOfNat_length 6 _)
    · rw [show c.drop 8 = _ from snapshotContent_drop_eight p segment stamp a]
      exact List.take_left' (integratedField_length _)
    · rw [show c.drop 11 = _ from snapshotContent_drop_eleven p segment stamp a]
      exact List.take_left' (by rw [List.length_append, bytesOfNat_length]; rfl)
    · rw [show (c.drop (16 + 3 * b)).take 3 = _ from snapshotContent_drop_bin p segment stamp a b]
      have within : b < a.bins.length := bins ▸ hb
      simp only [List.getD_eq_getElem?_getD, List.getElem?_map, List.getElem?_eq_getElem within, Option.map_some, Option.getD_some]

end Sys2Proof.Machine
end

section
/-! Verdicts and postings (07_verdicts_and_the_result_log.md): the verdict of a record (R134, R135), and what its posting leaves of
the escalation counter, the log and the notices (R138 to R143). -/

namespace Sys2Proof.Machine

/-! ### The verdict -/

/-- The end causes whose verdict is judged by what was measured (R134). -/
def EndCause.judges (cause : EndCause) : Prop := cause = .takeNext ∨ cause = .finish ∨ cause = .durationEnd

theorem verdictOf_unmeasured {cause : EndCause} (judges : cause.judges) (target tolerance : Int) :
    verdictOf cause none target tolerance = .silent := by
  rcases judges with rfl | rfl | rfl <;> rfl

theorem verdictOf_measured {cause : EndCause} (judges : cause.judges) (l target tolerance : Int) :
    verdictOf cause (some l) target tolerance =
      if -tolerance ≤ l - target ∧ l - target ≤ tolerance then .pass else if tolerance < l - target then .high else .low := by
  rcases judges with rfl | rfl | rfl <;> rfl

/-- Settles O19: the causes that decide alone, and the two outcomes of the measurement under the others. -/
theorem verdictOfARecord : Obligations.VerdictOfARecord := by
  intro cause integrated target tolerance wide v
  refine ⟨?_, ?_, fun judges => ⟨?_, ?_⟩⟩
  · rintro (rfl | rfl) <;> rfl
  · rintro rfl
    rfl
  · rintro rfl
    exact verdictOf_unmeasured judges target tolerance
  · rintro l rfl
    have law : v = _ := verdictOf_measured judges l target tolerance
    refine ⟨fun within => ?_, fun above => ?_, fun below => ?_⟩
    · rw [law, if_pos (abs_le.mp within)]
    · rw [law, if_neg (by omega), if_pos (by omega)]
    · rw [law, if_neg (by omega), if_neg (by omega)]

/-! ### The escalation counter -/

/-- The classes whose verdicts the escalation counter counts (R138). -/
def SegClass.counts (cls : SegClass) : Prop := cls = .spot ∨ cls = .promo

theorem escalationAfter_missed {cls : SegClass} {verdict : Verdict} (counts : cls.counts)
    (missed : verdict = .high ∨ verdict = .low) (n : Nat) : escalationAfter cls verdict n = min 3 (n + 1) := by
  rcases counts with rfl | rfl <;> rcases missed with rfl | rfl <;> rfl

theorem escalationAfter_pass {cls : SegClass} (counts : cls.counts) (n : Nat) : escalationAfter cls .pass n = 0 := by
  rcases counts with rfl | rfl <;> rfl

theorem escalationAfter_undecided {cls : SegClass} {verdict : Verdict}
    (undecided : verdict = .silent ∨ verdict = .aborted ∨ verdict = .interrupted) (n : Nat) :
    escalationAfter cls verdict n = n := by
  rcases undecided with rfl | rfl | rfl <;> cases cls <;> rfl

theorem escalationAfter_uncounted {cls : SegClass} (uncounted : ¬cls.counts) (verdict : Verdict) (n : Nat) :
    escalationAfter cls verdict n = n := by
  cases cls with
  | programme => rfl
  | live => rfl
  | spot => exact absurd (.inl rfl) uncounted
  | promo => exact absurd (.inr rfl) uncounted

theorem State.post_counter (s : State) (r : ResultRecord) : ((s.post r).prog r.programme).entry.escalation
    = escalationAfter r.cls r.judged.verdict (s.prog r.programme).entry.escalation := by
  rw [State.post_prog_same s r _ rfl]

/-! ### The record a full log gives up -/

theorem isPass_iff (r : ResultRecord) : isPass r = true ↔ r.verdict = .pass := beq_iff_eq

/-- R141: the oldest PASS is given up. -/
theorem discardOne_pass {older newer : List ResultRecord} {r : ResultRecord} (pass : r.verdict = .pass)
    (oldest : ∀ q ∈ older, q.verdict ≠ .pass) : discardOne (older ++ r :: newer) = older ++ newer := by
  have isOne : isPass r = true := (isPass_iff r).mpr pass
  have holds : (older ++ r :: newer).any isPass = true := List.any_eq_true.mpr ⟨r, by simp, isOne⟩
  rw [discardOne, if_pos holds, List.eraseP_append_right _ fun q hq hp => oldest q hq ((isPass_iff q).mp hp),
    List.eraseP_cons_of_pos isOne]

/-- R141: with no PASS in the log the oldest record is given up. -/
theorem discardOne_oldest {log : List ResultRecord} (none : ∀ r ∈ log, r.verdict ≠ .pass) : discardOne log = log.tail := by
  have holds : ¬log.any isPass = true := fun h => by
    obtain ⟨r, hr, hp⟩ := List.any_eq_true.mp h
    exact none r hr ((isPass_iff r).mp hp)
  rw [discardOne, if_neg holds, List.drop_one]

theorem appendRecord_full {l : List ResultRecord × Nat} (full : 48 ≤ l.1.length) (r : ResultRecord) :
    appendRecord l r = (discardOne l.1 ++ [{ r with discardsBefore := 1 }], min 255 (l.2 + 1)) :=
  if_neg (Nat.not_lt.mpr full)

/-! ### Which notices have changed, and which have not -/

theorem Notice.eq_of {a b : Notice} (pending : a.pending = true ↔ b.pending = true) (bitmap : a.bitmap = b.bitmap) : a = b := by
  cases a
  cases b
  exact congr (congrArg Notice.mk (Bool.eq_iff_iff.mpr pending)) bitmap

section

variable {s t : State} {raised : Kind → Index → Prop} (h : s.raisedBy t raised)
include h

theorem State.raisedBy.noticed {q : Index} (hr : raised .escalated q) : t.noticed .escalated q := fun x => by
  obtain ⟨pending, bits⟩ := h x .escalated (by decide) (by decide) (by decide)
  exact ⟨pending.mpr (.inr ⟨q, hr⟩), (bits q).mpr (.inr hr)⟩

theorem State.raisedBy.unchanged (none : ∀ q, ¬raised .escalated q) (x : PortId) :
    (t.port x).notices.escalated = (s.port x).notices.escalated := by
  obtain ⟨pending, bits⟩ := h x .escalated (by decide) (by decide) (by decide)
  refine Notice.eq_of (pending.trans (or_iff_left fun ⟨q, hq⟩ => none q hq)) (BitVec.eq_of_getLsbD_eq fun i hi => ?_)
  exact Bool.eq_iff_iff.mpr ((bits ⟨i, hi⟩).trans (or_iff_left (none _)))

end

section

variable {s t : State} {n : Nat} (h : s.logNoticed t n)
include h

theorem State.logNoticed.half (reached : s.log.length < 24 ∧ 24 ≤ s.log.length + n) : t.noticedPlain .logHalf := fun x =>
  (h.2 x).1.mpr (.inr reached)

theorem State.logNoticed.half_same (unreached : ¬(s.log.length < 24 ∧ 24 ≤ s.log.length + n)) (x : PortId) :
    (t.port x).notices.logHalf = (s.port x).notices.logHalf := by
  obtain ⟨pending, _, bitmap, _⟩ := h.2 x
  exact Notice.eq_of (pending.trans (or_iff_left unreached)) bitmap

theorem State.logNoticed.discard (gave : 0 < n ∧ 48 < s.log.length + n) : t.noticedPlain .logDiscard := fun x =>
  (h.2 x).2.1.mpr (.inr gave)

theorem State.logNoticed.discard_same (kept : ¬(0 < n ∧ 48 < s.log.length + n)) (x : PortId) :
    (t.port x).notices.logDiscard = (s.port x).notices.logDiscard := by
  obtain ⟨_, pending, _, bitmap⟩ := h.2 x
  exact Notice.eq_of (pending.trans (or_iff_left kept)) bitmap

end

/-- R139: ESCALATED stays as it was unless the counter of the record's programme goes from 2 to 3. -/
theorem State.post_escalated_same {s : State} {r : ResultRecord} (unreached : ¬((s.prog r.programme).entry.escalation = 2
    ∧ ((s.post r).prog r.programme).entry.escalation = 3)) (x : PortId) :
    ((s.post r).port x).notices.escalated = (s.port x).notices.escalated := by
  refine (s.post_raisedBy r).unchanged (fun q ⟨_, two, three⟩ => ?_) x
  by_cases own : q = r.programme
  · subst own
    exact unreached ⟨two, three⟩
  · rw [State.post_prog_other s r q own] at three
    omega

/-- Settles O20: `State.post_counter` and `State.post_raisedBy` for the counter and ESCALATED, `State.post_log` and
`State.post_logNoticed` for the log, `discardOne` by whether the log holds a PASS. -/
theorem posting : Obligations.Posting := by
  refine ⟨fun s r => ?_, fun s r => ?_, fun log => ⟨?_, discardOne_oldest⟩⟩
  · intro t verdict counts before after
    have counter : after = escalationAfter r.cls verdict before := s.post_counter r
    obtain ⟨own, parts⟩ := s.post_frame r
    refine ⟨fun c missed => counter.trans (escalationAfter_missed c missed before), fun c pass => ?_,
      fun _ undecided => counter.trans (escalationAfter_undecided undecided before),
      fun uncounted => counter.trans (escalationAfter_uncounted uncounted verdict before),
      fun two three => (s.post_raisedBy r).noticed ⟨rfl, two, three⟩, State.post_escalated_same, own,
      fun q => s.post_prog_other r q, s.post_onlyNotices r, parts⟩
    rw [counter, pass, escalationAfter_pass c]
  · intro t judged
    have log : (t.log, t.discards) = appendRecord (s.log, s.discards) judged := s.post_log r
    have notices : s.logNoticed t 1 := s.post_logNoticed r
    refine ⟨fun room => ?_, fun full => ?_⟩
    · obtain ⟨records, tally⟩ := Prod.mk.inj (log.trans (appendRecord_room room judged))
      exact ⟨records, tally, notices.discard_same (by omega), fun h => notices.half (by omega),
        fun h => notices.half_same (by omega)⟩
    · obtain ⟨records, tally⟩ := Prod.mk.inj (log.trans (appendRecord_full full judged))
      exact ⟨records, tally, notices.discard (by omega), notices.half_same (by omega)⟩
  · rintro older r newer rfl pass oldest
    exact discardOne_pass pass oldest

end Sys2Proof.Machine
end

section
/-! LOG.COUNT, LOG.PEEK and LOG.FETCH (R145 to R147). -/

namespace Sys2Proof.Machine

theorem noParams_malformed {β : Type} {ps : List Byte} (carried : ps ≠ []) (f : Unit → Except (Result × List Byte) β) :
    (noParams ps >>= f) = .error (.malformed, []) := by
  rw [noParams, List.isEmpty_eq_false_iff.mpr carried, demand_false]

section

variable {v : State} {x : PortId} {ps : List Byte}

theorem logCountRequest_none : logCountRequest x [] v = .ok (v, [byteOfNat v.log.length, byteOfNat v.discards]) := rfl

theorem logCountRequest_malformed (carried : ps ≠ []) : logCountRequest x ps v = .error (.malformed, []) := noParams_malformed carried _

theorem logPeekRequest_one (place : Byte) : logPeekRequest x [place] v = (do
    let r ← need v.log[place.toNat]? .empty
    .ok (v, resultBytes r)) := rfl

theorem logPeekRequest_malformed (other : ps.length ≠ 1) : logPeekRequest x ps v = .error (.malformed, []) := by
  unfold logPeekRequest
  split
  · exact absurd rfl other
  · rfl

theorem logFetchRequest_oldest {r : ResultRecord} {rest : List ResultRecord} (holds : v.log = r :: rest) :
    logFetchRequest x [] v = .ok ({ v with log := rest }, resultBytes r) := by
  rw [logFetchRequest, noParams_none, holds, List.head?_cons, need_some, List.tail_cons]

theorem logFetchRequest_empty (empty : v.log = []) : logFetchRequest x [] v = .error (.empty, []) := by
  rw [logFetchRequest, noParams_none, empty, List.head?_nil, need_none]

theorem logFetchRequest_malformed (carried : ps ≠ []) : logFetchRequest x ps v = .error (.malformed, []) := noParams_malformed carried _

end

/-- Settles O32: the outcome of each request's checks, by what the log holds and by the length of the body. -/
theorem logRequests : Obligations.LogRequests := by
  refine ⟨fun s x tag ps hs => ?_, fun s x tag place hs => ?_, fun s x tag hs => ?_⟩
  · split
    · rename_i none
      subst none
      exact request_taken hs 0x30 logCountRequest tag [] logCountRequest_none
    · rename_i carried
      exact request_refused hs 0x30 logCountRequest tag ps (logCountRequest_malformed carried)
  · intro v
    refine ⟨fun r found => request_taken hs 0x31 logPeekRequest tag [place] ?_,
      fun beyond => request_refused hs 0x31 logPeekRequest tag [place] ?_,
      fun ps other => request_refused hs 0x31 logPeekRequest tag ps (logPeekRequest_malformed other)⟩
    · rw [logPeekRequest_one, found, need_some]
    · rw [logPeekRequest_one, List.getElem?_eq_none beyond, need_none]
  · intro v
    exact ⟨fun r rest holds => request_taken hs 0x32 logFetchRequest tag [] (logFetchRequest_oldest holds),
      fun empty => request_refused hs 0x32 logFetchRequest tag [] (logFetchRequest_empty empty),
      fun ps carried => request_refused hs 0x32 logFetchRequest tag ps (logFetchRequest_malformed carried)⟩

end Sys2Proof.Machine
end

section
/-! The Result Log through every step (R140, R142): but for POWER_ON_RESET and LOG.FETCH a step changes it by postings alone. -/

namespace Sys2Proof.Machine

/-! ### A posting keeps the bounds -/

/-- The bounds of the log and its discard tally. -/
def logSound (l : List ResultRecord × Nat) : Prop :=
  l.1.length ≤ 48 ∧ l.2 ≤ 255 ∧ ∀ r ∈ l.1, r.discardsBefore ≤ 1

theorem State.logBounded_iff (s : State) : s.logBounded ↔ logSound (s.log, s.discards) := Iff.rfl

theorem discardOne_sublist (l : List ResultRecord) : (discardOne l).Sublist l := by
  unfold discardOne
  split
  · exact List.eraseP_sublist
  · exact List.drop_sublist 1 l

/-- A full log gives up one record before it takes one. -/
theorem logSound_appendRecord {l : List ResultRecord × Nat} (h : logSound l) (r : ResultRecord) :
    logSound (appendRecord l r) := by
  obtain ⟨length, tally, before⟩ := h
  rcases Nat.lt_or_ge l.1.length 48 with room | full
  · rw [appendRecord_room room]
    refine ⟨by rw [List.length_append, List.length_singleton]; omega, tally, fun q hq => ?_⟩
    rcases List.mem_append.mp hq with old | new
    · exact before q old
    · rw [List.mem_singleton.mp new]
      exact Nat.zero_le 1
  · rw [appendRecord_full full]
    refine ⟨?_, Nat.min_le_left _ _, fun q hq => ?_⟩
    · rw [List.length_append, discardOne_length, List.length_singleton]
      omega
    · rcases List.mem_append.mp hq with old | new
      · exact before q ((discardOne_sublist l.1).subset old)
      · rw [List.mem_singleton.mp new]

/-! ### From one state to another, only postings -/

/-- From `s` to `t` the log and its tally have changed by records posted, if at all. -/
def State.OnlyPosts (s t : State) : Prop :=
  ∃ records : List ResultRecord, (t.log, t.discards) = records.foldl appendRecord (s.log, s.discards)

theorem State.OnlyPosts.of_same {s t : State} (log : t.log = s.log) (tally : t.discards = s.discards) : s.OnlyPosts t :=
  ⟨[], by rw [log, tally, List.foldl_nil]⟩

theorem State.OnlyPosts.refl (s : State) : s.OnlyPosts s := .of_same rfl rfl

theorem State.OnlyPosts.trans {s t u : State} (a : s.OnlyPosts t) (b : t.OnlyPosts u) : s.OnlyPosts u := by
  obtain ⟨first, ha⟩ := a
  obtain ⟨second, hb⟩ := b
  exact ⟨first ++ second, by rw [hb, ha, List.foldl_append]⟩

theorem State.OnlyPosts.keeps {s t : State} (h : s.OnlyPosts t) (bounded : s.logBounded) : t.logBounded := by
  obtain ⟨records, log⟩ := h
  rw [State.logBounded_iff] at bounded ⊢
  rw [log]
  exact List.foldlRecOn records appendRecord bounded fun l hl r _ => logSound_appendRecord hl r

/-! ### Each piece of a step -/

theorem State.takeStages_onlyPosts (s : State) (p : Index) (cause : TakeCause) (acts : (s.prog p).takeActs = true) :
    s.OnlyPosts (s.takeStages p cause) := ⟨_, s.takeStages_log p cause acts⟩

theorem State.endCore_onlyPosts (s : State) (p : Index) (cause : EndCause) : s.OnlyPosts (s.endCore p cause) :=
  ⟨_, (s.boundary p).closeSegment_appends p cause⟩

theorem State.endSegment_onlyPosts (s : State) (p : Index) (cause : EndCause) : s.OnlyPosts (s.endSegment p cause) := by
  obtain ⟨log, tally, _⟩ := s.endSegment_outside p cause
  exact (s.endCore_onlyPosts p cause).trans (.of_same log tally)

theorem State.restart_onlyPosts (s : State) : s.OnlyPosts s.restart :=
  foldl_keeps (M := s.OnlyPosts) _ (fun t p h => h.trans ⟨_, t.restartClose_log p⟩) _ s.useFree (.of_same rfl rfl)

theorem State.withdrawTo_onlyPosts (s : State) (p : Index) (f : Prog → Prog) : s.OnlyPosts (s.withdrawTo p f) := by
  have parts := (s.withdrawTo_withdrew p f).parts
  have log := congrArg State.log parts
  have tally := congrArg State.discards parts
  exact .of_same log tally

theorem State.deactivation_onlyPosts (s : State) (p : Index) (force : Bool) : s.OnlyPosts (s.deactivation p force) := by
  by_cases air : (s.prog p).hasOnAir = true
  · cases force with
    | true =>
      rw [State.deactivation_forced air]
      exact (s.endCore_onlyPosts p .forced).trans (State.withdrawTo_onlyPosts _ p _)
    | false =>
      by_cases draining : (s.prog p).entry.state = .draining
      · rw [State.deactivation_drained air draining]
        exact .refl s
      · rw [State.deactivation_drains air draining]
        exact s.withdrawTo_onlyPosts p _
  · rw [State.deactivation_silent ((s.prog p).hasOnAir_false_iff.mp (Bool.eq_false_iff.mpr air))]
    exact s.withdrawTo_onlyPosts p _

theorem State.closeBlock_onlyPosts (s : State) (p : Index) : s.OnlyPosts (s.closeBlock p) := by
  unfold State.closeBlock
  simp only
  split <;> exact .of_same rfl rfl

theorem State.takeFrameSync_onlyPosts (s : State) : s.OnlyPosts s.takeFrameSync := by
  unfold State.takeFrameSync
  cases s.audio.detector with
  | lost => exact .of_same rfl rfl
  | recovering => exact .of_same rfl rfl
  | locked => simp only; split <;> exact .of_same rfl rfl

theorem State.missSync_onlyPosts (s : State) : s.OnlyPosts s.missSync := by
  unfold State.missSync
  split
  · cases s.audio.detector <;> exact .of_same rfl rfl
  · exact .refl s

theorem State.expireWatch_onlyPosts (s : State) : s.OnlyPosts s.expireWatch := by
  unfold State.expireWatch
  split
  · cases s.audio.detector <;> exact .of_same rfl rfl
  · exact .refl s

theorem State.processFrame_onlyPosts (s : State) (raw : List Sample) : s.OnlyPosts (s.processFrame raw) := by
  have log := congrArg State.log (s.processFrame_frame raw)
  have tally := congrArg State.discards (s.processFrame_frame raw)
  exact .of_same log tally

theorem State.completeFrame_onlyPosts (s : State) (slots : List (BitVec 32)) : s.OnlyPosts (s.completeFrame slots) := by
  unfold State.completeFrame
  split
  · cases s.audio.detector with
    | locked => exact s.processFrame_onlyPosts _
    | recovering => exact .of_same rfl rfl
    | lost => exact .refl s
  · exact .refl s

theorem State.lapse_onlyPosts (s : State) (x : PortId) : s.OnlyPosts (s.lapse x) := by
  have log := congrArg State.log (s.lapse_parts x)
  have tally := congrArg State.discards (s.lapse_parts x)
  exact .of_same log tally

theorem State.run_onlyPosts (s : State) (p : Index) : s.OnlyPosts (s.run p) := by
  unfold State.run
  cases (s.prog p).entry.state <;> exact .of_same rfl rfl

theorem State.withdraw_onlyPosts (s : State) (x : PortId) (p : Index) (r : SegRecord) : s.OnlyPosts (s.withdraw x p r) := by
  unfold State.withdraw
  simp only
  split <;> exact .of_same rfl rfl

/-- R147: a record taken from the log leaves it within its bounds. -/
theorem State.logBounded_fetch {s : State} (h : s.logBounded) : { s with log := s.log.tail }.logBounded := by
  obtain ⟨length, tally, before⟩ := h
  exact ⟨(List.tail_sublist _).length_le.trans length, tally, fun r hr => before r (List.mem_of_mem_tail hr)⟩

theorem logBounded_kept : Kept State.logBounded where
  free := fun _ h => h
  raise := fun _ _ _ h => h
  stages := fun s p cause acts => (s.takeStages_onlyPosts p cause acts).keeps
  overrun := fun _ _ h => h
  finish := fun s p cause _ => (s.endSegment_onlyPosts p cause).keeps
  lock := fun _ _ h => h
  close := fun s p _ => (s.closeBlock_onlyPosts p).keeps
  ramp := fun _ _ _ h => h
  powerOn := fun _ _ _ => ⟨Nat.zero_le _, Nat.zero_le _, fun _ h => absurd h List.not_mem_nil⟩
  queue := fun _ _ h => h
  armed := fun _ _ h => h
  restart := fun s => s.restart_onlyPosts.keeps
  tick := fun _ h => h
  frameSync := fun s _ => s.takeFrameSync_onlyPosts.keeps
  missSync := fun s => s.missSync_onlyPosts.keeps
  expireWatch := fun s => s.expireWatch_onlyPosts.keeps
  frame := fun s slots _ => (s.completeFrame_onlyPosts slots).keeps
  line := fun _ _ _ h => h
  edges := fun _ _ _ h => h
  tally := fun _ _ _ h => h
  quiet := fun _ _ _ _ h => h
  arrived := fun _ _ h => h
  clear := fun _ _ _ h => h
  timer := fun _ _ _ _ _ h => h
  lapse := fun s x => (s.lapse_onlyPosts x).keeps
  copy := fun _ _ _ _ h => h
  read := fun _ _ _ _ h => h
  fetch := fun _ => State.logBounded_fetch
  configure := fun _ _ _ _ _ _ _ _ _ h => h
  activate := fun _ _ _ _ h => h
  deactivation := fun s p force _ => (s.deactivation_onlyPosts p force).keeps
  run := fun s p _ => (s.run_onlyPosts p).keeps
  stop := fun _ _ _ _ h => h
  tune := fun _ _ _ _ h => h
  claim := fun _ _ _ _ h => h
  release := fun _ _ h => h
  rights := fun _ _ _ h => h
  clearAccount := fun _ _ h => h
  cue := fun _ _ _ _ _ _ _ _ h => h
  amend := fun _ _ _ _ _ _ h => h
  withdraw := fun s x p r _ _ => (s.withdraw_onlyPosts x p r).keeps

/-- Settles O58: each piece of a step posts, resets or takes from the log, or leaves it. -/
theorem stepKeepsLogBounded : Obligations.StepKeepsLogBounded := logBounded_kept.step

end Sys2Proof.Machine
end

section
/-! What the work on programmes leaves of the straps and the ports: the straps stay (R152, R179), and of a port at most its notices
change, raised by the law of R186. -/

namespace Sys2Proof.Machine

/-! ### Notices at a port -/

/-- From `P` to `Q` at most notices have changed, and if each CLEAR one had an empty bitmap, each still has. -/
structure Port.Notified (P Q : Port) : Prop where
  parts : Q = { P with notices := Q.notices }
  notices : P.notices.sound → Q.notices.sound

theorem Port.Notified.refl (P : Port) : P.Notified P := ⟨rfl, id⟩

theorem Port.Notified.trans {P Q R : Port} (h : P.Notified Q) (g : Q.Notified R) : P.Notified R :=
  ⟨by rw [g.parts, h.parts], fun sound => g.notices (h.notices sound)⟩

/-- R186: a notice that is raised is PENDING. -/
theorem Port.raise_notified (k : Kind) (bits : BitVec 8) (P : Port) : P.Notified (P.raise k bits) := by
  refine ⟨rfl, fun sound j clear => ?_⟩
  by_cases same : j = k
  · subst same
    rw [Port.raise_get_same] at clear
    cases clear
  · rw [Port.raise_get_other _ _ _ _ same] at clear ⊢
    exact sound j clear

theorem Port.raiseAny_notified (k : Kind) (bits : BitVec 8) (P : Port) : P.Notified (P.raiseAny k bits) := by
  unfold Port.raiseAny
  split
  · exact .refl P
  · exact P.raise_notified k bits

/-! ### From one state to another -/

/-- What the straps have set: the override port and the bit rate. -/
def State.straps (s : State) : Option PortId × Baud := (s.override, s.baud)

theorem State.straps_eq_iff (s t : State) : t.straps = s.straps ↔ t.override = s.override ∧ t.baud = s.baud := Prod.mk_inj

/-- From `s` to `t` the straps stay, and the ports have at most been notified. -/
structure State.Notifies (s t : State) : Prop where
  straps : t.straps = s.straps
  port : ∀ x, (s.port x).Notified (t.port x)

theorem State.Notifies.of_same {s t : State} (straps : t.straps = s.straps) (ports : t.ports = s.ports) : s.Notifies t :=
  ⟨straps, fun x => by rw [State.port, State.port, ports]; exact .refl _⟩

theorem State.Notifies.refl (s : State) : s.Notifies s := .of_same rfl rfl

theorem State.Notifies.trans {s t u : State} (h : s.Notifies t) (g : t.Notifies u) : s.Notifies u :=
  ⟨g.straps.trans h.straps, fun x => (h.port x).trans (g.port x)⟩

theorem State.updProg_notifies (s : State) (p : Index) (f : Prog → Prog) : s.Notifies (s.updProg p f) := .of_same rfl rfl

theorem State.mapPorts_notifies (s : State) (f : Port → Port) (h : ∀ P : Port, P.Notified (f P)) : s.Notifies (s.mapPorts f) :=
  ⟨rfl, fun x => by rw [State.mapPorts_port]; exact h _⟩

theorem State.raiseAll_notifies (s : State) (k : Kind) (i : Index) : s.Notifies (s.raiseAll k i) :=
  s.mapPorts_notifies _ (Port.raise_notified k (bitOf i))

theorem State.raisePlain_notifies (s : State) (k : Kind) : s.Notifies (s.raisePlain k) :=
  s.mapPorts_notifies _ (Port.raise_notified k 0)

theorem State.raiseAt_notifies (s : State) (x : PortId) (k : Kind) (bits : BitVec 8) : s.Notifies (s.raiseAt x k bits) := by
  refine ⟨rfl, fun y => ?_⟩
  by_cases same : y = x
  · subst same
    rw [State.raiseAt_port_same]
    exact Port.raise_notified k bits _
  · rw [State.raiseAt_port_other _ _ _ _ _ same]
    exact .refl _

theorem State.Notifies.raiseAll {s t : State} (h : s.Notifies t) (k : Kind) (i : Index) : s.Notifies (t.raiseAll k i) :=
  h.trans (t.raiseAll_notifies k i)

theorem State.Notifies.raisePlain {s t : State} (h : s.Notifies t) (k : Kind) : s.Notifies (t.raisePlain k) :=
  h.trans (t.raisePlain_notifies k)

/-- One programme changed, with a notice at every port. -/
theorem State.updProg_raiseAll_notifies (s : State) (p : Index) (f : Prog → Prog) (k : Kind) :
    s.Notifies ((s.updProg p f).raiseAll k p) := (s.updProg_notifies p f).raiseAll k p

/-! ### Postings, takes and ends -/

theorem State.escalate_notifies (s : State) (r : ResultRecord) : s.Notifies (s.escalate r) := by
  unfold State.escalate
  simp only
  split
  · exact s.updProg_raiseAll_notifies _ _ _
  · exact s.updProg_notifies _ _

theorem State.appendLog_notifies (s : State) (r : ResultRecord) : s.Notifies (s.appendLog r) := by
  have logged : ∀ log discards, s.Notifies { s with log := log, discards := discards } := fun _ _ => .of_same rfl rfl
  unfold State.appendLog
  simp only
  split
  · exact (logged _ _).raisePlain .logDiscard
  · split
    · exact (logged _ _).raisePlain .logHalf
    · exact logged _ _

theorem State.closeSegment_notifies (s : State) (p : Index) (cause : EndCause) : s.Notifies (s.closeSegment p cause) := by
  unfold State.closeSegment
  split
  · exact .refl s
  · exact ((s.escalate_notifies _).trans (State.appendLog_notifies _ _)).trans (State.updProg_notifies _ _ _)

/-- The boundary work and the close of a segment. -/
theorem State.cut_notifies (s : State) (p : Index) (cause : EndCause) : s.Notifies ((s.boundary p).closeSegment p cause) :=
  (State.Notifies.of_same (s := s) (t := s.boundary p) rfl rfl).trans (State.closeSegment_notifies _ p cause)

theorem State.takeStages_notifies (s : State) (p : Index) (cause : TakeCause) : s.Notifies (s.takeStages p cause) := by
  unfold State.takeStages
  exact ((s.cut_notifies p .takeNext).trans (State.updProg_notifies _ p Prog.applyPending)).trans (State.updProg_notifies _ p _)

theorem State.endCore_notifies (s : State) (p : Index) (cause : EndCause) : s.Notifies (s.endCore p cause) :=
  (s.cut_notifies p cause).trans (State.updProg_raiseAll_notifies _ p Prog.applyPending .segClosed)

theorem State.endSegment_notifies (s : State) (p : Index) (cause : EndCause) : s.Notifies (s.endSegment p cause) := by
  unfold State.endSegment
  simp only
  split
  · exact (s.endCore_notifies p cause).trans (State.updProg_raiseAll_notifies _ p Prog.becomeInactive .state)
  · exact (s.endCore_notifies p cause).trans (State.updProg_notifies _ p Prog.toFreeRun)

theorem State.closeBlock_notifies (s : State) (p : Index) : s.Notifies (s.closeBlock p) := by
  unfold State.closeBlock
  simp only
  split
  · exact s.updProg_raiseAll_notifies p Prog.closeBlock .state
  · exact s.updProg_notifies p Prog.closeBlock

theorem State.markOverrun_notifies (s : State) (p : Index) : s.Notifies (s.markOverrun p) :=
  s.updProg_raiseAll_notifies p _ .overrun

theorem State.enterLocked_notifies (s : State) : s.Notifies s.enterLocked := by
  unfold State.enterLocked
  refine .raisePlain ?_ .audio
  exact .of_same rfl rfl

theorem settles_notifies (s : State) : Settles s.Notifies where
  free := fun _ h => h.trans (.of_same rfl rfl)
  raise := fun t k i h => h.trans (t.raiseAll_notifies k i)
  stages := fun t p cause _ h => h.trans (t.takeStages_notifies p cause)
  overrun := fun t p h => h.trans (t.markOverrun_notifies p)
  finish := fun t p cause _ h => h.trans (t.endSegment_notifies p cause)
  lock := fun t _ h => h.trans t.enterLocked_notifies
  close := fun t p _ h => h.trans (t.closeBlock_notifies p)
  ramp := fun t p _ h => h.trans (t.updProg_notifies p _)

theorem State.take_notifies (s : State) (p : Index) (cause : TakeCause) : s.Notifies (s.take p cause) :=
  (settles_notifies s).take s p cause (.refl s)

/-! ### Frames -/

theorem State.takeFrameSync_notifies (s : State) : s.Notifies s.takeFrameSync := by
  unfold State.takeFrameSync
  cases s.audio.detector with
  | lost => exact .of_same rfl rfl
  | recovering => exact .of_same rfl rfl
  | locked => simp only; split <;> exact .of_same rfl rfl

theorem State.missSync_notifies (s : State) : s.Notifies s.missSync := by
  unfold State.missSync
  split
  · cases s.audio.detector <;> exact .of_same rfl rfl
  · exact .refl s

theorem State.expireWatch_notifies (s : State) : s.Notifies s.expireWatch := by
  unfold State.expireWatch
  split
  · cases s.audio.detector with
    | locked =>
      refine .raisePlain ?_ .audio
      exact .of_same rfl rfl
    | recovering => exact .of_same rfl rfl
    | lost => exact .of_same rfl rfl
  · exact .refl s

theorem State.processFrame_notifies (s : State) (raw : List Sample) : s.Notifies (s.processFrame raw) := by
  have override := congrArg State.override (s.processFrame_frame raw)
  have baud := congrArg State.baud (s.processFrame_frame raw)
  have ports := congrArg State.ports (s.processFrame_frame raw)
  exact .of_same ((State.straps_eq_iff _ _).mpr ⟨override, baud⟩) ports

theorem State.completeFrame_notifies (s : State) (slots : List (BitVec 32)) : s.Notifies (s.completeFrame slots) := by
  unfold State.completeFrame
  split
  · cases s.audio.detector with
    | locked => exact s.processFrame_notifies _
    | recovering => exact .of_same rfl rfl
    | lost => exact .refl s
  · exact .refl s

/-! ### Requests on programmes and queues -/

theorem State.activate_notifies (s : State) (p : Index) : s.Notifies (s.activate p) := by
  unfold State.activate
  refine .raiseAll ?_ .state p
  exact .of_same rfl rfl

theorem State.withdrawTo_notifies (s : State) (p : Index) (f : Prog → Prog) : s.Notifies (s.withdrawTo p f) := by
  have owners : s.Notifies ((s.prog p).queue.cued.foldl (fun t r => t.raiseAt r.owner .withdrawn (bitOf p)) s) :=
    List.foldlRecOn _ _ (.refl s) fun t h r _ => h.trans (t.raiseAt_notifies r.owner .withdrawn _)
  exact (owners.trans (State.updProg_notifies _ p _)).trans (State.updProg_raiseAll_notifies _ p f .state)

theorem State.deactivation_notifies (s : State) (p : Index) (force : Bool) : s.Notifies (s.deactivation p force) := by
  by_cases air : (s.prog p).hasOnAir = true
  · cases force with
    | true =>
      rw [State.deactivation_forced air]
      exact (s.endCore_notifies p .forced).trans (State.withdrawTo_notifies _ p _)
    | false =>
      by_cases draining : (s.prog p).entry.state = .draining
      · rw [State.deactivation_drained air draining]
        exact .refl s
      · rw [State.deactivation_drains air draining]
        exact s.withdrawTo_notifies p _
  · rw [State.deactivation_silent ((s.prog p).hasOnAir_false_iff.mp (Bool.eq_false_iff.mpr air))]
    exact s.withdrawTo_notifies p _

theorem State.run_notifies (s : State) (p : Index) : s.Notifies (s.run p) := by
  unfold State.run
  cases (s.prog p).entry.state with
  | stopping => exact s.updProg_raiseAll_notifies p _ .state
  | stopped => exact s.updProg_raiseAll_notifies p _ .state
  | running => exact .refl s
  | inactive => exact .refl s
  | draining => exact .refl s

theorem State.setCustodian_notifies (s : State) (p : Index) (c : Option PortId) : s.Notifies (s.setCustodian p c) :=
  s.updProg_raiseAll_notifies p _ .custody

theorem State.withdraw_notifies (s : State) (x : PortId) (p : Index) (r : SegRecord) : s.Notifies (s.withdraw x p r) := by
  have removed := s.updProg_notifies p fun P => P.setQueue (P.queue.remove r.id)
  unfold State.withdraw
  simp only
  split
  · exact removed
  · exact removed.trans (State.raiseAt_notifies _ _ .withdrawn _)

end Sys2Proof.Machine
end

section
/-! Notices, snapshot buffers and silence timers through every step (R163, R186, R190, R191). A port keeps its laws by itself, but for
the snapshot it takes of an account, which has 140 bins in every programme (R54). -/

namespace Sys2Proof.Machine

/-! ### The accounts that snapshots copy -/

/-- R54, R56: the bounds of both accounts of an engine. -/
def Measure.accountsBounded (m : Measure) : Prop := m.account.bounded ∧ ∀ a ∈ m.segAccount, a.account.bounded

theorem SegAccount.close_account_bounded {a : SegAccount} (h : a.account.bounded) (stamp : Position) (hist : List BlockRecord)
    (held : Bool) : (a.close stamp hist held).account.bounded := by
  dsimp only [SegAccount.close]
  split
  · exact h.add _ _
  · exact h

theorem Prog.closedMeasure_accountsBounded {P : Prog} (h : P.meas.accountsBounded) : P.closedMeasure.accountsBounded := by
  obtain ⟨account, segAccount⟩ := h
  refine ⟨?_, fun a ha => ?_⟩
  · dsimp only [Prog.closedMeasure]
    split
    · exact account.add _ _
    · exact account
  · dsimp only [Prog.closedMeasure] at ha
    split at ha
    · rename_i before _ present
      obtain rfl := Option.some.inj ha
      exact SegAccount.close_account_bounded (segAccount before present) _ _ _
    · exact segAccount a ha

theorem Prog.closeBlock_accountsBounded {P : Prog} (h : P.meas.accountsBounded) : P.closeBlock.meas.accountsBounded := by
  rw [P.closeBlock_eq]
  have closed := Prog.closedMeasure_accountsBounded h
  dsimp only
  split <;> exact closed

theorem Prog.closeIfFull_accountsBounded {P : Prog} (h : P.meas.accountsBounded) : P.closeIfFull.meas.accountsBounded := by
  unfold Prog.closeIfFull
  split
  · exact Prog.closeBlock_accountsBounded h
  · exact h

/-- A measured position changes of the accounts the peaks of the Segment Account alone (R61). -/
theorem Measure.accountsBounded.peaked {m n : Measure} (h : m.accountsBounded) (account : n.account = m.account)
    (peak : n.segAccount = m.segAccount ∨ ∃ t, n.segAccount = m.segAccount.map (·.peak t)) : n.accountsBounded := by
  obtain ⟨bounded, segBounded⟩ := h
  refine ⟨account ▸ bounded, fun a ha => ?_⟩
  rcases peak with same | ⟨t, peaked⟩
  · exact segBounded a (same ▸ ha)
  · rw [peaked] at ha
    obtain ⟨b, hb, rfl⟩ := Option.mem_map.mp ha
    exact segBounded b hb

theorem Prog.measureOldest_accountsBounded {P : Prog} (line : List Stage) (h : P.meas.accountsBounded) :
    (P.measureOldest line).meas.accountsBounded := by
  obtain ⟨_, _, _, account, _, peak⟩ := Prog.measureOldest_meas line P
  exact h.peaked account peak

theorem Prog.flush_accountsBounded (line : List Stage) (n : Nat) : ∀ P : Prog, P.meas.accountsBounded →
    (Prog.flush line n P).meas.accountsBounded := by
  induction n with
  | zero => exact fun P h => h
  | succ n ih => exact fun P h => ih _ (Prog.closeIfFull_accountsBounded (Prog.measureOldest_accountsBounded line h))

theorem Prog.boundaryMeasure_accountsBounded (line : List Stage) {P : Prog} (h : P.meas.accountsBounded) :
    (P.boundaryMeasure line).meas.accountsBounded := by
  unfold Prog.boundaryMeasure Prog.closeShort
  have flushed := Prog.flush_accountsBounded line P.meas.inFlight.length _ (Prog.closeIfFull_accountsBounded h)
  split
  · exact flushed
  · exact Prog.closeBlock_accountsBounded flushed

theorem boundaryWork_accountsBounded (line : List Stage) {P : Prog} (h : P.meas.accountsBounded) :
    (boundaryWork line P).2.meas.accountsBounded := Prog.boundaryMeasure_accountsBounded _ (P := P.setGain _) h

/-- R84: a close at most takes the Segment Account away. -/
theorem Prog.closed_accountsBounded {P : Prog} (h : P.meas.accountsBounded) (n : Nat) : (P.closed n).meas.accountsBounded := by
  unfold Prog.closed
  split
  · exact ⟨h.1, nofun⟩
  · exact h

theorem Prog.ended_accountsBounded {P : Prog} (h : P.meas.accountsBounded) (line : List Stage) (n : Nat) :
    (P.ended line n).meas.accountsBounded := Prog.closed_accountsBounded (boundaryWork_accountsBounded line h) n

/-- R58: a segment goes on air with an empty Segment Account. -/
theorem Prog.goOnAir_accountsBounded {P : Prog} (h : P.meas.accountsBounded) (n : Position) (cause : TakeCause) :
    (P.goOnAir n cause).meas.accountsBounded := by
  unfold Prog.goOnAir
  split
  · exact h
  · refine ⟨h.1, fun a ha => ?_⟩
    obtain rfl := Option.some.inj ha
    exact Account.empty_bounded

theorem accountsBounded_kept : ProgKept fun P => P.meas.accountsBounded where
  reset := fun _ => ⟨Account.empty_bounded, nofun⟩
  stages := fun _ line n pos cause _ _ h => Prog.goOnAir_accountsBounded (Prog.ended_accountsBounded h line n) pos cause
  goOn := fun _ line n _ _ _ h => Prog.ended_accountsBounded h line n
  drained := fun _ line n _ _ _ h => Prog.ended_accountsBounded h line n
  forced := fun _ line n _ _ h => Prog.ended_accountsBounded h line n
  restarted := fun P lines line n _ h => by
    refine ⟨?_, nofun⟩
    split
    · exact (Prog.closed_accountsBounded (boundaryWork_accountsBounded line h) n).1
    · exact h.1
  close := fun _ _ h => Prog.closeBlock_accountsBounded h
  ramp := fun _ _ h => h
  overrun := fun _ h => h
  frame := fun P line raw now _ _ _ h => by
    obtain ⟨_, _, _, _, _, _, _, _, _, _, account, _, _, peak⟩ := Prog.handFrame_facts line raw now P
    exact h.peaked account peak
  tally := fun P k active h => by
    unfold Prog.tallyChange
    split <;> exact h
  lapse := fun _ _ h => h
  configure := fun _ _ _ _ _ _ _ h => h
  activate := fun _ _ _ _ _ => ⟨Account.empty_bounded, nofun⟩
  deactivate := fun _ _ _ h => h
  drain := fun _ _ _ h => h
  runOn := fun _ _ h => h
  resume := fun _ _ _ h => h
  stop := fun _ _ _ h => h
  tune := fun P v _ h => by
    unfold Prog.tune
    split <;> exact h
  custodian := fun _ _ h => h
  rights := fun _ _ h => h
  clearAccount := fun _ h => ⟨Account.empty_bounded, h.2⟩
  cue := fun _ _ _ _ _ _ h => h
  amend := fun _ _ _ _ _ h => h
  withdraw := fun _ _ h => h

/-- R65: an account that a snapshot copies is within its bounds, a Segment Account never filled included. -/
theorem Prog.accountOf_bounded {P : Prog} (h : P.meas.accountsBounded) (segment : Bool) : (P.accountOf segment).bounded := by
  unfold Prog.accountOf
  split
  · cases present : P.meas.segAccount with
    | none => exact Account.empty_bounded
    | some a => exact h.2 a present
  · exact h.1

/-! ### What a port's own events leave of its laws -/

section

variable {P Q : Port}

theorem Port.sound.snapshot (h : P.sound) : ∀ v ∈ P.snapshot, v.sound := h.2.1

theorem Port.Notified.sound (h : P.Notified Q) (sound : P.sound) : Q.sound := by
  obtain ⟨notices, snapshot, timer⟩ := sound
  rw [h.parts]
  exact ⟨h.notices notices, snapshot, timer⟩

theorem Port.sound.quiet (h : P.sound) (quiet : P.quiet Q) : Q.sound := by
  rw [quiet]
  exact h

/-- R162: a count that is reloaded stands at the setting; one that is not was stopped. -/
theorem Port.sound.arrived (h : P.sound) : P.frameArrived.sound := by
  obtain ⟨notices, snapshot, setting, stopped, within⟩ := h
  refine ⟨notices, snapshot, setting, fun off => ?_, fun n hn => ?_⟩
  · have zero : P.timerSetting = 0 := off.resolve_right Bool.noConfusion
    exact (if_pos zero).trans (stopped (.inl zero))
  · dsimp only [Port.frameArrived] at hn
    split at hn
    · exact within n hn
    · exact (Option.some.inj hn).ge

/-- R163: the count goes down. -/
theorem Port.sound.tick (h : P.sound) : P.tick.sound := by
  obtain ⟨notices, snapshot, setting, stopped, within⟩ := h
  refine ⟨notices, snapshot, setting, fun off => ?_, fun n hn => ?_⟩
  · show (if P.present then P.timerCount.map (· - 1) else P.timerCount) = none
    rw [stopped off]
    split <;> rfl
  · dsimp only [Port.tick] at hn
    split at hn
    · obtain ⟨m, hm, rfl⟩ := Option.mem_map.mp hn
      exact (Nat.sub_le m 1).trans (within m hm)
    · exact within n hn

/-- R164: PORT.TIMER loads the count, or stops it. -/
theorem Port.sound.setTimer (h : P.sound) (present : P.present = true) {setting : Nat} (byte : setting ≤ 255) :
    (P.setTimer setting).sound := by
  obtain ⟨notices, snapshot, _⟩ := h
  refine ⟨notices, snapshot, byte, fun off => if_pos (off.resolve_right fun absent => ?_), fun n hn => ?_⟩
  · rw [show (P.setTimer setting).present = true from present] at absent
    cases absent
  · dsimp only [Port.setTimer] at hn
    split at hn
    · cases hn
    · exact (Option.some.inj hn).ge

/-- R188: a kind is CLEAR with an empty bitmap, or as it was. -/
theorem Port.sound.clearNotices (h : P.sound) (kinds : BitVec 12) : (P.clearNotices kinds).sound := by
  obtain ⟨notices, rest⟩ := h
  refine ⟨fun k clear => ?_, rest⟩
  dsimp only [Port.clearNotices] at clear ⊢
  rw [NoticeSet.clearKinds_get] at clear ⊢
  split at clear
  · rw [if_pos ‹_›]
    rfl
  · rw [if_neg ‹_›]
    exact notices k clear

/-- R166: the count of a port that has lapsed is stopped, and its snapshot is gone. -/
theorem Port.sound.left (h : P.sound) : P.left.sound := by
  obtain ⟨notices, _, setting, _⟩ := h
  exact ⟨notices, nofun, setting, fun _ => rfl, nofun⟩

theorem Port.sound.edge (h : P.sound) (k : Index) (rising : Bool) : ((P.setEdge k rising).raise .cueEdge (bitOf k)).sound := by
  refine (Port.raise_notified .cueEdge (bitOf k) _).sound ?_
  unfold Port.setEdge
  split <;> exact h

theorem Port.sound.setSnapshot (h : P.sound) {v : Snapshot} (sound : v.sound) : (P.setSnapshot (some v)).sound := by
  obtain ⟨notices, _, timer⟩ := h
  exact ⟨notices, fun w hw => Option.some.inj hw ▸ sound, timer⟩

end

/-- R190: a snapshot is taken with its cursor at 0. -/
theorem Snapshot.ready_sound {content : List Byte} (length : content.length = 436) : (Snapshot.ready content).sound :=
  ⟨length, (Nat.zero_add _).trans length⟩

/-- R191: what a read returns is no longer left. -/
theorem Snapshot.sound.advance {v : Snapshot} (h : v.sound) : v.advance.sound := by
  obtain ⟨length, whole⟩ := h
  refine ⟨length, ?_⟩
  have chunk : v.chunk ≤ v.remaining := Nat.min_le_right _ _
  show v.cursor + v.chunk + (v.remaining - v.chunk) = 436
  omega

/-! ### Each piece of a step -/

/-- The ports, each within its laws. -/
def State.eachPortSound (s : State) : Prop := ∀ x, (s.port x).sound

theorem State.Notifies.sound {s t : State} (h : s.Notifies t) (sound : s.eachPortSound) : t.eachPortSound :=
  fun x => (h.port x).sound (sound x)

theorem State.eachPortSound.updPort {s : State} (h : s.eachPortSound) {x : PortId} {f : Port → Port}
    (own : (s.port x).sound → (f (s.port x)).sound) : (s.updPort x f).eachPortSound := by
  intro y
  by_cases same : y = x
  · subst same
    rw [State.updPort_port_same]
    exact own (h y)
  · rw [State.updPort_port_other _ _ _ _ same]
    exact h y

theorem State.eachPortSound.lapse {s : State} (h : s.eachPortSound) (x : PortId) : (s.lapse x).eachPortSound := by
  intro y
  by_cases same : y = x
  · subst same
    rw [State.lapse_port_same]
    exact ((Port.raiseAny_notified _ _ _).trans (Port.raiseAny_notified _ _ _)).sound (h y).left
  · rw [State.lapse_port_other s same]
    exact (Port.raiseAny_notified _ _ _).sound (h y)

theorem accounts_kept : Kept fun s => ∀ p, (s.prog p).meas.accountsBounded := accountsBounded_kept.kept

/-- The laws of the ports and the bounds of the accounts are kept side by side. -/
theorem portsSound_kept : Kept State.portsSound where
  free := fun _ h => h
  raise := fun s k i h => ⟨(s.raiseAll_notifies k i).sound h.1, h.2⟩
  stages := fun s p cause acts h => ⟨(s.takeStages_notifies p cause).sound h.1, accounts_kept.stages s p cause acts h.2⟩
  overrun := fun s p h => ⟨(s.markOverrun_notifies p).sound h.1, accounts_kept.overrun s p h.2⟩
  finish := fun s p cause air h => ⟨(s.endSegment_notifies p cause).sound h.1, accounts_kept.finish s p cause air h.2⟩
  lock := fun s _ h => ⟨s.enterLocked_notifies.sound h.1, h.2⟩
  close := fun s p due h => ⟨(s.closeBlock_notifies p).sound h.1, accounts_kept.close s p due h.2⟩
  ramp := fun s p due h => ⟨h.1, accounts_kept.ramp s p due h.2⟩
  powerOn := fun s straps levels => ⟨fun x => by rw [State.powerOn_port]; exact Port.reset_sound,
    accounts_kept.powerOn s straps levels⟩
  queue := fun _ _ h => h
  armed := fun _ _ h => h
  restart := fun s h => ⟨fun x => by rw [State.restart_port]; exact Port.reset_sound, accounts_kept.restart s h.2⟩
  tick := fun s h => ⟨fun x => by rw [State.tick_port]; exact (h.1 x).tick, h.2⟩
  frameSync := fun s calm h => ⟨s.takeFrameSync_notifies.sound h.1, accounts_kept.frameSync s calm h.2⟩
  missSync := fun s h => ⟨s.missSync_notifies.sound h.1, accounts_kept.missSync s h.2⟩
  expireWatch := fun s h => ⟨s.expireWatch_notifies.sound h.1, accounts_kept.expireWatch s h.2⟩
  frame := fun s slots calm h => ⟨(s.completeFrame_notifies slots).sound h.1, accounts_kept.frame s slots calm h.2⟩
  line := fun _ _ _ h => h
  edges := fun s k active h => ⟨fun x => by
      rw [State.edgeReport, State.mapProgs_port, State.mapPorts_port]
      exact (h.1 x).edge k active, accounts_kept.edges s k active h.2⟩
  tally := fun s k active h => ⟨h.1, accounts_kept.tally s k active h.2⟩
  quiet := fun s x Q quiet h => ⟨State.eachPortSound.updPort (f := fun _ => Q) h.1 fun sound => sound.quiet quiet, h.2⟩
  arrived := fun _ _ h => ⟨State.eachPortSound.updPort h.1 Port.sound.arrived, h.2⟩
  clear := fun _ _ kinds h => ⟨State.eachPortSound.updPort h.1 fun sound => sound.clearNotices kinds, h.2⟩
  timer := fun _ _ _ byte present h => ⟨State.eachPortSound.updPort h.1 fun sound => sound.setTimer present byte, h.2⟩
  lapse := fun s x h => ⟨State.eachPortSound.lapse h.1 x, accounts_kept.lapse s x h.2⟩
  copy := fun _ _ p segment h => ⟨State.eachPortSound.updPort h.1 fun sound => sound.setSnapshot
    (Snapshot.ready_sound (snapshotContent_length p segment _ _ (Prog.accountOf_bounded (h.2 p) segment).1)), h.2⟩
  read := fun s x v ready h => ⟨State.eachPortSound.updPort h.1 fun sound => sound.setSnapshot (sound.snapshot v ready).advance, h.2⟩
  fetch := fun _ h => h
  configure := fun s p base width trig tally slots acyclic inactive h =>
    ⟨h.1, accounts_kept.configure s p base width trig tally slots acyclic inactive h.2⟩
  activate := fun s p free inactive h => ⟨(s.activate_notifies p).sound h.1, accounts_kept.activate s p free inactive h.2⟩
  deactivation := fun s p force active h =>
    ⟨(s.deactivation_notifies p force).sound h.1, accounts_kept.deactivation s p force active h.2⟩
  run := fun s p runs h => ⟨(s.run_notifies p).sound h.1, accounts_kept.run s p runs h.2⟩
  stop := fun s p running silent h =>
    ⟨(s.updProg_raiseAll_notifies p _ .state).sound h.1, accounts_kept.stop s p running silent h.2⟩
  tune := fun s p v legal h => ⟨h.1, accounts_kept.tune s p v legal h.2⟩
  claim := fun s p x present h => ⟨(s.setCustodian_notifies p _).sound h.1, accounts_kept.claim s p x present h.2⟩
  release := fun s p h => ⟨(s.setCustodian_notifies p _).sound h.1, accounts_kept.release s p h.2⟩
  rights := fun s p v h => ⟨h.1, accounts_kept.rights s p v h.2⟩
  clearAccount := fun s p h => ⟨h.1, accounts_kept.clearAccount s p h.2⟩
  cue := fun s p r present legal new cues room h => ⟨h.1, accounts_kept.cue s p r present legal new cues room h.2⟩
  amend := fun s p a r found legal h => ⟨h.1, accounts_kept.amend s p a r found legal h.2⟩
  withdraw := fun s x p r id found h => ⟨(s.withdraw_notifies x p r).sound h.1, accounts_kept.withdraw s x p r id found h.2⟩

/-- Settles O59: the events of a port keep its laws, `State.Notifies` is what the other pieces of a step do to the ports, and the
accounts keep the shape that a snapshot copies. -/
theorem stepKeepsPortsSound : Obligations.StepKeepsPortsSound := portsSound_kept.step

end Sys2Proof.Machine
end

section
/-! Frames and their CRC (R180), replies (R184, R195), and the state a request is judged in (R162). -/

namespace Sys2Proof.Machine

/-! ### The CRC -/

/-- R180: the register shifts, and takes the generator where its top bit and the bit that comes differ. -/
theorem crcBit_eq (r : BitVec 16) (bit : Bool) :
    crcBit r bit = if r.getLsbD 15 = bit then r <<< 1 else (r <<< 1) ^^^ 0x1021 := by
  rw [show r.getLsbD 15 = r.msb from (BitVec.msb_eq_getLsbD_last r).symm]
  by_cases same : r.msb = bit
  · rw [crcBit, if_neg (by simp [same]), if_pos same]
  · rw [crcBit, if_pos (by simpa using same), if_neg same]

/-- The bits of a byte, most significant first. -/
def bitsOf (b : Byte) : List Bool :=
  [b.getLsbD 7, b.getLsbD 6, b.getLsbD 5, b.getLsbD 4, b.getLsbD 3, b.getLsbD 2, b.getLsbD 1, b.getLsbD 0]

theorem crcByte_eq (r : BitVec 16) (b : Byte) : crcByte r b = (bitsOf b).foldl
    (fun (r : BitVec 16) bit => if r.getLsbD 15 = bit then r <<< 1 else (r <<< 1) ^^^ 0x1021) r := by
  rw [← funext₂ crcBit_eq]
  rfl

theorem crc16_append (bs : List Byte) (b : Byte) : crc16 (bs ++ [b]) = crcByte (crc16 bs) b := List.foldl_concat _ _ _ _

theorem crc16_digits : crc16 [0x31, 0x32, 0x33, 0x34, 0x35, 0x36, 0x37, 0x38, 0x39] = 0x29B1 := by decide +kernel

/-! ### Frames -/

/-- R180: the CRC of a frame, high byte first. -/
theorem crcBytes_eq (body : List Byte) : let crc := crc16 (BitVec.ofNat 8 body.length :: body)
    crcBytes body = [crc.extractLsb' 8 8, crc.extractLsb' 0 8] := by
  intro crc
  rw [← BitVec.setWidth_eq_extractLsb' (by decide)]
  rfl

/-- Settles O34: the CRC bit by bit, and frames, replies and the judged state as they are formed. -/
theorem framesAndReplies : Obligations.FramesAndReplies := by
  refine ⟨fun body => ⟨crcBytes_eq body, ?_⟩, rfl, fun bs b => ?_, crc16_digits, rfl, fun _ _ _ _ _ _ => rfl, fun _ _ => rfl⟩
  · rw [frameOf, crcBytes_eq]
    rfl
  · rw [crc16_append, crcByte_eq]
    rfl

end Sys2Proof.Machine
end

section
/-! What each request does to the straps, to reception and to presence, and that every request is answered (R162, R183, R184): no
request but DEV.RESTART and PORT.LEAVE touches them beyond what its frame end has done. -/

namespace Sys2Proof.Machine

/-! ### Straps, reception and presence -/

/-- The frame in progress, the gap timer and the presence of a port. -/
def Port.stand (P : Port) : Receiver × Option Nat × Bool := (P.rx, P.gap, P.present)

/-- From `s` to `t` the straps stay, and at no port has reception or presence changed. -/
structure State.Attends (s t : State) : Prop where
  straps : t.straps = s.straps
  stand : ∀ x, (t.port x).stand = (s.port x).stand

theorem State.Attends.refl (s : State) : s.Attends s := ⟨rfl, fun _ => rfl⟩

theorem State.Attends.trans {s t u : State} (h : s.Attends t) (g : t.Attends u) : s.Attends u :=
  ⟨g.straps.trans h.straps, fun x => (g.stand x).trans (h.stand x)⟩

theorem State.Notifies.attends {s t : State} (h : s.Notifies t) : s.Attends t :=
  ⟨h.straps, fun x => by rw [(h.port x).parts]; rfl⟩

theorem State.updProg_attends (s : State) (p : Index) (f : Prog → Prog) : s.Attends (s.updProg p f) :=
  (s.updProg_notifies p f).attends

theorem State.updPort_attends (s : State) (x : PortId) (f : Port → Port) (h : ∀ P : Port, (f P).stand = P.stand) :
    s.Attends (s.updPort x f) := by
  refine ⟨rfl, fun y => ?_⟩
  by_cases same : y = x
  · subst same
    rw [State.updPort_port_same]
    exact h _
  · rw [State.updPort_port_other _ _ _ _ same]

theorem State.setLine_attends (s : State) (k : Index) (v : CueLine) : s.Attends (s.setLine k v) := ⟨rfl, fun _ => rfl⟩

/-- R173: an accepted edge reaches the flags and the notices of the ports. -/
theorem State.acceptEdge_attends (s : State) (k : Index) : s.Attends (s.acceptEdge k) := by
  have accepted := s.acceptEdge_accepted k
  refine ⟨(State.straps_eq_iff _ _).mpr ⟨accepted.around.override, accepted.around.baud⟩, fun x => ?_⟩
  rw [accepted.port x]
  rfl

theorem State.configLine_attends (s : State) (k : Index) (inverted : Bool) (reject : RejectLength) :
    s.Attends ((s.setPolarity k inverted).setReject k reject) := by
  have polarity : s.Attends (s.setPolarity k inverted) := by
    unfold State.setPolarity
    simp only
    split
    · exact .refl s
    · exact ⟨rfl, fun _ => rfl⟩
  refine polarity.trans ?_
  unfold State.setReject
  simp only
  split
  · exact .refl _
  · split
    · exact (State.setLine_attends _ k _).trans (State.acceptEdge_attends _ k)
    · exact State.setLine_attends _ k _

/-! ### Each request -/

/-- A handler whose taken requests leave straps, reception and presence. -/
def Handler.Attends (h : Handler) : Prop := ∀ x ps s t d, h x ps s = .ok (t, d) → s.Attends t

theorem Handler.attends_of_same {h : Handler} (same : ∀ x ps s t d, h x ps s = .ok (t, d) → t = s) : h.Attends := by
  intro x ps s t d taken
  rw [same x ps s t d taken]
  exact .refl s

/-- The requests that change nothing. -/
theorem readingRequests_attend : devIdentRequest.Attends ∧ portKeepaliveRequest.Attends ∧ progQueryRequest.Attends
    ∧ segListRequest.Attends ∧ logCountRequest.Attends ∧ logPeekRequest.Attends ∧ meterReadRequest.Attends :=
  ⟨Handler.attends_of_same fun _ _ _ _ _ h => (devIdent_taken h).2,
    Handler.attends_of_same fun _ _ _ _ _ h => portKeepalive_taken h,
    Handler.attends_of_same fun _ _ _ _ _ h => progQuery_taken h,
    Handler.attends_of_same fun _ _ _ _ _ h => segList_taken h,
    Handler.attends_of_same fun _ _ _ _ _ h => logCount_taken h,
    Handler.attends_of_same fun _ _ _ _ _ h => logPeek_taken h,
    Handler.attends_of_same fun _ _ _ _ _ h => meterRead_taken h⟩

/-- The requests on notices, mask, timer, snapshot, edge flags and lines, and the one that takes a record from the log. -/
theorem portRequests_attend : portStatusRequest.Attends ∧ portMaskRequest.Attends ∧ portTimerRequest.Attends
    ∧ snapTakeRequest.Attends ∧ snapReadRequest.Attends ∧ cueReadRequest.Attends ∧ cueConfigRequest.Attends
    ∧ logFetchRequest.Attends := by
  refine ⟨?_, ?_, ?_, ?_, ?_, ?_, ?_, ?_⟩ <;> intro x ps s t d h
  · obtain ⟨kinds, rfl, _⟩ := portStatus_taken h
    exact s.updPort_attends x _ fun _ => rfl
  · obtain ⟨mask, rfl⟩ := portMask_taken h
    exact s.updPort_attends x _ fun _ => rfl
  · obtain ⟨setting, rfl⟩ := portTimer_taken h
    exact s.updPort_attends x _ fun _ => rfl
  · obtain ⟨p, segment, rfl⟩ := snapTake_taken h
    exact s.updPort_attends x _ fun _ => rfl
  · obtain ⟨v, _, _, rfl⟩ := snapRead_taken h
    exact s.updPort_attends x _ fun _ => rfl
  · rw [cueRead_taken h]
    exact s.updPort_attends x _ fun _ => rfl
  · obtain ⟨k, inverted, reject, _, rfl⟩ := cueConfig_taken h
    exact s.configLine_attends k inverted reject
  · rw [logFetch_taken h]
    exact ⟨rfl, fun _ => rfl⟩

/-- The requests on programmes. -/
theorem progRequests_attend : progSetRequest.Attends ∧ progActivateRequest.Attends ∧ deactivateRequest.Attends
    ∧ progRunRequest.Attends ∧ progStopRequest.Attends ∧ progTuneRequest.Attends ∧ claimRequest.Attends
    ∧ progReleaseRequest.Attends ∧ progRightsRequest.Attends ∧ accountClearRequest.Attends := by
  refine ⟨?_, ?_, ?_, ?_, ?_, ?_, ?_, ?_, ?_, ?_⟩ <;> intro x ps s t d h
  · obtain ⟨p, _, _, _, _, _, _, _, _, rfl⟩ := progSet_taken h
    exact s.updProg_attends p _
  · obtain ⟨p, _, _, _, rfl⟩ := progActivate_taken h
    exact (s.activate_notifies p).attends
  · obtain ⟨p, force, _, _, rfl⟩ := deactivate_taken h
    exact (s.deactivation_notifies p force).attends
  · obtain ⟨p, _, _, rfl⟩ := progRun_taken h
    exact (s.run_notifies p).attends
  · obtain ⟨p, _, _, _, rfl⟩ := progStop_taken h
    exact (s.updProg_raiseAll_notifies p _ .state).attends
  · obtain ⟨p, v, _, _, rfl⟩ := progTune_taken h
    exact s.updProg_attends p _
  · obtain ⟨p, rfl | rfl⟩ := claim_taken h
    · exact .refl _
    · exact (s.setCustodian_notifies p _).attends
  · obtain ⟨p, _, rfl⟩ := progRelease_taken h
    exact (s.setCustodian_notifies p _).attends
  · obtain ⟨p, rights, _, rfl⟩ := progRights_taken h
    exact s.updProg_attends p _
  · obtain ⟨p, _, rfl⟩ := accountClear_taken h
    exact s.updProg_attends p _

/-- The requests on segment queues. -/
theorem segRequests_attend : segCueRequest.Attends ∧ segAmendRequest.Attends ∧ segWithdrawRequest.Attends
    ∧ segTakeRequest.Attends ∧ segEndRequest.Attends := by
  refine ⟨?_, ?_, ?_, ?_, ?_⟩ <;> intro x ps s t d h
  · obtain ⟨p, r, _, _, _, _, _, _, rfl⟩ := segCue_taken h
    exact s.updProg_attends p _
  · obtain ⟨p, a, r, _, _, _, rfl⟩ := segAmend_taken h
    exact s.updProg_attends p _
  · obtain ⟨p, id, r, _, _, rfl⟩ := segWithdraw_taken h
    exact (s.withdraw_notifies x p r).attends
  · obtain ⟨p, _, _, rfl⟩ := segTake_taken h
    exact (s.take_notifies p _).attends
  · obtain ⟨p, cause, _, _, rfl⟩ := segEnd_taken h
    exact (s.endSegment_notifies p cause).attends

/-- Of the requests there are (R197), all but DEV.RESTART and PORT.LEAVE leave straps, reception and presence. -/
theorem handlerOf_attends {code : Byte} {h : Handler} (found : handlerOf code = some h) :
    h.Attends ∨ h = devRestartRequest ∨ (code = 0x06 ∧ h = portLeaveRequest) := by
  obtain ⟨_, _, _, _, _, _, _⟩ := readingRequests_attend
  obtain ⟨_, _, _, _, _, _, _, _⟩ := portRequests_attend
  obtain ⟨_, _, _, _, _, _, _, _, _, _⟩ := progRequests_attend
  obtain ⟨_, _, _, _, _⟩ := segRequests_attend
  unfold handlerOf at found
  split at found
  case h_2 => exact .inr (.inl (Option.some.inj found).symm)
  case h_6 leave => exact .inr (.inr ⟨BitVec.eq_of_toNat_eq leave, (Option.some.inj found).symm⟩)
  case h_33 => cases found
  all_goals
    obtain rfl := Option.some.inj found
    left
    assumption

/-- What a request that is taken does to straps, reception and presence. -/
theorem handler_taken {code : Byte} {h : Handler} (found : handlerOf code = some h) {x : PortId} {ps : List Byte} {s t : State}
    {d : List Byte} (taken : h x ps s = .ok (t, d)) : s.Attends t ∨ t = s.restart ∨ (code = 0x06 ∧ t = s.lapse x) := by
  rcases handlerOf_attends found with attends | rfl | ⟨leave, rfl⟩
  · exact .inl (attends x ps s t d taken)
  · obtain ⟨_, _, restart⟩ := devRestart_taken taken
    exact .inr (.inl restart)
  · exact .inr (.inr ⟨leave, portLeave_taken taken⟩)

/-! ### The answer -/

/-- R162: where a request is judged its port has no frame in progress, and is PRESENT. -/
theorem State.judged_stand (s : State) (x : PortId) : ((s.judged x).port x).stand = (.idle, none, true) := by
  rw [State.judged, State.updPort_port_same]
  rfl

/-- R165, R166: a port that leaves has no frame in progress. -/
theorem State.lapse_receiver (s : State) (x : PortId) :
    ((s.lapse x).port x).rx = (s.port x).rx ∧ ((s.lapse x).port x).gap = (s.port x).gap := by
  rw [State.lapse_port_same, Port.raiseAny_parts, Port.raiseAny_parts .custody]
  exact ⟨rfl, rfl⟩

theorem Port.stand_eq_iff (P : Port) (rx : Receiver) (gap : Option Nat) (present : Bool) :
    P.stand = (rx, gap, present) ↔ P.rx = rx ∧ P.gap = gap ∧ P.present = present := by
  rw [Port.stand, Prod.mk_inj, Prod.mk_inj]

/-- R162, R181: after a request the receiver of its port is idle, and the port is PRESENT unless it has left. -/
theorem handler_receiver {code : Byte} {h : Handler} (found : handlerOf code = some h) {x : PortId} {ps : List Byte}
    {s t : State} {d : List Byte} (taken : h x ps (s.judged x) = .ok (t, d)) :
    (t.port x).rx = .idle ∧ (t.port x).gap = none ∧ (code ≠ 0x06 → (t.port x).present = true) := by
  obtain ⟨rx, gap, present⟩ := (Port.stand_eq_iff _ _ _ _).mp (s.judged_stand x)
  rcases handler_taken found taken with attends | restarted | ⟨leave, left⟩
  · obtain ⟨rx, gap, present⟩ := (Port.stand_eq_iff _ _ _ _).mp ((attends.stand x).trans (s.judged_stand x))
    exact ⟨rx, gap, fun _ => present⟩
  · rw [restarted, State.restart_port]
    exact ⟨rfl, rfl, fun _ => rfl⟩
  · obtain ⟨sameRx, sameGap⟩ := (s.judged x).lapse_receiver x
    rw [left]
    exact ⟨sameRx.trans rx, sameGap.trans gap, fun other => absurd leave other⟩

/-- Each request row is the frame end of the request that its code names (R197). -/
theorem exec_requestRows (x : PortId) (tag : Byte) (ps : List Byte) : ∀ ci ∈ requestRows x tag ps,
    ∃ h, handlerOf ci.1 = some h ∧ ∀ s, exec ci.2 s = .next (s.request ci.1 h x tag ps) := by
  simp only [requestRows, List.cons_append, List.nil_append, List.forall_mem_cons, List.not_mem_nil, false_implies,
    implies_true, and_true]
  and_intros
  all_goals exact ⟨_, rfl, fun _ => rfl⟩

/-- Settles O30: `handler_receiver` for a request that is taken; one that is refused leaves the state it was judged in. -/
theorem everyRequestIsAnswered : Obligations.EveryRequestIsAnswered := by
  refine ⟨fun s x tag ps receptive ci row => ?_, fun s x tag ps replying ci row => ?_⟩
  · obtain ⟨h, found, runs⟩ := exec_requestRows x tag ps ci row
    cases outcome : h x ps (s.judged x) with
    | error e =>
      obtain ⟨rx, gap, present⟩ := (Port.stand_eq_iff _ _ _ _).mp (s.judged_stand x)
      exact ⟨s.judged x, e.1, e.2, (runs s).trans (request_refused receptive ci.1 h tag ps outcome), rx, gap,
        fun _ => present, fun _ => rfl⟩
    | ok v =>
      obtain ⟨rx, gap, present⟩ := handler_receiver found outcome
      exact ⟨v.1, .ok, v.2, (runs s).trans (request_taken receptive ci.1 h tag ps outcome), rx, gap, present,
        fun refused => absurd rfl refused⟩
  · obtain ⟨h, _, runs⟩ := exec_requestRows x tag ps ci row
    rw [runs, State.request, takeRequest_replying _ _ _ _ _ _ replying]
    rfl

end Sys2Proof.Machine
end

section
/-! The straps (R152, R179): the override port and the bit rate are what POWER_ON_RESET has sampled, through every other step. -/

namespace Sys2Proof.Machine

/-! ### Each piece of a step -/

@[simp] theorem State.setLine_straps (s : State) (k : Index) (v : CueLine) : (s.setLine k v).straps = s.straps := rfl
@[simp] theorem State.updPort_straps (s : State) (x : PortId) (f : Port → Port) : (s.updPort x f).straps = s.straps := rfl
@[simp] theorem State.sendReply_straps (s : State) (x : PortId) (f : List Byte) : (s.sendReply x f).straps = s.straps := rfl
@[simp] theorem State.useFree_straps (s : State) : s.useFree.straps = s.straps := rfl
@[simp] theorem State.tick_straps (s : State) : s.tick.straps = s.straps := rfl

@[simp] theorem State.settle_straps (s : State) : s.settle.straps = s.straps :=
  ((settles_notifies s).settle s (.refl s)).straps

@[simp] theorem State.takeFrameSync_straps (s : State) : s.takeFrameSync.straps = s.straps := s.takeFrameSync_notifies.straps
@[simp] theorem State.missSync_straps (s : State) : s.missSync.straps = s.straps := s.missSync_notifies.straps
@[simp] theorem State.expireWatch_straps (s : State) : s.expireWatch.straps = s.straps := s.expireWatch_notifies.straps

@[simp] theorem State.completeFrame_straps (s : State) (slots : List (BitVec 32)) :
    (s.completeFrame slots).straps = s.straps := (s.completeFrame_notifies slots).straps

@[simp] theorem State.enterLocked_straps (s : State) : s.enterLocked.straps = s.straps := s.enterLocked_notifies.straps

@[simp] theorem State.settleClose_straps (s : State) (p : Index) : (s.settleClose p).straps = s.straps :=
  ((settles_notifies s).settleClose s p (.refl s)).straps

@[simp] theorem State.settleRamp_straps (s : State) (p : Index) : (s.settleRamp p).straps = s.straps :=
  ((settles_notifies s).settleRamp s p (.refl s)).straps

@[simp] theorem State.settleDuration_straps (s : State) (p : Index) : (s.settleDuration p).straps = s.straps :=
  ((settles_notifies s).settleDuration s p (.refl s)).straps

@[simp] theorem State.acceptEdge_straps (s : State) (k : Index) : (s.acceptEdge k).straps = s.straps :=
  (s.acceptEdge_attends k).straps

@[simp] theorem State.changeLine_straps (s : State) (k : Index) (high : Bool) : (s.changeLine k high).straps = s.straps := by
  unfold State.changeLine
  simp only
  split
  · rfl
  · split
    · rfl
    · split <;> simp

@[simp] theorem State.expireReject_straps (s : State) (k : Index) : (s.expireReject k).straps = s.straps := by
  unfold State.expireReject
  split <;> simp

/-- R152: a restart does not sample the straps again. -/
@[simp] theorem State.restart_straps (s : State) : s.restart.straps = s.straps := by
  obtain ⟨override, baud, _⟩ := s.restart_part
  exact (State.straps_eq_iff _ _).mpr ⟨override, baud⟩

@[simp] theorem State.pinLow_straps (s : State) : s.pinLow.straps = s.straps := by
  unfold State.pinLow
  split
  · exact s.restart_straps
  · rfl

@[simp] theorem State.lapse_straps (s : State) (x : PortId) : (s.lapse x).straps = s.straps := by
  rw [s.lapse_parts x]
  rfl

@[simp] theorem State.expireSilence_straps (s : State) (x : PortId) : (s.expireSilence x).straps = s.straps := by
  unfold State.expireSilence
  split <;> simp

@[simp] theorem State.expireGap_straps (s : State) (x : PortId) : (s.expireGap x).straps = s.straps := by
  unfold State.expireGap
  split <;> simp

/-! ### Requests -/

/-- A handler whose taken requests leave the straps. -/
def Handler.HoldsStraps (h : Handler) : Prop := ∀ x ps s t d, h x ps s = .ok (t, d) → t.straps = s.straps

theorem refuseAll_holdsStraps (r : Result) : (refuseAll r).HoldsStraps := fun _ _ _ _ _ taken => nomatch taken

theorem handlerOf_holdsStraps {code : Byte} {h : Handler} (found : handlerOf code = some h) : h.HoldsStraps := by
  intro x ps s t d taken
  rcases handler_taken found taken with attends | restarted | ⟨_, left⟩
  · exact attends.straps
  · rw [restarted, State.restart_straps]
  · rw [left, State.lapse_straps]

theorem State.takeRequest_straps (s : State) (code : Byte) {h : Handler} (holds : h.HoldsStraps) (x : PortId) (tag : Byte)
    (ps : List Byte) : (s.takeRequest code h x tag ps).straps = s.straps := by
  rcases takeRequest_cases s code h x tag ps with discarded | ⟨f, refused⟩ | ⟨t, d, f, taken, replied⟩
  · rw [discarded, State.updPort_straps]
  · rw [refused, State.sendReply_straps, State.updPort_straps]
  · rw [replied, State.sendReply_straps, holds _ _ _ _ _ taken, State.updPort_straps]

theorem State.request_straps (s : State) {code : Byte} {h : Handler} (found : handlerOf code = some h) (x : PortId) (tag : Byte)
    (ps : List Byte) : (s.request code h x tag ps).straps = s.straps :=
  (s.settle.takeRequest_straps code (handlerOf_holdsStraps found) x tag ps).trans s.settle_straps

@[simp] theorem State.frameEnd_straps (s : State) (x : PortId) (body : List Byte) : (s.frameEnd x body).straps = s.straps := by
  unfold State.frameEnd
  split
  · rfl
  · exact s.takeRequest_straps _ (refuseAll_holdsStraps _) x _ _
  · rename_i code tag ps
    refine s.takeRequest_straps _ ?_ x _ _
    cases found : handlerOf code with
    | none => exact refuseAll_holdsStraps _
    | some h => exact handlerOf_holdsStraps found

@[simp] theorem State.receive_straps (s : State) (x : PortId) (b : Byte) : (s.receive x b).straps = s.straps := by
  unfold State.receive
  split
  · split <;> simp
  · split <;> simp
  · simp
  · simp
  · unfold State.completeRx
    split
    · simp
    · split <;> simp

/-! ### Every step -/

@[simp] theorem State.expire_straps (s : State) (t : Timer) : (s.expire t).straps = s.straps := by
  cases t with
  | watch => exact s.expireWatch_straps
  | gap x => exact s.expireGap_straps x
  | silence x => exact s.expireSilence_straps x
  | reject k => exact s.expireReject_straps k

theorem State.idle_straps (s : State) : s.idle.straps = s.straps := by
  unfold State.idle
  simp only
  split <;> simp

/-- R152, R179: every command but POWER_ON_RESET leaves the straps. -/
theorem exec_straps (c : Instr) (s : State) :
    (∃ straps levels, c = .powerOnReset straps levels) ∨ ∃ t, exec c s = .next t ∧ t.straps = s.straps := by
  cases c with
  | powerOnReset straps levels => exact .inl ⟨straps, levels, rfl⟩
  | frameSync => exact .inr ⟨_, rfl, by simp⟩
  | goodFrameCount48 => exact .inr ⟨_, rfl, by split <;> simp⟩
  | missingFrameSync => exact .inr ⟨_, rfl, by simp⟩
  | syncWatchExpiry => exact .inr ⟨_, rfl, by simp⟩
  | processedFrame slots => exact .inr ⟨_, rfl, by simp⟩
  | blockClose p => exact .inr ⟨_, rfl, by simp⟩
  | rampCompletion p => exact .inr ⟨_, rfl, by simp⟩
  | durationReached p => exact .inr ⟨_, rfl, by simp⟩
  | cueLineChange k high => exact .inr ⟨_, rfl, by simp⟩
  | rejectLengthExpiry k => exact .inr ⟨_, rfl, by simp⟩
  | restartnArmed => exact .inr ⟨_, rfl, rfl⟩
  | restartnLow => exact .inr ⟨_, rfl, by simp⟩
  | frameCrcWrong x => exact .inr ⟨_, rfl, by simp⟩
  | lengthInvalid x => exact .inr ⟨_, rfl, by simp⟩
  | framingError x => exact .inr ⟨_, rfl, by simp⟩
  | gapTimeout x => exact .inr ⟨_, rfl, by simp⟩
  | frameDuringReply x => exact .inr ⟨_, rfl, by split <;> simp⟩
  | replyEnd x => exact .inr ⟨_, rfl, by simp⟩
  | unknownRequest x body => exact .inr ⟨_, rfl, by simp⟩
  | silenceTimerExpiry x => exact .inr ⟨_, rfl, by simp⟩
  | byteReceived x b => exact .inr ⟨_, rfl, by simp⟩
  | _ x tag ps => exact .inr ⟨_, rfl, s.request_straps rfl x tag ps⟩

/-- Settles O4: `exec_straps` for the command at the front of the queue, `State.idle_straps` where none waits. -/
theorem strapsHoldUntilPowerOn : Obligations.StrapsHoldUntilPowerOn := by
  refine ⟨fun straps levels s t done => ?_, ⟨rfl, rfl, rfl, rfl⟩, fun s t done => ?_⟩
  · injection done with done
    subst done
    exact ⟨rfl, rfl⟩
  · rw [← State.straps_eq_iff]
    unfold step at done
    split at done
    · injection done with done
      exact .inr (done ▸ s.idle_straps)
    · rename_i c rest waiting
      rcases exec_straps c { s with pending := rest } with ⟨straps, levels, rfl⟩ | ⟨u, runs, held⟩
      · exact .inl ⟨straps, levels, rest, waiting⟩
      · rw [runs] at done
        injection done with done
        exact .inr (done ▸ held)

end Sys2Proof.Machine
end

section
/-! Cue lines (09_cue_lines.md): CUE_LINE_CHANGE and REJECT_LENGTH_EXPIRY (R171), CUE.READ (R174), and CUE.CONFIG (R175), which sets
the polarity and the reject length of a line, and after that may accept its pending change as an edge. -/

namespace Sys2Proof.Machine

/-! ### A line written twice -/

theorem State.setLine_setLine (s : State) (k : Index) (l m : CueLine) : (s.setLine k l).setLine k m = s.setLine k m := by
  simp only [State.setLine, Octet.set_set]

theorem State.setLine_self (s : State) (k : Index) : s.setLine k (s.line k) = s := by
  simp only [State.setLine, State.line, Octet.set_get]

/-! ### CUE_LINE_CHANGE -/

section

variable {s : State} {k : Index} {high : Bool}

theorem State.changeLine_same (same : high = (s.line k).raw) : s.changeLine k high = s := if_pos same

/-- R171: a line that returns to its accepted level has no change pending. -/
theorem State.changeLine_back (new : high ≠ (s.line k).raw) (back : high = (s.line k).accepted) :
    s.changeLine k high = s.setLine k { s.line k with raw := high, change := none } := by
  simp only [State.changeLine, if_neg new, if_pos back, State.setLine_setLine]

theorem State.changeLine_starts (new : high ≠ (s.line k).raw) (away : high ≠ (s.line k).accepted)
    (waits : (s.line k).reject ≠ .ms0) :
    s.changeLine k high = s.setLine k { s.line k with raw := high, change := some 0 } := by
  simp only [State.changeLine, if_neg new, if_neg away, if_neg waits, State.setLine_setLine]

theorem State.changeLine_accepts (new : high ≠ (s.line k).raw) (away : high ≠ (s.line k).accepted)
    (atOnce : (s.line k).reject = .ms0) :
    s.changeLine k high = (s.setLine k { s.line k with raw := high }).acceptEdge k := by
  simp only [State.changeLine, if_neg new, if_neg away, if_pos atOnce]

end

/-! ### REJECT_LENGTH_EXPIRY -/

theorem State.expireReject_pending {s : State} {k : Index} {n : Nat} (pending : (s.line k).change = some n) :
    s.expireReject k = if (s.line k).reject.ticks ≤ n then s.acceptEdge k else s := by
  have due : s.expired (.reject k) = true ↔ (s.line k).reject.ticks ≤ n := by
    simp [State.expired_reject_iff, pending]
  simp only [State.expireReject, due]

theorem State.expireReject_none {s : State} {k : Index} (idle : (s.line k).change = none) : s.expireReject k = s := by
  have due : ¬s.expired (.reject k) = true := by simp [State.expired_reject_iff, idle]
  rw [State.expireReject, if_neg due]

/-- Settles O24: the four cases of `State.changeLine`, and `State.expireReject` with and without a pending change. -/
theorem cueLineQualification : Obligations.CueLineQualification := by
  intro s k high u l
  refine ⟨fun same => congrArg Host.Outcome.next (State.changeLine_same same),
    fun new back => congrArg Host.Outcome.next (State.changeLine_back new back),
    fun new away waits => congrArg Host.Outcome.next (State.changeLine_starts new away waits),
    fun new away atOnce => congrArg Host.Outcome.next (State.changeLine_accepts new away atOnce),
    fun n pending => ?_, fun idle => congrArg Host.Outcome.next (State.expireReject_none idle)⟩
  have expiry : exec (.rejectLengthExpiry k) s = .next (if l.reject.ticks ≤ n then u.acceptEdge k else u) :=
    congrArg Host.Outcome.next (State.expireReject_pending pending)
  exact ⟨fun reached => expiry.trans (congrArg Host.Outcome.next (if_pos reached)),
    fun early => expiry.trans (congrArg Host.Outcome.next (if_neg (Nat.not_le.mpr early)))⟩

/-! ### The polarity of a line -/

/-- R177: the programme's tally is this line, which the new polarity makes INACTIVE. -/
abbrev Prog.silencedBy (P : Prog) (k : Index) (l : CueLine) (inverted : Bool) : Prop :=
  P.entry.tally = some k ∧ inverted ≠ l.inverted ∧ l.accepted = inverted

/-- R175, R177: a polarity that makes the line INACTIVE is remembered, one that makes it active, or changes nothing, is not. -/
theorem State.setPolarity_prog (s : State) (k : Index) (inverted : Bool) (p : Index) :
    (s.setPolarity k inverted).prog p = { s.prog p with meas := { (s.prog p).meas with
      tallyLatch := (s.prog p).meas.tallyLatch || decide ((s.prog p).silencedBy k (s.line k) inverted) } } := by
  unfold State.setPolarity
  by_cases same : inverted = (s.line k).inverted
  · have kept : ¬(s.prog p).silencedBy k (s.line k) inverted := fun silenced => silenced.2.1 same
    rw [if_pos same, decide_eq_false kept, Bool.or_false]
  · rw [if_neg same, State.mapProgs_prog, State.setLine_prog]
    by_cases inactive : (s.line k).accepted = inverted
    · have level : CueLine.active { s.line k with inverted := inverted } = false := by simp [CueLine.active, inactive]
      have named : (s.prog p).silencedBy k (s.line k) inverted ↔ (s.prog p).entry.tally = some k :=
        ⟨fun silenced => silenced.1, fun tally => ⟨tally, same, inactive⟩⟩
      rw [level, Prog.tallyChange_falling]
      simp only [named]
    · have level : CueLine.active { s.line k with inverted := inverted } = true := by simp [CueLine.active, inactive]
      have kept : ¬(s.prog p).silencedBy k (s.line k) inverted := fun silenced => inactive silenced.2.2
      rw [Prog.tallyChange_none (.inr level), decide_eq_false kept, Bool.or_false]

theorem State.setPolarity_lines (s : State) (k : Index) (inverted : Bool) :
    (s.setPolarity k inverted).lines = s.lines.set k { s.line k with inverted := inverted } := by
  unfold State.setPolarity
  by_cases same : inverted = (s.line k).inverted
  · rw [if_pos same, same]
    exact (congrArg State.lines (s.setLine_self k)).symm
  · rw [if_neg same]
    rfl

theorem State.setPolarity_line_same (s : State) (k : Index) (inverted : Bool) :
    (s.setPolarity k inverted).line k = { s.line k with inverted := inverted } := by
  rw [State.line, State.setPolarity_lines, Octet.get_set_same]

theorem State.setPolarity_line_other (s : State) {j k : Index} (inverted : Bool) (other : j ≠ k) :
    (s.setPolarity k inverted).line j = s.line j := by
  rw [State.line, State.setPolarity_lines, Octet.get_set_other _ _ _ _ other, State.line]

/-- R175: a polarity change is no edge. -/
theorem State.setPolarity_frame (s : State) (k : Index) (inverted : Bool) : s.setPolarity k inverted
    = { s with lines := (s.setPolarity k inverted).lines, progs := (s.setPolarity k inverted).progs } := by
  unfold State.setPolarity
  dsimp only
  split <;> rfl

/-! ### The reject length of a line -/

/-- R175: the line with a reject length; a new one restarts a pending change at 0. -/
def CueLine.withReject (l : CueLine) (reject : RejectLength) : CueLine :=
  { l with
    reject := reject
    change := if reject = l.reject then l.change else l.change.map fun _ => 0 }

/-- R175: a new reject length of 0 accepts a pending change at once. -/
abbrev CueLine.acceptsAtOnce (l : CueLine) (reject : RejectLength) : Prop :=
  reject ≠ l.reject ∧ reject = .ms0 ∧ l.change.isSome = true

theorem State.setReject_eq (s : State) (k : Index) (reject : RejectLength) : s.setReject k reject
    = if (s.line k).acceptsAtOnce reject then (s.setLine k ((s.line k).withReject reject)).acceptEdge k
      else s.setLine k ((s.line k).withReject reject) := by
  unfold State.setReject CueLine.withReject
  by_cases same : reject = (s.line k).reject
  · have waits : ¬(s.line k).acceptsAtOnce reject := fun accepts => accepts.1 same
    simp only [if_pos same, if_neg waits]
    rw [same, State.setLine_self]
  · have atOnce : (s.line k).acceptsAtOnce reject ↔ reject = .ms0 ∧ (s.line k).change.isSome = true :=
      ⟨fun accepts => accepts.2, fun accepts => ⟨same, accepts⟩⟩
    simp only [if_neg same, atOnce]

/-! ### What CUE.CONFIG leaves of a line -/

/-- R175: what CUE.CONFIG leaves before the edge it may bring. -/
def State.lineConfigured (s : State) (k : Index) (inverted : Bool) (reject : RejectLength) : State :=
  (s.setPolarity k inverted).setLine k (((s.setPolarity k inverted).line k).withReject reject)

section

variable (s : State) (k : Index) (inverted : Bool) (reject : RejectLength)

theorem State.configLine_eq : (s.setPolarity k inverted).setReject k reject
    = if (s.line k).acceptsAtOnce reject then (s.lineConfigured k inverted reject).acceptEdge k
      else s.lineConfigured k inverted reject := by
  rw [State.setReject_eq, State.lineConfigured, State.setPolarity_line_same]

theorem State.lineConfigured_line_same : (s.lineConfigured k inverted reject).line k
    = CueLine.withReject { s.line k with inverted := inverted } reject := by
  rw [State.lineConfigured, State.setLine_line_same, State.setPolarity_line_same]

theorem State.lineConfigured_line_other (j : Index) (other : j ≠ k) :
    (s.lineConfigured k inverted reject).line j = s.line j :=
  (State.setLine_line_other _ k j _ other).trans (s.setPolarity_line_other inverted other)

theorem State.lineConfigured_prog (p : Index) : (s.lineConfigured k inverted reject).prog p = { s.prog p with
    meas := { (s.prog p).meas with
      tallyLatch := (s.prog p).meas.tallyLatch || decide ((s.prog p).silencedBy k (s.line k) inverted) } } :=
  s.setPolarity_prog k inverted p

theorem State.lineConfigured_frame : s.lineConfigured k inverted reject
    = { s with lines := (s.lineConfigured k inverted reject).lines, progs := (s.lineConfigured k inverted reject).progs } := by
  unfold State.lineConfigured State.setLine
  rw [s.setPolarity_frame]

theorem State.lineConfigured_ports : (s.lineConfigured k inverted reject).ports = s.ports := by
  rw [s.lineConfigured_frame]

end

/-- R173: an accepted edge is noticed at every port. -/
theorem State.acceptEdge_noticed (s : State) (k : Index) : (s.acceptEdge k).noticed .cueEdge k := fun x => by
  rw [(s.acceptEdge_accepted k).cueEdge x]
  simp [bitOf_getLsbD]

theorem State.acceptEdge_line_same (s : State) (k : Index) :
    (s.acceptEdge k).line k = { s.line k with accepted := (s.line k).raw, change := none } :=
  ((s.acceptEdge_accepted k).line k).trans (s.edgeReported_line_same k _)

theorem State.acceptEdge_line_other (s : State) {j k : Index} (other : j ≠ k) : (s.acceptEdge k).line j = s.line j :=
  ((s.acceptEdge_accepted k).line j).trans (s.edgeReported_line_other k _ other)

/-- R171, R175: the line after the edge that a new reject length of 0 brings. -/
theorem State.lineConfigured_acceptEdge_line (s : State) (k : Index) (inverted : Bool) (reject : RejectLength) :
    ((s.lineConfigured k inverted reject).acceptEdge k).line k = { s.line k with
      inverted := inverted
      reject := reject
      accepted := (s.line k).raw
      change := none } := by
  rw [State.acceptEdge_line_same, State.lineConfigured_line_same]
  rfl

/-! ### The checks of CUE.CONFIG -/

theorem State.mayConfigureLines_iff (v : State) (x : PortId) :
    v.mayConfigureLines x = true ↔ v.override = none ∨ v.override = some x := by
  simp [State.mayConfigureLines]

section

variable {v : State} {x : PortId} {line polarity length : Byte}

theorem cueConfigRequest_badValue (bad : indexOf line = none ∨ flagOf polarity = none ∨ rejectOf length = none) :
    cueConfigRequest x [line, polarity, length] v = .error (.badValue, []) := by
  simp only [cueConfigRequest]
  cases index : indexOf line with
  | none => rfl
  | some k =>
    cases flag : flagOf polarity with
    | none => rfl
    | some inverted =>
      have read : rejectOf length = none := by simpa [index, flag] using bad
      simp only [read]
      rfl

variable {k : Index} {inverted : Bool} {reject : RejectLength}
  (index : indexOf line = some k) (flag : flagOf polarity = some inverted) (read : rejectOf length = some reject)
include index flag read

theorem cueConfigRequest_legal : cueConfigRequest x [line, polarity, length] v = (do
    demand (v.mayConfigureLines x) .noRights
    .ok ((v.setPolarity k inverted).setReject k reject, [])) := by
  simp only [cueConfigRequest, index, flag, read, need_some]

end

/-- Settles O26: the checks of CUE.CONFIG in their order, `State.lineConfigured` as the state it leaves, or as the state in which
it accepts an edge; and CUE.READ, which is never refused. -/
theorem cueRequests : Obligations.CueRequests := by
  refine ⟨fun s x tag line polarity length hs => ?_, fun s x tag hs =>
    request_taken hs 0x41 cueReadRequest tag [] rfl⟩
  intro v ask
  refine ⟨fun bad => request_refused hs 0x40 cueConfigRequest tag _ (cueConfigRequest_badValue bad),
    fun k inverted reject index flag read => ?_⟩
  have checks := cueConfigRequest_legal (v := v) (x := x) index flag read
  refine ⟨fun rights => request_refused hs 0x40 cueConfigRequest tag _ (checks.trans ?_), fun rights =>
    ⟨(v.setPolarity k inverted).setReject k reject,
      request_taken hs 0x40 cueConfigRequest tag _ (checks.trans ?_), ?_⟩⟩
  · rw [Bool.eq_false_iff.mpr (mt (v.mayConfigureLines_iff x).mp rights)]
    rfl
  · rw [(v.mayConfigureLines_iff x).mpr rights]
    rfl
  · have configured := v.configLine_eq k inverted reject
    have own := v.lineConfigured_line_same k inverted reject
    have others := v.lineConfigured_line_other k inverted reject
    have ports := v.lineConfigured_ports k inverted reject
    have frame := v.lineConfigured_frame k inverted reject
    have progs := v.lineConfigured_prog k inverted reject
    by_cases once : (v.line k).acceptsAtOnce reject
    · have edge := configured.trans (if_pos once)
      have line := (congrArg (State.line · k) edge).trans (v.lineConfigured_acceptEdge_line k inverted reject)
      have noticed := (v.lineConfigured k inverted reject).acceptEdge_noticed k
      obtain ⟨new, zero, pending⟩ := once
      exact ⟨congrArg CueLine.inverted line, congrArg CueLine.reject line, (congrArg CueLine.raw line :),
        fun j other => (congrArg (State.line · j) edge).trans ((State.acceptEdge_line_other _ other).trans (others j other)),
        fun same => absurd same new, fun _ long => absurd zero long, fun _ _ idle => absurd pending (by simp [idle]),
        fun _ _ _ => ⟨congrArg CueLine.change line, congrArg CueLine.accepted line, edge ▸ noticed⟩,
        _, configured, frame, own, progs⟩
    · have quiet := configured.trans (if_neg once)
      have line := (congrArg (State.line · k) quiet).trans own
      have unnoticed := (congrArg State.ports quiet).trans ports
      exact ⟨congrArg CueLine.inverted line, congrArg CueLine.reject line, (congrArg CueLine.raw line :),
        fun j other => (congrArg (State.line · j) quiet).trans (others j other),
        fun same => ⟨(congrArg CueLine.change line).trans (if_pos same), (congrArg CueLine.accepted line :), unnoticed⟩,
        fun new _ => ⟨(congrArg CueLine.change line).trans (if_neg new), (congrArg CueLine.accepted line :), unnoticed⟩,
        fun _ _ _ => unnoticed, fun new zero pending => absurd ⟨new, zero, pending⟩ once,
        _, configured, frame, own, progs⟩

end Sys2Proof.Machine
end

section
/-! Reception (R180 to R183): what a byte does in each state of the receiver, which request a frame carries, and the rows that end a
frame or a reply. -/

namespace Sys2Proof.Machine

/-! ### Request codes -/

/-- R197: the request codes are the codes of the request rows; two of them have two rows each. -/
theorem requestRows_codes (x : PortId) (tag : Byte) (ps : List Byte) :
    ((requestRows x tag ps).map Prod.fst).dedup = requestCodes := by
  simp only [requestRows, List.cons_append, List.nil_append, List.map_cons, List.map_nil]
  decide

theorem recognised_iff_row (code : Byte) (x : PortId) (tag : Byte) (ps : List Byte) :
    recognised code = true ↔ ∃ ci ∈ requestRows x tag ps, ci.1 = code := by
  rw [recognised, List.contains_iff_mem, ← requestRows_codes x tag ps, List.mem_dedup, List.mem_map]

/-- R185: a code that is not in the request code list has no request. -/
theorem handlerOf_unrecognised {code : Byte} (other : recognised code = false) : handlerOf code = none := by
  unfold handlerOf
  split
  case h_33 => rfl
  all_goals
    rename_i listed
    rw [Byte.eq_of_toNat listed] at other
    cases other

/-! ### A byte, by the state of the receiver -/

section

variable {s : State} {x : PortId} {b : Byte}

theorem State.receive_idle (idle : (s.port x).rx = .idle) :
    s.receive x b = if b = 0xA5 then s.updPort x (Port.keep · .awaitLength) else s := by
  rw [State.receive, idle]

theorem State.receive_length (waits : (s.port x).rx = .awaitLength) : s.receive x b
    = if lengthValid b then s.updPort x (Port.keep · (.body b.toNat [])) else s.updPort x Port.discardFrame := by
  rw [State.receive, waits]

theorem State.receive_body {length : Nat} {got : List Byte} (body : (s.port x).rx = .body length got) :
    s.receive x b = s.updPort x (Port.keep · (bodyByte length got b)) := by
  rw [State.receive, body]

theorem State.receive_firstCrc {length : Nat} {body : List Byte} (crc : (s.port x).rx = .crc length body []) :
    s.receive x b = s.updPort x (Port.keep · (.crc length body [b])) := by
  rw [State.receive, crc]

theorem State.receive_secondCrc {length : Nat} {body : List Byte} {c : Byte} (crc : (s.port x).rx = .crc length body [c]) :
    s.receive x b = s.completeRx x body [c, b] := by
  rw [State.receive, crc]

/-- R181: a length byte from 1 to 250. -/
theorem lengthValid_iff : lengthValid b = true ↔ 1 ≤ b.toNat ∧ b.toNat ≤ 250 := by
  simp [lengthValid]

/-! ### A frame that completes -/

variable {body crc : List Byte}

theorem State.completeRx_replying (replying : (s.port x).reply.isSome = true) :
    s.completeRx x body crc = s.updPort x Port.discardFrame := if_pos replying

theorem State.completeRx_listening (listening : (s.port x).reply = none) :
    s.completeRx x body crc = if crc = crcBytes body then s.frameEnd x body else s.updPort x Port.discardFrame :=
  if_neg (by simp [listening])

theorem State.frameEnd_request {code tag : Byte} {ps : List Byte} {h : Handler} (found : handlerOf code = some h) :
    s.frameEnd x (code :: tag :: ps) = s.takeRequest code h x tag ps := by
  rw [State.frameEnd, found, Option.getD_some]

/-! ### GAP_TIMEOUT -/

/-- R182: a gap of more than 10 ms, at 3000 ticks a millisecond (log 2), ends the frame. -/
theorem State.expireGap_running {n : Nat} (running : (s.port x).gap = some n) :
    s.expireGap x = if 30000 < n then s.updPort x Port.discardFrame else s := by
  have due : s.expired (.gap x) = true ↔ 30000 < n := by simp [State.expired_gap_iff, running]
  simp only [State.expireGap, due]

theorem State.expireGap_stopped (stopped : (s.port x).gap = none) : s.expireGap x = s := by
  have due : ¬s.expired (.gap x) = true := by simp [State.expired_gap_iff, stopped]
  rw [State.expireGap, if_neg due]

end

/-- Settles O28: `State.receive` by the state of the receiver, `State.completeRx_listening` for the second CRC byte, and
`State.expireGap_running` for the gap. -/
theorem reception : Obligations.Reception := by
  refine ⟨fun s x b => ?_, recognised_iff_row, fun s x => ?_⟩
  · intro u P kept dropped
    have byte : ∀ {t}, u.receive x b = t → exec (.byteReceived x b) s = .next t := congrArg Host.Outcome.next
    have second : ∀ {l body c}, P.rx = .crc l body [c] → P.reply = none → exec (.byteReceived x b) s
        = .next (if [c, b] = crcBytes body then u.frameEnd x body else dropped) := fun crc listening =>
      byte ((State.receive_secondCrc crc).trans (State.completeRx_listening listening))
    refine ⟨fun idle lead => byte ((State.receive_idle idle).trans (if_pos lead)),
      fun idle other => byte ((State.receive_idle idle).trans (if_neg other)),
      fun waits low high => byte ((State.receive_length waits).trans (if_pos (lengthValid_iff.mpr ⟨low, high⟩))),
      fun waits invalid => byte ((State.receive_length waits).trans (if_neg ?_)),
      fun l got rx more => byte ((State.receive_body rx).trans ?_),
      fun l got rx last => byte ((State.receive_body rx).trans ?_),
      fun l body crc => byte (State.receive_firstCrc crc),
      fun l body c crc listening wrong => (second crc listening).trans (congrArg _ (if_neg wrong)),
      fun l body c crc replying => byte ((State.receive_secondCrc crc).trans (State.completeRx_replying replying)),
      fun l code tag ps c ci crc listening right row named => ?_,
      fun l body c crc listening right _ => (second crc listening).trans (congrArg _ (if_pos right))⟩
    · rw [lengthValid_iff]
      omega
    · rw [bodyByte, if_neg (by omega)]
      rfl
    · rw [bodyByte, if_pos (by omega)]
      rfl
    · obtain ⟨h, found, runs⟩ := exec_requestRows x tag ps ci row
      subst named
      rw [runs, second crc listening, if_pos right, State.frameEnd_request found]
      rfl
  · intro dropped
    have timeout : ∀ {t}, s.expireGap x = t → exec (.gapTimeout x) s = .next t := congrArg Host.Outcome.next
    exact ⟨rfl, rfl, rfl,
      fun n running late => timeout ((State.expireGap_running running).trans (if_pos late)),
      fun n running within => timeout ((State.expireGap_running running).trans (if_neg (Nat.not_lt.mpr within))),
      fun stopped => timeout (State.expireGap_stopped stopped),
      fun replying => congrArg Host.Outcome.next (if_pos replying),
      fun listening => congrArg Host.Outcome.next (if_neg (by simp [listening])), rfl⟩

end Sys2Proof.Machine
end

section
/-! Bad requests (R185, R195, R197): UNKNOWN_REQUEST, parameters that do not match their layout, and a programme index above 7. A
request reads its body before all other checks, and a request that names a programme reads its index next. -/

namespace Sys2Proof.Machine

/-! ### Readers of a body -/

theorem noParams_carried {ps : List Byte} (carried : ps ≠ []) : noParams ps = .error (.malformed, []) := by
  rw [← bind_pure (noParams ps)]
  exact noParams_malformed carried pure

/-- R185: the readers of one programme byte, of two bytes and of a set of notice kinds, at another length. -/
theorem readers_malformed (ps : List Byte) : (ps.length ≠ 1 → readProg ps = .error (.malformed, []))
    ∧ (ps.length ≠ 2 → readTwo ps = .error (.malformed, []))
    ∧ (ps.length ≠ 2 → readKinds ps = .error (.malformed, [])) := by
  unfold readProg readTwo readKinds
  and_intros
  all_goals
    intro other
    split
    · exact absurd rfl other
    · rfl

theorem readProg_badValue {b : Byte} (above : 8 ≤ b.toNat) : readProg [b] = .error (.badValue, []) := by
  rw [readProg, indexOf_none above]
  rfl

/-! ### Rows that read a body, and rows that name a programme -/

section

variable {α : Type} {read : List Byte → Except (Result × List Byte) α} {prog : α → Byte} {s : State} {x : PortId} {tag : Byte}
  {ps : List Byte} {ci : Byte × Instr}

/-- The row is the frame end of a request that reads its body before all else. -/
def OpensWith (read : List Byte → Except (Result × List Byte) α) (x : PortId) (tag : Byte) (ps : List Byte)
    (ci : Byte × Instr) : Prop :=
  ∃ go : PortId → State → α → Taking, ∀ s, exec ci.2 s = .next (s.request ci.1 (fun x ps v => read ps >>= go x v) x tag ps)

/-- The row is the frame end of a request that reads its body, and next the index of the programme that the body names. -/
def NamesProgramme (read : List Byte → Except (Result × List Byte) α) (prog : α → Byte) (x : PortId) (tag : Byte)
    (ps : List Byte) (ci : Byte × Instr) : Prop :=
  ∃ go : PortId → State → α → Index → Taking, ∀ s, exec ci.2 s
    = .next (s.request ci.1 (fun x ps v => read ps >>= fun c => need (indexOf (prog c)) .badValue >>= go x v c) x tag ps)

theorem NamesProgramme.opens (row : NamesProgramme read prog x tag ps ci) : OpensWith read x tag ps ci := by
  obtain ⟨go, runs⟩ := row
  exact ⟨fun x v c => need (indexOf (prog c)) .badValue >>= go x v c, runs⟩

/-- R185: what the reader of the body refuses is the answer, whatever the state. -/
theorem OpensWith.refused (row : OpensWith read x tag ps ci) (hs : s.receptive x) {r : Result}
    (bad : read ps = .error (r, [])) : exec ci.2 s = answered (s.judged x) x ci.1 tag r [] := by
  obtain ⟨go, runs⟩ := row
  refine (runs s).trans (request_refused hs _ _ tag ps ?_)
  rw [bad]
  rfl

/-- R195: a programme index above 7 is BAD_VALUE in a body that is read. -/
theorem NamesProgramme.badValue (row : NamesProgramme read prog x tag ps ci) (hs : s.receptive x) {c : α}
    (carried : read ps = .ok c) (above : 8 ≤ (prog c).toNat) :
    exec ci.2 s = answered (s.judged x) x ci.1 tag .badValue [] := by
  obtain ⟨go, runs⟩ := row
  refine (runs s).trans (request_refused hs _ _ tag ps ?_)
  rw [carried]
  change (need (indexOf (prog c)) .badValue >>= _) = _
  rw [indexOf_none above, need_none]

end

section

variable (x : PortId) (tag : Byte) (ps : List Byte)

/-- R197: how the rows with no parameter, with one programme byte, and with a programme byte and another read their bodies. -/
theorem rows_read : (∀ ci ∈ bareRows x tag ps, OpensWith noParams x tag ps ci)
    ∧ (∀ ci ∈ progRows x tag ps, OpensWith readProg x tag ps ci)
    ∧ ∀ ci ∈ progPairRows x tag ps, NamesProgramme readTwo Prod.fst x tag ps ci := by
  simp only [bareRows, progRows, progPairRows, List.forall_mem_cons, List.not_mem_nil, false_implies, implies_true, and_true]
  and_intros
  all_goals exact ⟨_, fun _ => rfl⟩

theorem portStatus_opens : OpensWith readKinds x tag ps (0x03, .portStatus x tag ps) := ⟨_, fun _ => rfl⟩

theorem portMask_opens : OpensWith readKinds x tag ps (0x04, .portMask x tag ps) := ⟨_, fun _ => rfl⟩

/-- The reader of a layout, as the body of a request: MALFORMED where it reads nothing. -/
abbrev bodyOf {α : Type} (read : List Byte → Option α) (ps : List Byte) : Except (Result × List Byte) α :=
  need (read ps) .malformed

theorem segCue_names : NamesProgramme (bodyOf readCueBody) CueBody.prog x tag ps (0x20, .segCue x tag ps) :=
  ⟨_, fun _ => rfl⟩

theorem segAmend_names : NamesProgramme (bodyOf readAmendBody) AmendBody.prog x tag ps (0x21, .segAmend x tag ps) :=
  ⟨_, fun _ => rfl⟩

theorem segTake_names : NamesProgramme (bodyOf readTakeBody) Prod.fst x tag ps (0x23, .segTake x tag ps) :=
  ⟨_, fun _ => rfl⟩

theorem segEnd_names : NamesProgramme (bodyOf readEndBody) Prod.fst x tag ps (0x24, .segEnd x tag ps) :=
  ⟨_, fun _ => rfl⟩

end

theorem bodyOf_none {α : Type} {read : List Byte → Option α} {ps : List Byte} (unread : read ps = none) :
    bodyOf read ps = .error (.malformed, []) := by
  rw [bodyOf, unread]
  rfl

theorem bodyOf_some {α : Type} {read : List Byte → Option α} {ps : List Byte} {c : α} (carried : read ps = some c) :
    bodyOf read ps = .ok c := by
  rw [bodyOf, carried]
  rfl

/-! ### Requests that match their bytes one by one -/

section

variable {v : State} {x : PortId} {ps : List Byte} {b : Byte}

/-- R185: the requests of one length, at another. -/
theorem fixedLength_malformed (v : State) (x : PortId) (ps : List Byte) :
    (ps.length ≠ 5 → progSetRequest x ps v = .error (.malformed, []))
    ∧ (ps.length ≠ 3 → segWithdrawRequest x ps v = .error (.malformed, []))
    ∧ (ps.length ≠ 3 → cueConfigRequest x ps v = .error (.malformed, []))
    ∧ (ps.length ≠ 1 → portTimerRequest x ps v = .error (.malformed, [])) := by
  unfold progSetRequest segWithdrawRequest cueConfigRequest portTimerRequest
  and_intros
  all_goals
    intro other
    split
    · exact absurd rfl other
    · rfl

/-- R24, R185: PROG.TUNE with no parameter has no presence word either. -/
theorem progTuneRequest_malformed (unread : readTunables ps.tail = none) :
    progTuneRequest x ps v = .error (.malformed, []) := by
  cases ps with
  | nil => rfl
  | cons prog rest =>
    rw [List.tail_cons] at unread
    simp only [progTuneRequest, unread, need_none]

theorem progSetRequest_above (above : 8 ≤ b.toNat) (base width trigger tally : Byte) :
    progSetRequest x [b, base, width, trigger, tally] v = .error (.badValue, []) := by
  simp only [progSetRequest, indexOf_none above, need_none]

theorem segWithdrawRequest_above (above : 8 ≤ b.toNat) (hi lo : Byte) :
    segWithdrawRequest x [b, hi, lo] v = .error (.badValue, []) := by
  simp only [segWithdrawRequest, indexOf_none above, need_none]

theorem progTuneRequest_above (above : 8 ≤ b.toNat) {rest : List Byte} {set : TunableSet}
    (carried : readTunables rest = some set) : progTuneRequest x (b :: rest) v = .error (.badValue, []) := by
  simp only [progTuneRequest, carried, need_some, indexOf_none above, need_none]

end

/-! ### UNKNOWN_REQUEST -/

section

variable {s : State} {x : PortId} (hs : s.receptive x)
include hs

/-- R185: a body with no tag is answered with the tag 0x00. -/
theorem unknownRequest_noTag (code : Byte) :
    exec (.unknownRequest x [code]) s = answered (s.judged x) x code 0x00 .malformed [] :=
  request_refused hs code (refuseAll .malformed) 0x00 [] rfl

theorem unknownRequest_unrecognised {code : Byte} (other : recognised code = false) (tag : Byte) (ps : List Byte) :
    exec (.unknownRequest x (code :: tag :: ps)) s = answered (s.judged x) x code tag .unknown [] := by
  have refuses : s.settle.frameEnd x (code :: tag :: ps) = s.request code (refuseAll .unknown) x tag ps := by
    rw [State.frameEnd, handlerOf_unrecognised other]
    rfl
  exact (congrArg Host.Outcome.next refuses).trans (request_refused hs code (refuseAll .unknown) tag ps rfl)

end

/-- Settles O29: `OpensWith.refused` where the reader of the body refuses it, `NamesProgramme.badValue` where the body is read and its
programme index is above 7; the requests that match their bytes one by one, each by its own lemmas. -/
theorem badRequests : Obligations.BadRequests := by
  refine ⟨fun s x hs => ?_, fun s x tag ps hs => ?_, fun s x tag b c hs above => ?_⟩ <;> intro v
  · exact ⟨unknownRequest_noTag hs, fun code tag ps other => unknownRequest_unrecognised hs other tag ps⟩
  · obtain ⟨bare, one, pair⟩ := rows_read x tag ps
    obtain ⟨notOne, notTwo, notKinds⟩ := readers_malformed ps
    obtain ⟨set, withdraw, config, timer⟩ := fixedLength_malformed v x ps
    exact ⟨fun carried ci row => (bare ci row).refused hs (noParams_carried carried),
      fun other ci row => (one ci row).refused hs (notOne other),
      fun other ci row => (pair ci row).opens.refused hs (notTwo other),
      fun other => request_refused hs 0x11 progSetRequest tag ps (set other),
      fun other => request_refused hs 0x22 segWithdrawRequest tag ps (withdraw other),
      fun other => request_refused hs 0x40 cueConfigRequest tag ps (config other),
      fun other => (portStatus_opens x tag ps).refused hs (notKinds other),
      fun other => (portMask_opens x tag ps).refused hs (notKinds other),
      fun other => request_refused hs 0x05 portTimerRequest tag ps (timer other),
      fun other => request_refused hs 0x31 logPeekRequest tag ps (logPeekRequest_malformed other),
      fun unread => request_refused hs 0x16 progTuneRequest tag ps (progTuneRequest_malformed unread),
      fun unread => (segCue_names x tag ps).opens.refused hs (bodyOf_none unread),
      fun unread => (segAmend_names x tag ps).opens.refused hs (bodyOf_none unread),
      fun unread => (segTake_names x tag ps).opens.refused hs (bodyOf_none unread),
      fun unread => (segEnd_names x tag ps).opens.refused hs (bodyOf_none unread)⟩
  · obtain ⟨_, one, _⟩ := rows_read x tag [b]
    obtain ⟨_, _, pair⟩ := rows_read x tag [b, c]
    exact ⟨fun ci row => (one ci row).refused hs (readProg_badValue above),
      fun ci row => (pair ci row).badValue hs rfl above,
      fun base width trigger tally => request_refused hs 0x11 progSetRequest tag _
        (progSetRequest_above above base width trigger tally),
      fun rest set carried => request_refused hs 0x16 progTuneRequest tag _ (progTuneRequest_above above carried),
      fun hi lo => request_refused hs 0x22 segWithdrawRequest tag _ (segWithdrawRequest_above above hi lo),
      fun ps body carried named => (segCue_names x tag ps).badValue hs (bodyOf_some carried) (named ▸ above),
      fun ps body carried named => (segAmend_names x tag ps).badValue hs (bodyOf_some carried) (named ▸ above),
      fun ps e carried => (segTake_names x tag ps).badValue hs (bodyOf_some carried) above,
      fun ps m e carried => (segEnd_names x tag ps).badValue hs (bodyOf_some carried) above⟩

end Sys2Proof.Machine
end

section
/-! The step with a command waiting: the companion of `step_empty`, which says the step with none. -/

namespace Sys2Proof.Machine

/-- Settles O1: of the two branches of `step`, a queue with a front command takes the second, and that branch is `exec` of it. -/
theorem stepRunsTheFrontCommand : Obligations.StepRunsTheFrontCommand := by
  intro c rest s waiting
  unfold step
  rw [waiting]

end Sys2Proof.Machine
end
